-- ==== Sys2Proof/Word.lean ====
section
/-! DEFINITION. The word types of the KH-1 and the bit-field notation of R7: `hi:lo` with bit 0 the least
significant bit. -/

namespace Sys2Proof

/-- A byte of memory or scratchpad. -/
abbrev Byte := BitVec 8
/-- A lane of a fetch line, an element of a vector register (R2, R17). -/
abbrev W32 := BitVec 32
/-- An x register, a CSR, a doubleword (R37). -/
abbrev W64 := BitVec 64
/-- A 5-bit register field of a lane. -/
abbrev Reg := BitVec 5
/-- The image of a layout record (R190). -/
abbrev LayRec := BitVec 512

/-- A sparse table: keys rising, no entry equal to the value an unlisted key reads as. -/
abbrev Tbl (α : Type) := List (Nat × α)

/-- The 1,024 elements of a vector register or of a data-queue element, by n = 64 i + j (R97). -/
abbrev Tile := Tbl W32

end Sys2Proof
end

