-- ==== Sys2Proof/Machine/Fp.lean ====
section
/-! DEFINITION. Number formats (R100 to R107) and exact arithmetic with one rounding: every value is a dyadic number
±m × 2^e, every operation is computed exactly, or to an interval that decides the rounding, and rounded once. -/

namespace Sys2Proof.Fp

/-- A floating-point value: a NaN (signalling or not), an infinity, or ±m × 2^e with m = 0 for a zero. -/
inductive Val where
  | nan (sig : Bool)
  | inf (neg : Bool)
  | fin (neg : Bool) (m : Nat) (e : Int)
  deriving DecidableEq, Repr

/-- Rounding modes, of the RV base; the vector engine uses rne and rtz. -/
inductive Rm where | rne | rtz | rdn | rup | rmm
  deriving DecidableEq, Repr

/-! Flags: bit 0 NX, 1 UF, 2 OF, 3 DZ, 4 NV (R108, and fcsr). -/
def NX : Nat := 1
def UF : Nat := 2
def OF : Nat := 4
def DZ : Nat := 8
def NV : Nat := 16

/-- A binary format of IEEE 754's shape (R100). -/
structure Fmt where
  ew : Nat
  fw : Nat
  deriving DecidableEq, Repr

def fp32 : Fmt := ⟨8, 23⟩
def bf16 : Fmt := ⟨8, 7⟩
def fp16 : Fmt := ⟨5, 10⟩
def fp64 : Fmt := ⟨11, 52⟩

def Fmt.bias (f : Fmt) : Nat := 2 ^ (f.ew - 1) - 1
/-- Exponent of the smallest normal value. -/
def Fmt.emin (f : Fmt) : Int := 1 - f.bias
/-- Exponent of the spacing of the subnormals. -/
def Fmt.qmin (f : Fmt) : Int := f.emin - f.fw
def Fmt.signBit (f : Fmt) : Nat := 2 ^ (f.ew + f.fw)
def Fmt.infBits (f : Fmt) : Nat := (2 ^ f.ew - 1) * 2 ^ f.fw
def Fmt.qnan (f : Fmt) : Nat := f.infBits + 2 ^ (f.fw - 1)
def Fmt.maxBits (f : Fmt) : Nat := f.infBits - 1
def withSign (f : Fmt) (neg : Bool) (b : Nat) : Nat := if neg then b + f.signBit else b

/-- The value of a code. -/
def decode (f : Fmt) (b : Nat) : Val :=
  let neg := b / f.signBit % 2 = 1
  let ex := b / 2 ^ f.fw % 2 ^ f.ew
  let fr := b % 2 ^ f.fw
  if ex = 2 ^ f.ew - 1 then
    (if fr = 0 then .inf neg else .nan (decide (fr < 2 ^ (f.fw - 1))))
  else if ex = 0 then .fin neg fr f.qmin
  else .fin neg (2 ^ f.fw + fr) (f.qmin + (ex - 1 : Nat))

/-! ## Rounding -/

/-- m × 2^k for any integer k, rounded down. -/
def scale (m : Nat) (k : Int) : Nat :=
  match k with
  | .ofNat n => m * 2 ^ n
  | .negSucc n => m / 2 ^ (n + 1)

/-- Whether a magnitude with quotient q and remainder r of 2^s rounds up. -/
def roundsUp (rm : Rm) (neg : Bool) (q r s : Nat) : Bool :=
  match rm with
  | .rne => decide (2 ^ s < 2 * r) || (decide (2 * r = 2 ^ s) && decide (q % 2 = 1))
  | .rtz => false
  | .rdn => neg && decide (r ≠ 0)
  | .rup => !neg && decide (r ≠ 0)
  | .rmm => decide (2 ^ s ≤ 2 * r) && decide (r ≠ 0)

/-- Rounds m × 2^e to p bits with spacing at least 2^q0 (none: no bound): quotient, its exponent, inexact. -/
def roundMag (p : Nat) (q0 : Option Int) (rm : Rm) (neg : Bool) (m : Nat) (e : Int) : Nat × Int × Bool :=
  let top : Int := e + (Nat.log2 m + 1 : Nat) - p
  let qe : Int := match q0 with | some b => max top b | none => top
  if qe ≤ e then (m * 2 ^ (e - qe).toNat, qe, false)
  else
    let s := (qe - e).toNat
    let q := m / 2 ^ s
    let r := m % 2 ^ s
    (if roundsUp rm neg q r s then q + 1 else q, qe, decide (r ≠ 0))

/-- Code of q × 2^qe, q below 2^(fw + 2) and qe at least qmin. -/
def encodeMag (f : Fmt) (q : Nat) (qe : Int) : Nat :=
  if q < 2 ^ f.fw then q
  else if q < 2 ^ (f.fw + 1) then ((qe - f.qmin).toNat + 1) * 2 ^ f.fw + (q - 2 ^ f.fw)
  else ((qe - f.qmin).toNat + 2) * 2 ^ f.fw + (q / 2 - 2 ^ f.fw)

/-- Whether ±m × 2^e, rounded with an unbounded exponent, lies below the smallest normal value (R109). -/
def tiny (f : Fmt) (rm : Rm) (neg : Bool) (m : Nat) (e : Int) : Bool :=
  let (q, qe, _) := roundMag (f.fw + 1) none rm neg m e
  decide (q ≠ 0) && decide ((Nat.log2 q : Int) + qe < f.emin)

/-- Rounds ±m × 2^e into a format, with its flags. -/
def round (f : Fmt) (rm : Rm) (neg : Bool) (m : Nat) (e : Int) : Nat × Nat :=
  if m = 0 then (withSign f neg 0, 0)
  else
    let (q, qe, ix) := roundMag (f.fw + 1) (some f.qmin) rm neg m e
    let b := encodeMag f q qe
    if f.infBits ≤ b then
      let big := match rm with | .rne | .rmm => true | .rtz => false | .rdn => neg | .rup => !neg
      (withSign f neg (if big then f.infBits else f.maxBits), OF + NX)
    else (withSign f neg b, (if ix then NX else 0) + (if ix && tiny f rm neg m e then UF else 0))

/-! ## Exact operations on values -/

def Val.isNan : Val → Bool | .nan _ => true | _ => false
def Val.isSig : Val → Bool | .nan s => s | _ => false
def Val.neg : Val → Val
  | .nan s => .nan s | .inf n => .inf (!n) | .fin n m e => .fin (!n) m e
def sigFlag (a : Val) : Nat := if a.isSig then NV else 0

/-- Signed integer of a finite value at the exponent k ≤ e. -/
def atExp (neg : Bool) (m : Nat) (e k : Int) : Int :=
  let v : Int := (m * 2 ^ (e - k).toNat : Nat)
  if neg then -v else v

/-- Exact sum of two finite values, at their smaller exponent. -/
def sumAt (n1 : Bool) (m1 : Nat) (e1 : Int) (n2 : Bool) (m2 : Nat) (e2 : Int) : Int × Int :=
  let k := min e1 e2
  (atExp n1 m1 e1 k + atExp n2 m2 e2 k, k)

/-- Rounds a signed integer × 2^k; an exact zero takes the sign given. -/
def roundInt (f : Fmt) (rm : Rm) (zneg : Bool) (v : Int) (k : Int) : Nat × Nat :=
  if v = 0 then (withSign f zneg 0, 0) else round f rm (decide (v < 0)) v.natAbs k

/-- Sum. A NaN result is the format's quiet NaN (R110). -/
def addV (f : Fmt) (rm : Rm) (a b : Val) : Nat × Nat :=
  match a, b with
  | .nan _, _ | _, .nan _ => (f.qnan, max (sigFlag a) (sigFlag b))
  | .inf x, .inf y => if x = y then (withSign f x f.infBits, 0) else (f.qnan, NV)
  | .inf x, _ => (withSign f x f.infBits, 0)
  | _, .inf y => (withSign f y f.infBits, 0)
  | .fin n1 m1 e1, .fin n2 m2 e2 =>
    let (v, k) := sumAt n1 m1 e1 n2 m2 e2
    let z := if m1 = 0 ∧ m2 = 0 ∧ n1 = n2 then n1 else rm = .rdn
    roundInt f rm z v k

/-- Product. -/
def mulV (f : Fmt) (rm : Rm) (a b : Val) : Nat × Nat :=
  match a, b with
  | .nan _, _ | _, .nan _ => (f.qnan, max (sigFlag a) (sigFlag b))
  | .inf x, .inf y => (withSign f (x != y) f.infBits, 0)
  | .inf x, .fin n m _ | .fin n m _, .inf x =>
    if m = 0 then (f.qnan, NV) else (withSign f (x != n) f.infBits, 0)
  | .fin n1 m1 e1, .fin n2 m2 e2 => round f rm (n1 != n2) (m1 * m2) (e1 + e2)

/-- a × b + c with one rounding. 0 × ∞ raises NV whatever c is. -/
def fmaV (f : Fmt) (rm : Rm) (a b c : Val) : Nat × Nat :=
  let bad := match a, b with
    | .inf _, .fin _ 0 _ | .fin _ 0 _, .inf _ => true
    | _, _ => false
  let sig := max (sigFlag a) (max (sigFlag b) (sigFlag c))
  if bad then (f.qnan, NV)
  else
    match a, b, c with
    | .nan _, _, _ | _, .nan _, _ | _, _, .nan _ => (f.qnan, sig)
    | .fin n1 m1 e1, .fin n2 m2 e2, .fin n3 m3 e3 =>
      let n := n1 != n2
      let (v, k) := sumAt n (m1 * m2) (e1 + e2) n3 m3 e3
      let z := if m1 * m2 = 0 ∧ m3 = 0 ∧ n = n3 then n else rm = .rdn
      roundInt f rm z v k
    | .fin _ _ _, .fin _ _ _, .inf y => (withSign f y f.infBits, 0)
    | _, _, _ =>
      let sg (v : Val) : Bool := match v with | .inf x => x | .fin n _ _ => n | .nan _ => false
      let n := sg a != sg b
      match c with
      | .inf y => if y = n then (withSign f y f.infBits, 0) else (f.qnan, NV)
      | _ => (withSign f n f.infBits, 0)

/-- Quotient of magnitudes as an odd-or-exact dyadic: at least n bits, the last one set when inexact. -/
def quot (n m1 m2 : Nat) : Nat × Nat :=
  let s := n + Nat.log2 m2 + 1
  let q := m1 * 2 ^ s / m2
  (2 * q + (if m1 * 2 ^ s % m2 = 0 then 0 else 1), s + 1)

/-- Quotient. -/
def divV (f : Fmt) (rm : Rm) (a b : Val) : Nat × Nat :=
  match a, b with
  | .nan _, _ | _, .nan _ => (f.qnan, max (sigFlag a) (sigFlag b))
  | .inf _, .inf _ => (f.qnan, NV)
  | .inf x, .fin n _ _ => (withSign f (x != n) f.infBits, 0)
  | .fin n _ _, .inf y => (withSign f (n != y) 0, 0)
  | .fin n1 m1 e1, .fin n2 m2 e2 =>
    if m2 = 0 then (if m1 = 0 then (f.qnan, NV) else (withSign f (n1 != n2) f.infBits, DZ))
    else if m1 = 0 then (withSign f (n1 != n2) 0, 0)
    else
      let (q, s) := quot (f.fw + 4) m1 m2
      round f rm (n1 != n2) q (e1 - e2 - s)

/-- Integer square root, bit by bit from bit k. -/
def isqrtGo (n : Nat) : Nat → Nat → Nat
  | 0, r => if (r + 1) * (r + 1) ≤ n then r + 1 else r
  | k + 1, r => isqrtGo n k (if (r + 2 ^ (k + 1)) * (r + 2 ^ (k + 1)) ≤ n then r + 2 ^ (k + 1) else r)
def isqrt (n : Nat) : Nat := isqrtGo n (Nat.log2 n / 2 + 1) 0

/-- m × 2^e with an even exponent. -/
def evenExp (m : Nat) (e : Int) : Nat × Int := if e % 2 = 0 then (m, e) else (2 * m, e - 1)

/-- Square root. -/
def sqrtV (f : Fmt) (rm : Rm) (a : Val) : Nat × Nat :=
  match a with
  | .nan s => (f.qnan, if s then NV else 0)
  | .inf n => if n then (f.qnan, NV) else (f.infBits, 0)
  | .fin n m e =>
    if m = 0 then (withSign f n 0, 0)
    else if n then (f.qnan, NV)
    else
      let (m, e) := evenExp m e
      let s := f.fw + 4
      let x := m * 2 ^ (2 * s)
      let r := isqrt x
      round f rm false (2 * r + (if r * r = x then 0 else 1)) (e / 2 - s - 1)

/-- Order of two values that are not NaN: -0 and +0 are equal. -/
def ltV (a b : Val) : Bool :=
  match a, b with
  | .nan _, _ | _, .nan _ => false
  | .inf x, .inf y => x && !y
  | .inf x, _ => x
  | _, .inf y => !y
  | .fin n1 m1 e1, .fin n2 m2 e2 => decide ((sumAt n1 m1 e1 (!n2) m2 e2).1 < 0)
def eqV (a b : Val) : Bool :=
  match a, b with
  | .nan _, _ | _, .nan _ => false
  | .inf x, .inf y => x == y
  | .fin n1 m1 e1, .fin n2 m2 e2 => decide ((sumAt n1 m1 e1 (!n2) m2 e2).1 = 0)
  | _, _ => false
/-- Sign of a value; false for a NaN. -/
def signOf (v : Val) : Bool := match v with | .inf n => n | .fin n _ _ => n | .nan _ => false
/-- Order with -0 below +0 (R110). -/
def below (a b : Val) : Bool := ltV a b || (eqV a b && signOf a && !signOf b)

/-! ## FP32 operations of the vector engine (R110): round to nearest even, canonical NaN -/

def d32 (x : W32) : Val := decode fp32 x.toNat
def r32 (p : Nat × Nat) : W32 × Nat := (BitVec.ofNat 32 p.1, p.2)
def nan32 : W32 := 0x7FC00000#32

def add32 (a b : W32) : W32 × Nat := r32 (addV fp32 .rne (d32 a) (d32 b))
def sub32 (a b : W32) : W32 × Nat := r32 (addV fp32 .rne (d32 a) (d32 b).neg)
def mul32 (a b : W32) : W32 × Nat := r32 (mulV fp32 .rne (d32 a) (d32 b))
def fma32 (a b c : W32) : W32 × Nat := r32 (fmaV fp32 .rne (d32 a) (d32 b) (d32 c))
/-- UF of the functions of R112, judged on the returned result. -/
def ufReturned (r : W32 × Nat) : W32 × Nat :=
  let mag := r.1.toNat % 2 ^ 31
  let fl := r.2 % 2 + r.2 / 4 * 4
  (r.1, fl + (if mag ≠ 0 ∧ mag < 0x800000 ∧ r.2 % 2 = 1 then UF else 0))
def div32 (a b : W32) : W32 × Nat := ufReturned (r32 (divV fp32 .rne (d32 a) (d32 b)))
def sqrt32 (a : W32) : W32 × Nat := ufReturned (r32 (sqrtV fp32 .rne (d32 a)))
def rcp32 (a : W32) : W32 × Nat := div32 0x3F800000#32 a
/-- min and max: a NaN operand gives the NaN, NV for a signalling one (R110, R109). -/
def min32 (a b : W32) : W32 × Nat :=
  let x := d32 a; let y := d32 b
  if x.isNan || y.isNan then (nan32, max (sigFlag x) (sigFlag y)) else (if below y x then b else a, 0)
def max32 (a b : W32) : W32 × Nat :=
  let x := d32 a; let y := d32 b
  if x.isNan || y.isNan then (nan32, max (sigFlag x) (sigFlag y)) else (if below x y then b else a, 0)

/-- Reciprocal square root (R112, R113). -/
def rsq32 (a : W32) : W32 × Nat :=
  match d32 a with
  | .nan s => (nan32, if s then NV else 0)
  | .inf n => if n then (nan32, NV) else (0, 0)
  | .fin n m e =>
    if m = 0 then (BitVec.ofNat 32 (withSign fp32 n fp32.infBits), DZ)
    else if n then (nan32, NV)
    else
      let (m, e) := evenExp m e
      let k := 64 + Nat.log2 m
      let q := isqrt (2 ^ (2 * k) / m)
      let sticky := if q * q * m = 2 ^ (2 * k) then 0 else 1
      ufReturned (r32 (round fp32 .rne false (2 * q + sticky) (-(k : Int) - e / 2 - 1)))

/-! ### Exponential, logarithm and hyperbolic tangent

Each is computed in fixed point to an interval of width below 2^-90, far narrower than the distance of any FP32 result from
a rounding boundary (DEDUCED, log entry 24), and rounded once. -/

/-- Fixed-point fraction bits of the exponential. -/
def expP : Nat := 160
/-- 2^(1/2), 2^(1/4), ... in fixed point: n constants from c on. -/
def rootsOf2 : Nat → Nat → List Nat
  | 0, _ => []
  | n + 1, c => let r := isqrt (c * 2 ^ expP); r :: rootsOf2 n r
def exp2Table : List Nat := rootsOf2 64 (2 * 2 ^ expP)
/-- 2^f for the fraction f / 2^64, in fixed point. -/
def exp2Frac (f : Nat) : Nat :=
  (exp2Table.zipIdx).foldl (fun a (c, i) => if f / 2 ^ (63 - i) % 2 = 1 then a * c / 2 ^ expP else a) (2 ^ expP)

/-- Base-2 exponential (R112, R113). -/
def exp2_32 (a : W32) : W32 × Nat :=
  match d32 a with
  | .nan s => (nan32, if s then NV else 0)
  | .inf n => if n then (0, 0) else (0x7F800000#32, 0)
  | .fin n m e =>
    if m = 0 then (0x3F800000#32, 0)
    else
      let big (k : Nat) : Bool := decide (k ≤ scale m e)                    -- |x| at least k
      let isInt := decide (0 ≤ e) || decide (m % 2 ^ (-e).toNat = 0)
      if !n && big 128 then (0x7F800000#32, OF + NX)
      else if n && big 150 then (0, UF + NX)
      else if n && big 149 && !isInt then (1#32, UF + NX)
      else if isInt then ufReturned (r32 (round fp32 .rne false 1 (if n then -(scale m e : Int) else scale m e)))
      else if scale m (e + 26) = 0 then
        -- |x| below 2^-26: the result rounds to 1
        (0x3F800000#32, NX)
      else
        let x := m * 2 ^ (e + 64).toNat                                     -- |x| in units of 2^-64
        let (ip, fr) : Int × Nat :=
          if n then (let i := x / 2 ^ 64; let f := x % 2 ^ 64; if f = 0 then (-(Int.ofNat i), 0) else (-(Int.ofNat i) - 1, 2 ^ 64 - f))
          else (((x / 2 ^ 64 : Nat) : Int), x % 2 ^ 64)
        ufReturned (r32 (round fp32 .rne false (2 * exp2Frac fr + 1) (ip - expP - 1)))

/-- Digits of log2 of t / 2^200, t in [2^200, 2^201), by repeated squaring. -/
def log2Digits : Nat → Nat → Nat → Nat
  | 0, _, acc => acc
  | n + 1, t, acc =>
    let q := t * t / 2 ^ 200
    if 2 ^ 201 ≤ q then log2Digits n (q / 2) (2 * acc + 1) else log2Digits n q (2 * acc)

/-- Base-2 logarithm (R112, R113). -/
def log2_32 (a : W32) : W32 × Nat :=
  match d32 a with
  | .nan s => (nan32, if s then NV else 0)
  | .inf n => if n then (nan32, NV) else (0x7F800000#32, 0)
  | .fin n m e =>
    if m = 0 then (0xFF800000#32, DZ)
    else if n then (nan32, NV)
    else
      let l := Nat.log2 m
      let ip : Int := e + l
      if m = 2 ^ l then
        (if ip = 0 then (0, 0) else r32 (round fp32 .rne (decide (ip < 0)) ip.natAbs 0))
      else
        let v : Int := ip * 2 ^ 110 + (log2Digits 110 (m * 2 ^ (200 - l)) 0 : Nat)
        let w := 2 * v + 1
        r32 (round fp32 .rne (decide (w < 0)) w.natAbs (-111))

/-- Fixed-point fraction bits of the hyperbolic tangent. -/
def tanhP : Nat := 256
/-- Sum of the exponential series of r / 2^tanhP from term k on, with that term given. -/
def expSeries (r : Nat) : Nat → Nat → Nat → Nat → Nat
  | 0, _, _, acc => acc
  | n + 1, k, term, acc => let t := term * r / 2 ^ tanhP / k; expSeries r n (k + 1) t (acc + t)
def sqTimes : Nat → Nat → Nat
  | 0, v => v
  | n + 1, v => sqTimes n (v * v / 2 ^ tanhP)
/-- e^(2|x|) in fixed point for |x| = m × 2^e between 2^-12 and 10. -/
def expTwice (m : Nat) (e : Int) : Nat :=
  let r := scale m (e + 1 + tanhP - 8)
  sqTimes 8 (expSeries r 60 1 (2 ^ tanhP) (2 ^ tanhP))

/-- Hyperbolic tangent (R112, R113). -/
def tanh32 (a : W32) : W32 × Nat :=
  match d32 a with
  | .nan s => (nan32, if s then NV else 0)
  | .inf n => (BitVec.ofNat 32 (withSign fp32 n 0x3F800000), 0)
  | .fin n m e =>
    if scale m (e + 12) = 0 then (a, 0)                                     -- |x| below 2^-12, or zero
    else if 10 ≤ scale m e then (BitVec.ofNat 32 (withSign fp32 n 0x3F800000), NX)
    else
      let ex := expTwice m e
      let one := 2 ^ tanhP
      let q := (ex - one) * 2 ^ 200 / (ex + one)
      r32 (round fp32 .rne n (2 * q + 1) (-201))

/-- `v.cls.f` and fclass: one-hot class of a value with its code's sign. -/
def classOf (f : Fmt) (b : Nat) : Nat :=
  let neg := b / f.signBit % 2 = 1
  match decode f b with
  | .nan true => 256
  | .nan false => 512
  | .inf _ => if neg then 1 else 128
  | .fin _ m _ =>
    if m = 0 then (if neg then 8 else 16)
    else if m < 2 ^ f.fw then (if neg then 4 else 32)
    else (if neg then 2 else 64)

/-! ## Conversions (R105 to R107) -/

/-- The formats of a VC type code (R69), with INT32. -/
inductive Ty where | f32 | bf16 | f16 | e4m3 | t8 | t6 | i8 | i32
  deriving DecidableEq, Repr

/-- E4M3 (R102). -/
def decodeE4m3 (b : Nat) : Val :=
  let neg := b / 128 % 2 = 1
  let ex := b / 8 % 16
  let fr := b % 8
  if b % 128 = 127 then .nan false
  else if ex = 0 then .fin neg fr (-9)
  else .fin neg (8 + fr) ((ex : Int) - 10)

/-- Length of the run of bits equal to r0, from bit i - 1 downward. -/
def runLen (mag : Nat) (r0 : Bool) : Nat → Nat
  | 0 => 0
  | i + 1 => if mag.testBit i = r0 then 1 + runLen mag r0 i else 0

/-- decode_t (R103) of an n-bit code. -/
def decodeT (n code : Nat) : Val :=
  let b := n - 1
  let s := code.testBit b
  let mag := code % 2 ^ b
  if mag = 0 then (if s then .nan false else .fin false 0 0)
  else
    let r0 := mag.testBit (b - 1)
    let m := runLen mag r0 b
    let k : Int := if r0 then (m : Int) - 1 else -(m : Int)
    let rest := if m = b then 0 else b - m - 1
    let e : Nat := if 1 ≤ rest then (if mag.testBit (rest - 1) then 1 else 0) else 0
    let w := rest - 1
    .fin s (2 ^ w + mag % 2 ^ w) (2 * k + e - w)

/-- The value of a code of a type; integers are exact values. -/
def value (t : Ty) (b : W32) : Val :=
  let n := b.toNat
  match t with
  | .f32 => decode fp32 n
  | .bf16 => decode bf16 (n % 2 ^ 16)
  | .f16 => decode fp16 (n % 2 ^ 16)
  | .e4m3 => decodeE4m3 (n % 256)
  | .t8 => decodeT 8 (n % 256)
  | .t6 => decodeT 6 (n % 64)
  | .i8 => let v := (b.extractLsb' 0 8).toInt; .fin (decide (v < 0)) v.natAbs 0
  | .i32 => let v := b.toInt; .fin (decide (v < 0)) v.natAbs 0

/-- Rounding mode and saturation of a conversion mode: 0 rne, 1 rnes, 2 rtz, 3 rtzs (R69, R105). -/
def modeRm (mode : Nat) : Rm := if mode / 2 % 2 = 1 then .rtz else .rne
def modeSat (mode : Nat) : Bool := mode % 2 = 1

/-- Conversion of a finite value into FP32, BF16 or FP16: a finite overflow saturates in rnes and rtzs (R106). -/
def convIeee (f : Fmt) (mode : Nat) (v : Val) : Nat × Nat :=
  match v with
  | .nan s => (f.qnan, if s then NV else 0)
  | .inf n => if modeSat mode then (withSign f n f.maxBits, OF + NX) else (withSign f n f.infBits, 0)
  | .fin n m e =>
    let (b, fl) := round f (modeRm mode) n m e
    if modeSat mode ∧ fl / OF % 2 = 1 then (withSign f n f.maxBits, fl) else (b, fl)

/-- Conversion into E4M3 (R106). -/
def convE4m3 (mode : Nat) (v : Val) : Nat × Nat :=
  let f : Fmt := ⟨4, 3⟩
  match v with
  | .nan s => (0x7F, if s then NV else 0)
  | .inf n => if modeSat mode then (withSign f n 0x7E, OF + NX) else (0x7F, NV)
  | .fin n m e =>
    if m = 0 then (withSign f n 0, 0)
    else
      let rm := modeRm mode
      let (q, qe, ix) := roundMag 4 (some (-9)) rm n m e
      let b := encodeMag f q qe
      if 0x7F ≤ b then
        (if mode % 4 = 0 then (0x7F, OF + NX) else (withSign f n 0x7E, OF + NX))
      else (withSign f n b, (if ix then NX else 0) + (if ix && tiny f rm n m e then UF else 0))

/-- Magnitude of a tapered code in units of 2^-12. -/
def tapered (n c : Nat) : Nat := match decodeT n c with | .fin _ m e => scale m (e + 12) | _ => 0

/-- The largest magnitude code of n bits whose value is at most m × 2^e, from c downward. -/
def taperedFloor (n m : Nat) (e : Int) : Nat → Nat
  | 0 => 0
  | c + 1 => if tapered n (c + 1) * 2 ^ (-(e + 12)).toNat ≤ m * 2 ^ (e + 12).toNat then c + 1 else taperedFloor n m e c

/-- Conversion into T8 or T6 (R105, R106). -/
def convT (n : Nat) (mode : Nat) (v : Val) : Nat × Nat :=
  let top := 2 ^ (n - 1) - 1
  let sg (neg : Bool) (c : Nat) : Nat := if neg ∧ c ≠ 0 then c + 2 ^ (n - 1) else c
  match v with
  | .nan s => (2 ^ (n - 1), if s then NV else 0)
  | .inf neg => (sg neg top, OF + NX)
  | .fin neg m e =>
    if m = 0 then (0, 0)
    else
      -- compared in units of 2^-12, both sides scaled to integers
      let up := 2 ^ (-(e + 12)).toNat
      let x := m * 2 ^ (e + 12).toNat
      if tapered n top * up < x then (sg neg top, OF + NX)
      else
        let c := taperedFloor n m e top
        if c = 0 then (sg neg 1, UF + NX)
        else
          let lo := tapered n c * up
          if lo = x then (sg neg c, 0)
          else
            let hi := tapered n (c + 1) * up
            let c' := match modeRm mode with
              | .rne => if 2 * x < lo + hi ∨ (2 * x = lo + hi ∧ c % 2 = 0) then c else c + 1
              | _ => c
            (sg neg c', NX)

/-- Rounds a finite value to an integer; inexact. -/
def toInt (rm : Rm) (neg : Bool) (m : Nat) (e : Int) : Int × Bool :=
  if m = 0 then (0, false)
  else if 0 ≤ e then (let v : Int := (m * 2 ^ e.toNat : Nat); (if neg then -v else v, false))
  else
    let s := (-e).toNat
    let q := m / 2 ^ s
    let r := m % 2 ^ s
    let v : Int := ((if roundsUp rm neg q r s then q + 1 else q : Nat) : Int)
    (if neg then -v else v, decide (r ≠ 0))

/-- Conversion of a float into a signed integer of w bits: clamped with NV (R106, R107). -/
def convInt (w : Nat) (mode : Nat) (v : Val) : Nat × Nat :=
  let lo : Int := -(2 ^ (w - 1) : Nat)
  let hi : Int := (2 ^ (w - 1) - 1 : Nat)
  let wr (i : Int) : Nat := (i % (2 ^ w : Nat)).toNat
  match v with
  | .nan _ => (0, NV)
  | .inf n => (wr (if n then lo else hi), NV)
  | .fin n m e =>
    let (i, ix) := toInt (modeRm mode) n m e
    if i < lo then (wr lo, NV) else if hi < i then (wr hi, NV) else (wr i, if ix then NX else 0)

/-- Conversion of an element from one type to another (R105 to R107), with its flags. The result is zero-extended into its
lane (R101); INT8 in a lane stands in bits [7:0] with zeros above. An integer that overflows a float format raises OF and NX as
R106 says, to which R107's row refers, although R107 also says that integer conversions raise no OF (DEDUCED, log entry 66). -/
def convert (src dst : Ty) (mode : Nat) (b : W32) : W32 × Nat :=
  let v := value src b
  let isInt (t : Ty) : Bool := match t with | .i8 | .i32 => true | _ => false
  let p : Nat × Nat :=
    if src = dst then
      (match v with
       | .nan s => ((match dst with
          | .f32 => fp32.qnan | .bf16 => bf16.qnan | .f16 => fp16.qnan | .e4m3 => 0x7F | .t8 => 0x80 | .t6 => 0x20
          | .i8 | .i32 => 0), if s then NV else 0)
       | _ => ((match dst with
          | .f32 | .i32 => b.toNat | .bf16 | .f16 => b.toNat % 2 ^ 16 | .e4m3 | .t8 | .i8 => b.toNat % 256
          | .t6 => b.toNat % 64), 0))
    else match dst with
      | .f32 => convIeee fp32 mode v
      | .bf16 => convIeee bf16 mode v
      | .f16 => convIeee fp16 mode v
      | .e4m3 => convE4m3 mode v
      | .t8 => convT 8 mode v
      | .t6 => convT 6 mode v
      | .i32 => if isInt src then ((b.extractLsb' 0 8).signExtend 32).toNat |> fun n => (n, 0) else convInt 32 mode v
      | .i8 =>
        if isInt src then
          (if modeSat mode then convInt 8 mode v else (b.toNat % 256, 0))
        else convInt 8 mode v
  (BitVec.ofNat 32 p.1, p.2)

/-- The value of a lane in FP32, exactly (operand fetch of R105, R118). -/
def lane (t : Ty) (b : W32) : Val := value t b

/-! ## RV conversions -/

/-- Float to an RV integer of w bits, signed or not: clamped with NV, NaN gives the largest value. -/
def rvToInt (signed : Bool) (w : Nat) (rm : Rm) (v : Val) : Nat × Nat :=
  let lo : Int := if signed then -(2 ^ (w - 1) : Nat) else 0
  let hi : Int := if signed then (2 ^ (w - 1) - 1 : Nat) else (2 ^ w - 1 : Nat)
  let wr (i : Int) : Nat := (i % (2 ^ w : Nat)).toNat
  match v with
  | .nan _ => (wr hi, NV)
  | .inf n => (wr (if n then lo else hi), NV)
  | .fin n m e =>
    let (i, ix) := toInt rm n m e
    if i < lo then (wr lo, NV) else if hi < i then (wr hi, NV) else (wr i, if ix then NX else 0)

end Sys2Proof.Fp
end

