-- ==== Sys2Proof/Machine/Types.lean ====
section
/-! DEFINITION. The closed vocabularies and the messages of the KH-1: what the step rows of the opcode table carry.
The types hold plain data only. -/

namespace Sys2Proof

/-- The five engines of a room (R15), in the queue order of R350. -/
inductive Eng where | l | v | s | m | c
  deriving DecidableEq, Repr

/-- RV privilege modes (R94). -/
inductive Mode where | u | s | m
  deriving DecidableEq, Repr

/-- Number of a queue in the journal and the fault records (R340, R350). -/
def Eng.num : Eng → Nat | .l => 0 | .v => 1 | .s => 2 | .m => 3 | .c => 4
/-- Depth of a queue (R15). -/
def Eng.depth : Eng → Nat | .l => 64 | .v => 64 | .s => 64 | .m => 16 | .c => 32

/-- Register operations of the RV opcodes OP and OP-32 with Zba and Zbb (R94). -/
inductive AluOp where
  | add | sub | sll | slt | sltu | xor | srl | sra | or | and
  | mul | mulh | mulhsu | mulhu | div | divu | rem | remu
  | addw | subw | sllw | srlw | sraw | mulw | divw | divuw | remw | remuw
  | sh1add | sh2add | sh3add | adduw | sh1adduw | sh2adduw | sh3adduw
  | andn | orn | xnor | max | maxu | min | minu | rol | ror | rolw | rorw
  deriving DecidableEq, Repr

/-- Immediate operations with a 12-bit immediate. -/
inductive AluIOp where | addi | slti | sltiu | xori | ori | andi | addiw
  deriving DecidableEq, Repr

/-- Shifts by an immediate; the w forms have a 5-bit amount. -/
inductive ShOp where | slli | srli | srai | rori | slliuw | slliw | srliw | sraiw | roriw
  deriving DecidableEq, Repr

/-- One-operand operations of Zbb. -/
inductive UnOp where | clz | ctz | cpop | sextb | sexth | zexth | orcb | rev8 | clzw | ctzw | cpopw
  deriving DecidableEq, Repr

/-- Branch conditions. -/
inductive BrOp where | beq | bne | blt | bge | bltu | bgeu
  deriving DecidableEq, Repr

/-- RV loads of x registers. -/
inductive LdOp where | lb | lh | lw | ld | lbu | lhu | lwu
  deriving DecidableEq, Repr

/-- RV stores of x registers. -/
inductive StOp where | sb | sh | sw | sd
  deriving DecidableEq, Repr

/-- F and D operations with a rounding mode. -/
inductive FOp where
  | fadd | fsub | fmul | fdiv | fsqrt
  deriving DecidableEq, Repr

/-- F and D operations without rounding. -/
inductive FQOp where
  | sgnj | sgnjn | sgnjx | min | max | le | lt | eq | cls | mvxf
  deriving DecidableEq, Repr

/-- Fused operations of F and D. -/
inductive FmaOp where | fmadd | fmsub | fnmsub | fnmadd
  deriving DecidableEq, Repr

/-- Integer kinds of the RV conversions: 32-bit and 64-bit, signed and unsigned. -/
inductive IntTy where | w | wu | l | lu
  deriving DecidableEq, Repr

/-- A CSR operation: number, funct3, rd and rs1 (or the 5-bit immediate). -/
structure CsrOp where
  csr : BitVec 12
  f3  : BitVec 3
  rd  : Reg
  rs1 : Reg
  deriving DecidableEq, Repr

/-- The RV64 instructions of the row RV_SCALAR_INSTRUCTION (R94): all that have no row of their own. -/
inductive RvInstr where
  | lui (rd : Reg) (imm : BitVec 20)
  | auipc (rd : Reg) (imm : BitVec 20)
  | jal (rd : Reg) (off : BitVec 20)
  | jalr (rd rs1 : Reg) (off : BitVec 12)
  | branch (op : BrOp) (rs1 rs2 : Reg) (off : BitVec 12)
  | load (op : LdOp) (rd rs1 : Reg) (off : BitVec 12)
  | store (op : StOp) (rs1 rs2 : Reg) (off : BitVec 12)
  | alu (op : AluOp) (rd rs1 rs2 : Reg)
  | alui (op : AluIOp) (rd rs1 : Reg) (imm : BitVec 12)
  | shift (op : ShOp) (rd rs1 : Reg) (sh : BitVec 6)
  | unary (op : UnOp) (rd rs1 : Reg)
  | csr (c : CsrOp)
  | ecall
  | ebreak
  | sfenceVma (rs1 rs2 : Reg)
  | fload (dbl : Bool) (rd rs1 : Reg) (off : BitVec 12)
  | fstore (dbl : Bool) (rs1 rs2 : Reg) (off : BitVec 12)
  | fma (op : FmaOp) (dbl : Bool) (rm : BitVec 3) (rd rs1 rs2 rs3 : Reg)
  | fop (op : FOp) (dbl : Bool) (rm : BitVec 3) (rd rs1 rs2 : Reg)
  | fq (op : FQOp) (dbl : Bool) (rd rs1 rs2 : Reg)
  | fcvtToInt (ty : IntTy) (dbl : Bool) (rm : BitVec 3) (rd rs1 : Reg)
  | fcvtFromInt (ty : IntTy) (dbl : Bool) (rm : BitVec 3) (rd rs1 : Reg)
  | fcvtFmt (toDbl : Bool) (rm : BitVec 3) (rd rs1 : Reg)
  | fmvFromX (dbl : Bool) (rd rs1 : Reg)
  deriving DecidableEq, Repr

/-- AMO operations of the RV A extension. -/
inductive AmoOp where | swap | add | xor | and | or | min | max | minu | maxu
  deriving DecidableEq, Repr

/-- Memory-side atomics (R327). -/
inductive MsOp where | cas | add | fadd | min | max | and | or | xor | swap
  deriving DecidableEq, Repr

/-- Where an access goes, after the device windows of R192 and translation. -/
inductive Place where
  | scratch (room : Nat)     -- a room's scratchpad, own or through the wing window
  | attic (stair : Nat)      -- attic scratchpad portion
  | shadow (stair : Nat)     -- cellar shadow half
  | hbm                      -- device-homed, HBM4E
  | tier                     -- second tier (R299)
  | repl                     -- replicated range (R305)
  | port                     -- port registers of R402
  | hostC                    -- host-homed coherent
  | hostN                    -- host non-coherent
  deriving DecidableEq, Repr

/-- Which queue or agent made an access (R268, R272). -/
inductive Who where | core | eng (e : Eng) | put | host | atom
  deriving DecidableEq, Repr

/-- One translated access: number, virtual address, memory key, width in bytes, store data. -/
structure Part where
  pos   : Nat
  va    : W64
  place : Place
  key   : Nat
  w     : Nat
  data  : Nat
  ms    : Bool    -- page marked MS or ZF: performed at the MSAU, cached nowhere (R289, R369)
  watch : Bool    -- page marked WATCH (R263)
  cmp   : Bool    -- page marked CMP (R364)
  heat  : Bool
  deriving DecidableEq, Repr

/-- What becomes of the answer of a load. -/
inductive Dest where
  | x (rd : Reg) (op : LdOp)     -- control-core load
  | f (rd : Reg) (dbl : Bool)    -- control-core FP load
  | bnet (p : Nat)               -- pattern image (R87)
  | entry (e : Eng)              -- data of the entry at the head of an engine queue
  | iqStream (q : Nat)           -- element of a stream (R219)
  | credit (key : Nat)           -- a line of a c.pf: credits the barrier (R220)
  | cbu (w : Nat)                -- the next record of a wing's CBU (R252)
  | none
  deriving DecidableEq, Repr

/-- A load or store message: one store instruction in the sense of R267, or the accesses of one load. -/
structure MemMsg where
  room   : Nat
  tenant : Nat
  who    : Who
  depth  : Nat           -- R272
  inc    : Nat           -- incarnation of the sender (R301)
  id     : Nat           -- serial number of the message
  issued : Nat
  store  : Bool
  satp   : W64
  dest   : Dest
  parts  : List Part
  lane   : W64 := 0      -- the lane of a control-core access
  split  : Bool := false -- other parts of its store instruction travel apart, and nothing of it can be refused any more (R125)
  deriving DecidableEq, Repr

/-- A credit of a c.pf on its way to a barrier (R220): the tenant and the serial number of its sender, the place, and the room
with the incarnation that it bears (R301). -/
structure CreditReq where
  tenant : Nat
  id     : Nat
  key    : Nat
  room   : Nat
  inc    : Nat
  deriving DecidableEq, Repr

/-- A message about a host-homed or host-held granule at a bridge, with the incarnation of the agent it came from (R295, R301). -/
structure BridgeMsg where
  granule : Nat
  inc     : Nat
  deriving DecidableEq, Repr

/-- The function of an atomic. -/
inductive AtomFn where
  | ms (op : MsOp)
  | cas128
  | amo (op : AmoOp) (dbl : Bool)
  | lr (dbl : Bool)
  | sc (dbl : Bool)
  deriving DecidableEq, Repr

/-- An atomic on its way to its home (R278, R290, R329). -/
structure AtomMsg where
  room    : Nat
  tenant  : Nat
  depth   : Nat
  inc     : Nat
  id      : Nat
  fn      : AtomFn
  part    : Part
  operand : Nat
  expect  : Nat
  rd      : Reg
  satp    : W64
  lane    : W64
  word    : W32
  deriving DecidableEq, Repr

/-- A barrier request at the MSAU (R318). -/
inductive BarOp where | init (n : BitVec 16) | expect (b : BitVec 40) | arrive | wait | try
  deriving DecidableEq, Repr

structure BarReq where
  room : Nat
  op   : BarOp
  key  : Nat
  inc  : Nat
  id   : Nat
  lane : W64
  word : W32
  heat : Bool := false       -- HEAT of its leaf (R361)
  va   : W64 := 0            -- its virtual address and the root of its tables, for a page that has moved (R359)
  satp : W64 := 0
  deriving DecidableEq, Repr

/-- A pool request (R55): operation, requester, physical address of the descriptor. -/
inductive PoolOp where | open | commit | drop | acq | rel | stat
  deriving DecidableEq, Repr

structure PoolReq where
  room   : Nat
  tenant : Nat
  wing   : Nat
  op     : PoolOp
  dpa    : Nat
  xs2    : W64
  hz     : Nat
  rd     : Reg
  id     : Nat
  iter   : Nat × Nat := (0, 0)   -- job and ORD of the requesting iteration
  lane   : W64      -- address of the lane
  word   : W32
  sent   : Nat      -- dispatch tick
  deriving DecidableEq, Repr

/-- CBU requests (R224, R373). -/
inductive CbuOp where | open | pull | done | close | stat
  deriving DecidableEq, Repr

structure CbuReq where
  room   : Nat
  iter   : Nat × Nat := (0, 0)   -- job and ORD of the requesting iteration
  tenant : Nat
  op     : CbuOp
  xs1    : W64
  xs2    : W64
  hz     : Nat
  satp   : W64
  mode   : Mode
  rd     : Reg
  id     : Nat
  lane   : W64
  word   : W32
  deriving DecidableEq, Repr

/-- What a unit has still to read for an answer: the target counter of a window (R332), the heat count of a page, or of none,
with the HEAT bit of the leaf (R376), the sectors of a compressed page (R377), or a word of a pool, by its package number (R351). -/
inductive Ask where
  | target (handle : W64)
  | heat (page : Option Nat) (bit : Bool)
  | sectors (tenant mdx : Nat)
  | pool (tenant pool sel : Nat)
  deriving DecidableEq, Repr

/-- An answer on its way to an x register (R77). -/
structure Answer where
  id     : Nat
  value  : W64
  write  : Bool            -- false: no register is written (refused poisoned atomic, no xd)
  misuse : Option Nat      -- exception code of a misuse or poison trap (R58, R230, R328)
  va     : W64
  lane   : W64
  word   : W32
  bar    : Option Nat      -- for bar.arrive: key of the object, for BARREC (R319)
  held   : Bool := false   -- the answer of a pull that was held (R224)
  ask    : Option Ask := none   -- the request has yet to reach the unit, which reads this
  deriving DecidableEq, Repr

/-- The parts of a launch record (R231). -/
abbrev LaunchRec := BitVec 1024

def LaunchRec.entry (b : LaunchRec) : W64 := b.extractLsb' 0 64
def LaunchRec.args (b : LaunchRec) : W64 := b.extractLsb' 64 64
def LaunchRec.rooms (b : LaunchRec) : BitVec 256 := b.extractLsb' 128 256
def LaunchRec.waits (b : LaunchRec) : W64 := b.extractLsb' 384 64
def LaunchRec.signals (b : LaunchRec) : W64 := b.extractLsb' 448 64
def LaunchRec.ext (b : LaunchRec) (j : Nat) : Nat := (b.extractLsb' (512 + 32 * j) 32).toNat
def LaunchRec.kind (b : LaunchRec) (j : Nat) : Nat := (b.extractLsb' (704 + 8 * j) 2).toNat
def LaunchRec.reg (b : LaunchRec) (j : Nat) : Nat := (b.extractLsb' (706 + 8 * j) 3).toNat
def LaunchRec.slip (b : LaunchRec) : W64 := b.extractLsb' 768 64
def LaunchRec.tenant (b : LaunchRec) : Nat := (b.extractLsb' 832 4).toNat
def LaunchRec.cls (b : LaunchRec) : Nat := (b.extractLsb' 836 2).toNat
def LaunchRec.prio (b : LaunchRec) : Nat := (b.extractLsb' 840 3).toNat
def LaunchRec.vregs (b : LaunchRec) : Nat := (b.extractLsb' 848 5).toNat
def LaunchRec.attic (b : LaunchRec) : Nat := (b.extractLsb' 856 2).toNat
def LaunchRec.wrows (b : LaunchRec) : Nat := (b.extractLsb' 864 11).toNat
def LaunchRec.scratch (b : LaunchRec) : Nat := (b.extractLsb' 896 32).toNat
def LaunchRec.parent (b : LaunchRec) : Nat := (b.extractLsb' 928 32).toNat

/-- A push on its way to the launch queues: record, queue word, requester. -/
structure PushReq where
  src   : Nat            -- pushing tenant
  room  : Option Nat     -- room of a `launch`, none for a port push
  part  : Part           -- where the record lies
  image : Option LaunchRec   -- the record as the hall has read it; none when it could not
  queue : W64
  id    : Nat
  satp  : W64 := 0       -- the root of the tables that a `launch` walked, for a page that has moved (R359)
  deriving DecidableEq, Repr

/-- The effect of a kill on its way to the units (R61, R336, R374): the rooms named, and the iterations, by job and ORD. -/
structure KillReq where
  rooms  : List Nat
  parked : List Nat := []           -- rooms on which discarded parked iterations ran, and that run nothing now
  iters  : List (Nat × Nat) := []
  cause  : Nat := 1                 -- what the journal records of the kill say (R350)
  kroom  : Nat := 255
  tick   : Nat := 0
  till   : Option Nat := none       -- once the rooms' stores have all been applied: the last tick that K may be (R380)
  deriving DecidableEq, Repr

/-- A host access to device memory over CXL.mem (R297). -/
structure HostAcc where
  key   : Nat
  store : Bool
  bytes : List Byte
  cache : Bool           -- read with caching intent
  port  : Nat
  inc   : Nat := 0       -- the incarnation of the port that the message bears (R301)
  deriving DecidableEq, Repr

/-- A request for a window (R330). -/
structure WinReq where
  room   : Nat
  tenant : Nat
  pages  : List Part     -- the 64 KiB pages, from the page of the base
  base   : W64
  size   : Nat
  sys    : Bool
  ok     : Bool
  rd     : Reg
  id     : Nat
  deriving DecidableEq, Repr

/-- A watch entry image on its way to the table (R265), with the translation of its range (R266). -/
structure ArmReq where
  room   : Nat
  tenant : Nat
  image  : BitVec 1024
  lines  : List Nat      -- physical lines of the range, in virtual order
  ok     : Bool
  record : LaunchRec     -- what the entry's job takes from the arming iteration (R262)
  id     : Nat
  deriving DecidableEq, Repr

/-- A replay request (R379). -/
structure ReplayReq where
  room   : Nat
  tenant : Nat
  xs1    : W64
  deriving DecidableEq, Repr

/-- Who raised a recorded fault (R340). -/
inductive FaultSrc where
  | entry (room : Nat) (e : Eng)
  | stream (room q : Nat)
  | cbu (wing : Nat)
  | watch (entry : Nat) (rate : Bool) (room queue : Nat)
  deriving DecidableEq, Repr

/-- A part code of R395. -/
structure PartCode where
  kind : Nat
  wing : Nat
  idx  : Nat
  deriving DecidableEq, Repr

/-- Where an uncorrectable error strikes (R391). -/
inductive ErrSite where
  | granule (key : Nat) | room (r : Nat) | hall
  deriving DecidableEq, Repr

/-- A write to a register that has no row of its own (R8): a CSR lane, or a write that reaches a port register. -/
inductive RegWrite where
  | csr (c : CsrOp)
  | port (pa : Nat) (v : W64) (tenant : Nat)
  deriving DecidableEq, Repr

end Sys2Proof
end

