-- ==== Sys2Proof/Config.lean ====
section
/-! DEFINITION. What an implementation fixes and the spec leaves open, and the free values of the model.

Every constant here has no body: no proof can see a value of it, and a statement holds whatever it is. A free value
that is new at each use is applied to the plain counter `fresh` of State. -/

namespace Sys2Proof.Config

/-- Ticks that a message of the coherence class takes beyond its first; used modulo 64 (R285). -/
opaque messageDelay : Nat → Nat
/-- Ticks of anything that the spec does not bind: data-class messages, reads, walks, engine times outside the
room's own scratchpad (R141, R212, R335). -/
opaque openDelay : Nat → Nat
/-- Ticks within a bound of 64 that the spec gives a command or an answer (R50, R93, R233, R321). -/
opaque boundedDelay : Nat → Nat
/-- HBM4E channel of a page of 64 KiB, used modulo 256, and service core of a granule, used modulo 15. -/
opaque channelOf : Nat → Nat
opaque serviceCore : Nat → Nat
/-- Chunks that the compression engine needs for the plain bytes of a sector, used as 1 to 8 (R363, R365). -/
opaque chunksFor : List Byte → Nat
/-- CRC-32 and the engine's own fields of a sector descriptor, beside NCH, RAW, POISON and CH (R363). -/
opaque descriptorRest : List Byte → BitVec 512
/-- The firmware's calendar tables, by unit (R396, step 5). -/
opaque firmwareTable : Nat → BitVec 512
/-- The package's fuses: the hash of the firmware key, and the rollback counter (R396, step 2). -/
opaque fuseKeyHash : BitVec 512
opaque fuseRollback : Nat
/-- The firmware image in the module flash: the hash of the key that it is signed with, and whether its signature verifies under
that key (R396, step 2). -/
opaque imageKeyHash : BitVec 512
opaque imageVerifies : Bool
/-- A stack whose base die does not identify as one with the Limmal logic; none when all do (R1, R396, step 3). -/
opaque badStack : Option Nat
/-- The prediction HOURS of a wing at a recomputation, by wing and use (R387). -/
opaque lifeHours : Nat → Nat → W32
/-- Whether a CXL port's link trains during bring-up, by port (R396, step 4). -/
opaque portTrained : Nat → Bool
/-- The version of the firmware image (R395, R397). -/
opaque firmwareVersion : Nat
/-- The SHA-512 digest of doublewords, and of the firmware image (R397). -/
opaque sha512 : List W64 → BitVec 512
opaque firmwareDigest : BitVec 512
/-- At which doubleword of an attestation report its contents begin, and what its other doublewords hold (R397, R398); and the
signature over a report, by doubleword and use. -/
opaque reportStart : Nat
opaque reportRest : Nat → W64
opaque signatureWord : List W64 → Nat → Nat → W64
/-- Modulus and exponent of the identity key, by doubleword (R398). -/
opaque identityKey : Nat → W64
/-- Whether the CXL port of a host physical line is p: the port by line (R294). -/
opaque hostPort : Nat → Nat
/-- Whether software's directory code obtains E for a marked granule, by granule and use (R296). -/
opaque directoryObtains : Nat → Nat → Bool
/-- Whether the software directory marks a granule, by granule and use, and the bytes of a current read (R296). -/
opaque directoryMarks : Nat → Nat → Bool
opaque currentRead : Nat → Nat → List Byte
/-- Whether the bridge evicts a line, by line and use (R295). -/
opaque bridgeEvicts : Nat → Nat → Bool
/-- The accumulator words of a nest stopped by a kill (R349). -/
opaque killedAccumulator : Nat → W32
/-- Whether a Nuldo switch answers on the package's ports (R306, R398). -/
opaque nuldoSwitch : Bool
/-- Bytes that another package's replica holds, by package, address and use (R306); none when it does not answer. -/
opaque remoteReplica : Nat → Nat → Nat → Option Byte
/-- Whether a window of another package takes the bytes of a put, by handle and use (R216, R331); its target counter
(R332). -/
opaque remoteWindow : Nat → Nat → Bool
opaque remoteCount : Nat → Nat → W64
/-- What [63:56] of a key slot's second state word holds while no room holds the key (R351). -/
opaque noHolder : BitVec 8
/-- The temperature in degrees Celsius of the hottest bank of a stair, by stair and tick, and the package power in watts, by
tick (R390). -/
opaque bankTemperature : Nat → Nat → Nat
opaque packagePower : Nat → Nat
/-- Energy metered for a tenant on the rooms of a stair in the period that ends, by stair, tenant and tick (R390). -/
opaque meteredEnergy : Nat → Nat → Nat → Nat
/-- Whether the root complex completes a 128-bit CAS AtomicOp, by use (R280, R282): success, or UR or CA. -/
opaque atomicOpSupported : Nat → Bool
/-- Whether the root complex has performed an AtomicOp whose completion a lost link keeps from the device, by use (R280). -/
opaque lostAtomicPerformed : Nat → Bool

/-- Which of the candidate ways of its set a line takes in an attic slice (R202). -/
opaque atticWay : Nat → Nat
/-- Whether a pool controller refuses a `pw.commit` with a reserved bit of xs2 set: R58 lists it, R12 has the bits ignored. -/
opaque reservedCommitRefused : Bool

end Sys2Proof.Config
end

