-- ==== Sys2Proof/Syntax.lean ====
section
/-! DEFINITION. The instructions and steps of the KH-1: one constructor per row of spec/opcode_table.json.

An engine lane carries `sy`, its POP field [23:21] and PUSH field [20:18] (R62), and the fields of its form by
R63, R67 and R68; a register field stays the 5-bit value that R64 reads by class, and WellFormed checks the class.
A device instruction carries the fields its form of R70 uses. A step without an encoding carries the message, the
request or the name of the unit or room at which it happens. -/

namespace Sys2Proof

inductive Instr where
  /-- R94: The control core executes an RV64 base scalar instruction in a scalar lane. -/
  | rvScalarInstruction (op : RvInstr)
  /-- R95: The RV fence orders only the control core's own accesses. -/
  | rvFence (rd rs1 : Reg) (imm : BitVec 12)
  /-- R95: Makes this room's earlier control-core stores visible to its own fetch. -/
  | rvFenceI (rd rs1 : Reg) (imm : BitVec 12)
  /-- R24: mret or sret resumes at the lane address held in xepc. -/
  | xret (m : Bool)
  /-- R329: A load-reserved sets a reservation at the line's home. -/
  | lr (dbl aq rl : Bool) (rd rs1 : Reg)
  /-- R329: A store-conditional succeeds only if its reservation still stands at the home. -/
  | sc (dbl aq rl : Bool) (rd rs1 rs2 : Reg)
  /-- R329: An A-extension AMO is performed at the home of its line. -/
  | aExtensionAmo (op : AmoOp) (dbl aq rl : Bool) (rd rs1 rs2 : Reg)
  /-- R77: A deferred answer returns and is written into its x register. -/
  | deferredAnswer (room : Nat) (a : Answer)
  /-- R321: A held bar.wait is released by a phase completion or a bar.init. -/
  | barWaitRelease (room id : Nat)
  /-- R279: The old 16 bytes of an amo.cas128 return and dispatch resumes. -/
  | cas128Answer (room : Nat) (a : AtomMsg) (old : BitVec 128) (fault : Option Nat) (outc : Nat)
  /-- R55: A pool controller decides a pool request in the tick in which it arrives. -/
  | poolDecision (r : PoolReq)
  /-- R51: PCMD with OP 1 reads a descriptor and registers the pool. -/
  | poolRegister (wing : Nat) (v : W64)
  /-- R51: PCMD with OP 2 removes a registered pool. -/
  | poolUnregister (wing : Nat) (v : W64)
  /-- R50: A pool registration command completes and PRES leaves busy. -/
  | poolCommandDone (wing : Nat)
  /-- R61: At K, a kill abandons the killed writers' slots and releases the killed readers' handles. -/
  | killPoolEffect (k : KillReq)
  /-- R284: A read reaches its home, which answers it and grants a lease. -/
  | loadAtHome (m : MemMsg)
  /-- R286: A store arrives at its home, is applied, and receives its visibility time. -/
  | storeAtHome (m : MemMsg)
  /-- R288: A store's visibility-time answer reaches the room and updates VHZ. -/
  | vtAnswer (room : Nat) (who : Who) (id vt : Nat)
  /-- R289: The MSAU performs a load or store to a line marked MS or watched. -/
  | msauRequest (m : MemMsg)
  /-- R327: The MSAU performs a memory-side atomic in one indivisible step. -/
  | msauAtomic (a : AtomMsg)
  /-- R281: The CXL bridge performs a device atomic on a host-homed granule that it holds in E. -/
  | bridgeAtomic (a : AtomMsg)
  /-- R318: The MSAU applies a barrier init, expect, arrive, wait or try request. -/
  | barrierRequest (b : BarReq)
  /-- R220: A line of a c.pf arrives or is found present, and 128 bytes are credited to the barrier. -/
  | cpfCredit (c : CreditReq)
  /-- R387: A wing's ageing prediction is recomputed, and a near end of life is logged. -/
  | lifeRecompute (wing : Nat) (hours : W32) (asOf : Nat)
  /-- R326: A store that changes the armed line wakes mon.wait with cause 0. -/
  | monChangeWake (room line : Nat)
  /-- R291: KEYCTL with OP 1 registers a key region in the wing's key table. -/
  | keyRegister (room : Nat) (base ctl : W64)
  /-- R291: KEYCTL with OP 2 removes a key region. -/
  | keyUnregister (room : Nat) (base ctl : W64)
  /-- R291: A key-table command completes and its STATUS is reported. -/
  | keyCommandDone (room : Nat)
  /-- R295: A CXL.cache ownership read completes and the bridge holds the granule in E. -/
  | rdownCompletion (g : BridgeMsg) (data : List Byte)
  /-- R296: An access to a marked granule traps to a service core for the software directory. -/
  | sharingMiss (m : MemMsg) (g : BridgeMsg)
  /-- R297: A back-invalidate response arrives and the waiting store takes its visibility time. -/
  | birspArrival (g : BridgeMsg) (dirty : List Byte)
  /-- R282: The completion of a PCIe AtomicOp returns the original bytes. -/
  | pcieAtomicCompletion (a : AtomMsg) (ok : Bool)
  /-- R302: Writing 1 to LOST while UP is set clears it and lets accesses succeed again. -/
  | lostClear (bits : BitVec 4)
  /-- R301: Writing SCRUB adds 1 to the selected agent's incarnation. -/
  | scrub (agent : Nat)
  /-- R303: Bytes of a put are accepted at the target window and the counters advance. -/
  | putAccept (m : MemMsg) (handle : W64)
  /-- R333: The target hall decides a window close, and later puts are discarded. -/
  | winCloseDecision (tenant : Nat) (handle : W64)
  /-- R306: A load from the replicated range is combined over the replicas by the switch or the hall. -/
  | replicaLoad (m : MemMsg)
  /-- R221: A swap request reaches the stair, which schedules it or refuses it. -/
  | celSwapRequest (room : Nat) (t : W64)
  /-- R233: A write to LCMD pushes a launch record into a launch queue. -/
  | launchPush (tenant : Nat) (v : W64)
  /-- R233: A launch-port push completes and LRES reports its result. -/
  | launchPushDone (tenant : Nat) (p : PushReq)
  /-- R250: The scheduling processor decides a cross-tenant push. -/
  | crossTenantPush (p : PushReq)
  /-- R235: A write to EVSET sets the tenant's event flags. -/
  | evset (tenant : Nat) (bits : W64)
  /-- R235: A write to EVCLR clears the tenant's event flags. -/
  | evclr (tenant : Nat) (bits : W64)
  /-- R347: PRCMD with GO makes interrupt 18 pending on every room of the named gang. -/
  | preemptRequest (room : Nat)
  /-- R224: The wing CBU decides the CBU requests that reach it in a tick. -/
  | cbuDecision (r : CbuReq)
  /-- R224: A held pull withdrawn for a trap is removed at the CBU. -/
  | cbPullWithdraw (room : Nat)
  /-- R227: A member's retirement counts at max(t + 1, h). -/
  | cbDoneCount (wing pos : Nat)
  /-- R374: At K, the killed room's members return to the current batch and its pulls are discarded. -/
  | killCbuEffect (k : KillReq)
  /-- R198: A write to STAIROWN changes stair owners and makes the stair fill-pending. -/
  | stairownWrite (wing : Nat) (v : W64)
  /-- R198: A write to ATTICCTL changes the attic mode after a write-back and invalidation. -/
  | atticctlWrite (wing : Nat) (v : W64)
  /-- R198: A write to ATTICPART changes the attic partitions after a write-back and invalidation. -/
  | atticpartWrite (wing : Nat) (v : W64)
  /-- R198: The work of a configuration-block write ends and BUSY clears. -/
  | configChangeDone (wing : Nat)
  /-- R360: A write to HEATCFG by tenant 0 takes effect at the next period boundary. -/
  | heatcfgWrite (f3 : BitVec 3) (rd rs1 : Reg)
  /-- R27: A write to QSLIP sets slip depths without removing any entry. -/
  | qslipWrite (f3 : BitVec 3) (rd rs1 : Reg)
  /-- R29: A write to QWMARK sets low levels and clears QLP bits written as 1. -/
  | qwmarkWrite (f3 : BitVec 3) (rd rs1 : Reg)
  /-- R109: A write to VFLAGS is applied before any engine OR in the same tick. -/
  | vflagsWrite (f3 : BitVec 3) (rd rs1 : Reg)
  /-- R114: A write to BANKFMT sets bank formats and ignores codes 8 to 15. -/
  | bankfmtWrite (f3 : BitVec 3) (rd rs1 : Reg)
  /-- R352: A write to satp takes effect only for MODE 0 or 15 with reserved bits clear. -/
  | satpWrite (f3 : BitVec 3) (rd rs1 : Reg)
  /-- R8: A write to a CSR or port register that has no row of its own. -/
  | registerWrite (w : RegWrite)
  /-- R393: The package restarts warm with the failed part mapped out. -/
  | warmRestart (part : PartCode)
  /-- R81: Holds dispatch until the earlier entries of the named queues have retired. -/
  | efence (m : Reg)
  /-- R83: Takes the oldest control-queue value, waiting for one. -/
  | cqPop (xd : Reg)
  /-- R83: Takes a control-queue value if one is present, without waiting. -/
  | cqTry (xd : Reg)
  /-- R55: Opens a slot of the pool for writing. -/
  | pwOpen (xd : Reg) (xs1 : Reg)
  /-- R55: Commits the open slot and optionally opens another. -/
  | pwCommit (xd : Reg) (xs1 : Reg) (xs2 : Reg)
  /-- R55: Frees the slot being written. -/
  | pwDrop (xs1 : Reg)
  /-- R55: Acquires the freshest visible tile for a reader. -/
  | prAcq (xd : Reg) (xs1 : Reg) (xs2 : Reg)
  /-- R55: Releases the slot held by a reader. -/
  | prRel (xs1 : Reg) (xs2 : Reg)
  /-- R56: Reads one word of a pool's state. -/
  | pStat (xd : Reg) (xs1 : Reg) (xs2 : Reg)
  /-- R318: Initialises a barrier object. -/
  | barInit (xs1 : Reg) (xs2 : Reg)
  /-- R318: Counts an arrival at a barrier. -/
  | barArrive (xd : Reg) (xs1 : Reg)
  /-- R318: Adds expected bytes to a barrier. -/
  | barExpect (xs1 : Reg) (xs2 : Reg)
  /-- R321: Waits for a barrier phase to complete. -/
  | barWait (xs1 : Reg)
  /-- R322: Reads a barrier's status without waiting. -/
  | barTry (xd : Reg) (xs1 : Reg)
  /-- R324: Waits until the room holds a region's write key. -/
  | keyGet (xs1 : Reg)
  /-- R324: Passes a held write key on. -/
  | keyPass (xs1 : Reg)
  /-- R325: Arms the room's monitor on a line. -/
  | monArm (xs1 : Reg)
  /-- R326: Waits for a wake of the monitor and returns its cause. -/
  | monWait (xd : Reg) (xs1 : Reg)
  /-- R277: Compares and swaps 16 bytes at the line's home. -/
  | amoCas128 (xd : Reg) (xs1 : Reg) (xs2 : Reg)
  /-- R327: Memory-side 8-byte compare-and-swap. -/
  | amoCasMs (xd : Reg) (xs1 : Reg) (xs2 : Reg)
  /-- R327: Memory-side 64-bit add. -/
  | amoAddMs (xd : Reg) (xs1 : Reg) (xs2 : Reg)
  /-- R327: Memory-side FP32 add. -/
  | amoFaddMs (xd : Reg) (xs1 : Reg) (xs2 : Reg)
  /-- R327: Memory-side signed minimum. -/
  | amoMinMs (xd : Reg) (xs1 : Reg) (xs2 : Reg)
  /-- R327: Memory-side signed maximum. -/
  | amoMaxMs (xd : Reg) (xs1 : Reg) (xs2 : Reg)
  /-- R327: Memory-side AND. -/
  | amoAndMs (xd : Reg) (xs1 : Reg) (xs2 : Reg)
  /-- R327: Memory-side OR. -/
  | amoOrMs (xd : Reg) (xs1 : Reg) (xs2 : Reg)
  /-- R327: Memory-side XOR. -/
  | amoXorMs (xd : Reg) (xs1 : Reg) (xs2 : Reg)
  /-- R327: Memory-side swap. -/
  | amoSwapMs (xd : Reg) (xs1 : Reg) (xs2 : Reg)
  /-- R330: Opens a window for puts. -/
  | winOpen (xd : Reg) (xs1 : Reg) (xs2 : Reg)
  /-- R333: Closes a window. -/
  | winClose (xs1 : Reg)
  /-- R332: Reads a window completion counter. -/
  | winCnt (xd : Reg) (xs1 : Reg) (xs2 : Reg)
  /-- R88: Permutes 128 source bits to 64 bits through pattern p. -/
  | bnet (p : BitVec 3) (xd : Reg) (xs1 : Reg) (xs2 : Reg)
  /-- R87: Loads a bit-network pattern. -/
  | bnetLd (xs1 : Reg) (xs2 : Reg)
  /-- R371: Pushes a launch record from device code. -/
  | launch (xd : Reg) (xs1 : Reg) (xs2 : Reg)
  /-- R93: Waits for a job to complete. -/
  | jobWait (xs1 : Reg)
  /-- R92: Identifies the running iteration. -/
  | jobSelf (xd : Reg)
  /-- R89: Reads the global tick. -/
  | calNow (xd : Reg)
  /-- R90: Holds dispatch until a tick or a calendar slot. -/
  | calWait (xs1 : Reg)
  /-- R225: Binds a constraint stream to the wing's CBU. -/
  | cbOpen (xd : Reg) (xs1 : Reg) (xs2 : Reg)
  /-- R226: Pulls a member of the current batch. -/
  | cbPull (xd : Reg)
  /-- R227: Retires a held member. -/
  | cbDone (xs1 : Reg)
  /-- R373: Reads one word of CBU state. -/
  | cbStat (xd : Reg) (xs1 : Reg)
  /-- R262: Arms a watch entry and creates its job. -/
  | wtArm (xd : Reg) (xs1 : Reg)
  /-- R275: Disarms a watch entry. -/
  | wtOff (xs1 : Reg)
  /-- R221: Requests castling for the stair at a tick. -/
  | celSwap (xs1 : Reg)
  /-- R376: Reads a page's heat count. -/
  | heatRd (xd : Reg) (xs1 : Reg)
  /-- R377: Reads the compression state of a page's sectors. -/
  | cmpStat (xd : Reg) (xs1 : Reg)
  /-- R344: Saves the room's context into a save area. -/
  | qSave (xs1 : Reg)
  /-- R345: Loads a room context from a save area. -/
  | qLoad (xs1 : Reg)
  /-- R379: Replays a fault record. -/
  | replay (xs1 : Reg)
  /-- R380: Kills a job and its descendants. -/
  | jobKill (xs1 : Reg)
  /-- R381: Removes translations from every TLB of the package. -/
  | tlbInv (xs1 : Reg) (xs2 : Reg)
  /-- R382: Writes a message-filter entry. -/
  | filtSet (xs1 : Reg) (xs2 : Reg)
  /-- R383: Replaces a unit's calendar table. -/
  | calSet (xs1 : Reg) (xs2 : Reg)
  /-- R384: Sets the WAYPART of an attic slice. -/
  | atticSet (xs1 : Reg) (xs2 : Reg)
  /-- R385: Reads a state address. -/
  | stRd (xd : Reg) (xs1 : Reg)
  /-- R386: Reads the fault log. -/
  | logRd (xd : Reg) (xs1 : Reg)
  /-- R387: Reads a wing's ageing prediction. -/
  | lifeRd (xd : Reg) (xs1 : Reg)
  /-- R127: L-engine nop that carries only tokens. -/
  | lNop (sy : BitVec 6)
  /-- R128: Loads a register through a layout record. -/
  | lV (sy : BitVec 6) (rd : Reg) (lay : BitVec 4) (xa : Reg) (xb : BitVec 4)
  /-- R128: Loads the selected rows of a register. -/
  | lVs (sy : BitVec 6) (rd : Reg) (lay : BitVec 4) (xa : Reg) (xb : BitVec 4)
  /-- R128: Loads one row and copies it to all 16 rows. -/
  | lBc (sy : BitVec 6) (rd : Reg) (lay : BitVec 4) (xa : Reg) (xb : BitVec 4)
  /-- R129: Loads one element. -/
  | lEl (sy : BitVec 6) (rd : Reg) (lay : BitVec 4) (xa : Reg) (xb : BitVec 4)
  /-- R130: Gathers rows through an offset table. -/
  | lGat (sy : BitVec 6) (rd : Reg) (lay : BitVec 4) (xa : Reg) (xb : BitVec 4)
  /-- R131: Loads a doubleword into the control queue. -/
  | lQ (sy : BitVec 6) (lay : BitVec 4) (xa : Reg) (xb : BitVec 4)
  /-- R132: Loads a mask register. -/
  | lK (sy : BitVec 6) (rd : Reg) (lay : BitVec 4) (xa : Reg) (xb : BitVec 4)
  /-- R133: Prefetches lines into the attic. -/
  | lPf (sy : BitVec 6) (lay : BitVec 4) (xa : Reg) (xb : BitVec 4)
  /-- R134: Loads a layout record. -/
  | lLay (sy : BitVec 6) (rd : Reg) (xa : Reg) (xb : BitVec 4)
  /-- R135: S-engine nop that carries only tokens. -/
  | sNop (sy : BitVec 6)
  /-- R136: Stores a register through a layout record. -/
  | sV (sy : BitVec 6) (rd : Reg) (lay : BitVec 4) (xa : Reg) (xb : BitVec 4)
  /-- R136: Stores the selected rows of a register. -/
  | sVs (sy : BitVec 6) (rd : Reg) (lay : BitVec 4) (xa : Reg) (xb : BitVec 4)
  /-- R137: Stores one row. -/
  | sRow (sy : BitVec 6) (rd : Reg) (lay : BitVec 4) (xa : Reg) (xb : BitVec 4)
  /-- R138: Scatters rows through an offset table. -/
  | sSc (sy : BitVec 6) (rd : Reg) (lay : BitVec 4) (xa : Reg) (xb : BitVec 4)
  /-- R139: Stores a mask register. -/
  | sK (sy : BitVec 6) (rd : Reg) (lay : BitVec 4) (xa : Reg) (xb : BitVec 4)
  /-- R137: Stores one element. -/
  | sEl (sy : BitVec 6) (rd : Reg) (lay : BitVec 4) (xa : Reg) (xb : BitVec 4)
  /-- R140: Stores the half-row 2:4 form. -/
  | sC24 (sy : BitVec 6) (rd : Reg) (lay : BitVec 4) (xa : Reg) (xb : BitVec 4)
  /-- R205: M-engine nop that carries only tokens. -/
  | mNop (sy : BitVec 6)
  /-- R184: Writes a shadow nest register. -/
  | mSet (sy : BitVec 6) (rd : Reg) (xa : Reg)
  /-- R184: Writes a record and offset into a shadow binding register. -/
  | mSetx (sy : BitVec 6) (rd : Reg) (lay : BitVec 4) (xa : Reg) (xb : BitVec 4)
  /-- R206: Starts a matrix nest. -/
  | mGo (sy : BitVec 6) (xa : Reg) (xb : BitVec 4)
  /-- R209: Clears an accumulator. -/
  | mClr (sy : BitVec 6) (rd : Reg)
  /-- R209: Retires an accumulator into scratchpad through a record. -/
  | mRetScratchpad (sy : BitVec 6) (z : BitVec 2) (lay : BitVec 4) (xa : Reg) (xb : BitVec 4)
  /-- R209: Retires an accumulator into an oq. -/
  | mRetOq (sy : BitVec 6) (tgt : BitVec 3) (z : BitVec 2) (xa : Reg) (xb : BitVec 4)
  /-- R210: Loads the gather list. -/
  | mGidx (sy : BitVec 6) (rd : Reg) (xa : Reg) (xb : BitVec 4)
  /-- R211: Copies scales from scratchpad into scale memory. -/
  | mSc (sy : BitVec 6) (lay : BitVec 4) (xa : Reg) (xb : BitVec 4)
  /-- R212: C-engine nop that carries only tokens. -/
  | cNop (sy : BitVec 6)
  /-- R214: Copies between records or into an iq. -/
  | cCopy (sy : BitVec 6) (rd : Reg) (lay : BitVec 4) (xa : Reg) (xb : BitVec 4)
  /-- R215: Multicasts one source to several scratchpads. -/
  | cMcast (sy : BitVec 6) (rd : Reg) (lay : BitVec 4) (xa : Reg) (xb : BitVec 4)
  /-- R216: Puts data into a window. -/
  | cPut (sy : BitVec 6) (rd : Reg) (lay : BitVec 4) (xa : Reg) (xb : BitVec 4)
  /-- R217: Fills a destination with a repeated pattern. -/
  | cFill (sy : BitVec 6) (rd : Reg) (lay : BitVec 4) (xa : Reg) (xb : BitVec 4)
  /-- R218: Writes scales from memory into scale memory. -/
  | cScl (sy : BitVec 6) (lay : BitVec 4) (xa : Reg) (xb : BitVec 4)
  /-- R219: Binds a stream to an iq. -/
  | cStrm (sy : BitVec 6) (rd : Reg) (lay : BitVec 4) (xa : Reg) (xb : BitVec 4)
  /-- R220: Bulk-prefetches lines and credits a barrier. -/
  | cPf (sy : BitVec 6) (lay : BitVec 4) (xa : Reg) (xb : BitVec 4)
  /-- R144: V-engine nop that carries only tokens. -/
  | vNop (sy : BitVec 6)
  /-- R144: FP32 add. -/
  | vAddF (sy : BitVec 6) (vd : Reg) (va : Reg) (vb : Reg) (k : BitVec 3)
  /-- R144: FP32 subtract. -/
  | vSubF (sy : BitVec 6) (vd : Reg) (va : Reg) (vb : Reg) (k : BitVec 3)
  /-- R144: FP32 multiply. -/
  | vMulF (sy : BitVec 6) (vd : Reg) (va : Reg) (vb : Reg) (k : BitVec 3)
  /-- R145: Fused multiply-add. -/
  | vFmaF (sy : BitVec 6) (vd : Reg) (va : Reg) (vb : Reg) (k : BitVec 3)
  /-- R145: Fused multiply-subtract. -/
  | vFmsF (sy : BitVec 6) (vd : Reg) (va : Reg) (vb : Reg) (k : BitVec 3)
  /-- R144: FP32 minimum. -/
  | vMinF (sy : BitVec 6) (vd : Reg) (va : Reg) (vb : Reg) (k : BitVec 3)
  /-- R144: FP32 maximum. -/
  | vMaxF (sy : BitVec 6) (vd : Reg) (va : Reg) (vb : Reg) (k : BitVec 3)
  /-- R146: FP32 absolute value. -/
  | vAbsF (sy : BitVec 6) (vd : Reg) (va : Reg) (k : BitVec 3)
  /-- R146: FP32 negation. -/
  | vNegF (sy : BitVec 6) (vd : Reg) (va : Reg) (k : BitVec 3)
  /-- R144: FP32 divide. -/
  | vDivF (sy : BitVec 6) (vd : Reg) (va : Reg) (vb : Reg) (k : BitVec 3)
  /-- R146: FP32 square root. -/
  | vSqrtF (sy : BitVec 6) (vd : Reg) (va : Reg) (k : BitVec 3)
  /-- R146: Reciprocal square root. -/
  | vRsqF (sy : BitVec 6) (vd : Reg) (va : Reg) (k : BitVec 3)
  /-- R146: Reciprocal. -/
  | vRcpF (sy : BitVec 6) (vd : Reg) (va : Reg) (k : BitVec 3)
  /-- R146: Base-2 exponential. -/
  | vExp2F (sy : BitVec 6) (vd : Reg) (va : Reg) (k : BitVec 3)
  /-- R146: Base-2 logarithm. -/
  | vLog2F (sy : BitVec 6) (vd : Reg) (va : Reg) (k : BitVec 3)
  /-- R146: Hyperbolic tangent. -/
  | vTanhF (sy : BitVec 6) (vd : Reg) (va : Reg) (k : BitVec 3)
  /-- R147: Sign injection. -/
  | vSgnjF (sy : BitVec 6) (vd : Reg) (va : Reg) (vb : Reg) (k : BitVec 3)
  /-- R147: Classifies FP32 values. -/
  | vClsF (sy : BitVec 6) (vd : Reg) (va : Reg) (k : BitVec 3)
  /-- R148: FP32 compare into a mask. -/
  | vCmpF (sy : BitVec 6) (kd : Reg) (va : Reg) (vb : Reg) (c : BitVec 3)
  /-- R149: Integer add. -/
  | vAddI (sy : BitVec 6) (vd : Reg) (va : Reg) (vb : Reg) (k : BitVec 3)
  /-- R149: Integer subtract. -/
  | vSubI (sy : BitVec 6) (vd : Reg) (va : Reg) (vb : Reg) (k : BitVec 3)
  /-- R149: Integer multiply, low half. -/
  | vMulI (sy : BitVec 6) (vd : Reg) (va : Reg) (vb : Reg) (k : BitVec 3)
  /-- R149: Signed multiply, high half. -/
  | vMulhI (sy : BitVec 6) (vd : Reg) (va : Reg) (vb : Reg) (k : BitVec 3)
  /-- R149: Unsigned multiply, high half. -/
  | vMulhC (sy : BitVec 6) (vd : Reg) (va : Reg) (vb : Reg) (k : BitVec 3)
  /-- R149: Signed minimum. -/
  | vMinI (sy : BitVec 6) (vd : Reg) (va : Reg) (vb : Reg) (k : BitVec 3)
  /-- R149: Signed maximum. -/
  | vMaxI (sy : BitVec 6) (vd : Reg) (va : Reg) (vb : Reg) (k : BitVec 3)
  /-- R149: Unsigned minimum. -/
  | vMinC (sy : BitVec 6) (vd : Reg) (va : Reg) (vb : Reg) (k : BitVec 3)
  /-- R149: Unsigned maximum. -/
  | vMaxC (sy : BitVec 6) (vd : Reg) (va : Reg) (vb : Reg) (k : BitVec 3)
  /-- R149: Bitwise AND. -/
  | vAnd (sy : BitVec 6) (vd : Reg) (va : Reg) (vb : Reg) (k : BitVec 3)
  /-- R149: Bitwise OR. -/
  | vOr (sy : BitVec 6) (vd : Reg) (va : Reg) (vb : Reg) (k : BitVec 3)
  /-- R149: Bitwise XOR. -/
  | vXor (sy : BitVec 6) (vd : Reg) (va : Reg) (vb : Reg) (k : BitVec 3)
  /-- R149: Bitwise NOT. -/
  | vNot (sy : BitVec 6) (vd : Reg) (va : Reg) (k : BitVec 3)
  /-- R149: Shift left. -/
  | vShl (sy : BitVec 6) (vd : Reg) (va : Reg) (vb : Reg) (k : BitVec 3)
  /-- R149: Logical shift right. -/
  | vShr (sy : BitVec 6) (vd : Reg) (va : Reg) (vb : Reg) (k : BitVec 3)
  /-- R149: Arithmetic shift right. -/
  | vSra (sy : BitVec 6) (vd : Reg) (va : Reg) (vb : Reg) (k : BitVec 3)
  /-- R149: Population count. -/
  | vPopc (sy : BitVec 6) (vd : Reg) (va : Reg) (k : BitVec 3)
  /-- R149: Count of leading zeros. -/
  | vClz (sy : BitVec 6) (vd : Reg) (va : Reg) (k : BitVec 3)
  /-- R150: Signed compare into a mask. -/
  | vCmpI (sy : BitVec 6) (kd : Reg) (va : Reg) (vb : Reg) (c : BitVec 3)
  /-- R150: Unsigned compare into a mask. -/
  | vCmpC (sy : BitVec 6) (kd : Reg) (va : Reg) (vb : Reg) (c : BitVec 3)
  /-- R151: Copies governed elements. -/
  | vMov (sy : BitVec 6) (vd : Reg) (va : Reg) (k : BitVec 3)
  /-- R151: Writes an immediate into every element. -/
  | vMovi (sy : BitVec 6) (vd : Reg) (imm : BitVec 13)
  /-- R152: Broadcasts an x value or a ramp. -/
  | vBcx (sy : BitVec 6) (vd : Reg) (xa : Reg) (xb : Reg)
  /-- R152: Inserts an x value into one element. -/
  | vIns (sy : BitVec 6) (vd : Reg) (xa : Reg) (xb : Reg)
  /-- R153: Pushes one element into the control queue. -/
  | vExt (sy : BitVec 6) (va : Reg) (xa : Reg) (xb : Reg)
  /-- R154: Selects elements by a mask. -/
  | vSel (sy : BitVec 6) (vd : Reg) (va : Reg) (vb : Reg) (k : BitVec 3)
  /-- R151: Writes imm + n into element n. -/
  | vIota (sy : BitVec 6) (vd : Reg) (imm : BitVec 13)
  /-- R155: Permutes elements by index. -/
  | vPerm (sy : BitVec 6) (vd : Reg) (va : Reg) (vb : Reg) (k : BitVec 3)
  /-- R159: Rotates along the row axis. -/
  | vRotr (sy : BitVec 6) (vd : Reg) (va : Reg) (n : BitVec 6)
  /-- R159: Rotates along the column axis. -/
  | vRotc (sy : BitVec 6) (vd : Reg) (va : Reg) (n : BitVec 6)
  /-- R160: Broadcasts one column. -/
  | vBcr (sy : BitVec 6) (vd : Reg) (va : Reg) (n : BitVec 6)
  /-- R160: Broadcasts one row. -/
  | vBcc (sy : BitVec 6) (vd : Reg) (va : Reg) (n : BitVec 6)
  /-- R161: FP32 row reduction. -/
  | vRedrF (sy : BitVec 6) (vd : Reg) (va : Reg) (op : BitVec 2)
  /-- R161: FP32 column reduction. -/
  | vRedcF (sy : BitVec 6) (vd : Reg) (va : Reg) (op : BitVec 2)
  /-- R161: Integer row reduction. -/
  | vRedrI (sy : BitVec 6) (vd : Reg) (va : Reg) (op : BitVec 2)
  /-- R161: Integer column reduction. -/
  | vRedcI (sy : BitVec 6) (vd : Reg) (va : Reg) (op : BitVec 2)
  /-- R162: Inclusive prefix sum of each row. -/
  | vScnrF (sy : BitVec 6) (vd : Reg) (va : Reg)
  /-- R163: Transposes the four 16 by 16 blocks. -/
  | vTr16 (sy : BitVec 6) (vd : Reg) (va : Reg)
  /-- R164: Converts between formats. -/
  | vCvt (sy : BitVec 6) (vd : Reg) (va : Reg) (st : BitVec 3) (dt : BitVec 3) (mode : BitVec 2)
  /-- R165: Packs a byte into each lane. -/
  | vPack (sy : BitVec 6) (vd : Reg) (va : Reg) (n : BitVec 6)
  /-- R165: Unpacks a byte from each lane. -/
  | vUnpk (sy : BitVec 6) (vd : Reg) (va : Reg) (n : BitVec 6)
  /-- R166: Intersects sorted index rows into a mask pair. -/
  | vIsect (sy : BitVec 6) (kp : Reg) (va : Reg) (vb : Reg)
  /-- R167: 2:4 compression with metadata. -/
  | vC24 (sy : BitVec 6) (vd : Reg) (va : Reg) (vm : Reg) (k : BitVec 3)
  /-- R168: Finds the first element that meets a condition. -/
  | vFnd (sy : BitVec 6) (va : Reg) (xa : Reg) (xb : Reg) (c : BitVec 3)
  /-- R156: Mask AND. -/
  | kAnd (sy : BitVec 6) (kd : Reg) (ka : Reg) (kb : Reg)
  /-- R156: Mask OR. -/
  | kOr (sy : BitVec 6) (kd : Reg) (ka : Reg) (kb : Reg)
  /-- R156: Mask XOR. -/
  | kXor (sy : BitVec 6) (kd : Reg) (ka : Reg) (kb : Reg)
  /-- R156: Mask AND NOT. -/
  | kAndn (sy : BitVec 6) (kd : Reg) (ka : Reg) (kb : Reg)
  /-- R156: Mask NOT. -/
  | kNot (sy : BitVec 6) (kd : Reg) (ka : Reg)
  /-- R156: Mask copy. -/
  | kMov (sy : BitVec 6) (kd : Reg) (ka : Reg)
  /-- R156: Counts the set bits of each mask row. -/
  | kCnt (sy : BitVec 6) (vd : Reg) (ka : Reg)
  /-- R171: Sets a window's operator and empties it. -/
  | wCfg (sy : BitVec 6) (w : Reg) (imm : BitVec 13)
  /-- R171: Sets a window's length and allots its rows. -/
  | wLen (sy : BitVec 6) (w : Reg) (imm : BitVec 13)
  /-- R173: Pushes rows into a window, evicting and flipping as needed. -/
  | wPush (sy : BitVec 6) (w : Reg) (va : Reg) (k : BitVec 3)
  /-- R175: Reads a window's aggregate. -/
  | wRd (sy : BitVec 6) (vd : Reg) (w : Reg) (k : BitVec 3)
  /-- R171: Empties a window. -/
  | wClr (sy : BitVec 6) (w : Reg)
  /-- R172: Pushes a window's status into the control queue. -/
  | wStat (sy : BitVec 6) (w : Reg)
  /-- R371: The hall receives a launch request from device code, reads the record, checks it and pushes it or refuses it. -/
  | deviceLaunchPush (p : PushReq)
  /-- R330: The hall allots a window-table entry, records its pages, advances GEN and answers with a handle. -/
  | winOpenDecision (r : WinReq)
  /-- R262: The package watch table installs an entry image and admits the entry's job; the entry compares stores from the tick its answer is written. -/
  | watchArmInstall (r : ArmReq)
  /-- R275: A wt.off is decided at the watch table after that tick's compares, and it discards the pending trigger. -/
  | watchOffDecision (tenant : Nat) (entry : Nat)
  /-- R379: The wing fault buffer decides a replay request, removes the record and lets its source continue. -/
  | replayDecision (r : ReplayReq)
  /-- R345: The load of a save area completes, and dispatch resumes. -/
  | qLoadDone (room : Nat)
  /-- R381: Every TLB has dropped the named entries and every access that used them has been performed, so dispatch resumes. -/
  | tlbInvDone (room : Nat)
  /-- R383: A unit stores a new calendar table and the cal.set lane is released; the table takes effect at the next period boundary. -/
  | calSetStored (room unit : Nat) (image : BitVec 512)
  /-- R382: The scheduling processor applies a filter-entry write in its arrival order, resets the entry's count and releases the lane. -/
  | filtSetApplied (room idx : Nat) (image : BitVec 128)
  /-- R19: Dispatch enters a new 256-bit fetch line and its header is checked. -/
  | fetchLineEntry (room : Nat)
  /-- R329: An LR reservation ends 256 ticks after the LR was performed. -/
  | reservationExpiry (room : Nat)
  /-- R28: The control core takes a trap or an interrupt, and dispatch stops while the engines keep draining. -/
  | trap (room : Nat)
  /-- R32: A queue-head entry issues once its tokens, data-queue operands and places are ready, and pops its tokens. -/
  | entryIssue (room : Nat) (e : Eng)
  /-- R16: An engine entry finishes and makes its token and data-queue pushes. -/
  | entryFinish (room : Nat) (e : Eng)
  /-- R33: A finished entry that was blocked by a full token counter makes its pushes and retires. -/
  | entryDeferredPush (room : Nat) (e : Eng)
  /-- R340: A faulting entry, CBU read or watch entry writes its record to the wing fault buffer once a place is free. -/
  | faultRecordWrite (src : FaultSrc)
  /-- R219: An element of a bound stream arrives in its iq. -/
  | streamElementArrival (room q : Nat)
  /-- R45: A buffered stair post takes a freed place in the room's control queue. -/
  | cqStairPostDelivery (room : Nat)
  /-- R79: A held tsig pushes the X to C token once the counter is below 31. -/
  | tsigPush (room : Nat)
  /-- R79: A held twait pops the C to X token once the counter is at least 1. -/
  | twaitPop (room : Nat)
  /-- R81: An efence releases once the earlier entries of the named queues have retired. -/
  | efenceRelease (room : Nat)
  /-- R83: A held cq.pop takes the oldest value from the control queue. -/
  | cqPopTake (room : Nat)
  /-- R90: A cal.wait releases at its target tick or slot. -/
  | calWaitRelease (room : Nat)
  /-- R93: A job.wait releases after the hall signals the job's completion. -/
  | jobWaitRelease (room : Nat)
  /-- R323: A fence.v releases once PEND is 0 and the global tick has reached HZ. -/
  | fenceVRelease (room : Nat)
  /-- R324: A held key.get releases when the room becomes the holder of the key. -/
  | keyGetGrant (room : Nat)
  /-- R344: The last byte of a save area is accepted and dispatch resumes. -/
  | qSaveDone (room : Nat)
  /-- R284: A lease ends and the holder invalidates its copy. -/
  | leaseExpiry (holder line : Nat)
  /-- R326: mon.wait times out after 4,096 ticks with cause 2. -/
  | monTimeout (room : Nat)
  /-- R326: mon.wait wakes with cause 3 when the home held no monitor or dropped a message. -/
  | monOtherWake (room : Nat)
  /-- R293: The holder's KEYQ ends while another room waits, so the key is passed. -/
  | keyQuantumExpiry (wing slot : Nat)
  /-- R293: After the drain, the next waiting room becomes the holder at tick K. -/
  | keyHandover (wing slot : Nat)
  /-- R295: A host snoop of a granule that the bridge holds arrives. -/
  | hostSnoop (g : BridgeMsg)
  /-- R295: Once every lease on the line has ended, the snoop is answered and the half becomes I. -/
  | snoopAnswer (granule : Nat)
  /-- R297: A host CXL.mem read or write to device memory is served by the channel home. -/
  | hostCxlMemAccess (h : HostAcc)
  /-- R300: A port's link goes down, so LOST is set, M lines are orphaned and host lines are invalidated. -/
  | linkDown (port : Nat)
  /-- R302: A port's link trains and UP is set. -/
  | linkUp (port : Nat)
  /-- R222: At tick T the cellar halves exchange, or SWAPMISS is posted. -/
  | castling (stair : Nat)
  /-- R239: The walker starts a gang once enough free rooms have been claimed. -/
  | gangStart (job : Nat)
  /-- R47: Once every queue has drained, an iteration is reported ended and its room is freed. -/
  | iterEndReport (room : Nat)
  /-- R243: A job completes once all its iterations and children are complete, and its signal events are set. -/
  | jobComplete (job : Nat)
  /-- R347: A parked gang resumes on free rooms at RESUME. -/
  | gangResume (job : Nat)
  /-- R252: The CBU reads the next constraint record into its window. -/
  | cbuRecordRead (wing : Nat)
  /-- R254: A formation pass over the window adds records to the forming batch and may close it. -/
  | cbuPass (wing : Nat)
  /-- R226: The next batch becomes current and the held pulls are decided. -/
  | batchRelease (wing : Nat)
  /-- R270: A pending trigger claims a free room of its set. -/
  | triggerStart (entry : Nat)
  /-- R264: A triggered thread's first lane dispatches after the counted stores are visible. -/
  | threadStart (room : Nat)
  /-- R203: A WAYPART change takes effect at its change tick. -/
  | atticChangeTick (stair : Nat)
  /-- R391: A correctable error is corrected in place and counted. -/
  | eccCorrected (part : PartCode)
  /-- R391: An uncorrectable error marks its granule poisoned or loses the iteration. -/
  | poisonMark (site : ErrSite)
  /-- R393: A part fails at tick F, dispatch stops and records are written. -/
  | partFailure (part : PartCode)
  /-- R280: A PCIe request to host non-coherent memory gets no completion in time, and the access raises HOSTLOST with its outcome unknown. -/
  | pcieCompletionTimeout (a : AtomMsg)
  /-- R95: Stops dispatch until an interrupt is pending while the engines keep draining. -/
  | wfi
  /-- R299: Writing RELOAD makes the bridge drop its tier entries and read them again. -/
  | reload
  /-- R359: MIGCMD with OP 1 seals the source page and starts the copy. -/
  | migrationSeal
  /-- R358: MIGCMD with OP 2 returns the migration port to idle. -/
  | migrationRelease
  /-- R359: Every line has been copied and STATUS becomes 2. -/
  | migrationCopied
  /-- R368: ZFCMD with GO marks a range fill-pending at the mark tick F. -/
  | zeroFillMark
  /-- R368: Every line has been filled and every visibility time has passed, so STATUS returns to 0. -/
  | zeroFillDone
  /-- R237: At a slot boundary the hall admits at most one record per tenant. -/
  | admission
  /-- R246: At a period boundary new calendar tables take effect and per-period counts are reset. -/
  | calendarPeriodBoundary
  /-- R391: HBM4E and the cellar are scrubbed in a 24-hour cycle. -/
  | backgroundScrub
  /-- R396: Reset runs the secure-boot sequence step by step. -/
  | reset
  /-- R398: Mailbox OP 1 reads a state address. -/
  | mbReadState
  /-- R398: Mailbox OP 2 reads the fault log. -/
  | mbReadLog
  /-- R398: Mailbox OP 3 sets the package number. -/
  | mbSetPackage
  /-- R398: Mailbox OP 4 writes a replica entry of the switch or hall table. -/
  | mbWriteReplica
  /-- R397: Mailbox OP 5 produces a signed attestation report. -/
  | mbAttest
  /-- R398: Mailbox OP 6 returns the identity public key. -/
  | mbReadIdentity
  /-- R398: A mailbox command completes and MBSTAT leaves busy. -/
  | mbCommandDone
  /-- R79: Pushes a token from the control core to the copy engine. -/
  | tsig
  /-- R79: Pops a token from the copy engine to the control core. -/
  | twait
  /-- R323: Waits for the room's visibility horizon. -/
  | fenceV
  /-- R91: Ends the iteration once the queues have drained. -/
  | iterEnd
  /-- R229: Unbinds the tenant's stream. -/
  | cbClose
  /-- R375: Ends a triggered thread. -/
  | wtEnd
  /-- R347: Delivery of a pre-emption request ends and PRSTAT BUSY clears. -/
  | preemptDeliveryDone
  /-- R242: At a tick, the walker claims a free room for the next gang of the chosen job. -/
  | roomClaim
  deriving DecidableEq, Repr

end Sys2Proof
end

