-- ==== Sys2Proof/WellFormed.lean ====
section
/-! DEFINITION. Which terms of Instr are instructions: the register classes of R64, the ranges of R65 and R69, and
the limits of R71 for the lanes; rooms, wings and ports within their ranges for the steps without an encoding. -/

namespace Sys2Proof

/-- Vd: v0 to v23 or oq0 to oq3 (R64). -/
def clsVd (r : Reg) : Bool := decide (r.toNat < 28)
/-- Vv: v0 to v23. -/
def clsVv (r : Reg) : Bool := decide (r.toNat < 24)
/-- Ss: v0 to v23 or oq0 to oq3. -/
def clsSs (r : Reg) : Bool := decide (r.toNat < 28)
/-- K: k0 to k7. -/
def clsK (r : Reg) : Bool := decide (r.toNat < 8)
/-- KP: the pairs 1 to 3. -/
def clsKP (r : Reg) : Bool := decide (1 ≤ r.toNat) && decide (r.toNat ≤ 3)
/-- W: w0 to w15. -/
def clsW (r : Reg) : Bool := decide (r.toNat < 16)
/-- Y: lay0 to lay15. -/
def clsY (r : Reg) : Bool := decide (r.toNat < 16)
/-- Z: z0 to z3. -/
def clsZ (r : Reg) : Bool := decide (r.toNat < 4)
/-- Cd: lay0 to lay15 or iq0 to iq7. -/
def clsCd (r : Reg) : Bool := decide (r.toNat < 16) || decide (24 ≤ r.toNat)
/-- Q: iq0 to iq7. -/
def clsQ (r : Reg) : Bool := decide (24 ≤ r.toNat)
/-- N of `m.setx`: registers 8, 9 and 10 (R184). -/
def clsNsetx (r : Reg) : Bool := decide (8 ≤ r.toNat) && decide (r.toNat ≤ 10)
/-- N of `m.set`: every assigned register but 8 to 10 (R183, R184). -/
def clsNset (r : Reg) : Bool :=
  decide (r.toNat ≤ 7) || decide (r.toNat = 11) || (decide (17 ≤ r.toNat) && decide (r.toNat ≤ 21)) ||
    (decide (25 ≤ r.toNat) && decide (r.toNat ≤ 29))
/-- An even register, for the pairs of `amo.cas128` (R71, R277). -/
def evenReg (r : Reg) : Bool := decide (r.toNat % 2 = 0)
/-- The shift forms of 32 bits have a 5-bit amount. -/
def ShOp.is32 : ShOp → Bool
  | .slliw | .srliw | .sraiw | .roriw => true
  | .slli | .srli | .srai | .rori | .slliuw => false
/-- A rounding-mode field that is not reserved: 0 to 4, or 7 for the dynamic mode. -/
def rmOk (rm : BitVec 3) : Bool := decide (rm ≠ 5) && decide (rm ≠ 6)
/-- funct3 of the six CSR instructions. -/
def csrF3 (f3 : BitVec 3) : Bool := decide (f3 ≠ 0) && decide (f3 ≠ 4)
/-- Whether a CSR instruction writes: csrrw and csrrwi always, the others when their rs1 field is not 0. -/
def csrWrites (f3 : BitVec 3) (rs1 : Reg) : Bool :=
  csrF3 f3 && (decide (f3 = 1) || decide (f3 = 5) || decide (rs1 ≠ 0))
/-- CSRs whose write has a row of its own: QSLIP, QWMARK, VFLAGS, BANKFMT, HEATCFG and satp. -/
def csrOwnRow (n : BitVec 12) : Bool :=
  decide (n = 0x800) || decide (n = 0x801) || decide (n = 0x803) || decide (n = 0x804) || decide (n = 0x810) ||
    decide (n = 0x180)

/-- Well-formed RV instructions of the row RV_SCALAR_INSTRUCTION. -/
def RvInstr.wf : RvInstr → Bool
  | .shift op _ _ sh => !op.is32 || decide (sh.toNat < 32)
  | .csr c => csrF3 c.f3 && !csrWrites c.f3 c.rs1
  | .fma _ _ rm _ _ _ _ => rmOk rm
  | .fop op _ rm _ _ rs2 => rmOk rm && (match op with | .fsqrt => decide (rs2 = 0) | _ => true)
  | .fq op _ _ _ rs2 => match op with | .cls => decide (rs2 = 0) | .mvxf => decide (rs2 = 0) | _ => true
  | .fcvtToInt _ _ rm _ _ => rmOk rm
  | .fcvtFromInt _ _ rm _ _ => rmOk rm
  | .fcvtFmt _ rm _ _ => rmOk rm
  | .lui _ _ | .auipc _ _ | .jal _ _ | .jalr _ _ _ | .branch _ _ _ _ | .load _ _ _ _ | .store _ _ _ _
  | .alu _ _ _ _ | .alui _ _ _ _ | .unary _ _ _ | .ecall | .ebreak | .sfenceVma _ _ | .fload _ _ _ _
  | .fstore _ _ _ _ | .fmvFromX _ _ _ => true

/-- Well-formed writes of the row REGISTER_WRITE. -/
def RegWrite.wf : RegWrite → Bool
  | .csr c => csrWrites c.f3 c.rs1 && !csrOwnRow c.csr
  | .port _ _ tenant => decide (tenant < 16)

/-- Well-formed instructions (R64, R65, R69, R71). -/
def Instr.WellFormed : Instr → Bool
  | .fetchLineEntry room => decide (room < 256)
  | .rvScalarInstruction i => i.wf
  | .rvFence _ _ _ => true
  | .rvFenceI _ _ _ => true
  | .wfi => true
  | .xret _ => true
  | .lr _ _ _ _ _ => true
  | .sc _ _ _ _ _ _ => true
  | .aExtensionAmo _ _ _ _ _ _ _ => true
  | .reservationExpiry room => decide (room < 256)
  | .trap room => decide (room < 256)
  | .deferredAnswer room _ => decide (room < 256)
  | .entryIssue room _ => decide (room < 256)
  | .entryFinish room _ => decide (room < 256)
  | .entryDeferredPush room _ => decide (room < 256)
  | .faultRecordWrite _ => true
  | .streamElementArrival room _ => decide (room < 256)
  | .cqStairPostDelivery room => decide (room < 256)
  | .tsigPush room => decide (room < 256)
  | .twaitPop room => decide (room < 256)
  | .efenceRelease room => decide (room < 256)
  | .cqPopTake room => decide (room < 256)
  | .calWaitRelease room => decide (room < 256)
  | .jobWaitRelease room => decide (room < 256)
  | .fenceVRelease room => decide (room < 256)
  | .keyGetGrant room => decide (room < 256)
  | .barWaitRelease room _ => decide (room < 256)
  | .cas128Answer room _ _ _ _ => decide (room < 256)
  | .qSaveDone room => decide (room < 256)
  | .poolDecision _ => true
  | .poolRegister wing _ => decide (wing < 4)
  | .poolUnregister wing _ => decide (wing < 4)
  | .poolCommandDone wing => decide (wing < 4)
  | .killPoolEffect _ => true
  | .loadAtHome _ => true
  | .leaseExpiry _ _ => true
  | .storeAtHome _ => true
  | .vtAnswer room _ _ _ => decide (room < 256)
  | .msauRequest _ => true
  | .msauAtomic _ => true
  | .bridgeAtomic _ => true
  | .barrierRequest _ => true
  | .cpfCredit _ => true
  | .monChangeWake room _ => decide (room < 256)
  | .monTimeout room => decide (room < 256)
  | .monOtherWake room => decide (room < 256)
  | .keyQuantumExpiry wing _ => decide (wing < 4)
  | .keyHandover wing _ => decide (wing < 4)
  | .keyRegister room _ _ => decide (room < 256)
  | .keyUnregister room _ _ => decide (room < 256)
  | .keyCommandDone room => decide (room < 256)
  | .rdownCompletion _ _ => true
  | .hostSnoop _ => true
  | .snoopAnswer _ => true
  | .sharingMiss _ _ => true
  | .birspArrival _ _ => true
  | .hostCxlMemAccess _ => true
  | .pcieAtomicCompletion _ _ => true
  | .linkDown port => decide (port < 4)
  | .linkUp port => decide (port < 4)
  | .lostClear _ => true
  | .scrub agent => decide (agent < 288)
  | .reload => true
  | .putAccept _ _ => true
  | .winCloseDecision tenant _ => decide (tenant < 16)
  | .replicaLoad _ => true
  | .migrationSeal => true
  | .migrationRelease => true
  | .migrationCopied => true
  | .zeroFillMark => true
  | .zeroFillDone => true
  | .celSwapRequest room _ => decide (room < 256)
  | .castling stair => decide (stair < 64)
  | .launchPush tenant _ => decide (tenant < 16)
  | .launchPushDone tenant _ => decide (tenant < 16)
  | .crossTenantPush _ => true
  | .evset tenant _ => decide (tenant < 16)
  | .evclr tenant _ => decide (tenant < 16)
  | .admission => true
  | .gangStart _ => true
  | .iterEndReport room => decide (room < 256)
  | .jobComplete _ => true
  | .calendarPeriodBoundary => true
  | .preemptRequest room => decide (room < 256)
  | .gangResume _ => true
  | .cbuDecision _ => true
  | .cbPullWithdraw room => decide (room < 256)
  | .cbuRecordRead wing => decide (wing < 4)
  | .cbuPass wing => decide (wing < 4)
  | .batchRelease wing => decide (wing < 4)
  | .cbDoneCount wing _ => decide (wing < 4)
  | .killCbuEffect _ => true
  | .triggerStart _ => true
  | .threadStart room => decide (room < 256)
  | .stairownWrite wing _ => decide (wing < 4)
  | .atticctlWrite wing _ => decide (wing < 4)
  | .atticpartWrite wing _ => decide (wing < 4)
  | .configChangeDone wing => decide (wing < 4)
  | .atticChangeTick stair => decide (stair < 64)
  | .heatcfgWrite f3 _ rs1 => csrWrites f3 rs1
  | .qslipWrite f3 _ rs1 => csrWrites f3 rs1
  | .qwmarkWrite f3 _ rs1 => csrWrites f3 rs1
  | .vflagsWrite f3 _ rs1 => csrWrites f3 rs1
  | .bankfmtWrite f3 _ rs1 => csrWrites f3 rs1
  | .satpWrite f3 _ rs1 => csrWrites f3 rs1
  | .registerWrite w => w.wf
  | .eccCorrected _ => true
  | .poisonMark _ => true
  | .partFailure _ => true
  | .warmRestart _ => true
  | .backgroundScrub => true
  | .lifeRecompute wing _ _ => decide (wing < 4)
  | .reset => true
  | .mbReadState => true
  | .mbReadLog => true
  | .mbSetPackage => true
  | .mbWriteReplica => true
  | .mbAttest => true
  | .mbReadIdentity => true
  | .mbCommandDone => true
  | .tsig => true
  | .twait => true
  | .efence _ => true
  | .cqPop _ => true
  | .cqTry _ => true
  | .pwOpen _ _ => true
  | .pwCommit _ _ _ => true
  | .pwDrop _ => true
  | .prAcq _ _ _ => true
  | .prRel _ _ => true
  | .pStat _ _ _ => true
  | .barInit _ _ => true
  | .barArrive _ _ => true
  | .barExpect _ _ => true
  | .barWait _ => true
  | .barTry _ _ => true
  | .fenceV => true
  | .keyGet _ => true
  | .keyPass _ => true
  | .monArm _ => true
  | .monWait _ _ => true
  | .amoCas128 xd _ xs2 => evenReg xd && decide (xd ≠ 0) && evenReg xs2
  | .amoCasMs _ _ _ => true
  | .amoAddMs _ _ _ => true
  | .amoFaddMs _ _ _ => true
  | .amoMinMs _ _ _ => true
  | .amoMaxMs _ _ _ => true
  | .amoAndMs _ _ _ => true
  | .amoOrMs _ _ _ => true
  | .amoXorMs _ _ _ => true
  | .amoSwapMs _ _ _ => true
  | .winOpen _ _ _ => true
  | .winClose _ => true
  | .winCnt _ _ _ => true
  | .bnet _ _ _ _ => true
  | .bnetLd _ _ => true
  | .launch _ _ _ => true
  | .iterEnd => true
  | .jobWait _ => true
  | .jobSelf _ => true
  | .calNow _ => true
  | .calWait _ => true
  | .cbOpen _ _ _ => true
  | .cbPull _ => true
  | .cbDone _ => true
  | .cbClose => true
  | .cbStat _ _ => true
  | .wtArm _ _ => true
  | .wtOff _ => true
  | .wtEnd => true
  | .celSwap _ => true
  | .heatRd _ _ => true
  | .cmpStat _ _ => true
  | .qSave _ => true
  | .qLoad _ => true
  | .replay _ => true
  | .jobKill _ => true
  | .tlbInv _ _ => true
  | .filtSet _ _ => true
  | .calSet _ _ => true
  | .atticSet _ _ => true
  | .stRd _ _ => true
  | .logRd _ _ => true
  | .lifeRd _ _ => true
  | .lNop _ => true
  | .lV _ _ _ _ _ => true
  | .lVs _ _ _ _ _ => true
  | .lBc _ _ _ _ _ => true
  | .lEl _ _ _ _ _ => true
  | .lGat _ _ _ _ _ => true
  | .lQ _ _ _ _ => true
  | .lK _ rd _ _ _ => clsK rd
  | .lPf _ _ _ _ => true
  | .lLay _ rd _ _ => clsY rd
  | .sNop _ => true
  | .sV _ rd _ _ _ => clsSs rd
  | .sVs _ rd _ _ _ => clsSs rd
  | .sRow _ rd _ _ _ => clsSs rd
  | .sSc _ rd _ _ _ => clsSs rd
  | .sK _ rd _ _ _ => clsK rd
  | .sEl _ rd _ _ _ => clsSs rd
  | .sC24 _ rd _ _ _ => clsSs rd
  | .mNop _ => true
  | .mSet _ rd _ => clsNset rd
  | .mSetx _ rd _ _ _ => clsNsetx rd
  | .mGo _ _ _ => true
  | .mClr _ rd => clsZ rd
  | .mRetScratchpad _ _ _ _ _ => true
  | .mRetOq _ tgt _ _ _ => decide (1 ≤ tgt.toNat) && decide (tgt.toNat ≤ 4)
  | .mGidx _ rd _ _ => clsVv rd
  | .mSc _ _ _ _ => true
  | .cNop _ => true
  | .cCopy _ rd _ _ _ => clsCd rd
  | .cMcast _ rd _ _ _ => clsY rd
  | .cPut _ rd _ _ _ => clsY rd
  | .cFill _ rd _ _ _ => clsY rd
  | .cScl _ _ _ _ => true
  | .cStrm _ rd _ _ _ => clsQ rd
  | .cPf _ _ _ _ => true
  | .vNop _ => true
  | .vAddF _ vd _ _ _ => clsVd vd
  | .vSubF _ vd _ _ _ => clsVd vd
  | .vMulF _ vd _ _ _ => clsVd vd
  | .vFmaF _ vd _ _ _ => clsVv vd
  | .vFmsF _ vd _ _ _ => clsVv vd
  | .vMinF _ vd _ _ _ => clsVd vd
  | .vMaxF _ vd _ _ _ => clsVd vd
  | .vAbsF _ vd _ _ => clsVd vd
  | .vNegF _ vd _ _ => clsVd vd
  | .vDivF _ vd _ _ _ => clsVd vd
  | .vSqrtF _ vd _ _ => clsVd vd
  | .vRsqF _ vd _ _ => clsVd vd
  | .vRcpF _ vd _ _ => clsVd vd
  | .vExp2F _ vd _ _ => clsVd vd
  | .vLog2F _ vd _ _ => clsVd vd
  | .vTanhF _ vd _ _ => clsVd vd
  | .vSgnjF _ vd _ _ _ => clsVd vd
  | .vClsF _ vd _ _ => clsVd vd
  | .vCmpF _ kd _ _ _ => clsK kd
  | .vAddI _ vd _ _ _ => clsVd vd
  | .vSubI _ vd _ _ _ => clsVd vd
  | .vMulI _ vd _ _ _ => clsVd vd
  | .vMulhI _ vd _ _ _ => clsVd vd
  | .vMulhC _ vd _ _ _ => clsVd vd
  | .vMinI _ vd _ _ _ => clsVd vd
  | .vMaxI _ vd _ _ _ => clsVd vd
  | .vMinC _ vd _ _ _ => clsVd vd
  | .vMaxC _ vd _ _ _ => clsVd vd
  | .vAnd _ vd _ _ _ => clsVd vd
  | .vOr _ vd _ _ _ => clsVd vd
  | .vXor _ vd _ _ _ => clsVd vd
  | .vNot _ vd _ _ => clsVd vd
  | .vShl _ vd _ _ _ => clsVd vd
  | .vShr _ vd _ _ _ => clsVd vd
  | .vSra _ vd _ _ _ => clsVd vd
  | .vPopc _ vd _ _ => clsVd vd
  | .vClz _ vd _ _ => clsVd vd
  | .vCmpI _ kd _ _ c => clsK kd && decide (c.toNat < 6)
  | .vCmpC _ kd _ _ c => clsK kd && decide (c.toNat < 6)
  | .vMov _ vd _ _ => clsVd vd
  | .vMovi _ vd _ => clsVd vd
  | .vBcx _ vd _ _ => clsVd vd
  | .vIns _ vd _ _ => clsVv vd
  | .vExt _ _ _ _ => true
  | .vSel _ vd _ _ _ => clsVd vd
  | .vIota _ vd _ => clsVd vd
  | .vPerm _ vd _ _ _ => clsVd vd
  | .vRotr _ vd _ _ => clsVd vd
  | .vRotc _ vd _ n => clsVd vd && decide (n.toNat < 16)
  | .vBcr _ vd _ _ => clsVd vd
  | .vBcc _ vd _ n => clsVd vd && decide (n.toNat < 16)
  | .vRedrF _ vd _ op => clsVd vd && decide (op.toNat < 3)
  | .vRedcF _ vd _ op => clsVd vd && decide (op.toNat < 3)
  | .vRedrI _ vd _ op => clsVd vd && decide (op.toNat < 3)
  | .vRedcI _ vd _ op => clsVd vd && decide (op.toNat < 3)
  | .vScnrF _ vd _ => clsVd vd
  | .vTr16 _ vd _ => clsVd vd
  | .vCvt _ vd _ _ _ _ => clsVd vd
  | .vPack _ vd _ n => clsVv vd && decide (n.toNat < 4)
  | .vUnpk _ vd _ n => clsVd vd && decide (n.toNat < 4)
  | .vIsect _ kp _ _ => clsKP kp
  | .vC24 _ vd _ vm _ => clsVd vd && clsVv vm
  | .vFnd _ _ _ _ c => decide (c.toNat < 6)
  | .kAnd _ kd ka kb => clsK kd && clsK ka && clsK kb
  | .kOr _ kd ka kb => clsK kd && clsK ka && clsK kb
  | .kXor _ kd ka kb => clsK kd && clsK ka && clsK kb
  | .kAndn _ kd ka kb => clsK kd && clsK ka && clsK kb
  | .kNot _ kd ka => clsK kd && clsK ka
  | .kMov _ kd ka => clsK kd && clsK ka
  | .kCnt _ vd ka => clsVd vd && clsK ka
  | .wCfg _ w imm => clsW w && decide (imm.toNat < 10)
  | .wLen _ w imm => clsW w && decide (1 ≤ imm.toNat) && decide (imm.toNat ≤ 512)
  | .wPush _ w _ _ => clsW w
  | .wRd _ vd w _ => clsVd vd && clsW w
  | .wClr _ w => clsW w
  | .wStat _ w => clsW w
  | .pcieCompletionTimeout _ => true
  | .preemptDeliveryDone => true
  | .roomClaim => true
  | .deviceLaunchPush _ => true
  | .winOpenDecision _ => true
  | .watchArmInstall _ => true
  | .watchOffDecision tenant _ => decide (tenant < 16)
  | .replayDecision _ => true
  | .qLoadDone room => decide (room < 256)
  | .tlbInvDone room => decide (room < 256)
  | .calSetStored room _ _ => decide (room < 256)
  | .filtSetApplied room _ _ => decide (room < 256)

end Sys2Proof
end

