-- ==== Sys2Proof/Decode.lean ====
section
/-! DEFINITION. The decoder, total on any lane word, and the encoder, both from the encodings of R62 to R71 and of the
RV base (R94). `decodeLane code w` reads a lane by the engine code of its header (R18). -/

namespace Sys2Proof

/-- `some i` under a condition. -/
def onlyIf (b : Bool) (i : Instr) : Option Instr := if b then some i else none

/-! Fields of an engine lane (R62, R63). -/
def fOpc (w : W32) : BitVec 8 := w.extractLsb' 24 8
def fSy (w : W32) : BitVec 6 := w.extractLsb' 18 6
def fA (w : W32) : Reg := w.extractLsb' 13 5
def fB (w : W32) : Reg := w.extractLsb' 8 5
def fC (w : W32) : Reg := w.extractLsb' 3 5
def fK (w : W32) : BitVec 3 := w.extractLsb' 0 3
def fImm (w : W32) : BitVec 13 := w.extractLsb' 0 13
def fN (w : W32) : BitVec 6 := w.extractLsb' 2 6
def fQ (w : W32) : BitVec 2 := w.extractLsb' 0 2
def fSt (w : W32) : BitVec 3 := w.extractLsb' 5 3
def fDt (w : W32) : BitVec 3 := w.extractLsb' 2 3
def fLay (w : W32) : BitVec 4 := w.extractLsb' 9 4
def fXa (w : W32) : Reg := w.extractLsb' 4 5
def fXb (w : W32) : BitVec 4 := w.extractLsb' 0 4
def fT (w : W32) : BitVec 3 := w.extractLsb' 15 3
def fZ (w : W32) : BitVec 2 := w.extractLsb' 13 2

/-! Words of an engine lane by form (R63). -/
def laneVV (o : BitVec 8) (sy : BitVec 6) (a b c : Reg) (k : BitVec 3) : W32 := o ++ sy ++ a ++ b ++ c ++ k
def laneVI (o : BitVec 8) (sy : BitVec 6) (a : Reg) (i : BitVec 13) : W32 := o ++ sy ++ a ++ i
def laneVA (o : BitVec 8) (sy : BitVec 6) (a b : Reg) (n : BitVec 6) (q : BitVec 2) : W32 := o ++ sy ++ a ++ b ++ n ++ q
def laneVC (o : BitVec 8) (sy : BitVec 6) (a b : Reg) (s d : BitVec 3) (q : BitVec 2) : W32 :=
  o ++ sy ++ a ++ b ++ s ++ d ++ q
def laneMF (o : BitVec 8) (sy : BitVec 6) (r : Reg) (y : BitVec 4) (xa : Reg) (xb : BitVec 4) : W32 :=
  o ++ sy ++ r ++ y ++ xa ++ xb
def laneMR (o : BitVec 8) (sy : BitVec 6) (t : BitVec 3) (z : BitVec 2) (y : BitVec 4) (xa : Reg) (xb : BitVec 4) : W32 :=
  o ++ sy ++ t ++ z ++ y ++ xa ++ xb

/-- The L lanes (R67, R68), register classes not yet checked. -/
def rawL (w : W32) : Option Instr :=
  match (fOpc w).toNat with
  | 0x00 => onlyIf (decide (fA w = 0) && decide (fLay w = 0) && decide (fXa w = 0) && decide (fXb w = 0)) (.lNop (fSy w))
  | 0x01 => some (.lV (fSy w) (fA w) (fLay w) (fXa w) (fXb w))
  | 0x02 => some (.lVs (fSy w) (fA w) (fLay w) (fXa w) (fXb w))
  | 0x03 => some (.lBc (fSy w) (fA w) (fLay w) (fXa w) (fXb w))
  | 0x04 => some (.lEl (fSy w) (fA w) (fLay w) (fXa w) (fXb w))
  | 0x05 => some (.lGat (fSy w) (fA w) (fLay w) (fXa w) (fXb w))
  | 0x06 => onlyIf (decide (fA w = 0)) (.lQ (fSy w) (fLay w) (fXa w) (fXb w))
  | 0x07 => some (.lK (fSy w) (fA w) (fLay w) (fXa w) (fXb w))
  | 0x08 => onlyIf (decide (fA w = 0)) (.lPf (fSy w) (fLay w) (fXa w) (fXb w))
  | 0x09 => onlyIf (decide (fLay w = 0)) (.lLay (fSy w) (fA w) (fXa w) (fXb w))
  | _ => none

/-- The V lanes (R67, R68), register classes not yet checked. -/
def rawV (w : W32) : Option Instr :=
  match (fOpc w).toNat with
  | 0x00 => onlyIf (decide (fA w = 0) && decide (fB w = 0) && decide (fC w = 0) && decide (fK w = 0)) (.vNop (fSy w))
  | 0x01 => some (.vAddF (fSy w) (fA w) (fB w) (fC w) (fK w))
  | 0x02 => some (.vSubF (fSy w) (fA w) (fB w) (fC w) (fK w))
  | 0x03 => some (.vMulF (fSy w) (fA w) (fB w) (fC w) (fK w))
  | 0x04 => some (.vFmaF (fSy w) (fA w) (fB w) (fC w) (fK w))
  | 0x05 => some (.vFmsF (fSy w) (fA w) (fB w) (fC w) (fK w))
  | 0x06 => some (.vMinF (fSy w) (fA w) (fB w) (fC w) (fK w))
  | 0x07 => some (.vMaxF (fSy w) (fA w) (fB w) (fC w) (fK w))
  | 0x08 => onlyIf (decide (fC w = 0)) (.vAbsF (fSy w) (fA w) (fB w) (fK w))
  | 0x09 => onlyIf (decide (fC w = 0)) (.vNegF (fSy w) (fA w) (fB w) (fK w))
  | 0x0A => some (.vDivF (fSy w) (fA w) (fB w) (fC w) (fK w))
  | 0x0B => onlyIf (decide (fC w = 0)) (.vSqrtF (fSy w) (fA w) (fB w) (fK w))
  | 0x0C => onlyIf (decide (fC w = 0)) (.vRsqF (fSy w) (fA w) (fB w) (fK w))
  | 0x0D => onlyIf (decide (fC w = 0)) (.vRcpF (fSy w) (fA w) (fB w) (fK w))
  | 0x0E => onlyIf (decide (fC w = 0)) (.vExp2F (fSy w) (fA w) (fB w) (fK w))
  | 0x0F => onlyIf (decide (fC w = 0)) (.vLog2F (fSy w) (fA w) (fB w) (fK w))
  | 0x10 => onlyIf (decide (fC w = 0)) (.vTanhF (fSy w) (fA w) (fB w) (fK w))
  | 0x11 => some (.vSgnjF (fSy w) (fA w) (fB w) (fC w) (fK w))
  | 0x12 => onlyIf (decide (fC w = 0)) (.vClsF (fSy w) (fA w) (fB w) (fK w))
  | 0x13 => some (.vCmpF (fSy w) (fA w) (fB w) (fC w) (fK w))
  | 0x20 => some (.vAddI (fSy w) (fA w) (fB w) (fC w) (fK w))
  | 0x21 => some (.vSubI (fSy w) (fA w) (fB w) (fC w) (fK w))
  | 0x22 => some (.vMulI (fSy w) (fA w) (fB w) (fC w) (fK w))
  | 0x23 => some (.vMulhI (fSy w) (fA w) (fB w) (fC w) (fK w))
  | 0x24 => some (.vMulhC (fSy w) (fA w) (fB w) (fC w) (fK w))
  | 0x25 => some (.vMinI (fSy w) (fA w) (fB w) (fC w) (fK w))
  | 0x26 => some (.vMaxI (fSy w) (fA w) (fB w) (fC w) (fK w))
  | 0x27 => some (.vMinC (fSy w) (fA w) (fB w) (fC w) (fK w))
  | 0x28 => some (.vMaxC (fSy w) (fA w) (fB w) (fC w) (fK w))
  | 0x29 => some (.vAnd (fSy w) (fA w) (fB w) (fC w) (fK w))
  | 0x2A => some (.vOr (fSy w) (fA w) (fB w) (fC w) (fK w))
  | 0x2B => some (.vXor (fSy w) (fA w) (fB w) (fC w) (fK w))
  | 0x2C => onlyIf (decide (fC w = 0)) (.vNot (fSy w) (fA w) (fB w) (fK w))
  | 0x2D => some (.vShl (fSy w) (fA w) (fB w) (fC w) (fK w))
  | 0x2E => some (.vShr (fSy w) (fA w) (fB w) (fC w) (fK w))
  | 0x2F => some (.vSra (fSy w) (fA w) (fB w) (fC w) (fK w))
  | 0x30 => onlyIf (decide (fC w = 0)) (.vPopc (fSy w) (fA w) (fB w) (fK w))
  | 0x31 => onlyIf (decide (fC w = 0)) (.vClz (fSy w) (fA w) (fB w) (fK w))
  | 0x32 => some (.vCmpI (fSy w) (fA w) (fB w) (fC w) (fK w))
  | 0x33 => some (.vCmpC (fSy w) (fA w) (fB w) (fC w) (fK w))
  | 0x40 => onlyIf (decide (fC w = 0)) (.vMov (fSy w) (fA w) (fB w) (fK w))
  | 0x41 => some (.vMovi (fSy w) (fA w) (fImm w))
  | 0x42 => onlyIf (decide (fK w = 0)) (.vBcx (fSy w) (fA w) (fB w) (fC w))
  | 0x43 => onlyIf (decide (fK w = 0)) (.vIns (fSy w) (fA w) (fB w) (fC w))
  | 0x44 => onlyIf (decide (fK w = 0)) (.vExt (fSy w) (fA w) (fB w) (fC w))
  | 0x45 => some (.vSel (fSy w) (fA w) (fB w) (fC w) (fK w))
  | 0x46 => some (.vIota (fSy w) (fA w) (fImm w))
  | 0x47 => some (.vPerm (fSy w) (fA w) (fB w) (fC w) (fK w))
  | 0x50 => onlyIf (decide (fQ w = 0)) (.vRotr (fSy w) (fA w) (fB w) (fN w))
  | 0x51 => onlyIf (decide (fQ w = 0)) (.vRotc (fSy w) (fA w) (fB w) (fN w))
  | 0x52 => onlyIf (decide (fQ w = 0)) (.vBcr (fSy w) (fA w) (fB w) (fN w))
  | 0x53 => onlyIf (decide (fQ w = 0)) (.vBcc (fSy w) (fA w) (fB w) (fN w))
  | 0x54 => onlyIf (decide (fN w = 0)) (.vRedrF (fSy w) (fA w) (fB w) (fQ w))
  | 0x55 => onlyIf (decide (fN w = 0)) (.vRedcF (fSy w) (fA w) (fB w) (fQ w))
  | 0x56 => onlyIf (decide (fN w = 0)) (.vRedrI (fSy w) (fA w) (fB w) (fQ w))
  | 0x57 => onlyIf (decide (fN w = 0)) (.vRedcI (fSy w) (fA w) (fB w) (fQ w))
  | 0x58 => onlyIf (decide (fN w = 0) && decide (fQ w = 0)) (.vScnrF (fSy w) (fA w) (fB w))
  | 0x59 => onlyIf (decide (fN w = 0) && decide (fQ w = 0)) (.vTr16 (fSy w) (fA w) (fB w))
  | 0x60 => some (.vCvt (fSy w) (fA w) (fB w) (fSt w) (fDt w) (fQ w))
  | 0x61 => onlyIf (decide (fQ w = 0)) (.vPack (fSy w) (fA w) (fB w) (fN w))
  | 0x62 => onlyIf (decide (fQ w = 0)) (.vUnpk (fSy w) (fA w) (fB w) (fN w))
  | 0x70 => onlyIf (decide (fK w = 0)) (.vIsect (fSy w) (fA w) (fB w) (fC w))
  | 0x71 => some (.vC24 (fSy w) (fA w) (fB w) (fC w) (fK w))
  | 0x72 => some (.vFnd (fSy w) (fA w) (fB w) (fC w) (fK w))
  | 0x78 => onlyIf (decide (fK w = 0)) (.kAnd (fSy w) (fA w) (fB w) (fC w))
  | 0x79 => onlyIf (decide (fK w = 0)) (.kOr (fSy w) (fA w) (fB w) (fC w))
  | 0x7A => onlyIf (decide (fK w = 0)) (.kXor (fSy w) (fA w) (fB w) (fC w))
  | 0x7B => onlyIf (decide (fK w = 0)) (.kAndn (fSy w) (fA w) (fB w) (fC w))
  | 0x7C => onlyIf (decide (fC w = 0) && decide (fK w = 0)) (.kNot (fSy w) (fA w) (fB w))
  | 0x7D => onlyIf (decide (fC w = 0) && decide (fK w = 0)) (.kMov (fSy w) (fA w) (fB w))
  | 0x7E => onlyIf (decide (fC w = 0) && decide (fK w = 0)) (.kCnt (fSy w) (fA w) (fB w))
  | 0x80 => some (.wCfg (fSy w) (fA w) (fImm w))
  | 0x81 => some (.wLen (fSy w) (fA w) (fImm w))
  | 0x82 => onlyIf (decide (fC w = 0)) (.wPush (fSy w) (fA w) (fB w) (fK w))
  | 0x83 => onlyIf (decide (fC w = 0)) (.wRd (fSy w) (fA w) (fB w) (fK w))
  | 0x84 => onlyIf (decide (fImm w = 0)) (.wClr (fSy w) (fA w))
  | 0x85 => onlyIf (decide (fImm w = 0)) (.wStat (fSy w) (fA w))
  | _ => none

/-- The S lanes (R67, R68), register classes not yet checked. -/
def rawS (w : W32) : Option Instr :=
  match (fOpc w).toNat with
  | 0x00 => onlyIf (decide (fA w = 0) && decide (fLay w = 0) && decide (fXa w = 0) && decide (fXb w = 0)) (.sNop (fSy w))
  | 0x01 => some (.sV (fSy w) (fA w) (fLay w) (fXa w) (fXb w))
  | 0x02 => some (.sVs (fSy w) (fA w) (fLay w) (fXa w) (fXb w))
  | 0x03 => some (.sRow (fSy w) (fA w) (fLay w) (fXa w) (fXb w))
  | 0x04 => some (.sSc (fSy w) (fA w) (fLay w) (fXa w) (fXb w))
  | 0x05 => some (.sK (fSy w) (fA w) (fLay w) (fXa w) (fXb w))
  | 0x06 => some (.sEl (fSy w) (fA w) (fLay w) (fXa w) (fXb w))
  | 0x07 => some (.sC24 (fSy w) (fA w) (fLay w) (fXa w) (fXb w))
  | _ => none

/-- The M lanes (R67, R68), register classes not yet checked. -/
def rawM (w : W32) : Option Instr :=
  match (fOpc w).toNat with
  | 0x00 => onlyIf (decide (fA w = 0) && decide (fLay w = 0) && decide (fXa w = 0) && decide (fXb w = 0)) (.mNop (fSy w))
  | 0x01 => onlyIf (decide (fLay w = 0) && decide (fXb w = 0)) (.mSet (fSy w) (fA w) (fXa w))
  | 0x02 => some (.mSetx (fSy w) (fA w) (fLay w) (fXa w) (fXb w))
  | 0x03 => onlyIf (decide (fA w = 0) && decide (fLay w = 0)) (.mGo (fSy w) (fXa w) (fXb w))
  | 0x04 => onlyIf (decide (fLay w = 0) && decide (fXa w = 0) && decide (fXb w = 0)) (.mClr (fSy w) (fA w))
  | 0x05 => if fT w = 0 then some (.mRetScratchpad (fSy w) (fZ w) (fLay w) (fXa w) (fXb w)) else onlyIf (decide (fLay w = 0)) (.mRetOq (fSy w) (fT w) (fZ w) (fXa w) (fXb w))
  | 0x06 => onlyIf (decide (fLay w = 0)) (.mGidx (fSy w) (fA w) (fXa w) (fXb w))
  | 0x07 => onlyIf (decide (fA w = 0)) (.mSc (fSy w) (fLay w) (fXa w) (fXb w))
  | _ => none

/-- The C lanes (R67, R68), register classes not yet checked. -/
def rawC (w : W32) : Option Instr :=
  match (fOpc w).toNat with
  | 0x00 => onlyIf (decide (fA w = 0) && decide (fLay w = 0) && decide (fXa w = 0) && decide (fXb w = 0)) (.cNop (fSy w))
  | 0x01 => some (.cCopy (fSy w) (fA w) (fLay w) (fXa w) (fXb w))
  | 0x02 => some (.cMcast (fSy w) (fA w) (fLay w) (fXa w) (fXb w))
  | 0x03 => some (.cPut (fSy w) (fA w) (fLay w) (fXa w) (fXb w))
  | 0x04 => some (.cFill (fSy w) (fA w) (fLay w) (fXa w) (fXb w))
  | 0x05 => onlyIf (decide (fA w = 0)) (.cScl (fSy w) (fLay w) (fXa w) (fXb w))
  | 0x06 => some (.cStrm (fSy w) (fA w) (fLay w) (fXa w) (fXb w))
  | 0x07 => onlyIf (decide (fA w = 0)) (.cPf (fSy w) (fLay w) (fXa w) (fXb w))
  | _ => none

/-- An engine lane (R65): assigned opcode, legal fields. -/
def decodeEng (e : Eng) (w : W32) : Option Instr :=
  (match e with | .l => rawL w | .v => rawV w | .s => rawS w | .m => rawM w | .c => rawC w).filter Instr.WellFormed

/-! Fields and forms of an RV word. -/
def opc7 (w : W32) : BitVec 7 := w.extractLsb' 0 7
def rd (w : W32) : Reg := w.extractLsb' 7 5
def f3 (w : W32) : BitVec 3 := w.extractLsb' 12 3
def rs1 (w : W32) : Reg := w.extractLsb' 15 5
def rs2 (w : W32) : Reg := w.extractLsb' 20 5
def f7 (w : W32) : BitVec 7 := w.extractLsb' 25 7
def rs3 (w : W32) : Reg := w.extractLsb' 27 5
def immI (w : W32) : BitVec 12 := w.extractLsb' 20 12
def immS (w : W32) : BitVec 12 := w.extractLsb' 25 7 ++ w.extractLsb' 7 5
/-- imm[12:1] of a branch. -/
def immB (w : W32) : BitVec 12 :=
  w.extractLsb' 31 1 ++ w.extractLsb' 7 1 ++ w.extractLsb' 25 6 ++ w.extractLsb' 8 4
/-- imm[20:1] of a jal. -/
def immJ (w : W32) : BitVec 20 :=
  w.extractLsb' 31 1 ++ w.extractLsb' 12 8 ++ w.extractLsb' 20 1 ++ w.extractLsb' 21 10

def rtype (f7 : BitVec 7) (r2 r1 : Reg) (f3 : BitVec 3) (d : Reg) (o : BitVec 7) : W32 := f7 ++ r2 ++ r1 ++ f3 ++ d ++ o
def itype (i : BitVec 12) (r1 : Reg) (f3 : BitVec 3) (d : Reg) (o : BitVec 7) : W32 := i ++ r1 ++ f3 ++ d ++ o
def stype (i : BitVec 12) (r2 r1 : Reg) (f3 : BitVec 3) (o : BitVec 7) : W32 :=
  i.extractLsb' 5 7 ++ r2 ++ r1 ++ f3 ++ i.extractLsb' 0 5 ++ o
def btype (i : BitVec 12) (r2 r1 : Reg) (f3 : BitVec 3) (o : BitVec 7) : W32 :=
  i.extractLsb' 11 1 ++ i.extractLsb' 4 6 ++ r2 ++ r1 ++ f3 ++ i.extractLsb' 0 4 ++ i.extractLsb' 10 1 ++ o
def jtype (i : BitVec 20) (d : Reg) (o : BitVec 7) : W32 :=
  i.extractLsb' 19 1 ++ i.extractLsb' 0 10 ++ i.extractLsb' 10 1 ++ i.extractLsb' 11 8 ++ d ++ o
def r4type (r3 : Reg) (fmt : BitVec 2) (r2 r1 : Reg) (f3 : BitVec 3) (d : Reg) (o : BitVec 7) : W32 :=
  r3 ++ fmt ++ r2 ++ r1 ++ f3 ++ d ++ o

/-- opcode, funct3 and funct7 of the register operations. -/
def AluOp.code : AluOp → Nat × Nat × Nat
  | .add => (0x33, 0, 0) | .sub => (0x33, 0, 0x20) | .sll => (0x33, 1, 0) | .slt => (0x33, 2, 0)
  | .sltu => (0x33, 3, 0) | .xor => (0x33, 4, 0) | .srl => (0x33, 5, 0) | .sra => (0x33, 5, 0x20)
  | .or => (0x33, 6, 0) | .and => (0x33, 7, 0)
  | .mul => (0x33, 0, 1) | .mulh => (0x33, 1, 1) | .mulhsu => (0x33, 2, 1) | .mulhu => (0x33, 3, 1)
  | .div => (0x33, 4, 1) | .divu => (0x33, 5, 1) | .rem => (0x33, 6, 1) | .remu => (0x33, 7, 1)
  | .addw => (0x3B, 0, 0) | .subw => (0x3B, 0, 0x20) | .sllw => (0x3B, 1, 0) | .srlw => (0x3B, 5, 0)
  | .sraw => (0x3B, 5, 0x20) | .mulw => (0x3B, 0, 1) | .divw => (0x3B, 4, 1) | .divuw => (0x3B, 5, 1)
  | .remw => (0x3B, 6, 1) | .remuw => (0x3B, 7, 1)
  | .sh1add => (0x33, 2, 0x10) | .sh2add => (0x33, 4, 0x10) | .sh3add => (0x33, 6, 0x10)
  | .adduw => (0x3B, 0, 4) | .sh1adduw => (0x3B, 2, 0x10) | .sh2adduw => (0x3B, 4, 0x10) | .sh3adduw => (0x3B, 6, 0x10)
  | .andn => (0x33, 7, 0x20) | .orn => (0x33, 6, 0x20) | .xnor => (0x33, 4, 0x20)
  | .max => (0x33, 6, 5) | .maxu => (0x33, 7, 5) | .min => (0x33, 4, 5) | .minu => (0x33, 5, 5)
  | .rol => (0x33, 1, 0x30) | .ror => (0x33, 5, 0x30) | .rolw => (0x3B, 1, 0x30) | .rorw => (0x3B, 5, 0x30)

def allAlu : List AluOp :=
  [.add, .sub, .sll, .slt, .sltu, .xor, .srl, .sra, .or, .and, .mul, .mulh, .mulhsu, .mulhu, .div, .divu, .rem, .remu,
   .addw, .subw, .sllw, .srlw, .sraw, .mulw, .divw, .divuw, .remw, .remuw, .sh1add, .sh2add, .sh3add, .adduw,
   .sh1adduw, .sh2adduw, .sh3adduw, .andn, .orn, .xnor, .max, .maxu, .min, .minu, .rol, .ror, .rolw, .rorw]

/-- opcode and funct3 of the immediate operations. -/
def AluIOp.code : AluIOp → Nat × Nat
  | .addi => (0x13, 0) | .slti => (0x13, 2) | .sltiu => (0x13, 3) | .xori => (0x13, 4) | .ori => (0x13, 6)
  | .andi => (0x13, 7) | .addiw => (0x1B, 0)

def allAluI : List AluIOp := [.addi, .slti, .sltiu, .xori, .ori, .andi, .addiw]

/-- opcode, funct3 and bits [31:26] of the shifts by an immediate. -/
def ShOp.code : ShOp → Nat × Nat × Nat
  | .slli => (0x13, 1, 0) | .srli => (0x13, 5, 0) | .srai => (0x13, 5, 0x10) | .rori => (0x13, 5, 0x18)
  | .slliuw => (0x1B, 1, 2) | .slliw => (0x1B, 1, 0) | .srliw => (0x1B, 5, 0) | .sraiw => (0x1B, 5, 0x10)
  | .roriw => (0x1B, 5, 0x18)

def allSh : List ShOp := [.slli, .srli, .srai, .rori, .slliuw, .slliw, .srliw, .sraiw, .roriw]

/-- opcode, funct3 and bits [31:20] of the one-operand operations. -/
def UnOp.code : UnOp → Nat × Nat × Nat
  | .clz => (0x13, 1, 0x600) | .ctz => (0x13, 1, 0x601) | .cpop => (0x13, 1, 0x602) | .sextb => (0x13, 1, 0x604)
  | .sexth => (0x13, 1, 0x605) | .zexth => (0x3B, 4, 0x080) | .orcb => (0x13, 5, 0x287) | .rev8 => (0x13, 5, 0x6B8)
  | .clzw => (0x1B, 1, 0x600) | .ctzw => (0x1B, 1, 0x601) | .cpopw => (0x1B, 1, 0x602)

def allUn : List UnOp := [.clz, .ctz, .cpop, .sextb, .sexth, .zexth, .orcb, .rev8, .clzw, .ctzw, .cpopw]

def BrOp.f3 : BrOp → Nat | .beq => 0 | .bne => 1 | .blt => 4 | .bge => 5 | .bltu => 6 | .bgeu => 7
def allBr : List BrOp := [.beq, .bne, .blt, .bge, .bltu, .bgeu]
def LdOp.f3 : LdOp → Nat | .lb => 0 | .lh => 1 | .lw => 2 | .ld => 3 | .lbu => 4 | .lhu => 5 | .lwu => 6
def allLd : List LdOp := [.lb, .lh, .lw, .ld, .lbu, .lhu, .lwu]
def StOp.f3 : StOp → Nat | .sb => 0 | .sh => 1 | .sw => 2 | .sd => 3
def allSt : List StOp := [.sb, .sh, .sw, .sd]
/-- funct5 of the A extension. -/
def AmoOp.funct5 : AmoOp → BitVec 5
  | .swap => 1 | .add => 0 | .xor => 4 | .and => 0x0C | .or => 8 | .min => 0x10 | .max => 0x14 | .minu => 0x18
  | .maxu => 0x1C
def allAmo : List AmoOp := [.swap, .add, .xor, .and, .or, .min, .max, .minu, .maxu]
def FOp.funct5 : FOp → Nat | .fadd => 0 | .fsub => 1 | .fmul => 2 | .fdiv => 3 | .fsqrt => 0x0B
def allF : List FOp := [.fadd, .fsub, .fmul, .fdiv, .fsqrt]
/-- funct5 and funct3 of the operations without rounding. -/
def FQOp.code : FQOp → Nat × Nat
  | .sgnj => (4, 0) | .sgnjn => (4, 1) | .sgnjx => (4, 2) | .min => (5, 0) | .max => (5, 1) | .le => (0x14, 0)
  | .lt => (0x14, 1) | .eq => (0x14, 2) | .cls => (0x1C, 1) | .mvxf => (0x1C, 0)
def allFQ : List FQOp := [.sgnj, .sgnjn, .sgnjx, .min, .max, .le, .lt, .eq, .cls, .mvxf]
def FmaOp.opc : FmaOp → Nat | .fmadd => 0x43 | .fmsub => 0x47 | .fnmsub => 0x4B | .fnmadd => 0x4F
def allFma : List FmaOp := [.fmadd, .fmsub, .fnmsub, .fnmadd]
def IntTy.code : IntTy → BitVec 5 | .w => 0 | .wu => 1 | .l => 2 | .lu => 3
def allInt : List IntTy := [.w, .wu, .l, .lu]
/-- The fmt field: 0 for F, 1 for D. -/
def fmtOf (dbl : Bool) : BitVec 2 := if dbl then 1 else 0

/-- The word of an A-extension instruction. -/
def amoWord (f5 : BitVec 5) (dbl aq rl : Bool) (d r1 r2 : Reg) : W32 :=
  rtype (f5 ++ BitVec.ofBool aq ++ BitVec.ofBool rl) r2 r1 (if dbl then 3 else 2) d 0x2F

/-- The word of an OP-FP instruction. -/
def fpWord (f5 : Nat) (dbl : Bool) (r2 r1 : Reg) (rm : BitVec 3) (d : Reg) : W32 :=
  rtype (BitVec.ofNat 5 f5 ++ fmtOf dbl) r2 r1 rm d 0x53

def RvInstr.encode : RvInstr → W32
  | .lui d i => i ++ d ++ (0x37 : BitVec 7)
  | .auipc d i => i ++ d ++ (0x17 : BitVec 7)
  | .jal d o => jtype o d 0x6F
  | .jalr d r o => itype o r 0 d 0x67
  | .branch op r1 r2 o => btype o r2 r1 (BitVec.ofNat 3 op.f3) 0x63
  | .load op d r o => itype o r (BitVec.ofNat 3 op.f3) d 0x03
  | .store op r1 r2 o => stype o r2 r1 (BitVec.ofNat 3 op.f3) 0x23
  | .alu op d r1 r2 =>
    rtype (BitVec.ofNat 7 op.code.2.2) r2 r1 (BitVec.ofNat 3 op.code.2.1) d (BitVec.ofNat 7 op.code.1)
  | .alui op d r i => itype i r (BitVec.ofNat 3 op.code.2) d (BitVec.ofNat 7 op.code.1)
  | .shift op d r sh => itype (BitVec.ofNat 6 op.code.2.2 ++ sh) r (BitVec.ofNat 3 op.code.2.1) d (BitVec.ofNat 7 op.code.1)
  | .unary op d r => itype (BitVec.ofNat 12 op.code.2.2) r (BitVec.ofNat 3 op.code.2.1) d (BitVec.ofNat 7 op.code.1)
  | .csr c => itype c.csr c.rs1 c.f3 c.rd 0x73
  | .ecall => 0x00000073
  | .ebreak => 0x00100073
  | .sfenceVma r1 r2 => rtype 9 r2 r1 0 0 0x73
  | .fload dbl d r o => itype o r (if dbl then 3 else 2) d 0x07
  | .fstore dbl r1 r2 o => stype o r2 r1 (if dbl then 3 else 2) 0x27
  | .fma op dbl rm d r1 r2 r3 => r4type r3 (fmtOf dbl) r2 r1 rm d (BitVec.ofNat 7 op.opc)
  | .fop op dbl rm d r1 r2 => fpWord op.funct5 dbl r2 r1 rm d
  | .fq op dbl d r1 r2 => fpWord op.code.1 dbl r2 r1 (BitVec.ofNat 3 op.code.2) d
  | .fcvtToInt ty dbl rm d r => fpWord 0x18 dbl ty.code r rm d
  | .fcvtFromInt ty dbl rm d r => fpWord 0x1A dbl ty.code r rm d
  | .fcvtFmt toD rm d r => fpWord 8 toD (if toD then 0 else 1) r rm d
  | .fmvFromX dbl d r => fpWord 0x1E dbl 0 r 0 d

/-- The engine whose queue takes a lane. -/
def Instr.engine : Instr → Option Eng
  | .lNop _ => some .l
  | .lV _ _ _ _ _ => some .l
  | .lVs _ _ _ _ _ => some .l
  | .lBc _ _ _ _ _ => some .l
  | .lEl _ _ _ _ _ => some .l
  | .lGat _ _ _ _ _ => some .l
  | .lQ _ _ _ _ => some .l
  | .lK _ _ _ _ _ => some .l
  | .lPf _ _ _ _ => some .l
  | .lLay _ _ _ _ => some .l
  | .sNop _ => some .s
  | .sV _ _ _ _ _ => some .s
  | .sVs _ _ _ _ _ => some .s
  | .sRow _ _ _ _ _ => some .s
  | .sSc _ _ _ _ _ => some .s
  | .sK _ _ _ _ _ => some .s
  | .sEl _ _ _ _ _ => some .s
  | .sC24 _ _ _ _ _ => some .s
  | .mNop _ => some .m
  | .mSet _ _ _ => some .m
  | .mSetx _ _ _ _ _ => some .m
  | .mGo _ _ _ => some .m
  | .mClr _ _ => some .m
  | .mRetScratchpad _ _ _ _ _ => some .m
  | .mRetOq _ _ _ _ _ => some .m
  | .mGidx _ _ _ _ => some .m
  | .mSc _ _ _ _ => some .m
  | .cNop _ => some .c
  | .cCopy _ _ _ _ _ => some .c
  | .cMcast _ _ _ _ _ => some .c
  | .cPut _ _ _ _ _ => some .c
  | .cFill _ _ _ _ _ => some .c
  | .cScl _ _ _ _ => some .c
  | .cStrm _ _ _ _ _ => some .c
  | .cPf _ _ _ _ => some .c
  | .vNop _ => some .v
  | .vAddF _ _ _ _ _ => some .v
  | .vSubF _ _ _ _ _ => some .v
  | .vMulF _ _ _ _ _ => some .v
  | .vFmaF _ _ _ _ _ => some .v
  | .vFmsF _ _ _ _ _ => some .v
  | .vMinF _ _ _ _ _ => some .v
  | .vMaxF _ _ _ _ _ => some .v
  | .vAbsF _ _ _ _ => some .v
  | .vNegF _ _ _ _ => some .v
  | .vDivF _ _ _ _ _ => some .v
  | .vSqrtF _ _ _ _ => some .v
  | .vRsqF _ _ _ _ => some .v
  | .vRcpF _ _ _ _ => some .v
  | .vExp2F _ _ _ _ => some .v
  | .vLog2F _ _ _ _ => some .v
  | .vTanhF _ _ _ _ => some .v
  | .vSgnjF _ _ _ _ _ => some .v
  | .vClsF _ _ _ _ => some .v
  | .vCmpF _ _ _ _ _ => some .v
  | .vAddI _ _ _ _ _ => some .v
  | .vSubI _ _ _ _ _ => some .v
  | .vMulI _ _ _ _ _ => some .v
  | .vMulhI _ _ _ _ _ => some .v
  | .vMulhC _ _ _ _ _ => some .v
  | .vMinI _ _ _ _ _ => some .v
  | .vMaxI _ _ _ _ _ => some .v
  | .vMinC _ _ _ _ _ => some .v
  | .vMaxC _ _ _ _ _ => some .v
  | .vAnd _ _ _ _ _ => some .v
  | .vOr _ _ _ _ _ => some .v
  | .vXor _ _ _ _ _ => some .v
  | .vNot _ _ _ _ => some .v
  | .vShl _ _ _ _ _ => some .v
  | .vShr _ _ _ _ _ => some .v
  | .vSra _ _ _ _ _ => some .v
  | .vPopc _ _ _ _ => some .v
  | .vClz _ _ _ _ => some .v
  | .vCmpI _ _ _ _ _ => some .v
  | .vCmpC _ _ _ _ _ => some .v
  | .vMov _ _ _ _ => some .v
  | .vMovi _ _ _ => some .v
  | .vBcx _ _ _ _ => some .v
  | .vIns _ _ _ _ => some .v
  | .vExt _ _ _ _ => some .v
  | .vSel _ _ _ _ _ => some .v
  | .vIota _ _ _ => some .v
  | .vPerm _ _ _ _ _ => some .v
  | .vRotr _ _ _ _ => some .v
  | .vRotc _ _ _ _ => some .v
  | .vBcr _ _ _ _ => some .v
  | .vBcc _ _ _ _ => some .v
  | .vRedrF _ _ _ _ => some .v
  | .vRedcF _ _ _ _ => some .v
  | .vRedrI _ _ _ _ => some .v
  | .vRedcI _ _ _ _ => some .v
  | .vScnrF _ _ _ => some .v
  | .vTr16 _ _ _ => some .v
  | .vCvt _ _ _ _ _ _ => some .v
  | .vPack _ _ _ _ => some .v
  | .vUnpk _ _ _ _ => some .v
  | .vIsect _ _ _ _ => some .v
  | .vC24 _ _ _ _ _ => some .v
  | .vFnd _ _ _ _ _ => some .v
  | .kAnd _ _ _ _ => some .v
  | .kOr _ _ _ _ => some .v
  | .kXor _ _ _ _ => some .v
  | .kAndn _ _ _ _ => some .v
  | .kNot _ _ _ => some .v
  | .kMov _ _ _ => some .v
  | .kCnt _ _ _ => some .v
  | .wCfg _ _ _ => some .v
  | .wLen _ _ _ => some .v
  | .wPush _ _ _ _ => some .v
  | .wRd _ _ _ _ => some .v
  | .wClr _ _ => some .v
  | .wStat _ _ => some .v
  | .fetchLineEntry _ | .rvScalarInstruction _ | .rvFence _ _ _ | .rvFenceI _ _ _
  | .wfi | .xret _ | .lr _ _ _ _ _ | .sc _ _ _ _ _ _
  | .aExtensionAmo _ _ _ _ _ _ _ | .reservationExpiry _ | .trap _ | .deferredAnswer _ _
  | .entryIssue _ _ | .entryFinish _ _ | .entryDeferredPush _ _ | .faultRecordWrite _
  | .streamElementArrival _ _ | .cqStairPostDelivery _ | .tsigPush _ | .twaitPop _
  | .efenceRelease _ | .cqPopTake _ | .calWaitRelease _ | .jobWaitRelease _
  | .fenceVRelease _ | .keyGetGrant _ | .barWaitRelease _ _ | .cas128Answer _ _ _ _ _
  | .qSaveDone _ | .poolDecision _ | .poolRegister _ _ | .poolUnregister _ _
  | .poolCommandDone _ | .killPoolEffect _ | .loadAtHome _ | .leaseExpiry _ _
  | .storeAtHome _ | .vtAnswer _ _ _ _ | .msauRequest _ | .msauAtomic _
  | .bridgeAtomic _ | .barrierRequest _ | .cpfCredit _ | .monChangeWake _ _
  | .monTimeout _ | .monOtherWake _ | .keyQuantumExpiry _ _ | .keyHandover _ _
  | .keyRegister _ _ _ | .keyUnregister _ _ _ | .keyCommandDone _ | .rdownCompletion _ _
  | .hostSnoop _ | .snoopAnswer _ | .sharingMiss _ _ | .birspArrival _ _
  | .hostCxlMemAccess _ | .pcieAtomicCompletion _ _ | .linkDown _ | .linkUp _
  | .lostClear _ | .scrub _ | .reload | .putAccept _ _
  | .winCloseDecision _ _ | .replicaLoad _ | .migrationSeal | .migrationRelease
  | .migrationCopied | .zeroFillMark | .zeroFillDone | .celSwapRequest _ _
  | .castling _ | .launchPush _ _ | .launchPushDone _ _ | .crossTenantPush _
  | .evset _ _ | .evclr _ _ | .admission | .gangStart _
  | .iterEndReport _ | .jobComplete _ | .calendarPeriodBoundary | .preemptRequest _
  | .gangResume _ | .cbuDecision _ | .cbPullWithdraw _ | .cbuRecordRead _
  | .cbuPass _ | .batchRelease _ | .cbDoneCount _ _ | .killCbuEffect _
  | .triggerStart _ | .threadStart _ | .stairownWrite _ _ | .atticctlWrite _ _
  | .atticpartWrite _ _ | .configChangeDone _ | .atticChangeTick _ | .heatcfgWrite _ _ _
  | .qslipWrite _ _ _ | .qwmarkWrite _ _ _ | .vflagsWrite _ _ _ | .bankfmtWrite _ _ _
  | .satpWrite _ _ _ | .registerWrite _ | .eccCorrected _ | .poisonMark _
  | .partFailure _ | .warmRestart _ | .backgroundScrub | .lifeRecompute _ _ _
  | .reset | .mbReadState | .mbReadLog | .mbSetPackage
  | .mbWriteReplica | .mbAttest | .mbReadIdentity | .mbCommandDone
  | .tsig | .twait | .efence _ | .cqPop _
  | .cqTry _ | .pwOpen _ _ | .pwCommit _ _ _ | .pwDrop _
  | .prAcq _ _ _ | .prRel _ _ | .pStat _ _ _ | .barInit _ _
  | .barArrive _ _ | .barExpect _ _ | .barWait _ | .barTry _ _
  | .fenceV | .keyGet _ | .keyPass _ | .monArm _
  | .monWait _ _ | .amoCas128 _ _ _ | .amoCasMs _ _ _ | .amoAddMs _ _ _
  | .amoFaddMs _ _ _ | .amoMinMs _ _ _ | .amoMaxMs _ _ _ | .amoAndMs _ _ _
  | .amoOrMs _ _ _ | .amoXorMs _ _ _ | .amoSwapMs _ _ _ | .winOpen _ _ _
  | .winClose _ | .winCnt _ _ _ | .bnet _ _ _ _ | .bnetLd _ _
  | .launch _ _ _ | .iterEnd | .jobWait _ | .jobSelf _
  | .calNow _ | .calWait _ | .cbOpen _ _ _ | .cbPull _
  | .cbDone _ | .cbClose | .cbStat _ _ | .wtArm _ _
  | .wtOff _ | .wtEnd | .celSwap _ | .heatRd _ _
  | .cmpStat _ _ | .qSave _ | .qLoad _ | .replay _
  | .jobKill _ | .tlbInv _ _ | .filtSet _ _ | .calSet _ _
  | .atticSet _ _ | .stRd _ _ | .logRd _ _ | .lifeRd _ _
  | .pcieCompletionTimeout _ | .preemptDeliveryDone | .roomClaim | .deviceLaunchPush _
  | .winOpenDecision _ | .watchArmInstall _ | .watchOffDecision _ _ | .replayDecision _
  | .qLoadDone _ | .tlbInvDone _ | .calSetStored _ _ _ | .filtSetApplied _ _ _ => none

/-- The word of an instruction that has one. -/
def encode : Instr → Option W32
  | .lNop sy => some (laneMF 0x00 sy 0 0 0 0)
  | .lV sy rd lay xa xb => some (laneMF 0x01 sy rd lay xa xb)
  | .lVs sy rd lay xa xb => some (laneMF 0x02 sy rd lay xa xb)
  | .lBc sy rd lay xa xb => some (laneMF 0x03 sy rd lay xa xb)
  | .lEl sy rd lay xa xb => some (laneMF 0x04 sy rd lay xa xb)
  | .lGat sy rd lay xa xb => some (laneMF 0x05 sy rd lay xa xb)
  | .lQ sy lay xa xb => some (laneMF 0x06 sy 0 lay xa xb)
  | .lK sy rd lay xa xb => some (laneMF 0x07 sy rd lay xa xb)
  | .lPf sy lay xa xb => some (laneMF 0x08 sy 0 lay xa xb)
  | .lLay sy rd xa xb => some (laneMF 0x09 sy rd 0 xa xb)
  | .sNop sy => some (laneMF 0x00 sy 0 0 0 0)
  | .sV sy rd lay xa xb => some (laneMF 0x01 sy rd lay xa xb)
  | .sVs sy rd lay xa xb => some (laneMF 0x02 sy rd lay xa xb)
  | .sRow sy rd lay xa xb => some (laneMF 0x03 sy rd lay xa xb)
  | .sSc sy rd lay xa xb => some (laneMF 0x04 sy rd lay xa xb)
  | .sK sy rd lay xa xb => some (laneMF 0x05 sy rd lay xa xb)
  | .sEl sy rd lay xa xb => some (laneMF 0x06 sy rd lay xa xb)
  | .sC24 sy rd lay xa xb => some (laneMF 0x07 sy rd lay xa xb)
  | .mNop sy => some (laneMF 0x00 sy 0 0 0 0)
  | .mSet sy rd xa => some (laneMF 0x01 sy rd 0 xa 0)
  | .mSetx sy rd lay xa xb => some (laneMF 0x02 sy rd lay xa xb)
  | .mGo sy xa xb => some (laneMF 0x03 sy 0 0 xa xb)
  | .mClr sy rd => some (laneMF 0x04 sy rd 0 0 0)
  | .mRetScratchpad sy z lay xa xb => some (laneMR 0x05 sy 0 z lay xa xb)
  | .mRetOq sy tgt z xa xb => some (laneMR 0x05 sy tgt z 0 xa xb)
  | .mGidx sy rd xa xb => some (laneMF 0x06 sy rd 0 xa xb)
  | .mSc sy lay xa xb => some (laneMF 0x07 sy 0 lay xa xb)
  | .cNop sy => some (laneMF 0x00 sy 0 0 0 0)
  | .cCopy sy rd lay xa xb => some (laneMF 0x01 sy rd lay xa xb)
  | .cMcast sy rd lay xa xb => some (laneMF 0x02 sy rd lay xa xb)
  | .cPut sy rd lay xa xb => some (laneMF 0x03 sy rd lay xa xb)
  | .cFill sy rd lay xa xb => some (laneMF 0x04 sy rd lay xa xb)
  | .cScl sy lay xa xb => some (laneMF 0x05 sy 0 lay xa xb)
  | .cStrm sy rd lay xa xb => some (laneMF 0x06 sy rd lay xa xb)
  | .cPf sy lay xa xb => some (laneMF 0x07 sy 0 lay xa xb)
  | .vNop sy => some (laneVV 0x00 sy 0 0 0 0)
  | .vAddF sy vd va vb k => some (laneVV 0x01 sy vd va vb k)
  | .vSubF sy vd va vb k => some (laneVV 0x02 sy vd va vb k)
  | .vMulF sy vd va vb k => some (laneVV 0x03 sy vd va vb k)
  | .vFmaF sy vd va vb k => some (laneVV 0x04 sy vd va vb k)
  | .vFmsF sy vd va vb k => some (laneVV 0x05 sy vd va vb k)
  | .vMinF sy vd va vb k => some (laneVV 0x06 sy vd va vb k)
  | .vMaxF sy vd va vb k => some (laneVV 0x07 sy vd va vb k)
  | .vAbsF sy vd va k => some (laneVV 0x08 sy vd va 0 k)
  | .vNegF sy vd va k => some (laneVV 0x09 sy vd va 0 k)
  | .vDivF sy vd va vb k => some (laneVV 0x0A sy vd va vb k)
  | .vSqrtF sy vd va k => some (laneVV 0x0B sy vd va 0 k)
  | .vRsqF sy vd va k => some (laneVV 0x0C sy vd va 0 k)
  | .vRcpF sy vd va k => some (laneVV 0x0D sy vd va 0 k)
  | .vExp2F sy vd va k => some (laneVV 0x0E sy vd va 0 k)
  | .vLog2F sy vd va k => some (laneVV 0x0F sy vd va 0 k)
  | .vTanhF sy vd va k => some (laneVV 0x10 sy vd va 0 k)
  | .vSgnjF sy vd va vb k => some (laneVV 0x11 sy vd va vb k)
  | .vClsF sy vd va k => some (laneVV 0x12 sy vd va 0 k)
  | .vCmpF sy kd va vb c => some (laneVV 0x13 sy kd va vb c)
  | .vAddI sy vd va vb k => some (laneVV 0x20 sy vd va vb k)
  | .vSubI sy vd va vb k => some (laneVV 0x21 sy vd va vb k)
  | .vMulI sy vd va vb k => some (laneVV 0x22 sy vd va vb k)
  | .vMulhI sy vd va vb k => some (laneVV 0x23 sy vd va vb k)
  | .vMulhC sy vd va vb k => some (laneVV 0x24 sy vd va vb k)
  | .vMinI sy vd va vb k => some (laneVV 0x25 sy vd va vb k)
  | .vMaxI sy vd va vb k => some (laneVV 0x26 sy vd va vb k)
  | .vMinC sy vd va vb k => some (laneVV 0x27 sy vd va vb k)
  | .vMaxC sy vd va vb k => some (laneVV 0x28 sy vd va vb k)
  | .vAnd sy vd va vb k => some (laneVV 0x29 sy vd va vb k)
  | .vOr sy vd va vb k => some (laneVV 0x2A sy vd va vb k)
  | .vXor sy vd va vb k => some (laneVV 0x2B sy vd va vb k)
  | .vNot sy vd va k => some (laneVV 0x2C sy vd va 0 k)
  | .vShl sy vd va vb k => some (laneVV 0x2D sy vd va vb k)
  | .vShr sy vd va vb k => some (laneVV 0x2E sy vd va vb k)
  | .vSra sy vd va vb k => some (laneVV 0x2F sy vd va vb k)
  | .vPopc sy vd va k => some (laneVV 0x30 sy vd va 0 k)
  | .vClz sy vd va k => some (laneVV 0x31 sy vd va 0 k)
  | .vCmpI sy kd va vb c => some (laneVV 0x32 sy kd va vb c)
  | .vCmpC sy kd va vb c => some (laneVV 0x33 sy kd va vb c)
  | .vMov sy vd va k => some (laneVV 0x40 sy vd va 0 k)
  | .vMovi sy vd imm => some (laneVI 0x41 sy vd imm)
  | .vBcx sy vd xa xb => some (laneVV 0x42 sy vd xa xb 0)
  | .vIns sy vd xa xb => some (laneVV 0x43 sy vd xa xb 0)
  | .vExt sy va xa xb => some (laneVV 0x44 sy va xa xb 0)
  | .vSel sy vd va vb k => some (laneVV 0x45 sy vd va vb k)
  | .vIota sy vd imm => some (laneVI 0x46 sy vd imm)
  | .vPerm sy vd va vb k => some (laneVV 0x47 sy vd va vb k)
  | .vRotr sy vd va n => some (laneVA 0x50 sy vd va n 0)
  | .vRotc sy vd va n => some (laneVA 0x51 sy vd va n 0)
  | .vBcr sy vd va n => some (laneVA 0x52 sy vd va n 0)
  | .vBcc sy vd va n => some (laneVA 0x53 sy vd va n 0)
  | .vRedrF sy vd va op => some (laneVA 0x54 sy vd va 0 op)
  | .vRedcF sy vd va op => some (laneVA 0x55 sy vd va 0 op)
  | .vRedrI sy vd va op => some (laneVA 0x56 sy vd va 0 op)
  | .vRedcI sy vd va op => some (laneVA 0x57 sy vd va 0 op)
  | .vScnrF sy vd va => some (laneVA 0x58 sy vd va 0 0)
  | .vTr16 sy vd va => some (laneVA 0x59 sy vd va 0 0)
  | .vCvt sy vd va st dt mode => some (laneVC 0x60 sy vd va st dt mode)
  | .vPack sy vd va n => some (laneVA 0x61 sy vd va n 0)
  | .vUnpk sy vd va n => some (laneVA 0x62 sy vd va n 0)
  | .vIsect sy kp va vb => some (laneVV 0x70 sy kp va vb 0)
  | .vC24 sy vd va vm k => some (laneVV 0x71 sy vd va vm k)
  | .vFnd sy va xa xb c => some (laneVV 0x72 sy va xa xb c)
  | .kAnd sy kd ka kb => some (laneVV 0x78 sy kd ka kb 0)
  | .kOr sy kd ka kb => some (laneVV 0x79 sy kd ka kb 0)
  | .kXor sy kd ka kb => some (laneVV 0x7A sy kd ka kb 0)
  | .kAndn sy kd ka kb => some (laneVV 0x7B sy kd ka kb 0)
  | .kNot sy kd ka => some (laneVV 0x7C sy kd ka 0 0)
  | .kMov sy kd ka => some (laneVV 0x7D sy kd ka 0 0)
  | .kCnt sy vd ka => some (laneVV 0x7E sy vd ka 0 0)
  | .wCfg sy w imm => some (laneVI 0x80 sy w imm)
  | .wLen sy w imm => some (laneVI 0x81 sy w imm)
  | .wPush sy w va k => some (laneVV 0x82 sy w va 0 k)
  | .wRd sy vd w k => some (laneVV 0x83 sy vd w 0 k)
  | .wClr sy w => some (laneVI 0x84 sy w 0)
  | .wStat sy w => some (laneVI 0x85 sy w 0)
  | .tsig => some (rtype (0 : BitVec 7) 0 0 0 0 0x0B)
  | .twait => some (rtype (1 : BitVec 7) 0 0 0 0 0x0B)
  | .efence m => some (rtype (2 : BitVec 7) 0 m 0 0 0x0B)
  | .cqPop xd => some (rtype (3 : BitVec 7) 0 0 0 xd 0x0B)
  | .cqTry xd => some (rtype (4 : BitVec 7) 0 0 0 xd 0x0B)
  | .pwOpen xd xs1 => some (rtype (0 : BitVec 7) 0 xs1 1 xd 0x0B)
  | .pwCommit xd xs1 xs2 => some (rtype (1 : BitVec 7) xs2 xs1 1 xd 0x0B)
  | .pwDrop xs1 => some (rtype (2 : BitVec 7) 0 xs1 1 0 0x0B)
  | .prAcq xd xs1 xs2 => some (rtype (3 : BitVec 7) xs2 xs1 1 xd 0x0B)
  | .prRel xs1 xs2 => some (rtype (4 : BitVec 7) xs2 xs1 1 0 0x0B)
  | .pStat xd xs1 xs2 => some (rtype (5 : BitVec 7) xs2 xs1 1 xd 0x0B)
  | .barInit xs1 xs2 => some (rtype (0 : BitVec 7) xs2 xs1 2 0 0x0B)
  | .barArrive xd xs1 => some (rtype (1 : BitVec 7) 0 xs1 2 xd 0x0B)
  | .barExpect xs1 xs2 => some (rtype (2 : BitVec 7) xs2 xs1 2 0 0x0B)
  | .barWait xs1 => some (rtype (3 : BitVec 7) 0 xs1 2 0 0x0B)
  | .barTry xd xs1 => some (rtype (4 : BitVec 7) 0 xs1 2 xd 0x0B)
  | .fenceV => some (rtype (0 : BitVec 7) 0 0 3 0 0x0B)
  | .keyGet xs1 => some (rtype (1 : BitVec 7) 0 xs1 3 0 0x0B)
  | .keyPass xs1 => some (rtype (2 : BitVec 7) 0 xs1 3 0 0x0B)
  | .monArm xs1 => some (rtype (3 : BitVec 7) 0 xs1 3 0 0x0B)
  | .monWait xd xs1 => some (rtype (4 : BitVec 7) 0 xs1 3 xd 0x0B)
  | .amoCas128 xd xs1 xs2 => some (rtype (0 : BitVec 7) xs2 xs1 0 xd 0x2B)
  | .amoCasMs xd xs1 xs2 => some (rtype (1 : BitVec 7) xs2 xs1 0 xd 0x2B)
  | .amoAddMs xd xs1 xs2 => some (rtype (2 : BitVec 7) xs2 xs1 0 xd 0x2B)
  | .amoFaddMs xd xs1 xs2 => some (rtype (3 : BitVec 7) xs2 xs1 0 xd 0x2B)
  | .amoMinMs xd xs1 xs2 => some (rtype (4 : BitVec 7) xs2 xs1 0 xd 0x2B)
  | .amoMaxMs xd xs1 xs2 => some (rtype (5 : BitVec 7) xs2 xs1 0 xd 0x2B)
  | .amoAndMs xd xs1 xs2 => some (rtype (6 : BitVec 7) xs2 xs1 0 xd 0x2B)
  | .amoOrMs xd xs1 xs2 => some (rtype (7 : BitVec 7) xs2 xs1 0 xd 0x2B)
  | .amoXorMs xd xs1 xs2 => some (rtype (8 : BitVec 7) xs2 xs1 0 xd 0x2B)
  | .amoSwapMs xd xs1 xs2 => some (rtype (9 : BitVec 7) xs2 xs1 0 xd 0x2B)
  | .winOpen xd xs1 xs2 => some (rtype (0 : BitVec 7) xs2 xs1 1 xd 0x2B)
  | .winClose xs1 => some (rtype (1 : BitVec 7) 0 xs1 1 0 0x2B)
  | .winCnt xd xs1 xs2 => some (rtype (2 : BitVec 7) xs2 xs1 1 xd 0x2B)
  | .bnet p xd xs1 xs2 => some (rtype (0#4 ++ p) xs2 xs1 2 xd 0x2B)
  | .bnetLd xs1 xs2 => some (rtype (8 : BitVec 7) xs2 xs1 2 0 0x2B)
  | .launch xd xs1 xs2 => some (rtype (0 : BitVec 7) xs2 xs1 3 xd 0x2B)
  | .iterEnd => some (rtype (1 : BitVec 7) 0 0 3 0 0x2B)
  | .jobWait xs1 => some (rtype (2 : BitVec 7) 0 xs1 3 0 0x2B)
  | .jobSelf xd => some (rtype (3 : BitVec 7) 0 0 3 xd 0x2B)
  | .calNow xd => some (rtype (0 : BitVec 7) 0 0 4 xd 0x2B)
  | .calWait xs1 => some (rtype (1 : BitVec 7) 0 xs1 4 0 0x2B)
  | .cbOpen xd xs1 xs2 => some (rtype (0 : BitVec 7) xs2 xs1 0 xd 0x5B)
  | .cbPull xd => some (rtype (1 : BitVec 7) 0 0 0 xd 0x5B)
  | .cbDone xs1 => some (rtype (2 : BitVec 7) 0 xs1 0 0 0x5B)
  | .cbClose => some (rtype (3 : BitVec 7) 0 0 0 0 0x5B)
  | .cbStat xd xs1 => some (rtype (4 : BitVec 7) 0 xs1 0 xd 0x5B)
  | .wtArm xd xs1 => some (rtype (0 : BitVec 7) 0 xs1 1 xd 0x5B)
  | .wtOff xs1 => some (rtype (1 : BitVec 7) 0 xs1 1 0 0x5B)
  | .wtEnd => some (rtype (2 : BitVec 7) 0 0 1 0 0x5B)
  | .celSwap xs1 => some (rtype (0 : BitVec 7) 0 xs1 2 0 0x5B)
  | .heatRd xd xs1 => some (rtype (0 : BitVec 7) 0 xs1 3 xd 0x5B)
  | .cmpStat xd xs1 => some (rtype (1 : BitVec 7) 0 xs1 3 xd 0x5B)
  | .qSave xs1 => some (rtype (0 : BitVec 7) 0 xs1 0 0 0x7B)
  | .qLoad xs1 => some (rtype (1 : BitVec 7) 0 xs1 0 0 0x7B)
  | .replay xs1 => some (rtype (2 : BitVec 7) 0 xs1 0 0 0x7B)
  | .jobKill xs1 => some (rtype (0 : BitVec 7) 0 xs1 1 0 0x7B)
  | .tlbInv xs1 xs2 => some (rtype (1 : BitVec 7) xs2 xs1 1 0 0x7B)
  | .filtSet xs1 xs2 => some (rtype (2 : BitVec 7) xs2 xs1 1 0 0x7B)
  | .calSet xs1 xs2 => some (rtype (3 : BitVec 7) xs2 xs1 1 0 0x7B)
  | .atticSet xs1 xs2 => some (rtype (4 : BitVec 7) xs2 xs1 1 0 0x7B)
  | .stRd xd xs1 => some (rtype (0 : BitVec 7) 0 xs1 2 xd 0x7B)
  | .logRd xd xs1 => some (rtype (1 : BitVec 7) 0 xs1 2 xd 0x7B)
  | .lifeRd xd xs1 => some (rtype (2 : BitVec 7) 0 xs1 2 xd 0x7B)
  | .fetchLineEntry _ => none
  | .rvScalarInstruction i => some i.encode
  | .rvFence rd rs1 imm => some (itype imm rs1 0 rd 0x0F)
  | .rvFenceI rd rs1 imm => some (itype imm rs1 1 rd 0x0F)
  | .wfi => some 0x10500073
  | .xret m => some (if m then 0x30200073 else 0x10200073)
  | .lr dbl aq rl rd rs1 => some (amoWord 2 dbl aq rl rd rs1 0)
  | .sc dbl aq rl rd rs1 rs2 => some (amoWord 3 dbl aq rl rd rs1 rs2)
  | .aExtensionAmo op dbl aq rl rd rs1 rs2 => some (amoWord op.funct5 dbl aq rl rd rs1 rs2)
  | .reservationExpiry _ => none
  | .trap _ => none
  | .deferredAnswer _ _ => none
  | .entryIssue _ _ => none
  | .entryFinish _ _ => none
  | .entryDeferredPush _ _ => none
  | .faultRecordWrite _ => none
  | .streamElementArrival _ _ => none
  | .cqStairPostDelivery _ => none
  | .tsigPush _ => none
  | .twaitPop _ => none
  | .efenceRelease _ => none
  | .cqPopTake _ => none
  | .calWaitRelease _ => none
  | .jobWaitRelease _ => none
  | .fenceVRelease _ => none
  | .keyGetGrant _ => none
  | .barWaitRelease _ _ => none
  | .cas128Answer _ _ _ _ _ => none
  | .qSaveDone _ => none
  | .poolDecision _ => none
  | .poolRegister _ _ => none
  | .poolUnregister _ _ => none
  | .poolCommandDone _ => none
  | .killPoolEffect _ => none
  | .loadAtHome _ => none
  | .leaseExpiry _ _ => none
  | .storeAtHome _ => none
  | .vtAnswer _ _ _ _ => none
  | .msauRequest _ => none
  | .msauAtomic _ => none
  | .bridgeAtomic _ => none
  | .barrierRequest _ => none
  | .cpfCredit _ => none
  | .monChangeWake _ _ => none
  | .monTimeout _ => none
  | .monOtherWake _ => none
  | .keyQuantumExpiry _ _ => none
  | .keyHandover _ _ => none
  | .keyRegister _ _ _ => none
  | .keyUnregister _ _ _ => none
  | .keyCommandDone _ => none
  | .rdownCompletion _ _ => none
  | .hostSnoop _ => none
  | .snoopAnswer _ => none
  | .sharingMiss _ _ => none
  | .birspArrival _ _ => none
  | .hostCxlMemAccess _ => none
  | .pcieAtomicCompletion _ _ => none
  | .linkDown _ => none
  | .linkUp _ => none
  | .lostClear _ => none
  | .scrub _ => none
  | .reload => none
  | .putAccept _ _ => none
  | .winCloseDecision _ _ => none
  | .replicaLoad _ => none
  | .migrationSeal => none
  | .migrationRelease => none
  | .migrationCopied => none
  | .zeroFillMark => none
  | .zeroFillDone => none
  | .celSwapRequest _ _ => none
  | .castling _ => none
  | .launchPush _ _ => none
  | .launchPushDone _ _ => none
  | .crossTenantPush _ => none
  | .evset _ _ => none
  | .evclr _ _ => none
  | .admission => none
  | .gangStart _ => none
  | .iterEndReport _ => none
  | .jobComplete _ => none
  | .calendarPeriodBoundary => none
  | .preemptRequest _ => none
  | .gangResume _ => none
  | .cbuDecision _ => none
  | .cbPullWithdraw _ => none
  | .cbuRecordRead _ => none
  | .cbuPass _ => none
  | .batchRelease _ => none
  | .cbDoneCount _ _ => none
  | .killCbuEffect _ => none
  | .triggerStart _ => none
  | .threadStart _ => none
  | .stairownWrite _ _ => none
  | .atticctlWrite _ _ => none
  | .atticpartWrite _ _ => none
  | .configChangeDone _ => none
  | .atticChangeTick _ => none
  | .heatcfgWrite f3 rd rs1 => some (itype 0x810 rs1 f3 rd 0x73)
  | .qslipWrite f3 rd rs1 => some (itype 0x800 rs1 f3 rd 0x73)
  | .qwmarkWrite f3 rd rs1 => some (itype 0x801 rs1 f3 rd 0x73)
  | .vflagsWrite f3 rd rs1 => some (itype 0x803 rs1 f3 rd 0x73)
  | .bankfmtWrite f3 rd rs1 => some (itype 0x804 rs1 f3 rd 0x73)
  | .satpWrite f3 rd rs1 => some (itype 0x180 rs1 f3 rd 0x73)
  | .registerWrite w => match w with | .csr k => some (itype k.csr k.rs1 k.f3 k.rd 0x73) | .port _ _ _ => none
  | .eccCorrected _ => none
  | .poisonMark _ => none
  | .partFailure _ => none
  | .warmRestart _ => none
  | .backgroundScrub => none
  | .lifeRecompute _ _ _ => none
  | .reset => none
  | .mbReadState => none
  | .mbReadLog => none
  | .mbSetPackage => none
  | .mbWriteReplica => none
  | .mbAttest => none
  | .mbReadIdentity => none
  | .mbCommandDone => none
  | .pcieCompletionTimeout _ => none
  | .preemptDeliveryDone => none
  | .roomClaim => none
  | .deviceLaunchPush _ => none
  | .winOpenDecision _ => none
  | .watchArmInstall _ => none
  | .watchOffDecision _ _ => none
  | .replayDecision _ => none
  | .qLoadDone _ => none
  | .tlbInvDone _ => none
  | .calSetStored _ _ _ => none
  | .filtSetApplied _ _ _ => none

/-- The device instructions of the control core (R70, R71). -/
def rawDevice (w : W32) : Option Instr :=
  match (opc7 w).toNat, (f3 w).toNat, (f7 w).toNat with
  | 0x0B, 0, 0 => onlyIf (decide (rs2 w = 0) && decide (rs1 w = 0) && decide (rd w = 0)) (.tsig)
  | 0x0B, 0, 1 => onlyIf (decide (rs2 w = 0) && decide (rs1 w = 0) && decide (rd w = 0)) (.twait)
  | 0x0B, 0, 2 => onlyIf (decide (rs2 w = 0) && decide (rd w = 0)) (.efence (rs1 w))
  | 0x0B, 0, 3 => onlyIf (decide (rs2 w = 0) && decide (rs1 w = 0)) (.cqPop (rd w))
  | 0x0B, 0, 4 => onlyIf (decide (rs2 w = 0) && decide (rs1 w = 0)) (.cqTry (rd w))
  | 0x0B, 1, 0 => onlyIf (decide (rs2 w = 0)) (.pwOpen (rd w) (rs1 w))
  | 0x0B, 1, 1 => some (.pwCommit (rd w) (rs1 w) (rs2 w))
  | 0x0B, 1, 2 => onlyIf (decide (rs2 w = 0) && decide (rd w = 0)) (.pwDrop (rs1 w))
  | 0x0B, 1, 3 => some (.prAcq (rd w) (rs1 w) (rs2 w))
  | 0x0B, 1, 4 => onlyIf (decide (rd w = 0)) (.prRel (rs1 w) (rs2 w))
  | 0x0B, 1, 5 => some (.pStat (rd w) (rs1 w) (rs2 w))
  | 0x0B, 2, 0 => onlyIf (decide (rd w = 0)) (.barInit (rs1 w) (rs2 w))
  | 0x0B, 2, 1 => onlyIf (decide (rs2 w = 0)) (.barArrive (rd w) (rs1 w))
  | 0x0B, 2, 2 => onlyIf (decide (rd w = 0)) (.barExpect (rs1 w) (rs2 w))
  | 0x0B, 2, 3 => onlyIf (decide (rs2 w = 0) && decide (rd w = 0)) (.barWait (rs1 w))
  | 0x0B, 2, 4 => onlyIf (decide (rs2 w = 0)) (.barTry (rd w) (rs1 w))
  | 0x0B, 3, 0 => onlyIf (decide (rs2 w = 0) && decide (rs1 w = 0) && decide (rd w = 0)) (.fenceV)
  | 0x0B, 3, 1 => onlyIf (decide (rs2 w = 0) && decide (rd w = 0)) (.keyGet (rs1 w))
  | 0x0B, 3, 2 => onlyIf (decide (rs2 w = 0) && decide (rd w = 0)) (.keyPass (rs1 w))
  | 0x0B, 3, 3 => onlyIf (decide (rs2 w = 0) && decide (rd w = 0)) (.monArm (rs1 w))
  | 0x0B, 3, 4 => onlyIf (decide (rs2 w = 0)) (.monWait (rd w) (rs1 w))
  | 0x2B, 0, 0 => some (.amoCas128 (rd w) (rs1 w) (rs2 w))
  | 0x2B, 0, 1 => some (.amoCasMs (rd w) (rs1 w) (rs2 w))
  | 0x2B, 0, 2 => some (.amoAddMs (rd w) (rs1 w) (rs2 w))
  | 0x2B, 0, 3 => some (.amoFaddMs (rd w) (rs1 w) (rs2 w))
  | 0x2B, 0, 4 => some (.amoMinMs (rd w) (rs1 w) (rs2 w))
  | 0x2B, 0, 5 => some (.amoMaxMs (rd w) (rs1 w) (rs2 w))
  | 0x2B, 0, 6 => some (.amoAndMs (rd w) (rs1 w) (rs2 w))
  | 0x2B, 0, 7 => some (.amoOrMs (rd w) (rs1 w) (rs2 w))
  | 0x2B, 0, 8 => some (.amoXorMs (rd w) (rs1 w) (rs2 w))
  | 0x2B, 0, 9 => some (.amoSwapMs (rd w) (rs1 w) (rs2 w))
  | 0x2B, 1, 0 => some (.winOpen (rd w) (rs1 w) (rs2 w))
  | 0x2B, 1, 1 => onlyIf (decide (rs2 w = 0) && decide (rd w = 0)) (.winClose (rs1 w))
  | 0x2B, 1, 2 => some (.winCnt (rd w) (rs1 w) (rs2 w))
  | 0x2B, 2, 0 | 0x2B, 2, 1 | 0x2B, 2, 2 | 0x2B, 2, 3 | 0x2B, 2, 4 | 0x2B, 2, 5 | 0x2B, 2, 6 | 0x2B, 2, 7 => some (.bnet (w.extractLsb' 25 3) (rd w) (rs1 w) (rs2 w))
  | 0x2B, 2, 8 => onlyIf (decide (rd w = 0)) (.bnetLd (rs1 w) (rs2 w))
  | 0x2B, 3, 0 => some (.launch (rd w) (rs1 w) (rs2 w))
  | 0x2B, 3, 1 => onlyIf (decide (rs2 w = 0) && decide (rs1 w = 0) && decide (rd w = 0)) (.iterEnd)
  | 0x2B, 3, 2 => onlyIf (decide (rs2 w = 0) && decide (rd w = 0)) (.jobWait (rs1 w))
  | 0x2B, 3, 3 => onlyIf (decide (rs2 w = 0) && decide (rs1 w = 0)) (.jobSelf (rd w))
  | 0x2B, 4, 0 => onlyIf (decide (rs2 w = 0) && decide (rs1 w = 0)) (.calNow (rd w))
  | 0x2B, 4, 1 => onlyIf (decide (rs2 w = 0) && decide (rd w = 0)) (.calWait (rs1 w))
  | 0x5B, 0, 0 => some (.cbOpen (rd w) (rs1 w) (rs2 w))
  | 0x5B, 0, 1 => onlyIf (decide (rs2 w = 0) && decide (rs1 w = 0)) (.cbPull (rd w))
  | 0x5B, 0, 2 => onlyIf (decide (rs2 w = 0) && decide (rd w = 0)) (.cbDone (rs1 w))
  | 0x5B, 0, 3 => onlyIf (decide (rs2 w = 0) && decide (rs1 w = 0) && decide (rd w = 0)) (.cbClose)
  | 0x5B, 0, 4 => onlyIf (decide (rs2 w = 0)) (.cbStat (rd w) (rs1 w))
  | 0x5B, 1, 0 => onlyIf (decide (rs2 w = 0)) (.wtArm (rd w) (rs1 w))
  | 0x5B, 1, 1 => onlyIf (decide (rs2 w = 0) && decide (rd w = 0)) (.wtOff (rs1 w))
  | 0x5B, 1, 2 => onlyIf (decide (rs2 w = 0) && decide (rs1 w = 0) && decide (rd w = 0)) (.wtEnd)
  | 0x5B, 2, 0 => onlyIf (decide (rs2 w = 0) && decide (rd w = 0)) (.celSwap (rs1 w))
  | 0x5B, 3, 0 => onlyIf (decide (rs2 w = 0)) (.heatRd (rd w) (rs1 w))
  | 0x5B, 3, 1 => onlyIf (decide (rs2 w = 0)) (.cmpStat (rd w) (rs1 w))
  | 0x7B, 0, 0 => onlyIf (decide (rs2 w = 0) && decide (rd w = 0)) (.qSave (rs1 w))
  | 0x7B, 0, 1 => onlyIf (decide (rs2 w = 0) && decide (rd w = 0)) (.qLoad (rs1 w))
  | 0x7B, 0, 2 => onlyIf (decide (rs2 w = 0) && decide (rd w = 0)) (.replay (rs1 w))
  | 0x7B, 1, 0 => onlyIf (decide (rs2 w = 0) && decide (rd w = 0)) (.jobKill (rs1 w))
  | 0x7B, 1, 1 => onlyIf (decide (rd w = 0)) (.tlbInv (rs1 w) (rs2 w))
  | 0x7B, 1, 2 => onlyIf (decide (rd w = 0)) (.filtSet (rs1 w) (rs2 w))
  | 0x7B, 1, 3 => onlyIf (decide (rd w = 0)) (.calSet (rs1 w) (rs2 w))
  | 0x7B, 1, 4 => onlyIf (decide (rd w = 0)) (.atticSet (rs1 w) (rs2 w))
  | 0x7B, 2, 0 => onlyIf (decide (rs2 w = 0)) (.stRd (rd w) (rs1 w))
  | 0x7B, 2, 1 => onlyIf (decide (rs2 w = 0)) (.logRd (rd w) (rs1 w))
  | 0x7B, 2, 2 => onlyIf (decide (rs2 w = 0)) (.lifeRd (rd w) (rs1 w))
  | _, _, _ => none

/-- A CSR instruction: a read, or a write, by the row of its register. -/
def decodeCsr (w : W32) : Option Instr :=
  if csrWrites (f3 w) (rs1 w) then
    match (immI w).toNat with
    | 0x800 => some (.qslipWrite (f3 w) (rd w) (rs1 w))
    | 0x801 => some (.qwmarkWrite (f3 w) (rd w) (rs1 w))
    | 0x803 => some (.vflagsWrite (f3 w) (rd w) (rs1 w))
    | 0x804 => some (.bankfmtWrite (f3 w) (rd w) (rs1 w))
    | 0x810 => some (.heatcfgWrite (f3 w) (rd w) (rs1 w))
    | 0x180 => some (.satpWrite (f3 w) (rd w) (rs1 w))
    | _ => some (.registerWrite (.csr ⟨immI w, f3 w, rd w, rs1 w⟩))
  else some (.rvScalarInstruction (.csr ⟨immI w, f3 w, rd w, rs1 w⟩))

/-- The OP-FP instructions. -/
def decodeFp (w : W32) : Option RvInstr :=
  let dbl := decide (w.extractLsb' 25 2 = 1#2)
  let f5 := (w.extractLsb' 27 5).toNat
  if w.extractLsb' 26 1 = 1#1 then none else
  match allF.find? fun o => decide (o.funct5 = f5) with
  | some o => some (.fop o dbl (f3 w) (rd w) (rs1 w) (rs2 w))
  | none =>
    match allFQ.find? fun o => decide (o.code = (f5, (f3 w).toNat)) with
    | some o => some (.fq o dbl (rd w) (rs1 w) (rs2 w))
    | none =>
      if f5 = 0x18 then (allInt.find? fun t => decide (t.code = rs2 w)).map fun t => .fcvtToInt t dbl (f3 w) (rd w) (rs1 w)
      else if f5 = 0x1A then
        (allInt.find? fun t => decide (t.code = rs2 w)).map fun t => .fcvtFromInt t dbl (f3 w) (rd w) (rs1 w)
      else if f5 = 8 then
        (if rs2 w = (if dbl then 0 else 1) then some (.fcvtFmt dbl (f3 w) (rd w) (rs1 w)) else none)
      else if f5 = 0x1E then
        (if rs2 w = 0 then (if f3 w = 0 then some (.fmvFromX dbl (rd w) (rs1 w)) else none) else none)
      else none

/-- The RV instructions of the row RV_SCALAR_INSTRUCTION but for the CSR instructions. -/
def decodeRv (w : W32) : Option RvInstr :=
  let o := (opc7 w).toNat
  let f := (f3 w).toNat
  match o with
  | 0x37 => some (.lui (rd w) (w.extractLsb' 12 20))
  | 0x17 => some (.auipc (rd w) (w.extractLsb' 12 20))
  | 0x6F => some (.jal (rd w) (immJ w))
  | 0x67 => if f = 0 then some (.jalr (rd w) (rs1 w) (immI w)) else none
  | 0x63 => (allBr.find? fun b => decide (b.f3 = f)).map fun b => .branch b (rs1 w) (rs2 w) (immB w)
  | 0x03 => (allLd.find? fun b => decide (b.f3 = f)).map fun b => .load b (rd w) (rs1 w) (immI w)
  | 0x23 => (allSt.find? fun b => decide (b.f3 = f)).map fun b => .store b (rs1 w) (rs2 w) (immS w)
  | 0x07 => if f = 2 then some (.fload false (rd w) (rs1 w) (immI w))
            else if f = 3 then some (.fload true (rd w) (rs1 w) (immI w)) else none
  | 0x27 => if f = 2 then some (.fstore false (rs1 w) (rs2 w) (immS w))
            else if f = 3 then some (.fstore true (rs1 w) (rs2 w) (immS w)) else none
  | 0x53 => decodeFp w
  | 0x73 =>
    if w = 0x00000073 then some .ecall
    else if w = 0x00100073 then some .ebreak
    else if f7 w = 9 then (if f3 w = 0 then (if rd w = 0 then some (.sfenceVma (rs1 w) (rs2 w)) else none) else none)
    else none
  | _ =>
    match allUn.find? fun b => decide (b.code = (o, f, (immI w).toNat)) with
    | some b => some (.unary b (rd w) (rs1 w))
    | none =>
      match allSh.find? fun b => decide (b.code = (o, f, (w.extractLsb' 26 6).toNat)) with
      | some b => some (.shift b (rd w) (rs1 w) (w.extractLsb' 20 6))
      | none =>
        match allAluI.find? fun b => decide (b.code = (o, f)) with
        | some b => some (.alui b (rd w) (rs1 w) (immI w))
        | none =>
          match allAlu.find? fun b => decide (b.code = (o, f, (f7 w).toNat)) with
          | some b => some (.alu b (rd w) (rs1 w) (rs2 w))
          | none =>
            match allFma.find? fun b => decide (b.opc = o) with
            | some b => if w.extractLsb' 26 1 = 1#1 then none
                        else some (.fma b (decide (w.extractLsb' 25 2 = 1#2)) (f3 w) (rd w) (rs1 w) (rs2 w) (rs3 w))
            | none => none

/-- The A extension. -/
def decodeAmo (w : W32) : Option Instr :=
  let f5 := w.extractLsb' 27 5
  let aq := decide (w.extractLsb' 26 1 = 1#1)
  let rl := decide (w.extractLsb' 25 1 = 1#1)
  let dbl := decide (f3 w = 3)
  if f3 w = 2 ∨ f3 w = 3 then
    if f5 = 2 then (if rs2 w = 0 then some (.lr dbl aq rl (rd w) (rs1 w)) else none)
    else if f5 = 3 then some (.sc dbl aq rl (rd w) (rs1 w) (rs2 w))
    else (allAmo.find? fun o => decide (o.funct5 = f5)).map fun o => .aExtensionAmo o dbl aq rl (rd w) (rs1 w) (rs2 w)
  else none

/-- A scalar lane (R20, R70, R71, R94): none raises the RV illegal-instruction exception. -/
def decodeScalar (w : W32) : Option Instr :=
  (if opc7 w = 0x0F then
     (if f3 w = 0 then some (.rvFence (rd w) (rs1 w) (immI w))
      else if f3 w = 1 then some (.rvFenceI (rd w) (rs1 w) (immI w)) else none)
   else if opc7 w = 0x2F then decodeAmo w
   else if opc7 w = 0x73 then
     (if w = 0x10500073 then some .wfi
      else if w = 0x30200073 then some (.xret true)
      else if w = 0x10200073 then some (.xret false)
      else if csrF3 (f3 w) then decodeCsr w
      else (decodeRv w).map .rvScalarInstruction)
   else match rawDevice w with
     | some i => some i
     | none => (decodeRv w).map .rvScalarInstruction).filter Instr.WellFormed

/-- The engine of an engine code (R18). -/
def engOfCode : Nat → Option Eng
  | 2 => some .l | 3 => some .v | 4 => some .s | 5 => some .m | 6 => some .c | _ => none

/-- The engine code of an engine. -/
def Eng.code : Eng → Nat | .l => 2 | .v => 3 | .s => 4 | .m => 5 | .c => 6

/-- A lane by its engine code: 1 scalar, 2 to 6 the engines; none for an illegal lane. -/
def decodeLane (code : Nat) (w : W32) : Option Instr :=
  if code = 1 then decodeScalar w
  else match engOfCode code with
    | some e => decodeEng e w
    | none => none

/-- The engine code under which `decodeTableWord` reads a word: an opcode-table word names no engine, so the first of
scalar, V, L, S, M and C that reads it. -/
def tableCode (w : W32) : Nat :=
  if (decodeScalar w).isSome then 1
  else if (decodeEng .v w).isSome then 3
  else if (decodeEng .l w).isSome then 2
  else if (decodeEng .s w).isSome then 4
  else if (decodeEng .m w).isSome then 5
  else 6

/-- What the decoder reads from an opcode-table word of `nbits` bits. -/
def decodeTableWord (nbits w : Nat) : Option Instr :=
  let v := BitVec.ofNat 32 (w % 2 ^ nbits)
  decodeLane (tableCode v) v

end Sys2Proof
end

