-- ==== Sys2Proof/Machine/Tbl.lean ====
section
/-! DEFINITION. Operations on sparse tables and on memory, both kept in canonical form: keys rising, no entry equal to
what an unlisted key reads as. -/

namespace Sys2Proof

/-- What key `i` reads as; `d` for an unlisted key. -/
def tget {α : Type} (d : α) : Tbl α → Nat → α
  | [], _ => d
  | (k, v) :: t, i => if k = i then v else tget d t i

/-- Lists `v` under key `i`, in the order of the keys. -/
def tput {α : Type} (t : Tbl α) (i : Nat) (v : α) : Tbl α :=
  match t with
  | [] => [(i, v)]
  | (k, w) :: r => if i < k then (i, v) :: (k, w) :: r else if i = k then (i, v) :: r else (k, w) :: tput r i v

/-- Writes `v` under key `i`, keeping the canonical form: a key that reads as an unlisted one is not listed. -/
def tset {α : Type} [DecidableEq α] (d : α) (t : Tbl α) (i : Nat) (v : α) : Tbl α :=
  if v = d then t.filter (fun e => decide (e.1 ≠ i)) else tput t i v

/-- Applies `f` to what key `i` reads as. -/
def tmod {α : Type} [DecidableEq α] (d : α) (t : Tbl α) (i : Nat) (f : α → α) : Tbl α :=
  tset d t i (f (tget d t i))

/-- The keys are above `lo` and rise, and no entry equals `d`. -/
def twfFrom {α : Type} [DecidableEq α] (d : α) (lo : Nat) : Tbl α → Bool
  | [] => true
  | (k, v) :: t => decide (lo ≤ k) && decide (v ≠ d) && twfFrom d (k + 1) t

/-- The canonical form of a table. -/
def twf {α : Type} [DecidableEq α] (d : α) (t : Tbl α) : Bool := twfFrom d 0 t

/-- The table of a function on 0 to n - 1. -/
def tofn {α : Type} [DecidableEq α] (d : α) (n : Nat) (f : Nat → α) : Tbl α :=
  ((List.range n).map fun i => (i, f i)).filter fun p => decide (p.2 ≠ d)

/-- The values of keys i to i + n - 1 as a list; the keys of the table are i or above. -/
def tdense {α : Type} (d : α) : (n i : Nat) → Tbl α → List α
  | 0, _, _ => []
  | n + 1, i, [] => d :: tdense d n (i + 1) []
  | n + 1, i, (k, v) :: t => if k = i then v :: tdense d n (i + 1) t else d :: tdense d n (i + 1) ((k, v) :: t)

/-- The table of a list, from key `i`. -/
def tofList {α : Type} [DecidableEq α] (d : α) (i : Nat) : List α → Tbl α
  | [] => []
  | v :: l => if v = d then tofList d (i + 1) l else (i, v) :: tofList d (i + 1) l

/-- Keys whose value satisfies `p`. -/
def tkeys {α : Type} (t : Tbl α) (p : α → Bool) : List Nat := (t.filter fun e => p e.2).map (·.1)

/-- Drops the entries with keys from lo to hi - 1. -/
def tdrop {α : Type} (t : Tbl α) (lo hi : Nat) : Tbl α := t.filter fun e => decide (e.1 < lo) || decide (hi ≤ e.1)

/-- The byte that an address nothing has written reads as: 0 (DESIGN CHOICE, log entry 6). -/
def memDefault : Byte := 0

/-- A memory: pairs of an address and a byte, in canonical form. -/
abbrev Memory := List (Nat × Byte)

/-- One byte of memory. -/
def Memory.get (m : Memory) (a : Nat) : Byte := tget memDefault m a
/-- Writes one byte. -/
def Memory.set (m : Memory) (a : Nat) (b : Byte) : Memory := tset memDefault m a b
/-- The canonical form of a memory. -/
def Memory.wf (m : Memory) : Bool := twf memDefault m

/-- `n` bytes from address `a`, little-endian (R7, R37). -/
def Memory.read (m : Memory) (a : Nat) : Nat → Nat
  | 0 => 0
  | n + 1 => (m.get a).toNat + 256 * Memory.read m (a + 1) n

/-- Writes the low `n` bytes of `v`, little-endian. -/
def Memory.write (m : Memory) (a : Nat) : Nat → Nat → Memory
  | 0, _ => m
  | n + 1, v => Memory.write (m.set a (BitVec.ofNat 8 v)) (a + 1) n (v / 256)

/-- The bytes of addresses a to a + n - 1. -/
def Memory.bytes (m : Memory) (a n : Nat) : List Byte := (List.range n).map fun i => m.get (a + i)

/-- Writes a list of bytes from address `a`. -/
def Memory.putBytes (m : Memory) (a : Nat) : List Byte → Memory
  | [] => m
  | b :: l => Memory.putBytes (m.set a b) (a + 1) l

/-- Makes addresses a to a + n - 1 read as unwritten. -/
def Memory.erase (m : Memory) (a n : Nat) : Memory := tdrop m a (a + n)

end Sys2Proof
end

