-- ==== Sys2Proof/Machine/State.lean ====
section
/-! DEFINITION. The state of the KH-1: every register, queue, memory and table the spec gives it, as plain data, and
the state right after reset. -/

namespace Sys2Proof.Machine

/-- A mask register: row i is bit j of the doubleword under key i (R132). -/
abbrev Mask := Tbl W64

/-- The iteration that a room runs (R231, R240, R272). -/
structure Run where
  job     : Nat
  ord     : Nat
  gang    : Nat                 -- ordinal of its gang, by time indices (R238)
  tenant  : Nat
  prio    : Nat
  vregs   : Nat
  wrows   : Nat
  scratch : Nat
  thread  : Option Nat          -- the watch entry of a thread
  depth   : Nat                 -- depth that its stores carry
  ident   : Option (Nat × Nat × Nat) := none  -- its job identity, once `q.load` has replaced it: handle, ORD, tenant (R345)
  deriving DecidableEq, Repr

/-- The job identity of a run, for `job.self` and the journal: handle, ORD, tenant (R345). -/
def Run.self (u : Run) : Nat × Nat × Nat := u.ident.getD (u.job, u.ord, u.tenant)
def Run.selfJob (u : Run) : Nat := u.self.1
def Run.selfOrd (u : Run) : Nat := u.self.2.1
def Run.owner (u : Run) : Nat := u.self.2.2

/-- What a lane that holds dispatch waits for (R78, R81, R279, R323 and the references). -/
inductive Hold where
  | none
  | tsig | twait
  | efence (l v s m c : Option Nat)     -- entries that must have retired, by queue
  | cqPop (rd : Reg)
  | calWait (next : Nat)
  | jobWait (job : Nat)
  | fenceV
  | keyGet (wing slot : Nat)
  | keyPass (wing slot : Nat)
  | barWait (id : Nat)
  | monWait (rd : Reg) (since : Nat)
  | answer (id : Nat)                   -- a load or atomic whose answer dispatch waits for
  | cbPull (id : Nat) (left : Bool)     -- left: the room has withdrawn it for a trap
  | iterEnd
  | wfi
  | qSave (area : W64) (pages sp : List Part) (base : W64) (written : Bool)
  | qLoad
  | thread (vt : Nat) (wait : List Nat)  -- a thread before its first lane (R270)
  | tlbInv (cut target : Nat)            -- messages below this number were sent before it; whose entries it drops
  | filtSet | calSet
  | attic (stair : Nat)
  | fenceI
  deriving DecidableEq, Repr

/-- An x or f register (32 + number) whose value has not yet arrived (R9, R77). -/
structure Out where
  id       : Nat
  regs     : List Nat
  deferred : Bool
  load     : Bool := false       -- a control-core load or atomic that reads memory (R279, R312)
  arrive   : Bool := false       -- a `bar.arrive` (R321)
  line     : Option Nat := none  -- line of an A-extension instruction: later accesses to it wait
  deriving DecidableEq, Repr

/-- A store of the control core that VHZ covers and whose answer has not returned (R288). -/
structure OutStore where
  id    : Nat
  bound : Option Nat      -- i + 2,112, or none when it has no bound
  deriving DecidableEq, Repr

/-- A refused request whose trap is taken at the next lane boundary (R58, R230, R328). -/
structure Misuse where
  code : Nat          -- exception code
  tval : W64
  lane : W64
  word : W32
  outc : Nat := 0     -- OUTC of R339
  deriving DecidableEq, Repr

/-- The RV CSRs of a room (R95, R400). -/
structure Csrs where
  satp : W64 := 0
  mstatus : W64 := 0
  mtvec : W64 := 0
  stvec : W64 := 0
  mscratch : W64 := 0
  sscratch : W64 := 0
  mepc : W64 := 0
  sepc : W64 := 0
  mcause : W64 := 0
  scause : W64 := 0
  mtval : W64 := 0
  stval : W64 := 0
  medeleg : W64 := 0
  mideleg : W64 := 0
  mie : W64 := 0
  mip : W64 := 0             -- the software-writable bits
  mcounteren : W64 := 0
  scounteren : W64 := 0
  fcsr : W64 := 0
  minstretOff : W64 := 0     -- minstret less the lanes dispatched
  deriving DecidableEq, Repr

/-- The layout record that an entry uses (R40): captured, or still to be loaded by the `l.lay` at a queue position. -/
inductive LayRef where
  | none
  | known (r : LayRec)
  | dep (n qpos : Nat)
  deriving DecidableEq, Repr

/-- A fault that an entry, a stream, the CBU or a watch entry holds (R125, R340). -/
structure FaultInfo where
  code   : Nat
  va     : W64
  cursor : W64
  detail : W64
  deriving DecidableEq, Repr

/-- An accumulator: elements by 128 i + j, mode 0 none, 1 float, 2 integer, M and N of its last nest (R206, R209). -/
structure Acc where
  el   : Tbl W32 := []
  mode : Nat := 0
  mn   : Option (Nat × Nat) := none
  deriving DecidableEq, Repr

/-- A window accumulator (R169). Rows are lists of 64 lanes. -/
structure Win where
  op    : Nat := 0
  len   : Nat := 0
  front : List (List W32) := []      -- front[0] first
  back  : List (List W32) := []      -- back[0] first
  bagg  : List W32 := []
  deriving DecidableEq, Repr

/-- Effects of an entry that take place when it finishes (R142). -/
inductive Eff where
  | v (r : Nat) (m : Mask) (t : Tile)         -- the elements of register r that m governs
  | k (r : Nat) (m : Mask)
  | w (r : Nat) (w : Win)
  | lay (n : Nat) (r : LayRec)
  | iq (q id : Nat) (t : Tile)
  | oq (q : Nat) (t : Tile)
  | cq (vals : List W64)
  | scales (at0 : Nat) (vals : List W32)
  | nest (n : Nat) (v : W64)                  -- shadow register
  | bind (n : Nat) (v : W64) (r : LayRec)     -- shadow binding: offset and record
  | gather (l : List W32)
  | scratch (l : List (Nat × Nat × Nat))      -- key, width, value
  deriving DecidableEq, Repr

/-- The progress of a matrix nest (R185, R187, R208). -/
structure NestRun where
  regs   : Tbl W64                       -- active set captured at issue; 8 to 10 hold the offsets
  recs   : Tbl LayRec
  gather : List W32
  tile   : Nat := 0                      -- ordinal of the index vector
  block  : Nat := 0                      -- k-block
  stage  : Nat := 0                      -- 0 before a tile's first step, 1 in its loop, 2 retirement pending, 3 retiring
  tick   : Nat := 0                      -- first tick of the block, of the retirement, or of its end or next push
  steps  : List (List W32 × List W32) := []   -- operands of the block's steps so far: column of A, row of B
  pushed : Nat := 0                      -- oq elements pushed of a retirement
  stalled : Bool := false                -- the stall before the tile's first step has been counted (R189)
  deriving DecidableEq, Repr

/-- An entry of an engine queue (R26, R40, R115, R342). -/
structure Entry where
  instr    : Instr
  word     : W32
  xa       : W64
  xb       : W64
  bankfmt  : W64
  satp     : W64
  mode     : Mode
  lay      : LayRef          -- the record of the lay field
  lay2     : LayRef          -- the record that the register field names, for C destinations
  qpos     : Nat             -- lanes dispatched to the queue before it
  iqId     : Option (Nat × Nat)            -- iq and element reserved at dispatch (R41)
  elems    : List (Nat × Tile)             -- popped elements: iq q as q, oq q as 8 + q
  popped   : Bool            -- tokens and operands have been popped
  issued   : Option Nat
  more     : Option Nat      -- tick of its next step, none once it has taken all
  minFin   : Nat             -- it finishes no earlier than this tick, and once its messages have been performed
  msgs     : List Nat        -- messages that its homes have not yet performed
  sent     : List OutStore   -- its store messages whose VT answers have not returned
  vt       : Nat             -- largest VT answered of its stores
  got      : Tbl Nat         -- data of its loads, by access number
  cursor   : Nat             -- blocks, elements or steps done
  mask     : W64             -- destinations of a c.mcast still pending
  mask2    : W64             -- of these, those that failed the check
  fault    : Option FaultInfo
  recorded : Bool            -- its record stands in the fault buffer
  effs     : List Eff
  nest     : Option NestRun
  flags    : Nat             -- flags raised so far
  pushWait : Bool            -- finished, its pushes still to be made (R33)
  unassigned : Bool := false             -- loaded from an image whose lane word is not assigned (R66, R345)
  after    : Nat := 0                    -- tick of the last control-core store that its accesses follow (R80, R126)
  held     : List Part := []             -- parts of its store that follow once those that may be refused are performed (R125)
  deriving DecidableEq, Repr

/-- An engine queue with its counts (R16, R341). -/
structure Queue where
  q        : List Entry := []
  disp     : Nat := 0        -- lanes dispatched to it in the iteration
  ret      : Nat := 0        -- entries retired in the iteration
  nextIss  : Nat := 0        -- first tick at which V may issue again (R143)
  lastFin  : Nat := 0        -- finish tick of the entry before (R16)
  layBy    : Tbl Nat := []   -- for L: 1 + position of the last l.lay dispatched to each layN, 0 for none
  deriving DecidableEq, Repr

/-- An element of an inbound data queue: reserved, or arrived at a tick (R41). -/
structure IqEl where
  id   : Nat
  strm : Bool := false       -- an element of a stream
  busy : Bool := false       -- being written
  el   : Option (Tile × Nat)
  deriving DecidableEq, Repr

/-- A stream bound to an iq (R219). -/
structure Stream where
  total   : Nat
  pos     : Nat                    -- its elements come before reserved positions from here on
  arrived : Nat
  popped  : Nat
  lrec    : LayRec
  off     : W64
  satp    : W64
  mode    : Mode
  sent    : Bool := false    -- the next element has been requested
  asked   : List Nat := []   -- its messages under way
  got     : Tile := []       -- its data
  till    : Nat := 0         -- the tick before which its passes over the own scratchpad last
  fault   : Option FaultInfo
  recorded : Bool
  deriving DecidableEq, Repr

structure Iq where
  els    : List IqEl := []
  nextId : Nat := 0
  stream : Option Stream := none
  deriving DecidableEq, Repr

/-- An outbound data queue: places in order, each reserved or pushed at a tick (R43). -/
structure Oq where
  els : List (Option (Tile × Nat)) := []
  deriving DecidableEq, Repr

/-- The monitor of a room (R325). -/
structure Mon where
  line  : Nat
  va    : Option W64      -- none after a `q.load`, which restores the physical line only
  home  : Bool
  leased : Bool           -- its line is leased, so that a copy of it can end
  ended  : Bool := false  -- a waiting room's copy had ended by the end of the last tick (R326)
  deriving DecidableEq, Repr

/-- A reservation of LR (R329). -/
structure Resv where
  line  : Nat
  till  : Nat
  deriving DecidableEq, Repr

/-- The tag of a scratchpad saved lazily (R346): area, address and pages of the image, bytes. -/
structure SpTag where
  area  : W64
  job   : Nat
  base  : W64
  pages : List Part
  size  : Nat
  deriving DecidableEq, Repr

/-- An origin-counter slot (R331). -/
structure Origin where
  handle : W64
  count  : W64
  open_  : Nat             -- puts of the room to the handle that have not finished
  free   : Bool            -- freed when they finish (R332)
  deriving DecidableEq, Repr

/-- The passes that an entry, or the stream of an iq, still takes over the own scratchpad, by tick (R194). -/
structure Plan where
  eng   : Eng                          -- in whose field of BCONF its conflict ticks count
  qpos  : Nat
  strm  : Option Nat                   -- the iq of a stream
  ticks : List (Nat × BitVec 16)       -- the banks that it holds at each tick
  deriving DecidableEq, Repr

/-- A room: control core, five engines and their registers (R15, R37). -/
structure Room where
  run      : Option Run := none
  lastJob  : Option Nat := none
  claim    : Option Nat := none
  mode     : Mode := .m
  pc       : W64 := 4
  line     : Option (W64 × BitVec 256) := none
  nextDispatch : Nat := 0
  hold     : Hold := .none
  x        : Tbl W64 := []
  f        : Tbl W64 := []
  outs     : List Out := []
  late     : Option (Nat × Nat) := none   -- the x register that a `bnet` wrote, and the first tick at which it can be read
  misuse   : List Misuse := []           -- exceptions to be taken at the next lane boundary, oldest first
  csr      : Csrs := {}
  qslip    : W64 := 0
  qwmark   : W64 := 0
  cqTry    : Bool := false
  vflags   : W64 := 0
  vflNew   : W64 := 0               -- flags raised in this tick, which no read sees yet (R109)
  bankfmt  : W64 := 0
  bconf    : W64 := 0
  hz       : Nat := 0
  stores   : List OutStore := []
  keybase  : W64 := 0
  keyctl   : W64 := 0
  keyRes   : W64 := 0               -- KEYCTL as the command under way leaves it
  barrec   : W64 := 0
  qseq0    : W64 := 0
  qseq1    : W64 := 0
  qseq2    : W64 := 0
  faultrec : W64 := 0
  disp     : Nat := 0               -- lanes dispatched in the iteration
  ql       : Queue := {}
  qv       : Queue := {}
  qs       : Queue := {}
  qm       : Queue := {}
  qc       : Queue := {}
  tok      : Tbl Nat := []          -- the 16 counters in the order of R31
  tokS     : Tbl Nat := []          -- pushes of this tick, which no pop sees yet (R34)
  rel      : List Nat := []         -- for each X to C token not popped, the tick of the last store that its `tsig` releases (R80)
  v        : Tbl Tile := []
  k        : Tbl Mask := []
  z        : Tbl Acc := []
  w        : Tbl Win := []
  lay      : Tbl LayRec := []
  nestS    : Tbl W64 := []          -- shadow set; 8 to 10 hold the captured offsets
  recS     : Tbl LayRec := []
  nestA    : Tbl W64 := []          -- active set
  recA     : Tbl LayRec := []
  gather   : List W32 := []
  bnet     : Tbl (Tbl (BitVec 7)) := []   -- entries that nothing has written are 127 (R87)
  scales   : Tbl W32 := []
  iq       : Tbl Iq := []
  oq       : Tbl Oq := []
  cq       : List (W64 × Nat) := []
  cqRes    : Nat := 0
  posts    : List (W64 × Nat) := []       -- stair posts waiting (R45): value, posting tick
  tag      : Option SpTag := none
  mon      : Option Mon := none
  monWoke  : Bool := false
  resv     : Option Resv := none
  scFails  : Nat := 0                     -- SCs that have failed in a row with no other agent's store to their line (R329)
  origins  : List Origin := []
  pre      : Bool := false                -- interrupt 18 requested (R347)
  mHeld    : Bool := false                -- M engine held for pre-emption (R348)
  mSoon    : Bool := false                -- interrupt 18 is taken in this tick (R348)
  banks    : Tbl (BitVec 16) := []        -- banks of its scratchpad held by tick, from the present one on (R194)
  plans    : List Plan := []              -- the passes under way, whose banks are among these
  lastDue  : Tbl Nat := []                -- due tick of its last message by class, which keeps its messages in order
  mLast    : Nat := 0                     -- last k-step taken by an m.go (R188)
  dying    : Option (Option Nat × List (BitVec 256)) := none   -- ended by a kill or a trap: K once reached, journal records (R349, R350)
  freeFrom : Nat := 0                     -- the tick from which it is free again (R242)
  deriving DecidableEq, Repr

/-- A leased copy of a line (R284): bytes, last tick of the lease, and in an attic slice its way (R202); no bytes: no copy. -/
structure Copy where
  bytes : List Byte := []
  lend  : Nat := 0
  way   : Nat := 0
  deriving DecidableEq, Repr

/-- A stair (R199 to R203, R221, R390). -/
structure Stair where
  act     : Nat := 0                  -- which half is active
  swap    : Option (Nat × Nat) := none   -- pending swap: tick, room (R221)
  swapAt  : Option Nat := none        -- the last tick at which a pending swap came to its end (R221)
  waypart : Nat := 16
  changes : List (Nat × Nat × Nat) := []   -- WAYPART changes under way: value, change tick, room (R203)
  level   : Tbl Nat := []             -- throttle level by tenant (R390)
  deriving DecidableEq, Repr

/-- A pool slot (R52): state 0 FREE, 1 WRITING, 2 COMPLETE, 3 ABANDONED. -/
structure Slot where
  state : Nat := 0
  seq   : Nat := 0
  ct    : Nat := 0
  deriving DecidableEq, Repr

/-- A registered pool (R49, R52). -/
structure Pool where
  dpa     : Nat
  idx     : Nat              -- index in its wing's controller
  tenant  : Nat
  nslot   : Nat
  nread   : Nat
  base    : W64
  stride  : W64
  size    : Nat
  slots   : Tbl Slot := []
  held    : Tbl (Option Nat) := []
  holder  : Tbl (Option Nat) := []    -- room of the last acquirer
  wslot   : Option Nat := none
  writer  : Option Nat := none
  wIter   : Nat × Nat := (0, 0)       -- the writer's iteration: job and ORD
  hIter   : Tbl (Nat × Nat) := []     -- the iteration of each reader's last acquirer
  ncommit : Nat := 0
  deriving DecidableEq, Repr

/-- A key region (R291 to R293). -/
structure Key where
  slot     : Nat
  base     : Nat
  lsz      : Nat
  keyq     : Nat
  holder   : Option Nat := none
  since    : Nat := 0
  queue    : List Nat := []
  passing  : Option Nat := none       -- K of a pass under way
  maxVt    : Nat := 0
  buffered : List MemMsg := []        -- stores of the holder not yet drained, oldest first
  unperf   : List Nat := []           -- drained stores that their homes have not performed
  draining : List (Nat × Nat) := []   -- drained stores whose answers have not returned, with their rooms
  deriving DecidableEq, Repr

/-- A constraint record in the CBU (R223, R251). -/
structure CRec where
  pos     : Nat
  bodies  : List Nat           -- the four IDs
  payload : W32
  deriving DecidableEq, Repr

/-- A member of the current batch (R251). -/
structure CMem where
  pos     : Nat
  payload : W32
  holder  : Option Nat         -- the room that holds it
  done    : Bool
  counted : Bool
  at_     : Nat := 0             -- tick at which its retirement counts
  iter    : Nat × Nat := (0, 0)  -- the holder's iteration: job and ORD
  deriving DecidableEq, Repr

/-- The stream bound to a wing's CBU (R251). -/
structure Cbu where
  room    : Nat                  -- the opening room
  tenant  : Nat
  base    : W64
  satp    : W64
  mode    : Mode
  count   : Nat
  ordered : Bool
  hz      : Nat                  -- horizon carried by the open (R252)
  cursor  : Nat := 0
  window  : List CRec := []
  forming : List CRec := []
  closed  : List (List CRec) := []
  cur     : Nat := 0
  members : List CMem := []
  endSeen : BitVec 64
  ended   : Bool := false
  halt    : Option FaultInfo := none
  recorded : Bool := false
  asked   : Option Nat := none   -- the message that reads the next record
  got     : Option (BitVec 128) := none   -- its bytes
  passAt  : Nat := 0             -- first tick of the next formation pass (R254)
  readAt  : Nat := 0             -- first tick of the next record read
  deriving DecidableEq, Repr

/-- A record of a wing's fault buffer (R340). -/
structure FRec where
  slot   : Nat
  bits   : BitVec 256
  tenant : Nat
  room   : Nat                   -- 256 when none is named
  src    : FaultSrc
  area   : Option W64 := none    -- the save area that holds its entry
  deriving DecidableEq, Repr

/-- A wing. -/
structure Wing where
  pcmd     : W64 := 0
  pres     : W64 := 0
  pcmdRes  : W64 := 0                 -- PRES as the command under way leaves it
  pcmdBy   : Option Nat := none       -- the tick by which a command that waits for its slot completes (R50, R245)
  pools    : List Pool := []
  stairown : W64 := 0
  atticctl : W64 := 0
  atticpart : W64 := 0xFEDCBA9876543210#64
  cfgBusy  : Bool := false
  cfgRef   : Bool := false
  keys     : List Key := []
  cbu      : Option Cbu := none
  cbuHeld  : List CbuReq := []        -- held pulls and the requests held behind them (R224)
  faults   : List FRec := []          -- in the order of writing
  hours    : W32 := 0xFFFFFFFF#32
  powered  : W32 := 0
  worn     : Nat := 0                 -- ticks that the wing has been powered before the last reset (R387)
  nearEnd  : Bool := false            -- HOURS has fallen below 1,000 (R395)
  deriving DecidableEq, Repr

/-- The state of a job in the hall. -/
structure Parked where
  gang    : Nat
  members : List (Nat × W64 × W64)       -- ORD, area, RESUME
  depth   : Nat := 0                     -- depth that a thread's stores carry
  deriving DecidableEq, Repr

structure Job where
  handle  : Nat
  record  : LaunchRec
  watch   : Option Nat := none           -- its watch entry (R262)
  order   : Nat := 0                     -- 1 + tick of its admission; 0 while its record waits in a queue
  next    : Nat := 0                     -- gangs started
  ended   : Nat := 0                     -- iterations ended or failed
  failed  : Bool := false
  closing : Bool := false                -- no further gang starts: killed, or the entry disarmed
  endHz   : Nat := 0                     -- largest end horizon (R93)
  parked  : List Parked := []
  recs    : List (List (BitVec 256)) := []   -- journal records still to be added before it completes, by iteration (R350, R380)
  late    : List (Nat × Nat) := []       -- stores of ended iterations whose visibility times are not known: room and number (R236)
  deriving DecidableEq, Repr

/-- A record waiting in a launch queue (R233, R237). -/
structure Queued where
  handle  : Nat
  record  : LaunchRec
  entered : Nat
  since   : Option Nat := none           -- slot boundary at which the head became eligible
  deriving DecidableEq, Repr

/-- A pending trigger of a watch entry (R263, R270, R272). -/
structure Trig where
  count : Nat
  depth : Nat
  line  : W64
  vt    : Nat
  wait  : List Nat := []                 -- counted stores whose VT is not yet known
  deriving DecidableEq, Repr

/-- A watch entry (R265, R276): state 1 armed, 2 disabled. -/
structure WEntry where
  state   : Nat
  tenant  : Nat
  wing    : Nat
  room    : Nat                          -- the arming room
  image   : BitVec 1024
  lines   : List Nat
  job     : Nat
  pend    : Option Trig := none
  fresh   : List Trig := []              -- stores of this tick behind it, each as a trigger of its own (R270)
  ranAt   : Option Nat := none           -- the tick of its RUNAWAY (R274)
  overRate : Bool := false
  started : Nat := 0
  silent  : Nat := 0
  total   : Nat := 0
  runaway : Option (Bool × Nat × Nat) := none   -- a record still to be written: rate, room, queue
  deriving DecidableEq, Repr

/-- A window of the window table (R330). -/
structure Window where
  open_  : Bool := false
  tenant : Nat := 0
  base   : W64 := 0
  size   : Nat := 0
  sys    : Bool := false
  pages  : List Part := []
  gen    : Nat := 0
  target : W64 := 0
  deriving DecidableEq, Repr

/-- A replica entry (R305). -/
structure Replica where
  base : Nat
  size : Nat
  type : Nat
  list : List (Nat × Nat)
  deriving DecidableEq, Repr

/-- A leaf held by a TLB (R356): PTE, level, place of the page. -/
structure Tlb where
  tenant : Nat
  asid   : Nat
  vpn    : Nat               -- VA[54:16]
  level  : Nat
  pte    : W64
  deriving DecidableEq, Repr

/-- A barrier wait held at an MSAU (R321). -/
structure BarHeld where
  key  : Nat
  room : Nat
  id   : Nat
  deriving DecidableEq, Repr

/-- A store that waits for a BIRsp (R297): with the parts that it wrote, the visibility time that its leases give, and the
lines whose monitors it wakes. -/
structure BiWait where
  msg  : MemMsg
  vt   : Nat
  wake : List Nat
  deriving DecidableEq, Repr

/-- A bridge granule of 64 bytes: 1 E, 2 M; order of its line's last write, tenant of the last writer (R295, R298). -/
structure Gran where
  st     : Nat := 0
  order  : Nat := 0
  tenant : Nat := 0
  deriving DecidableEq, Repr

/-- The hall and the ports of R402. -/
structure Hall where
  notices  : List (Nat × Nat) := []      -- failure notices sent on the Nuldolink ports: port, tick (R393)
  lres     : Tbl W64 := []
  events   : Tbl W64 := []
  lcfg     : Tbl W64 := []               -- by tenant; an unlisted tenant reads AGELIMIT 8
  tsatp    : Tbl W64 := []
  queues   : Tbl (List Queued) := []     -- by 64 tenant + queue
  rr       : Tbl Nat := []               -- by 8 tenant + priority (R237)
  nextHandle : Nat := 1
  jobs     : List Job := []              -- incomplete jobs
  journal  : Tbl (List (BitVec 256)) := []
  cal      : Tbl (BitVec 512) := []      -- by unit; an unlisted unit has every slot open
  calNew   : Tbl (Option (BitVec 512)) := []
  rot      : Tbl Nat := []
  filt     : Tbl (BitVec 128) := []
  filtCnt  : Tbl Nat := []
  watch    : Tbl (Option WEntry) := []
  disarmed : List (Nat × WEntry) := []   -- freed entries whose RUNAWAY is still to be recorded (R340)
  faultOrder : List FaultSrc := []       -- sources whose faults wait to be recorded, in the order of the faults (R340)
  windows  : Tbl Window := []
  logs     : List (BitVec 256) := []     -- the newest last, at most 65,536
  logNext  : Nat := 0
  linkUp   : BitVec 4 := 0
  linkLost : BitVec 4 := 0
  orphbase : W64 := 0
  orphcnt  : Nat := 0
  dropcnt  : Nat := 0
  incsel   : W64 := 0
  inc      : Tbl Nat := []
  tiertab  : W64 := 0
  tierHeld : Tbl (Option W64) := []
  tierMap  : Tbl W64 := []               -- entry under which a block's bytes last stood in the tier (R299)
  prBusy   : Bool := false
  trapvec  : W64 := 0
  migsrc   : W64 := 0
  migdst   : W64 := 0
  migPages : Nat × Nat := (0, 0)         -- source and destination of the present migration, as its seal found them (R359)
  migStat  : Nat := 0
  migSeal  : Nat := 0
  mdb      : Tbl W64 := []
  chb      : Tbl W64 := []
  flb      : Tbl W64 := []
  fcnt     : Tbl Nat := []
  zfbase   : W64 := 0
  zfsize   : W64 := 0
  zfStat   : Nat := 0
  zfOn     : Bool := false               -- a fill is under way (R367)
  zfMark   : Nat := 0
  zfVt     : Nat := 0
  heatS    : Nat := 8
  heatD    : Nat := 4
  heatNew  : Option (Nat × Nat) := none
  powerHigh : Bool := false              -- package power has exceeded 2,650 W and not yet fallen below 2,550 W (R390)
  mbop     : Nat := 0
  mbstat   : W64 := 0
  mbNext   : W64 := 0                    -- MBSTAT once the command under way completes
  mbarg    : Tbl W64 := []
  mbres    : Tbl W64 := []
  replSwitch : Tbl (Option Replica) := []
  replHall   : Tbl (Option Replica) := []
  deriving DecidableEq, Repr

/-- Whose meaning the next step runs for the acting room: a lane at dispatch, or the head entry of an engine. -/
inductive Act where
  | lane
  | entry (e : Eng)
  deriving DecidableEq, Repr

/-- A save area (R345): its address, its job, the room that wrote it. -/
structure Area where
  area : W64
  job  : Nat                                        -- the handle in its header
  own  : Nat := 0                                   -- the job of the iteration that saved it
  room : Nat
  mon  : Option Mon := none                         -- the monitor that its room had armed (R343)
  gos  : List NestRun := []                         -- what the `m.go` in flight had captured, in queue order
  left : List (Nat × Nat × Nat × W32) := []         -- entries that a kill discards with it: queue, QPOS, FCODE, lane word (R350)
  deriving DecidableEq, Repr

/-- The rooms that a `job.kill` ends, those of its parked iterations, and the room that dispatched it. -/
structure KillOrder where
  rooms  : List Nat
  parked : List (Nat × Nat × Nat)   -- room, job and ORD
  kroom  : Nat
  deriving DecidableEq, Repr

/-- The KH-1. -/
structure State where
  tick     : Nat := 0
  boot     : Nat := 1                   -- bring-up step (R396)
  bootStop : Bool := false
  warm     : Bool := false              -- a warm restart, which skips HBM4E training (R393)
  outOfService : Bool := false
  detect   : Option Nat := none         -- F of a part failure (R393)
  mappedRooms  : List Nat := []
  mappedStairs : List Nat := []
  errCount : Tbl (Nat × Nat) := []      -- corrected errors by part, and 1 + the 2^32-tick span of its last record (R391)
  errSeen  : Tbl (List (Nat × Nat)) := []   -- addresses of uncorrectable errors by part and bank, with their ticks (R392)
  pkgNum   : Nat := 0
  firmware : Nat := 0
  agenda   : List (Nat × Instr) := []   -- messages and outside events under way: due tick, step
  phase    : Nat := 0                   -- what the tick still has to do (Step.lean)
  act      : Act := .lane
  turn     : Nat := 0                   -- the acting room
  fresh    : Nat := 0                   -- counter of the free values
  seq      : Nat := 0                   -- serial number of messages
  areas    : List Area := []            -- rooms whose contexts save areas hold
  ending   : List KillOrder := []       -- kills dispatched in this tick, which end their rooms after its lanes (R336)
  rooms    : Tbl Room := []             -- an unlisted room is idle, as at reset
  stairs   : Tbl Stair := []
  wings    : Tbl Wing := []
  mem      : Memory := []               -- every byte of the package and its hosts, by key (Ops.lean)
  lend     : Tbl Nat := []              -- LEND by line (R284)
  copies   : Tbl Copy := []             -- leased copies, by holder and line
  poison   : Tbl Bool := []             -- poisoned granules of 128 bytes
  hostHeld : Tbl Bool := []             -- host-held bits by 64-byte granule (R297)
  heldBy   : Tbl Nat := []              -- CXL port whose host holds a granule (R297, R301)
  birsp    : Tbl (List BiWait) := []    -- stores waiting for a BIRsp, by granule (R297)
  msauQ    : Tbl (List Instr) := []     -- requests that wait at an MSAU, by channel, oldest first (R289)
  msauAt   : Tbl Nat := []              -- 1 + tick in which an MSAU last performed a request, by channel (R289)
  barObjs  : Tbl Bool := []             -- barrier objects, by key (R317)
  grans    : Tbl Gran := []             -- bridge half states by 64-byte granule
  marks    : Tbl Bool := []             -- directory marks (R296)
  waiting  : List MemMsg := []          -- messages that wait at the bridge for a granule
  waitAtom : List AtomMsg := []         -- atomics that wait at the bridge or the tier directory for a granule
  snoops   : List Nat := []             -- granules with a snoop to answer (R295)
  barHeld  : List BarHeld := []
  mons     : Tbl (List Nat) := []       -- rooms with a monitor registered, by line
  tlb      : List Tlb := []
  heat     : Tbl (Nat × Nat) := []      -- count, epoch by page (R362)
  down     : Tbl (Option Nat) := []     -- down-counters by unit; none: just reloaded
  cohOut   : Tbl (List Nat) := []       -- due ticks of the coherence messages under way, by sending agent (R285)
  misses   : List (Nat × Nat × Nat) := []   -- demand misses of this tick, in the order of R268: place, unit, page (R361)
  hall     : Hall := {}
  deriving DecidableEq, Repr

/-- A step that stops. -/
inductive Fault where
  /-- Raised by the step when an HBM4E stack or a hall table is lost: the package stays out of service (R392). Safe. -/
  | outOfService
  deriving DecidableEq, Repr

/-- An instruction without a meaning. -/
inductive Refusal where
  /-- Raised by an arm of Dispatch for a row that has no meaning yet. Safe: nothing is claimed about it. -/
  | notModelled (mnemonic : String)
  deriving DecidableEq, Repr

/-- The machine right after reset (R7, R396): bring-up at step 1, every table empty, every register at its reset
value. Values that the spec does not give are named in the log entries 1 to 9. -/
def State.reset : State := {}

end Sys2Proof.Machine
end

