-- ==== Sys2Proof/Machine/Ops.lean ====
section
/-! DEFINITION. The named operations over the state: parts of the machine, the agenda, registers, dispatch, answers,
the journal, ending an iteration, and taking and returning from an exception. -/

namespace Sys2Proof.Machine

/-- What a meaning answers. -/
abbrev Res := Host.Outcome State Fault Refusal

/-! ## Parts of the machine -/

def State.room (s : State) (r : Nat) : Room := tget {} s.rooms r
def State.setRoom (s : State) (r : Nat) (x : Room) : State := { s with rooms := tset {} s.rooms r x }
def State.modRoom (s : State) (r : Nat) (f : Room → Room) : State := s.setRoom r (f (s.room r))
def State.stair (s : State) (i : Nat) : Stair := tget {} s.stairs i
def State.setStair (s : State) (i : Nat) (x : Stair) : State := { s with stairs := tset {} s.stairs i x }
def State.modStair (s : State) (i : Nat) (f : Stair → Stair) : State := s.setStair i (f (s.stair i))
def State.wing (s : State) (w : Nat) : Wing := tget {} s.wings w
def State.setWing (s : State) (w : Nat) (x : Wing) : State := { s with wings := tset {} s.wings w x }
def State.modWing (s : State) (w : Nat) (f : Wing → Wing) : State := s.setWing w (f (s.wing w))
def State.modHall (s : State) (f : Hall → Hall) : State := { s with hall := f s.hall }

/-- Wing, stair and storey of a room (R4). -/
def wingOf (room : Nat) : Nat := room / 64
def stairOf (room : Nat) : Nat := 16 * (room / 64) + room % 16
def storeyOf (room : Nat) : Nat := room / 16 % 4
/-- The rooms of a stair, by storey. -/
def roomsOfStair (stair : Nat) : List Nat := (List.range 4).map fun st => 64 * (stair / 16) + 16 * st + stair % 16
def allRooms : List Nat := List.range 256
def allEng : List Eng := [.l, .v, .s, .m, .c]

/-- A room that is not mapped out (R392). -/
def State.inService (s : State) (r : Nat) : Bool := !s.mappedRooms.contains r
/-- Tenant of the running iteration; 0 when none runs. -/
def Room.tenant (x : Room) : Nat := match x.run with | some u => u.tenant | none => 0
/-- Depth that the room's stores carry (R272). -/
def Room.depth (x : Room) : Nat := match x.run with | some u => u.depth | none => 0
/-- SCRATCH of the running iteration (R241); 0 when none runs. -/
def Room.scratch (x : Room) : Nat := match x.run with | some u => u.scratch | none => 0

def Room.queue (x : Room) : Eng → Queue
  | .l => x.ql | .v => x.qv | .s => x.qs | .m => x.qm | .c => x.qc
def Room.setQueue (x : Room) (e : Eng) (q : Queue) : Room :=
  match e with
  | .l => { x with ql := q } | .v => { x with qv := q } | .s => { x with qs := q } | .m => { x with qm := q }
  | .c => { x with qc := q }
def Room.modQueue (x : Room) (e : Eng) (f : Queue → Queue) : Room := x.setQueue e (f (x.queue e))
/-! ## The agenda -/

/-- Place of a store in R268's order: rooms in increasing number, in each the control core, S, C and its puts; then atomics,
host writes, and puts of other packages. -/
def senderKey (m : MemMsg) : Nat :=
  match m.who with
  | .core => 10 + 8 * m.room
  | .eng .s => 11 + 8 * m.room
  | .eng .c => 12 + 8 * m.room
  | .eng _ => 10 + 8 * m.room
  | .atom => 4000
  | .host => 5000
  | .put => if m.room < 256 then 12 + 8 * m.room else 5001

/-- Order of steps that fall due in one tick: R14, R54 and R85 for a pool controller, R224 and R374 for a CBU, R235 for
events, R268 and R318 for an MSAU, R281 for the bridge; leases are granted after the stores of their tick, whose bytes they
carry (R286); `cb.stat` after every other CBU decision, of the units too (R373); the rest in order of sending. -/
def orderKey : Instr → Nat
  | .killPoolEffect _ => 0
  | .killCbuEffect _ => 0
  | .poolDecision r => match r.op with
    | .acq | .rel => 10 + min r.xs2.toNat 1000
    | .open | .commit | .drop => 2000
    | .stat => 3000
  | .cbDoneCount _ _ => 1
  | .cbuDecision r => match r.op with
    | .done => 10 + r.room % 64
    | .close => 100
    | .open => 101
    | .pull => 110 + r.room % 64
    | .stat => 20000
  | .jobComplete _ | .watchArmInstall _ => 0
  | .evset _ _ | .evclr _ _ => 1
  | .msauRequest m | .storeAtHome m => senderKey m
  | .putAccept m _ => senderKey m
  | .hostCxlMemAccess _ => 5000
  | .loadAtHome _ => 5500
  | .barrierRequest b => 10 + 8 * b.room
  | .cpfCredit _ => 5002
  | .msauAtomic a => (match a.fn with | .sc _ => 10 + 8 * a.room | _ => 4000)
  | .bridgeAtomic a => 10 + 8 * a.room
  | .watchOffDecision _ _ => 6000
  | .celSwapRequest r _ => 10 + r
  | _ => 4500

/-- Inserts a step into the agenda, kept in order of due tick, then of `orderKey`, then of sending. -/
def agendaInsert (l : List (Nat × Instr)) (due : Nat) (i : Instr) : List (Nat × Instr) :=
  match l with
  | [] => [(due, i)]
  | (d, j) :: r =>
    if d < due ∨ (d = due ∧ orderKey j ≤ orderKey i) then (d, j) :: agendaInsert r due i else (due, i) :: (d, j) :: r

/-- Puts a step on the agenda for a tick. -/
def State.schedule (s : State) (due : Nat) (i : Instr) : State := { s with agenda := agendaInsert s.agenda due i }

/-- Advances the counter of the free values. -/
def State.bump (s : State) : State := { s with fresh := s.fresh + 1 }
/-- A tick for something that the spec does not bind: at least one tick away. -/
def State.openTick (s : State) : Nat := s.tick + 1 + Config.openDelay s.fresh
/-- A tick for something bound by 64 ticks. -/
def State.boundedTick (s : State) : Nat := s.tick + 1 + Config.boundedDelay s.fresh % 63
/-- The arrival of a coherence-class message sent now (R285). -/
def State.cohTick (s : State) : Nat := s.tick + 1 + Config.messageDelay s.fresh % 64
/-- The arrival of a home's visibility answer: at most 64 ticks after it is sent (R285); R12's program has it back in the
tick in which the store is applied. -/
def State.vtTick (s : State) : Nat := s.tick + Config.messageDelay s.fresh % 65

/-- Class of a message: coherence (R285); data to the hall's units, to a scratchpad or a device from the control core or an
engine's queue, each of which keeps its order (R196, R335); puts; and requests that the MSAU of a channel serves (R289). -/
inductive MsgClass where | coh | data | core | eng (e : Eng) | put | msau (u : Nat)
  deriving DecidableEq, Repr
/-- Key of a class in `lastDue`. -/
def MsgClass.num : MsgClass → Nat
  | .coh => 0 | .data => 1 | .eng e => 2 + e.num | .put => 7 | .core => 9 | .msau u => 16 + u
/-- Keys in `lastDue` that are no class: the loads of the coherence class; what the stair bus brings of them; written-back
stores; the control core's stores in the data class. -/
def loadKey : Nat := 8
def landKey : Nat := 11
def writeBackKey : Nat := 14
def coreStoreKey : Nat := 13
def isLoad : Instr → Bool | .loadAtHome _ => true | _ => false
/-- A store, or an atomic, on its way. -/
def isStore : Instr → Bool | .storeAtHome _ | .msauAtomic _ | .bridgeAtomic _ => true | _ => false

/-- Earliest tick of a message behind the room's earlier messages of its class: in the coherence class at the tick of the
last, or, behind a load, after it, within the bound of R285; in the others after the last. -/
def Room.behind (x : Room) (now : Nat) (c : MsgClass) (load : Bool) : Nat :=
  let last := tget 0 x.lastDue c.num
  match c with
  | .coh => if load then last else max last (min (tget 0 x.lastDue loadKey + 1) (now + 64))
  | _ => last + 1

/-- The first attic landing of a room's storey at a tick or later: frame position 4s + 3 (R5). -/
def landing (room t : Nat) : Nat := t + (4 * storeyOf room + 19 - t % 16) % 16
/-- The last landing of a room's storey that is no later than `t` if the first from `d` on is later than `t`. -/
def landingBy (room d t : Nat) : Nat := if landing room d ≤ t then landing room d else landing room d - 16
/-- Messages that cross the stair bus (R201): attic scratchpad accesses, shadow writes, and the loads of engines that fill the
attic's cache. Written-back lines cross it too (`State.writeBack`). -/
def crossesStair : Instr → Bool
  | .loadAtHome m =>
    let eng := match m.who with | .eng _ => true | _ => false
    m.parts.any fun p => match p.place with | .attic _ => true | .hostC | .tier => eng | .hbm => eng && !p.ms | _ => false
  | .storeAtHome m =>
    (m.parts.any fun p => match p.place with | .attic _ | .shadow _ => true | _ => false) &&
      m.parts.all fun p => match p.place with | .hbm | .hostC | .tier => false | _ => true
  | _ => false

/-- The tick at which a room's message arrives, at `due` or later: behind the room's earlier messages of its class, and at a
landing if it crosses the stair bus. A fill of the attic's cache lands within the bound of R285, behind the fills before it;
it returns what the partition's own stores before it have written, whichever of them have arrived (R286). -/
def Room.arrival (x : Room) (r now : Nat) (c : MsgClass) (due : Nat) (i : Instr) : Nat :=
  if c = .coh ∧ crossesStair i then landingBy r (max due (tget 0 x.lastDue landKey)) (now + 64)
  else if crossesStair i then landing r (max due (x.behind now c (isLoad i)))
  else max due (x.behind now c (isLoad i))
/-- What `lastDue` notes of a message that arrives at tick d. -/
def noteDue (t : Tbl Nat) (c : MsgClass) (i : Instr) (d : Nat) : Tbl Nat :=
  if c = .coh ∧ crossesStair i then tset 0 t landKey d
  else
    let t := tset 0 t c.num d
    if c = .coh ∧ isLoad i = true then tset 0 t loadKey d
    else if c = .core ∧ isStore i = true then tset 0 t coreStoreKey d else t
/-- Inserts a tick in a rising list. -/
def insertTick (d : Nat) : List Nat → List Nat
  | [] => [d]
  | e :: l => if e ≤ d then e :: insertTick d l else d :: e :: l
/-- Due ticks of the coherence messages that an agent has under way. -/
def State.cohUnder (s : State) (agent : Nat) : List Nat := (tget [] s.cohOut agent).filter (s.tick < ·)
/-- The tick at which an agent of at most n coherence messages outstanding sends its next one: now, or as an earlier one arrives
(R285). -/
def State.leaves (s : State) (agent n : Nat) : Nat :=
  let l := s.cohUnder agent
  if l.length < n then s.tick else l.getD (l.length - n) s.tick
/-- A message of an agent, if it is one of the coherence class, is under way until a tick. -/
def State.noteCoh (s : State) (coh : Bool) (agent d : Nat) : State :=
  { s with cohOut := if coh then tset [] s.cohOut agent (insertTick d (s.cohUnder agent)) else s.cohOut }
/-- Whether a class is part of the coherence class (R285). -/
def MsgClass.isCoh : MsgClass → Bool | .coh | .msau _ => true | .data | .core | .eng _ | .put => false
/-- A room has 64 coherence messages outstanding: no lane and no entry of its begins to send (R285). -/
def State.cohFull (s : State) (r : Nat) : Bool := decide (64 ≤ (s.cohUnder r).length)
/-- Sends a message of a room, of the coherence class once fewer than 64 of its messages are outstanding. -/
def State.send (s : State) (r : Nat) (c : MsgClass) (due : Nat) (i : Instr) : State :=
  let t := if c.isCoh then s.leaves r 64 else s.tick
  let d := (s.room r).arrival r t c (due + (t - s.tick)) i
  (((s.modRoom r fun x => { x with lastDue := noteDue x.lastDue c i d }).schedule d i).noteCoh c.isCoh r d).bump
/-- A buffered store of a room goes to its home: one landing for each (R5, R201). It stays in the partition until it is sent, at
most 64 ticks before its landing (R285). -/
def State.writeBack (s : State) (m : MemMsg) : State :=
  let d := landing m.room (max (s.cohTick + (s.leaves m.room 64 - s.tick)) (tget 0 (s.room m.room).lastDue writeBackKey + 1))
  (((s.modRoom m.room fun x => { x with lastDue := tset 0 x.lastDue writeBackKey d }).schedule d (.storeAtHome m)).noteCoh
    true m.room d).bump

/-! ## The calendar (R244, R245) -/

/-- The table of a unit that nothing has written: every slot open. -/
def calOpen : BitVec 512 := 0x10101010101010101010101010101010101010101010101010101010101010101010101010101010101010101010101010101010101010101010101010101010#512
/-- Number of a unit: class and index of R244. -/
def calUnit (cls idx : Nat) : Nat := 256 * cls + idx
/-- Slot of a tick. -/
def slotOf (t : Nat) : Nat := t % 4096 / 64
/-- Service core 15, the scheduling processor: every slot of its fixed table is owned by tenant 0. -/
def schedulerUnit : Nat := calUnit 3 15
/-- Entry of a unit's table in the slot of tick t. -/
def State.calEntry (s : State) (u t : Nat) : BitVec 8 :=
  if u = schedulerUnit then 0 else (tget calOpen s.hall.cal u).extractLsb' (8 * slotOf t) 8
def calIsOpen (e : BitVec 8) : Bool := e.getLsbD 4
def calOwner (e : BitVec 8) : Nat := (e.extractLsb' 0 4).toNat
/-- Whether a unit may serve a tenant at tick t. -/
def State.mayServe (s : State) (u tenant t : Nat) : Bool :=
  let e := s.calEntry u t
  calIsOpen e || decide (calOwner e = tenant)
/-- The first tick from t on, and within its period, at which a unit may serve a tenant; with none, the start of the next period,
where another table may be in force (R246): whoever waits for it asks again then. -/
def State.serveTick (s : State) (u tenant t : Nat) : Nat :=
  let go (k : Nat) : Nat := if k = 0 then t else t - t % 64 + 64 * k
  match (List.range (64 - slotOf t)).find? fun k => s.mayServe u tenant (go k) with
  | some k => go k
  | none => t - t % 4096 + 4096

/-- Takes the next serial number. -/
def State.nextId (s : State) : State := { s with seq := s.seq + 1 }

/-! ## Registers of the control core -/

def Room.getX (x : Room) (r : Reg) : W64 := if r = 0 then 0 else tget 0 x.x r.toNat
/-- x0 discards every write (R37). -/
def Room.setX (x : Room) (r : Reg) (v : W64) : Room := if r = 0 then x else { x with x := tset 0 x.x r.toNat v }
def Room.getF (x : Room) (r : Reg) : W64 := tget 0 x.f r.toNat
def Room.setF (x : Room) (r : Reg) (v : W64) : Room := { x with f := tset 0 x.f r.toNat v }
/-- Whether a register waits for an answer (R9, R77). f registers are 32 to 63. -/
def Room.pendingReg (x : Room) (n : Nat) : Bool := n ≠ 0 && x.outs.any fun o => o.regs.contains n
def Room.pendingAny (x : Room) (l : List Nat) : Bool := l.any x.pendingReg
/-- Whether one of the registers holds a value that can be read only later: the result of `bnet` (R88). -/
def Room.lateAny (x : Room) (now : Nat) (l : List Nat) : Bool :=
  match x.late with | some (r, t) => decide (now < t) && r ≠ 0 && l.contains r | none => false
/-- Outstanding deferred answers (R77). -/
def Room.deferred (x : Room) : Nat := (x.outs.filter (·.deferred)).length
/-- Awaits an answer for registers. -/
def Room.await (x : Room) (id : Nat) (regs : List Nat) (deferred : Bool) (load : Bool := false) : Room :=
  { x with outs := x.outs ++ [{ id := id, regs := regs, deferred := deferred, load := load }] }
/-- Whether a control-core load has not yet been performed (R279, R312). -/
def Room.loadPending (x : Room) : Bool := x.outs.any (·.load)
def Room.answered (x : Room) (id : Nat) : Room := { x with outs := x.outs.filter fun o => o.id ≠ id }

/-! ## Dispatch -/

/-- The pc after a lane that does not branch (R21). -/
def nextPc (pc : W64) : W64 := if pc.toNat % 32 = 28 then pc + 8 else pc + 4
/-- A target at line offset 0 is taken as the lane at offset 4 (R22, R24). -/
def laneTarget (a : W64) : W64 := if a.toNat % 32 = 0 then a + 4 else a
/-- The lane has dispatched and the next dispatches a tick later (R9). -/
def Room.retire (x : Room) (now : Nat) : Room :=
  { x with pc := nextPc x.pc, nextDispatch := now + 1, hold := .none, disp := x.disp + 1 }
/-- A lane that held dispatch for the answer `id` completes with it. -/
def Room.freed (x : Room) (id now : Nat) : Room := if x.hold = .answer id then x.retire now else x
/-- The lane has dispatched and dispatch goes to `target`. -/
def Room.retireTo (x : Room) (now : Nat) (target : W64) : Room :=
  { x with pc := laneTarget target, nextDispatch := now + 1, hold := .none, disp := x.disp + 1 }
/-- The lane waits: it dispatches again at the next tick. -/
def Room.stall (x : Room) (now : Nat) : Room := { x with nextDispatch := now + 1 }
/-- The lane holds dispatch until the event that `h` names (R78). -/
def Room.holdOn (x : Room) (h : Hold) : Room := { x with hold := h }

/-- The acting room. -/
def State.me (s : State) : Room := s.room s.turn
def State.modMe (s : State) (f : Room → Room) : State := s.modRoom s.turn f
/-- The lane completes. -/
def State.done (s : State) : State := s.modMe fun x => x.retire s.tick
/-- The lane completes with a result in xd. -/
def State.doneX (s : State) (rd : Reg) (v : W64) : State := s.modMe fun x => (x.setX rd v).retire s.tick
/-- The lane waits a tick. -/
def State.wait (s : State) : State := s.modMe fun x => x.stall s.tick
/-- The lane holds dispatch. -/
def State.holdOn (s : State) (h : Hold) : State := s.modMe fun x => x.holdOn h

/-- Runs the rest of a lane once the registers that it reads can be read, and those that it writes wait for no answer (R9,
R77, R88). -/
def State.whenTo (s : State) (dest regs : List Reg) (f : Room → State) : State :=
  if s.me.pendingAny ((regs ++ dest).map (·.toNat)) || s.me.lateAny s.tick (regs.map (·.toNat)) then s.wait else f s.me
/-- Runs the rest of a lane that writes none of the registers it names only as a result. -/
def State.whenRegs (s : State) (regs : List Reg) (f : Room → State) : State := s.whenTo [] regs f

/-- Runs the rest of a lane with a deferred answer once fewer than 8 are outstanding (R77). -/
def State.whenSlot (s : State) (f : State) : State := if s.me.deferred < 8 then f else s.wait

/-- The lane word at the pc of a room, and its engine code (R17, R18). -/
def laneIndex (pc : W64) : Nat := pc.toNat % 32 / 4
def laneWord (line : BitVec 256) (k : Nat) : W32 := line.extractLsb' (32 * k) 32
def laneCode (line : BitVec 256) (k : Nat) : Nat := (line.extractLsb' (4 * k) 4).toNat
def Room.lineBits (x : Room) : BitVec 256 := match x.line with | some (_, b) => b | none => 0
def Room.curWord (x : Room) : W32 := laneWord x.lineBits (laneIndex x.pc)
def Room.curCode (x : Room) : Nat := laneCode x.lineBits (laneIndex x.pc)

/-! ## Keys of memory

Every byte of the package and of its hosts stands in one memory, under these keys: a physical address of R402 as it is
(HBM4E, the second tier, the replicated range), host physical addresses from 2^52, scratchpads, attic portions, cellar
halves and the plain bytes of compressed pages above. -/

def hostKey (pa : Nat) : Nat := 2 ^ 52 + pa
def scratchKey (room off : Nat) : Nat := 2 ^ 53 + room * 2 ^ 22 + off
def atticKey (stair off : Nat) : Nat := 2 ^ 53 + 2 ^ 32 + stair * 2 ^ 24 + off
/-- A half of a stair's cellar, by its physical storage (R199). -/
def cellarKey (stair half off : Nat) : Nat := 2 ^ 53 + 2 ^ 40 + (2 * stair + half) * 2 ^ 28 + off
/-- Plain bytes of the compressed page with metadata index mdx of a tenant (R363). -/
def cmpKey (tenant mdx off : Nat) : Nat := 2 ^ 54 + tenant * 2 ^ 53 + mdx * 2 ^ 16 + off
def lineOf (key : Nat) : Nat := key / 128
def granuleOf (key : Nat) : Nat := key / 64

/-- `n` bytes of memory at a key, little-endian. -/
def State.read (s : State) (key n : Nat) : Nat := s.mem.read key n
def State.write (s : State) (key n v : Nat) : State := { s with mem := s.mem.write key n v }

/-! ## The completion journal (R350) and the fault log (R395) -/

/-- A journal record. -/
def journalRec (handle room tenant kind failed cause fcode kroom : Nat) (ord tick lane : W64) : BitVec 256 :=
  lane ++ tick ++ ord ++
    (BitVec.ofNat 8 kroom ++ BitVec.ofNat 4 fcode ++ BitVec.ofNat 4 cause ++ 0#1 ++ BitVec.ofNat 1 failed ++
      BitVec.ofNat 2 kind ++ BitVec.ofNat 4 tenant ++ BitVec.ofNat 8 room ++ BitVec.ofNat 32 handle : W64)

def State.journalLen (s : State) (tenant : Nat) : Nat := (tget [] s.hall.journal tenant).length
def State.journalAdd (s : State) (tenant : Nat) (l : List (BitVec 256)) : State :=
  s.modHall fun h => { h with journal := tmod [] h.journal tenant (· ++ l) }

/-- A fault-log record. -/
def logRec (type : Nat) (tenant : Option Nat) (unit : Nat) (tick d0 d1 : W64) : BitVec 256 :=
  d1 ++ d0 ++ tick ++
    (0#32 ++ BitVec.ofNat 16 unit ++ 0#3 ++ BitVec.ofBool tenant.isSome ++ BitVec.ofNat 4 (tenant.getD 0) ++
      BitVec.ofNat 8 type : W64)

/-- Writes a fault-log record; the oldest of 65,536 is overwritten. -/
def State.logAdd (s : State) (r : BitVec 256) : State :=
  s.modHall fun h =>
    { h with logs := (if h.logs.length < 65536 then h.logs else h.logs.drop 1) ++ [r], logNext := h.logNext + 1 }

/-! ## Jobs -/

def State.job? (s : State) (h : Nat) : Option Job := s.hall.jobs.find? fun j => j.handle = h
def State.modJob (s : State) (h : Nat) (f : Job → Job) : State :=
  s.modHall fun x => { x with jobs := x.jobs.map fun j => if j.handle = h then f j else j }

/-- The visibility horizon HZ (R288). -/
def Room.horizon (x : Room) : Nat :=
  x.stores.foldl (fun a o => match o.bound with | some b => max a b | none => a) x.hz
/-- PEND of VHZ (R288). -/
def Room.vhzPend (x : Room) : Bool := x.stores.any fun o => o.bound.isNone
/-- The CSR VHZ. -/
def Room.vhz (x : Room) : W64 := BitVec.ofBool x.vhzPend ++ BitVec.ofNat 63 x.horizon

/-! ## Buffered stores into key regions (R293) -/

/-- A room holds buffered stores. -/
def State.buffers (s : State) (r : Nat) : Bool :=
  (s.wing (wingOf r)).keys.any fun k => k.holder = some r && !k.buffered.isEmpty
/-- Sends every buffered store of a key's holder to its home. -/
def drainKey (s : State) (w slot : Nat) : State :=
  match (s.wing w).keys.find? fun k => k.slot = slot with
  | none => s
  | some k =>
    let s := k.buffered.foldl State.writeBack s
    s.modWing w fun x => { x with keys := x.keys.map fun q =>
      if q.slot = slot then
        { q with buffered := [], unperf := q.unperf ++ k.buffered.map (·.id),
                 draining := q.draining ++ k.buffered.map fun m => (m.id, m.room) } else q }

/-- Drains the buffered stores of every key that a room holds (R288). -/
def State.drainRoom (s : State) (r : Nat) : State :=
  ((s.wing (wingOf r)).keys.filter fun k => k.holder = some r && !k.buffered.isEmpty).foldl
    (fun s k => drainKey s (wingOf r) k.slot) s

/-- A pass at this tick: drains the holder's stores; the handover follows once they are answered (R293). -/
def passKey (s : State) (w slot : Nat) : State :=
  let s := drainKey s w slot
  s.modWing w fun x => { x with keys := x.keys.map fun q =>
    if q.slot = slot ∧ q.passing.isNone then { q with passing := some s.tick } else q }

/-- Passes every key that a room holds, whether or not another room waits (R293: iter.end, q.save, a kill). -/
def State.passRoom (s : State) (r : Nat) : State :=
  ((s.wing (wingOf r)).keys.filter fun k => k.holder = some r).foldl (fun s k => passKey s (wingOf r) k.slot) s

/-- A room holds a key that it has not begun to pass. -/
def State.holdsKey (s : State) (r : Nat) : Bool :=
  (s.wing (wingOf r)).keys.any fun k => k.holder = some r && k.passing.isNone

/-- Removes a room from every queue for a key. -/
def State.leaveKeys (s : State) (r : Nat) : State :=
  s.modWing (wingOf r) fun x => { x with keys := x.keys.map fun k => { k with queue := k.queue.filter (· ≠ r) } }

/-! ## Ending an iteration by a kill or an unhandled trap (R349, R350, R401) -/

/-- Due ticks of the stores of rooms that are on their way. -/
def storesUnderWay (s : State) (rooms : List Nat) : List Nat :=
  s.agenda.filterMap fun (d, i) =>
    match i with
    | .storeAtHome m | .msauRequest m => if m.store && rooms.contains m.room then some d else none
    | .msauAtomic a | .bridgeAtomic a | .pcieAtomicCompletion a _ => if rooms.contains a.room then some d else none
    | .putAccept m _ => if rooms.contains m.room then some d else none
    | _ => none

/-- Whether stores of rooms wait at the bridge or at an MSAU. -/
def storesHeld (s : State) (rooms : List Nat) : Bool :=
  s.waiting.any (fun m => m.store && rooms.contains m.room) || (s.waitAtom.any fun a => rooms.contains a.room) ||
  s.msauQ.any fun q => q.2.any fun i => match i with
    | .msauRequest m => m.store && rooms.contains m.room
    | .msauAtomic a => rooms.contains a.room
    | _ => false

/-- Journal records of the entries that a kill discards, from the head of each queue in the order L, V, S, M, C. -/
def entryRecords (s : State) (r cause kroom : Nat) (tick : W64) : List (BitVec 256) :=
  let x := s.room r
  match x.run with
  | none => []
  | some u =>
    (allEng.map fun e => ((x.queue e).q.filter fun n => n.issued.isNone || n.fault.isSome).map fun n =>
      journalRec u.selfJob r u.owner 1 1 cause (match n.fault with | some f => f.code | none => 0) kroom
        (BitVec.ofNat 32 n.qpos ++ 0#29 ++ BitVec.ofNat 3 e.num) tick (0#32 ++ n.word)).flatten

/-- A room whose iteration ends at this tick by a kill: no lane dispatches and no entry issues from the next tick; the
entries not issued or held by faults, the deferred answers, the data queues and the control queue are discarded. The other
entries of L, V and S finish, a C entry goes on to its block's end, and an `m.go` to its k-block's (R349). -/
def deadRoom (x : Room) (recs : List (BitVec 256)) : Room :=
  let under (q : Queue) : Queue := { q with q := q.q.filter fun n => n.issued.isSome && n.fault.isNone }
  { x with
    outs := [], misuse := [], hold := .none, cq := [], cqRes := 0, posts := [], late := none,
    iq := [], oq := [], pre := false, mon := none, resv := none,
    ql := under x.ql, qv := under x.qv, qs := under x.qs, qm := under x.qm, qc := under x.qc, dying := some (none, recs) }

/-- A room that is killed gets no value of a swap that it has requested (R222); 256 is no room. -/
def State.dropSwap (s : State) (r : Nat) : State :=
  s.modStair (stairOf r) fun x => { x with swap := x.swap.map fun p => if p.2 = r then (p.1, 256) else p }
/-- Ends the iteration of a room, with its journal records; a lost iteration (CAUSE 2) has one (R394). Its fault records go (R340). -/
def endRoom (cause kroom : Nat) (tick lane : W64) (s : State) (r : Nat) : State :=
  match (s.room r).run with
  | none => s
  | some u =>
    let recs := (if cause = 2 then [] else entryRecords s r cause kroom tick) ++
      [journalRec u.selfJob r u.owner 0 1 cause 0 kroom (BitVec.ofNat 64 u.selfOrd) tick lane]
    let s := s.modWing (wingOf r) fun w => { w with faults := w.faults.filter fun f => f.room ≠ r || f.area.isSome }
    let s := s.modJob u.job fun j => { j with failed := true }
    (s.dropSwap r).modRoom r fun x => deadRoom x recs

/-- The iteration that a room runs, by job and ORD. -/
def Room.iter (x : Room) : Nat × Nat := match x.run with | some u => (u.job, u.ord) | none => (0, 0)
/-- Ends the iterations of `rooms`: the effects on pools and CBUs are sent for a tick K at least two ticks away, after
every store of the rooms has been applied (R61, R336, R374), their buffered ones too (R293), and the rooms are free from K + 1
(R349). What discarded parked iterations held (by room, job and ORD) goes with them. -/
def endRooms (s : State) (rooms : List Nat) (parked : List (Nat × Nat × Nat)) (cause kroom : Nat) (lane : W64) : State :=
  let live := rooms.filter fun r => (s.room r).run.isSome && (s.room r).dying.isNone
  if live = [] ∧ parked = [] then s
  else
    let q : KillReq := { rooms := live, parked := (parked.map (·.1)).filter fun r => (s.room r).run.isNone,
                         iters := live.map (fun r => (s.room r).iter) ++ parked.map (·.2), cause := cause, kroom := kroom,
                         tick := s.tick }
    let s := live.foldl (fun s r => (s.drainRoom r).leaveKeys r) s
    let last := (storesUnderWay s live).foldl max s.tick
    let k := max (s.tick + 2) (last + 1 + Config.boundedDelay s.fresh % 63)
    let s := live.foldl (endRoom cause kroom (BitVec.ofNat 64 s.tick) lane) s
    (s.schedule k (.killPoolEffect { q with till := some (last + 64) })).bump

/-! ## Taking a trap (R24, R28, R338, R339, R341, R401) -/

/-- A trap: interrupt or exception, code, xtval, and for a device exception the address for FAULTREC. -/
structure Trap where
  int  : Bool
  code : Nat
  tval : W64
  lane : Option W64 := none
  outc : Nat := 0
  deriving DecidableEq, Repr

/-- xcause of a trap. -/
def Trap.cause (t : Trap) : W64 := BitVec.ofBool t.int ++ BitVec.ofNat 63 t.code

/-- Whether a trap of a room in its mode is taken into S mode: delegated, and not from M mode. -/
def trapToS (x : Room) (t : Trap) : Bool :=
  x.mode ≠ .m && (if t.int then x.csr.mideleg else x.csr.medeleg).getLsbD t.code

/-- The lane reached from `a` by `n` steps of R21. -/
def stepPc (a : W64) : Nat → W64
  | 0 => a
  | n + 1 => stepPc (nextPc a) n

/-- The handler's lane address for a trap vector. -/
def handlerPc (tvec : W64) (t : Trap) : W64 :=
  let base := laneTarget (tvec &&& ~~~3#64)
  if t.int ∧ tvec.extractLsb' 0 2 = 1 then stepPc base t.code else base

/-- Sets a bit field of a word. -/
def setField (w : W64) (lo n : Nat) (v : Nat) : W64 :=
  (w &&& ~~~(BitVec.ofNat 64 ((2 ^ n - 1) * 2 ^ lo))) ||| BitVec.ofNat 64 (v % 2 ^ n * 2 ^ lo)
def getField (w : W64) (lo n : Nat) : Nat := w.toNat / 2 ^ lo % 2 ^ n

/-- FAULTREC (R339). -/
def faultRecWord (lane : W64) (code outc : Nat) : W64 :=
  0#3 ++ BitVec.ofNat 2 outc ++ BitVec.ofNat 4 (code - 48) ++ lane.extractLsb' 0 55

/-- The counts of R341, as QSEQ0 to QSEQ2. -/
def Room.cut (x : Room) : W64 × W64 × W64 :=
  (BitVec.ofNat 32 x.qv.ret ++ BitVec.ofNat 32 x.ql.ret, BitVec.ofNat 32 x.qm.ret ++ BitVec.ofNat 32 x.qs.ret,
   BitVec.ofNat 32 x.disp ++ BitVec.ofNat 32 x.qc.ret)

/-- The registers of a room after a trap with xepc `epc`: the saved pc and status, the cause, the mode, the cut, and the
pc at the handler. A hold ends without effect (R78). Interrupt 18 holds the M engine (R348). -/
def enterTrap (x : Room) (now : Nat) (t : Trap) (epc : W64) : Room :=
  let c := x.csr
  let toS := trapToS x t
  let c := if toS then
      { c with sepc := epc, scause := t.cause, stval := t.tval,
               mstatus := setField (setField (setField c.mstatus 5 1 (getField c.mstatus 1 1)) 1 1 0) 8 1
                 (match x.mode with | .u => 0 | _ => 1) }
    else
      { c with mepc := epc, mcause := t.cause, mtval := t.tval,
               mstatus := setField (setField (setField c.mstatus 7 1 (getField c.mstatus 3 1)) 3 1 0) 11 2
                 (match x.mode with | .u => 0 | .s => 1 | .m => 3) }
  { x with
    csr := c, mode := if toS then .s else .m, pc := handlerPc (if toS then c.stvec else c.mtvec) t,
    qseq0 := x.cut.1, qseq1 := x.cut.2.1, qseq2 := x.cut.2.2,
    faultrec := match t.lane with | some a => faultRecWord a t.code t.outc | none => x.faultrec,
    hold := .none, nextDispatch := now + 1, line := none,
    mHeld := x.mHeld || (t.int && decide (t.code = 18)) }

/-- Takes a trap of the room, with xepc `epc`. A trap into a mode whose vector is 0 ends the iteration (R401). -/
def takeTrap (s : State) (r : Nat) (t : Trap) (epc : W64) : State :=
  let x := s.room r
  if (if trapToS x t then x.csr.stvec else x.csr.mtvec) = 0 then
    endRooms (s.modRoom r fun x => { x with nextDispatch := s.tick + 1 }) [r] [] 3 255 t.cause
  else s.setRoom r (enterTrap x s.tick t epc)

/-- An exception of the acting room's lane; xepc is the lane. While deferred answers are outstanding dispatch stops with the
exception pending, and entry follows once they have been written (R77). -/
def State.trap (s : State) (t : Trap) : State :=
  if s.me.deferred = 0 then takeTrap s s.turn t s.me.pc
  else s.modMe fun x => { x.stall s.tick with
    hold := .none, misuse := x.misuse ++ [⟨t.code, t.tval, t.lane.getD x.pc, x.curWord, t.outc⟩] }

/-- An RV exception of the lane. -/
def State.exc (s : State) (code : Nat) (tval : W64) : State := s.trap { int := false, code := code, tval := tval }
/-- The RV illegal-instruction exception; xtval is the lane word. -/
def State.illegal (s : State) : State := s.exc 2 (0#32 ++ s.me.curWord)
/-- A device exception of the lane, with its fault code (R338). -/
def State.devExc (s : State) (fcode : Nat) (tval : W64) : State :=
  s.trap { int := false, code := 48 + fcode, tval := tval, lane := some s.me.pc }
/-- The ILLEGAL_OP trap at the lane (R370). -/
def State.illegalOp (s : State) : State := s.devExc 13 (0#32 ++ s.me.curWord)

/-- Return from a trap (R24): mret restores MPP and MPIE, sret SPP and SPIE; the pc is xepc. -/
def returnTrap (x : Room) (now : Nat) (m : Bool) : Room :=
  let st := x.csr.mstatus
  if m then
    let p := getField st 11 2
    let st := setField (setField (setField st 3 1 (getField st 7 1)) 7 1 1) 11 2 0
    let st := if p = 3 then st else setField st 17 1 0
    { x.retireTo now x.csr.mepc with
      csr := { x.csr with mstatus := st }, mode := if p = 3 then .m else if p = 1 then .s else .u, line := none }
  else
    let p := getField st 8 1
    let st := setField (setField (setField (setField st 1 1 (getField st 5 1)) 5 1 1) 8 1 0) 17 1 0
    { x.retireTo now x.csr.sepc with
      csr := { x.csr with mstatus := st }, mode := if p = 1 then .s else .u, line := none }

/-! ## Window handles (R330, R331) -/

def handleIndex (h : W64) : Nat := getField h 0 12
def handlePkg (h : W64) : Nat := getField h 12 14
def handleGen (h : W64) : Nat := getField h 32 16
/-- The open window of this package that a tenant's handle names. -/
def State.window? (s : State) (tenant : Nat) (h : W64) : Option Window :=
  let w := tget {} s.hall.windows (handleIndex h)
  if w.open_ ∧ w.tenant = tenant ∧ w.gen = handleGen h ∧ handlePkg h = s.pkgNum ∧ getField h 26 6 = 0 ∧ getField h 48 16 = 0
  then some w else none
/-- Whether a handle names another package. -/
def State.farHandle (s : State) (h : W64) : Bool := decide (handlePkg h ≠ s.pkgNum)
end Sys2Proof.Machine
end

