-- ==== Sys2Proof/Machine/Translate.lean ====
section
/-! DEFINITION. Device windows (R192), page tables and walks (R352 to R356), the physical map (R402), and the checks
that an access meets before it leaves the room (R125, R53). -/

namespace Sys2Proof.Machine

/-- What an access wants. -/
inductive Want where | load | store | fetch | atomic
  deriving DecidableEq, Repr

/-- Whose translation it is: an engine entry or device instruction, or the control core with SUM and MXR. -/
structure Ctx where
  room : Nat
  satp : W64
  mode : Mode
  core : Bool := false
  sum  : Bool := false
  mxr  : Bool := false
  shadow : Bool := false      -- a C entry, which may write the cellar shadow window
  ten  : Option Nat := none   -- tenant of the tables, when it is not that of the room's iteration
  repl : Bool := false        -- a control-core load or an L entry, which may read the replicated range (R305)
  deriving DecidableEq, Repr

/-- Where an address leads. -/
structure Loc where
  place : Place
  key   : Nat
  ms    : Bool := false
  watch : Bool := false
  cmp   : Bool := false
  heat  : Bool := false
  mdx   : Nat := 0
  leaf  : Option Tlb := none
  deriving DecidableEq, Repr

/-! ## Pages -/

def pteV (e : W64) : Bool := e.getLsbD 0
def pteLeaf (e : W64) : Bool := e.getLsbD 1
def pteR (e : W64) : Bool := e.getLsbD 2
def pteW (e : W64) : Bool := e.getLsbD 3
def pteX (e : W64) : Bool := e.getLsbD 4
def pteU (e : W64) : Bool := e.getLsbD 5
def pteG (e : W64) : Bool := e.getLsbD 6
def pteMs (e : W64) : Bool := e.getLsbD 7
def pteCmp (e : W64) : Bool := e.getLsbD 8
def pteHeat (e : W64) : Bool := e.getLsbD 9
def pteCoh (e : W64) : Nat := getField e 10 2
def pteZf (e : W64) : Bool := e.getLsbD 12
def pteWatch (e : W64) : Bool := e.getLsbD 13
def pteContig (e : W64) : Bool := e.getLsbD 14
/-- PA[51:16] of a PTE, or MDX. -/
def ptePn (e : W64) : Nat := getField e 16 36

/-- The ranges of R402. -/
inductive Range where | hbm | tier | repl | port | nothing
  deriving DecidableEq, Repr

def rangeOf (pa : Nat) : Range :=
  if pa < 0x8000000000 then .hbm
  else if 0xC000000000000 ≤ pa ∧ pa < 0xC040000000000 then .tier
  else if 0xE000000000000 ≤ pa ∧ pa < 0xF000000000000 then .repl
  else if 0xFFFF000000000 ≤ pa ∧ pa < 0xFFFF000801000 then .port
  else .nothing

/-- Bits [63:55] are copies of bit 54 (R353). -/
def canonicalVa (va : W64) : Bool := decide (getField va 54 10 = 0) || decide (getField va 54 10 = 1023)

/-- A poisoned granule holds a byte of the range (R391). -/
def State.poisoned (s : State) (key n : Nat) : Bool :=
  (List.range ((key % 128 + n + 127) / 128)).any fun i => tget false s.poison (key / 128 + i)

/-- The CXL port of host memory at a key, and of a tier address (R294, R299). -/
def hostPortOf (key : Nat) : Nat := Config.hostPort (lineOf key) % 4

/-- The tier entry of a physical address in the second tier: as the bridge holds it, or as it reads it (R299). -/
def tierEntry (s : State) (pa : Nat) : W64 :=
  let b := (pa - 0xC000000000000) / 2 ^ 30
  match tget none s.hall.tierHeld b with
  | some e => e
  | none => BitVec.ofNat 64 (s.read (s.hall.tiertab.toNat + 8 * b) 8)

/-- Whether the links to a place are lost (R300). -/
def State.lost (s : State) (p : Place) (key : Nat) : Bool :=
  match p with
  | .hostC | .hostN => s.hall.linkLost.getLsbD (hostPortOf key)
  | .tier => s.hall.linkLost.getLsbD (getField (tierEntry s key) 1 2)
  | .scratch _ | .attic _ | .shadow _ | .hbm | .repl | .port => false

/-- Where a request to an address of HBM4E is performed: from the seal of its page to the release, at the page's destination,
where every line stands (R359). -/
def State.movedPa (s : State) (pa : Nat) : Nat :=
  let h := s.hall
  if (h.migStat = 1 ∨ h.migStat = 2) ∧ pa / 65536 = h.migPages.1 / 65536 then h.migPages.2 + pa % 65536 else pa
/-- Reads a PTE at its home (R356); its address must be in HBM4E or, in a block that is lent and whose link is not lost, in the
second tier (R299). -/
def readPte (s : State) (pa : Nat) : Except Nat W64 :=
  let at_ := s.movedPa pa
  let value : Except Nat W64 := if s.poisoned at_ 8 then .error 4 else .ok (BitVec.ofNat 64 (s.read at_ 8))
  match rangeOf pa with
  | .hbm => value
  | .tier => if !(tierEntry s pa).getLsbD 0 then .error 1 else if s.lost .tier pa then .error 5 else value
  | .repl | .port | .nothing => .error 0

/-- The checks of R355 on a valid leaf at a level, for a tenant. -/
def leafOk (tenant level : Nat) (e : W64) : Bool :=
  let pa := ptePn e * 2 ^ 16
  !e.getLsbD 15 && decide (getField e 52 12 = 0) && !(pteW e && !pteR e) && (pteR e || pteW e || pteX e) &&
  decide (pteCoh e ≠ 3) && !((pteMs e || pteCmp e || pteWatch e) && decide (pteCoh e ≠ 0)) && !(pteMs e && pteCmp e) &&
  !(pteWatch e && pteCmp e) &&
  (level = 0 || (decide (ptePn e % 2 ^ 13 = 0) && !pteContig e)) &&
  (match rangeOf pa with
   | .tier => decide (pteCoh e = 0) && !pteMs e && !pteWatch e && !pteZf e
   | .hbm | .repl => true
   | .port => decide (pteCoh e ≠ 0) || pteCmp e || decide (tenant = 0)
   | .nothing => decide (pteCoh e ≠ 0) || pteCmp e)

/-- A walk from a root (R353): the leaf and its level. -/
def walk (s : State) (tenant root : Nat) (va : W64) : Except Nat (W64 × Nat) :=
  if !canonicalVa va then .error 0 else
  match readPte s (root * 2 ^ 16 + 8 * getField va 42 13) with
  | .error f => .error f
  | .ok e2 =>
    if !pteV e2 || pteLeaf e2 || decide (getField e2 2 14 ≠ 0) || decide (getField e2 52 12 ≠ 0) then .error 0 else
    match readPte s (ptePn e2 * 2 ^ 16 + 8 * getField va 29 13) with
    | .error f => .error f
    | .ok e1 =>
      if !pteV e1 then .error 0
      else if pteLeaf e1 then (if leafOk tenant 1 e1 then .ok (e1, 1) else .error 0)
      else if decide (getField e1 2 14 ≠ 0) || decide (getField e1 52 12 ≠ 0) then .error 0
      else match readPte s (ptePn e1 * 2 ^ 16 + 8 * getField va 16 13) with
        | .error f => .error f
        | .ok e0 => if pteV e0 && pteLeaf e0 && leafOk tenant 0 e0 then .ok (e0, 0) else .error 0

/-- A TLB entry that translates an address (R356). -/
def tlbHit (t : Tlb) (tenant asid : Nat) (va : W64) : Bool :=
  decide (t.tenant = tenant) && (decide (t.asid = asid) || pteG t.pte) &&
    decide ((if t.level = 0 then t.vpn else t.vpn / 2 ^ 13) = getField va (if t.level = 0 then 16 else 29) (if t.level = 0 then 39 else 26))

/-- The leaf for an address: from a TLB, or by a walk. -/
def leafFor (s : State) (tenant : Nat) (satp va : W64) : Except Nat Tlb :=
  let asid := getField satp 44 16
  match s.tlb.find? fun t => tlbHit t tenant asid va with
  | some t => if canonicalVa va then .ok t else .error 0
  | none =>
    match walk s tenant (getField satp 0 36) va with
    | .error f => .error f
    | .ok (e, l) => .ok ⟨tenant, asid, getField va 16 39, l, e⟩

/-- Permission of a leaf (R355). -/
def leafGrants (c : Ctx) (w : Want) (e : W64) : Bool :=
  (match w with
   | .load => pteR e || (c.mxr && pteX e)
   | .store => pteW e
   | .fetch => pteX e
   | .atomic => pteR e && pteW e) &&
  (match c.mode with
   | .u => pteU e
   | .s => !c.core || !pteU e || (c.sum && decide (w ≠ .fetch))
   | .m => true)

/-- A physical address with the attributes of a leaf. -/
def locOfLeaf (s : State) (tenant : Nat) (t : Tlb) (va : W64) : Except Nat Loc :=
  let e := t.pte
  let off := getField va 0 (if t.level = 0 then 16 else 29)
  let pa := ptePn e * 2 ^ 16 + off
  let ms := pteMs e || pteZf e
  if pteCmp e then
    .ok { place := .hbm, key := cmpKey tenant (ptePn e) off, cmp := true, heat := pteHeat e, mdx := ptePn e + off / 2 ^ 16,
          leaf := some t }
  else if pteCoh e = 1 then .ok { place := .hostC, key := hostKey pa, heat := pteHeat e, leaf := some t }
  else if pteCoh e = 2 then .ok { place := .hostN, key := hostKey pa, heat := pteHeat e, leaf := some t }
  else match rangeOf pa with
    | .hbm => .ok { place := .hbm, key := pa, ms := ms, watch := pteWatch e, heat := pteHeat e, leaf := some t }
    | .tier => if (tierEntry s pa).getLsbD 0 then .ok { place := .tier, key := pa, heat := pteHeat e, leaf := some t }
               else .error 1
    | .repl => .ok { place := .repl, key := pa, heat := pteHeat e, leaf := some t }
    | .port => .ok { place := .port, key := pa, heat := pteHeat e, leaf := some t }
    | .nothing => .error 0

/-- An address with satp MODE 0: the physical address itself (DEDUCED, log entry 20). -/
def locBare (s : State) (tenant : Nat) (va : W64) : Except Nat Loc :=
  let pa := va.toNat
  match rangeOf pa with
  | .hbm => .ok { place := .hbm, key := pa }
  | .tier => if (tierEntry s pa).getLsbD 0 then .ok { place := .tier, key := pa } else .error 1
  | .repl => .ok { place := .repl, key := pa }
  | .port => if tenant = 0 then .ok { place := .port, key := pa } else .error 1
  | .nothing => .error 1

/-- An address in the range of the device windows, which are not translated (R192). -/
def inWindows (va : W64) : Bool := decide (0xFFC0000000000000 ≤ va.toNat) && decide (va.toNat < 0xFFC0010000000000)
/-- The device windows (R192): none outside their range. -/
def window (s : State) (c : Ctx) (w : Want) (va : W64) : Option (Except Nat Loc) :=
  let a := va.toNat
  if !inWindows va then none else
  let o := a - 0xFFC0000000000000
  let st := stairOf c.room
  some (
    if o < 0x400000 then
      (if o < (s.room c.room).scratch then .ok { place := .scratch c.room, key := scratchKey c.room o } else .error 6)
    else if 0x100000000 ≤ o ∧ o < 0x110000000 then
      let q := 64 * wingOf c.room + (o - 0x100000000) / 0x400000
      let off := o % 0x400000
      let x := s.room q
      if x.run.isNone ∨ x.tenant ≠ (s.room c.room).tenant then .error 1
      else if off < x.scratch then .ok { place := .scratch q, key := scratchKey q off } else .error 6
    else if 0x200000000 ≤ o ∧ o < 0x201000000 then
      let off := o - 0x200000000
      if off < (16 - (s.stair st).waypart) * 2 ^ 20 then .ok { place := .attic st, key := atticKey st off } else .error 6
    else if 0x300000000 ≤ o ∧ o < 0x310000000 then
      if c.shadow ∧ w = .store ∧ getField (s.wing (wingOf c.room)).stairown (4 * (st % 16)) 4 = (s.room c.room).tenant then
        .ok { place := .shadow st, key := cellarKey st (1 - (s.stair st).act) (o - 0x300000000) }
      else .error 1
    else .error 6)

/-- The place of an address, or the fault code of the first failing check: translation, permission, range. -/
def place (s : State) (c : Ctx) (w : Want) (va : W64) : Except Nat Loc :=
  match window s c w va with
  | some r => r
  | none =>
    let tenant := c.ten.getD (s.room c.room).tenant
    match (if getField c.satp 60 4 = 15 then
        (match leafFor s tenant c.satp va with
         | .error f => .error f
         | .ok t => if leafGrants c w t.pte then locOfLeaf s tenant t va else .error 1)
      else locBare s tenant va) with
    | .error f => .error f
    | .ok l => if l.place = .repl ∧ !(c.repl && decide (w = .load)) then .error 1 else .ok l

/-- Where an address leads, or the fault code of the first failing check: of `place`, then of the link. -/
def locate (s : State) (c : Ctx) (w : Want) (va : W64) : Except Nat Loc :=
  match place s c w va with
  | .error f => .error f
  | .ok l => if s.lost l.place l.key then .error 5 else .ok l

/-- The place of an address that is read at once: on a page that has been sealed, where a new walk leads, or its destination (R359). -/
def placeNow (s : State) (c : Ctx) (w : Want) (va : W64) : Except Nat Loc :=
  match place s c w va with
  | .error f => .error f
  | .ok l =>
    if l.place ≠ .hbm ∨ l.cmp ∨ s.movedPa l.key = l.key then .ok l
    else match place { s with tlb := [] } c w va with
      | .error f => .error f
      | .ok q => .ok { q with leaf := none, key := if q.place = .hbm ∧ !q.cmp then s.movedPa q.key else q.key }
/-- `placeNow`, then the link. -/
def locateNow (s : State) (c : Ctx) (w : Want) (va : W64) : Except Nat Loc :=
  match placeNow s c w va with
  | .error f => .error f
  | .ok l => if s.lost l.place l.key then .error 5 else .ok l

/-- The TLBs take the leaf that an access used (R356). -/
def State.fillTlb (s : State) (l : Loc) : State :=
  match l.leaf with
  | some t => if s.tlb.contains t then s else { s with tlb := t :: s.tlb }
  | none => s

/-- Moves the entries of n keys from `lo` on to keys from `dst` on. -/
def tmove {α : Type} (t : Tbl α) (lo n dst : Nat) : Tbl α :=
  (t.filter fun e => decide (lo ≤ e.1) && decide (e.1 < lo + n)).foldl (fun t e => tput t (e.1 - lo + dst) e.2)
    (t.filter fun e => !(decide (lo ≤ e.1) && decide (e.1 < lo + n)))
/-- Where the bytes of a block lie while no tier entry in force maps them: by CXL port and bits [51:30] of the host address. -/
def tierStore (e : W64) : Nat := 2 ^ 60 + (2 ^ 22 * getField e 1 2 + getField e 30 22) * 2 ^ 30
/-- A block whose entry has come to name another port or host address: its addresses read as what lies there, and the
bytes that stood in it stay where they were (R299). The bridge holds no granule of it. -/
def State.mapTier (s : State) (b : Nat) (e : W64) : State :=
  let old := tget 0 s.hall.tierMap b
  if tierStore old = tierStore e then s
  else
    let base := 0xC000000000000 + 2 ^ 30 * b
    { s with
      mem := tmove (tmove s.mem base (2 ^ 30) (tierStore old)) (tierStore e) (2 ^ 30) base,
      poison := tmove (tmove s.poison (base / 128) (2 ^ 23) (tierStore old / 128)) (tierStore e / 128) (2 ^ 23) (base / 128),
      grans := tdrop s.grans (base / 64) (base / 64 + 2 ^ 24),
      hall := { s.hall with tierMap := tset 0 s.hall.tierMap b e } }
/-- The bridge holds the entry of an address of the second tier from its first need on (R299). -/
def State.holdTier (s : State) (pa : Nat) : State :=
  if rangeOf pa = .tier then
    let b := (pa - 0xC000000000000) / 2 ^ 30
    let e := tierEntry s pa
    (s.mapTier b e).modHall fun h => { h with tierHeld := tset none h.tierHeld b (some e) }
  else s
/-- The tier entry that an access used is held by the bridge (R299). -/
def State.fillTier (s : State) (l : Loc) : State := match l.place with | .tier => s.holdTier l.key | _ => s
/-- A leaf's address, where it leads to a page of the device. -/
def leafPa (e : W64) (level : Nat) (va : W64) : Option Nat :=
  if pteCmp e ∨ pteCoh e ≠ 0 then none else some (ptePn e * 2 ^ 16 + getField va 0 (if level = 0 then 16 else 29))
/-- The bridge holds the tier entries that a walk needs, for its tables and for the page it leads to (R299). -/
def State.walkTier (s : State) (root : Nat) (va : W64) : State :=
  let leaf (s : State) (e : W64) (level : Nat) : State := match leafPa e level va with | some pa => s.holdTier pa | none => s
  let a2 := root * 2 ^ 16 + 8 * getField va 42 13
  let s := s.holdTier a2
  match readPte s a2 with
  | .error _ => s
  | .ok e2 =>
    if !pteV e2 || pteLeaf e2 then s else
    let a1 := ptePn e2 * 2 ^ 16 + 8 * getField va 29 13
    let s := s.holdTier a1
    match readPte s a1 with
    | .error _ => s
    | .ok e1 =>
      if !pteV e1 then s else if pteLeaf e1 then leaf s e1 1 else
      let a0 := ptePn e1 * 2 ^ 16 + 8 * getField va 16 13
      let s := s.holdTier a0
      match readPte s a0 with
      | .error _ => s
      | .ok e0 => if pteV e0 && pteLeaf e0 then leaf s e0 0 else s
/-- The bridge holds the tier entries that the translation of an address needs, whether or not it succeeds (R299). -/
def State.needTier (s : State) (c : Ctx) (va : W64) : State :=
  if inWindows va then s
  else if getField c.satp 60 4 ≠ 15 then s.holdTier va.toNat
  else if !canonicalVa va then s
  else match s.tlb.find? fun t => tlbHit t (c.ten.getD (s.room c.room).tenant) (getField c.satp 44 16) va with
    | some t => (match leafPa t.pte t.level va with | some pa => s.holdTier pa | none => s)
    | none => s.walkTier (getField c.satp 0 36) va

/-- The context of an engine entry or a device instruction of a room. -/
def engCtx (r : Nat) (satp : W64) (mode : Mode) : Ctx := { room := r, satp := satp, mode := mode }

/-- The context of a device instruction at dispatch (R352). -/
def State.devCtx (s : State) : Ctx := engCtx s.turn s.me.csr.satp s.me.mode

/-- The context of a control-core RV load or store: translated by the published rules, in the mode of MPP under MPRV. -/
def coreCtx (r : Nat) (x : Room) (fetch : Bool) : Ctx :=
  let st := x.csr.mstatus
  let md := if !fetch && st.getLsbD 17 && decide (x.mode = .m) then
      (match getField st 11 2 with | 3 => Mode.m | 1 => .s | _ => .u) else x.mode
  { room := r, satp := if md = .m then 0 else x.csr.satp, mode := md, core := true, sum := st.getLsbD 18, mxr := st.getLsbD 19,
    repl := !fetch }

/-- Runs the rest of a device instruction with the place of its address, or takes the fault at its lane (R53): ALIGN first,
then translation, then permission. It needs read permission. An address in the range of the device windows, where only loads and
stores may go, raises the RV access fault (R192). -/
def State.withLoc (s : State) (align : Nat) (va : W64) (f : State → Loc → State) (c : Ctx := s.devCtx) : State :=
  if va.toNat % align ≠ 0 then s.devExc 2 va
  else if inWindows va then s.exc 5 va
  else
    let s := s.needTier c va
    match place s c .load va with
    | .error c => s.devExc c va
    | .ok l => f (s.fillTlb l) l

end Sys2Proof.Machine
end

