-- ==== Sys2Proof/Machine/Ports.lean ====
section
/-! DEFINITION. The port registers of R402: what a read of each returns, and which step a write to each starts. -/

namespace Sys2Proof.Machine

/-- Host-homed lines with an M half (R298, DIRTYCNT). -/
def State.dirtyLines (s : State) : List Nat :=
  ((s.grans.filter fun e => decide (e.2.st = 2) && decide (2 ^ 52 ≤ e.1 * 64)).map fun e => e.1 / 2).eraseDups

/-- The port registers, by block and offset. -/
inductive PortReg where
  | pcmd (w : Nat) | pres (w : Nat)
  | stairown (w : Nat) | atticctl (w : Nat) | atticpart (w : Nat) | cfgstat (w : Nat)
  | lcmd (n : Nat) | lres (n : Nat) | evset (n : Nat) | evclr (n : Nat) | events (n : Nat) | lcfg (n : Nat)
  | tsatp (n : Nat)
  | linkstat | orphbase | orphcnt | dirtycnt | dropcnt | incsel | incval | tiertab | tierctl
  | prcmd | prstat | trapvec
  | migsrc | migdst | migcmd | migstat
  | mdb (n : Nat) | chb (n : Nat) | flb (n : Nat) | fcnt (n : Nat)
  | zfbase | zfsize | zfcmd | zfstat
  | mbcmd | mbstat | mbarg (i : Nat) | mbres (i : Nat)
  | nothing
  deriving DecidableEq, Repr

/-- The register at an offset of the port range from 0xF_FFF0_0000_0000 (R50, R198, R233, R302, R347, R358, R363, R367,
R398). -/
def portReg (o : Nat) : PortReg :=
  let b := o / 0x10000
  let r := o % 0x10000
  if o % 8 ≠ 0 then .nothing
  else if b < 4 then (if r = 0 then .pcmd b else if r = 8 then .pres b else .nothing)
  else if 0x10 ≤ b ∧ b < 0x14 then
    (match r with
     | 0x00 => .stairown (b - 0x10) | 0x08 => .atticctl (b - 0x10) | 0x10 => .atticpart (b - 0x10)
     | 0x18 => .cfgstat (b - 0x10) | _ => .nothing)
  else if 0x20 ≤ b ∧ b < 0x30 then
    (let n := b - 0x20
     match r with
     | 0x00 => .lcmd n | 0x08 => .lres n | 0x10 => .evset n | 0x18 => .evclr n | 0x20 => .events n | 0x28 => .lcfg n
     | 0x30 => .tsatp n | _ => .nothing)
  else if b = 0x30 then
    (match r with
     | 0x00 => .linkstat | 0x08 => .orphbase | 0x10 => .orphcnt | 0x18 => .dirtycnt | 0x20 => .dropcnt
     | 0x28 => .incsel | 0x30 => .incval | 0x38 => .tiertab | 0x40 => .tierctl | _ => .nothing)
  else if b = 0x40 then (match r with | 0 => .prcmd | 8 => .prstat | 0x10 => .trapvec | _ => .nothing)
  else if b = 0x50 then
    (match r with | 0 => .migsrc | 8 => .migdst | 0x10 => .migcmd | 0x18 => .migstat | _ => .nothing)
  else if 0x60 ≤ b ∧ b < 0x70 then
    (let n := b - 0x60
     match r with | 0 => .mdb n | 8 => .chb n | 0x10 => .flb n | 0x18 => .fcnt n | _ => .nothing)
  else if b = 0x70 then
    (match r with | 0 => .zfbase | 8 => .zfsize | 0x10 => .zfcmd | 0x18 => .zfstat | _ => .nothing)
  else if b = 0x80 then
    (if r = 0 then .mbcmd else if r = 8 then .mbstat
     else if 0x100 ≤ r ∧ r < 0x800 then .mbarg ((r - 0x100) / 8)
     else if 0x800 ≤ r ∧ r < 0x1000 then .mbres ((r - 0x800) / 8) else .nothing)
  else .nothing

/-- Physical address of the port range. -/
def portBase : Nat := 0xFFFF000000000

/-- What a read of a port register returns; a write-only register reads 0. -/
def portValue (s : State) (p : PortReg) : W64 :=
  let h := s.hall
  match p with
  | .pcmd _ | .lcmd _ | .evset _ | .evclr _ | .tierctl | .prcmd | .migcmd | .zfcmd | .mbcmd | .nothing => 0
  | .pres w => (s.wing w).pres
  | .stairown w => (s.wing w).stairown
  | .atticctl w => (s.wing w).atticctl
  | .atticpart w => (s.wing w).atticpart
  | .cfgstat w => 0#62 ++ BitVec.ofBool (s.wing w).cfgRef ++ BitVec.ofBool (s.wing w).cfgBusy
  | .lres n => tget 0 h.lres n
  | .events n => tget 0 h.events n
  | .lcfg n => tget 8 h.lcfg n
  | .tsatp n => tget 0 h.tsatp n
  | .linkstat => 0#56 ++ h.linkLost ++ h.linkUp
  | .orphbase => h.orphbase
  | .orphcnt => BitVec.ofNat 64 h.orphcnt
  | .dirtycnt => BitVec.ofNat 64 s.dirtyLines.length
  | .dropcnt => BitVec.ofNat 64 h.dropcnt
  | .incsel => h.incsel
  | .incval => BitVec.ofNat 64 (tget 0 h.inc h.incsel.toNat)
  | .tiertab => h.tiertab
  | .prstat => 0#63 ++ BitVec.ofBool h.prBusy
  | .trapvec => h.trapvec
  | .migsrc => h.migsrc
  | .migdst => h.migdst
  | .migstat => BitVec.ofNat 62 h.migSeal ++ BitVec.ofNat 2 h.migStat
  | .mdb n => tget 0 h.mdb n
  | .chb n => tget 0 h.chb n
  | .flb n => tget 0 h.flb n
  | .fcnt n => BitVec.ofNat 64 (tget 0 h.fcnt n)
  | .zfbase => h.zfbase
  | .zfsize => h.zfsize
  | .zfstat => BitVec.ofNat 62 h.zfMark ++ BitVec.ofNat 2 h.zfStat
  | .mbstat => h.mbstat
  | .mbarg i => tget 0 h.mbarg i
  | .mbres i => tget 0 h.mbres i

/-- A read of a physical address of the port range. -/
def portRead (s : State) (pa : Nat) : W64 := portValue s (portReg (pa - portBase))

/-- Keeps the bits lo to lo + n - 1 of a word. -/
def keepBits (w : W64) (lo n : Nat) : W64 := setField 0 lo n (getField w lo n)

/-- A write to a port register that has no row of its own takes effect: RW registers keep their fields, every other
write is ignored (R8, R302, R347, R358, R363, R367, R398). -/
def portStore (s : State) (p : PortReg) (v : W64) : State :=
  let hall (f : Hall → Hall) : State := s.modHall f
  match p with
  | .lcfg n => hall fun h => { h with lcfg := tset 8 h.lcfg n (keepBits v 0 8) }
  | .tsatp n => hall fun h => { h with tsatp := tset 0 h.tsatp n (setField v 36 8 0) }
  | .orphbase => hall fun h => { h with orphbase := keepBits v 26 26 }
  | .orphcnt => hall fun h => { h with orphcnt := getField v 0 19 }
  | .incsel => hall fun h => { h with incsel := keepBits v 0 9 }
  | .tiertab => hall fun h => { h with tiertab := keepBits v 15 37 }
  | .trapvec => hall fun h => { h with trapvec := v }
  | .migsrc => hall fun h => { h with migsrc := keepBits v 16 36 }
  | .migdst => hall fun h => { h with migdst := keepBits v 16 36 }
  | .mdb n => hall fun h => { h with mdb := tset 0 h.mdb n (keepBits v 10 42) }
  | .chb n => hall fun h => { h with chb := tset 0 h.chb n (keepBits v 9 43) }
  | .flb n => hall fun h => { h with flb := tset 0 h.flb n (keepBits v 3 49) }
  | .fcnt n => hall fun h => { h with fcnt := tset 0 h.fcnt n (getField v 0 32) }
  | .zfbase => hall fun h => { h with zfbase := keepBits v 16 36 }
  | .zfsize => hall fun h => { h with zfsize := keepBits v 0 32 }
  | .mbarg i => hall fun h => { h with mbarg := tset 0 h.mbarg i v }
  | .pcmd _ | .pres _ | .stairown _ | .atticctl _ | .atticpart _ | .cfgstat _ | .lcmd _ | .lres _ | .evset _ | .evclr _
  | .events _ | .linkstat | .dirtycnt | .dropcnt | .incval | .tierctl | .prcmd | .prstat | .migcmd | .migstat
  | .zfcmd | .zfstat | .mbcmd | .mbstat | .mbres _ | .nothing => s

/-- The step that a write of a doubleword to a port register starts, if it has a row of its own. -/
def portStep (p : PortReg) (v : W64) : Option Instr :=
  match p with
  | .pcmd w => if getField v 56 2 = 1 then some (.poolRegister w v)
               else if getField v 56 2 = 2 then some (.poolUnregister w v) else none
  | .stairown w => some (.stairownWrite w v)
  | .atticctl w => some (.atticctlWrite w v)
  | .atticpart w => some (.atticpartWrite w v)
  | .lcmd n => some (.launchPush n v)
  | .evset n => some (.evset n v)
  | .evclr n => some (.evclr n v)
  | .linkstat => some (.lostClear (v.extractLsb' 4 4))
  | .tierctl => if v.getLsbD 0 then some .reload else none
  | .prcmd => if v.getLsbD 8 then some (.preemptRequest (getField v 0 8)) else none
  | .migcmd => if getField v 0 2 = 1 then some .migrationSeal else if getField v 0 2 = 2 then some .migrationRelease else none
  | .zfcmd => if v.getLsbD 0 then some .zeroFillMark else none
  | _ => none

/-- The step that a write to MBCMD starts (R398). An unknown OP is refused by the register write itself. -/
def mbStep (op : Nat) : Option Instr :=
  match op with
  | 1 => some .mbReadState | 2 => some .mbReadLog | 3 => some .mbSetPackage | 4 => some .mbWriteReplica
  | 5 => some .mbAttest | 6 => some .mbReadIdentity | _ => none

/-- A doubleword written to a physical address of the port range, at this tick. -/
def portWrite (s : State) (pa : Nat) (v : W64) (tenant : Nat) : State :=
  let p := portReg (pa - portBase)
  match portStep p v with
  | some i => s.schedule s.tick i
  | none =>
    if p = .incval then
      (if v.getLsbD 16 then s.schedule s.tick (.scrub s.hall.incsel.toNat) else s)
    else s.schedule s.tick (.registerWrite (.port pa v tenant))

/-! ## BAR0 of the management interface (R398) -/

/-- The physical address that an access of some bytes at an offset of BAR0 reaches; none for one that completes with Unsupported
Request: not 8 bytes, or not aligned. -/
def bar0Addr (o bytes : Nat) : Option Nat := if bytes = 8 ∧ o % 8 = 0 ∧ o < 2 ^ 24 then some (portBase + o) else none
/-- What a BAR0 read returns: the register, as tenant 0 reads it. -/
def bar0Read (s : State) (o bytes : Nat) : Option W64 := (bar0Addr o bytes).map (portRead s)
/-- The state after a BAR0 write, as one of tenant 0; none for Unsupported Request, which changes nothing. -/
def bar0Write (s : State) (o bytes : Nat) (v : W64) : Option State := (bar0Addr o bytes).map fun pa => portWrite s pa v 0

end Sys2Proof.Machine
end

