-- ==== Sys2Proof/Machine/Mem.lean ====
section
/-! DEFINITION. Homes and leases: reading and writing memory at its home (R283 to R290), copies, compressed pages
(R363 to R366), heat (R361, R362), watched lines (R263 to R274), monitors and reservations, the host bridge (R295 to
R300), and the sending of loads and stores. -/

namespace Sys2Proof.Machine

/-! ## Bytes -/

/-- Little-endian value of a list of bytes. -/
def leNat : List Byte → Nat
  | [] => 0
  | b :: l => b.toNat + 256 * leNat l
/-- `n` little-endian bytes of a value. -/
def leBytes : Nat → Nat → List Byte
  | 0, _ => []
  | n + 1, v => BitVec.ofNat 8 v :: leBytes n (v / 256)
/-- Replaces the bytes of `l` from index `i` by `b`. -/
def patchBytes (l : List Byte) (i : Nat) (b : List Byte) : List Byte := l.take i ++ b ++ l.drop (i + b.length)

/-! ## Compressed pages -/

def keyTenant (key : Nat) : Nat := (key - 2 ^ 54) / 2 ^ 53
def keyMdx (key : Nat) : Nat := (key - 2 ^ 54) % 2 ^ 53 / 2 ^ 16
def keySector (key : Nat) : Nat := key % 2 ^ 16 / 4096
/-- Address of the descriptor of a sector (R363). -/
def descAddr (s : State) (tenant mdx sec : Nat) : Nat := (tget 0 s.hall.mdb tenant).toNat + 1024 * mdx + 64 * sec
def sectorDesc (s : State) (tenant mdx sec : Nat) : BitVec 512 := BitVec.ofNat 512 (s.read (descAddr s tenant mdx sec) 64)
def descNch (d : BitVec 512) : Nat := (d.extractLsb' 0 4).toNat
def descRaw (d : BitVec 512) : Bool := d.getLsbD 4
def descPoison (d : BitVec 512) : Bool := d.getLsbD 5
def descChunk (d : BitVec 512) (i : Nat) : Nat := (d.extractLsb' (64 + 32 * i) 32).toNat
def descChunks (d : BitVec 512) : List Nat := (List.range (min 8 (descNch d))).map (descChunk d)
/-- Address of chunk n. -/
def chunkAddr (s : State) (tenant n : Nat) : Nat := (tget 0 s.hall.chb tenant).toNat + 512 * n
/-- Channel of the record of a page (R364). -/
def recordChannel (s : State) (tenant mdx : Nat) : Nat := Config.channelOf (descAddr s tenant mdx 0 / 65536) % 256
/-- The record of a page fails its ECC. -/
def recordBad (s : State) (tenant mdx : Nat) : Bool := s.poisoned (descAddr s tenant mdx 0) 1024

/-- CRC-32 (IEEE 802.3), bit by bit. -/
def crcBit (c : W32) : W32 := if c.getLsbD 0 then (c >>> 1) ^^^ 0xEDB88320#32 else c >>> 1
def crcByte (c : W32) (b : Byte) : W32 :=
  let c := c ^^^ b.setWidth 32
  crcBit (crcBit (crcBit (crcBit (crcBit (crcBit (crcBit (crcBit c)))))))
def crc32 (l : List Byte) : W32 := ~~~(l.foldl crcByte 0xFFFFFFFF#32)

/-- The CRC of a sector does not match its plain bytes (R364). -/
def crcBad (s : State) (tenant mdx sec : Nat) : Bool :=
  let d := sectorDesc s tenant mdx sec
  descNch d ≠ 0 && decide (crc32 (s.mem.bytes (cmpKey tenant mdx (4096 * sec)) 4096) ≠ d.extractLsb' 32 32)
/-- A read of a sector whose CRC does not match sets POISON on it (R364). -/
def poisonSector (s : State) (tenant mdx sec : Nat) : State :=
  if crcBad s tenant mdx sec && !recordBad s tenant mdx then
    s.write (descAddr s tenant mdx sec) 64 (sectorDesc s tenant mdx sec ||| 0x20#512).toNat
  else s

/-- What keeps a sector from being read or written: PERMISSION for a chunk in a block of the second tier that is not lent, HOSTLOST
for one whose host is lost (R299, R364). The chunks of a record that fails its ECC are not known. -/
def sectorDown (s : State) (tenant mdx sec : Nat) : Option Nat :=
  let far := ((descChunks (sectorDesc s tenant mdx sec)).map (chunkAddr s tenant)).filter fun a => rangeOf a = .tier
  if recordBad s tenant mdx then none
  else if far.any fun a => !(tierEntry s a).getLsbD 0 then some 1
  else if far.any fun a => s.lost .tier a then some 5
  else none
/-- The fault of a read of a sector: PERMISSION, HOSTLOST, then POISON (R125, R364). -/
def sectorFault (s : State) (tenant mdx sec : Nat) : Option Nat :=
  let d := sectorDesc s tenant mdx sec
  if (sectorDown s tenant mdx sec).isSome then sectorDown s tenant mdx sec
  else if recordBad s tenant mdx || descPoison d then some 4
  else if descNch d ≠ 0 && ((descChunks d).any (fun n => s.poisoned (chunkAddr s tenant n) 512) || crcBad s tenant mdx sec)
    then some 4
  else none
/-- What keeps the compressed page of an address from being accessed (R299, R364). -/
def cmpDown (s : State) (key : Nat) : Option Nat := sectorDown s (keyTenant key) (keyMdx key) (keySector key)

/-! ## Reading at the home -/

/-- A part beyond the attic portion in force when the slice's port applies it (R203). -/
def beyondPortion (s : State) (p : Part) : Bool :=
  match p.place with
  | .attic st => decide (atticKey st ((16 - (s.stair st).waypart) * 2 ^ 20) < p.key + p.w)
  | _ => false
/-- The fault that a read of a part meets at its home: POISON, HOSTLOST, SCRATCH_RANGE (R125, R203, R300, R364, R391). -/
def partFault (s : State) (p : Part) : Option Nat :=
  if s.lost p.place p.key then some 5
  else if beyondPortion s p then some 6
  else if p.cmp then sectorFault s (keyTenant p.key) (keyMdx p.key) (keySector p.key)
  else if s.poisoned p.key p.w then some 4
  else none

/-- The bytes of a key as its home holds them. -/
def homeValue (s : State) (p : Part) : Nat :=
  match p.place with
  | .port => (portRead s p.key).toNat
  | _ => if p.cmp && decide (descNch (sectorDesc s (keyTenant p.key) (keyMdx p.key) (keySector p.key)) = 0) then 0
         else s.read p.key p.w

/-! ## Copies under leases -/

/-- The attic partition that a room's accesses use, by package number (R202). -/
def State.partition (s : State) (room : Nat) : Nat :=
  let w := s.wing (wingOf room)
  16 * wingOf room + if w.atticctl.getLsbD 0 then getField w.atticpart (4 * (room % 16)) 4 else 0
/-- The control-core data cache of a room, as a holder. -/
def coreHolder (room : Nat) : Nat := 64 + room
def copyKey (holder line : Nat) : Nat := holder * 2 ^ 52 + line
/-- A copy whose lease has not ended. -/
def State.copy? (s : State) (holder line : Nat) : Option Copy :=
  let c := tget {} s.copies (copyKey holder line)
  if c.bytes ≠ [] ∧ s.tick ≤ c.lend then some c else none
/-- Whether a part may be cached: leased lines only (R283, R289, R369). -/
def cacheable (p : Part) : Bool :=
  match p.place with
  | .hbm => !p.ms
  | .hostC | .tier => true
  | _ => false
/-- The value of a part in a holder's copy. -/
def hitValue (s : State) (holder : Nat) (p : Part) : Option Nat :=
  if cacheable p then
    (s.copy? holder (lineOf p.key)).map fun c => leNat ((c.bytes.drop (p.key % 128)).take p.w)
  else none
/-- Puts a copy of a line into a holder. -/
def State.setCopy (s : State) (holder line : Nat) (c : Copy) : State :=
  { s with copies := tset {} s.copies (copyKey holder line) c }
/-- The slices of an attic partition, by package stair, in increasing order; a lost slice is none (R202, R392). -/
def State.members (s : State) (holder : Nat) : List Nat :=
  let x := s.wing (holder / 16)
  (((List.range 16).filter fun i => !x.atticctl.getLsbD 0 || getField x.atticpart (4 * i) 4 = holder % 16).map
    (16 * (holder / 16) + ·)).filter fun i => !s.mappedStairs.contains i
/-- The slice of a line within a partition (R202). -/
def State.sliceOf (s : State) (holder line : Nat) : Nat :=
  let m := s.members holder
  m.getD ((line ^^^ (line >>> 4) ^^^ (line >>> 8) ^^^ (line >>> 12)) % 16 % max 1 m.length) 0
/-- The set of a line in its slice: PA[19:7] ^ PA[32:20] (R202). -/
def setOf (line : Nat) : Nat := (line ^^^ (line >>> 13)) % 8192
/-- Copies of other lines in the same set of the same slice. -/
def State.setMates (s : State) (holder line : Nat) : List (Nat × Nat) :=
  s.copies.filterMap fun e =>
    let l := e.1 % 2 ^ 52
    if e.1 / 2 ^ 52 = holder ∧ l ≠ line ∧ e.2.bytes ≠ [] ∧ setOf l = setOf line ∧ s.sliceOf holder l = s.sliceOf holder line
    then some (l, e.2.way) else none
/-- A line takes a way of its set in its slice of the partition: its own, a free one, or that of a line which is evicted; with
WAYPART 0 the slice caches nothing (R202, R203). Which of them is a value of Config. -/
def State.placeCopy (s : State) (holder line : Nat) (c : Copy) : State :=
  let n := (s.stair (s.sliceOf holder line)).waypart
  if n = 0 then s.setCopy holder line {} else
  let mates := s.setMates holder line
  let old := tget {} s.copies (copyKey holder line)
  let open_ := (List.range n).filter fun i => !mates.any fun m => m.2 = i
  let cand := if open_ = [] then List.range n else open_
  let way := if old.bytes ≠ [] then old.way else cand.getD (Config.atticWay s.fresh % cand.length) 0
  let s := (mates.filter fun m => m.2 = way).foldl (fun s m => s.setCopy holder m.1 {}) s
  (s.setCopy holder line { c with way := way }).bump
/-- A copy takes a store's bytes and keeps its lease end (R286). -/
def State.patchCopy (s : State) (holder : Nat) (p : Part) : State :=
  if cacheable p then
    (match s.copy? holder (lineOf p.key) with
     | some c => s.setCopy holder (lineOf p.key) { c with bytes := patchBytes c.bytes (p.key % 128) (leBytes p.w p.data) }
     | none => s)
  else s
/-- The issuing room's partition and control-core cache take a store's bytes (R286). -/
def State.patchOwn (s : State) (room : Nat) (parts : List Part) : State :=
  parts.foldl (fun s p => (s.patchCopy (s.partition room) p).patchCopy (coreHolder room) p) s

/-- Lease length of a line (R284, R299). -/
def leaseOf (p : Part) : Nat := match p.place with | .hostC => 256 | _ => 2048

/-- The byte of a key in a buffered store, the newest (R293). -/
def bufferedByte (ms : List MemMsg) (key : Nat) : Option Byte :=
  ms.foldl (fun b m => m.parts.foldl (fun b p =>
    if p.key ≤ key ∧ key < p.key + p.w then some (BitVec.ofNat 8 (p.data / 256 ^ (key - p.key))) else b) b) none
/-- Buffered stores that a room's attic partition holds. -/
def State.bufferedFor (s : State) (room : Nat) : List MemMsg :=
  ((s.wing (wingOf room)).keys.filter fun k => match k.holder with
    | some h => decide (s.partition h = s.partition room) | none => false).flatMap (·.buffered)
/-- The store of an agenda item that is on its way to its home. -/
def storeOnWay (i : Instr) : Option MemMsg :=
  match i with
  | .storeAtHome m | .msauRequest m => if m.store then some m else none
  | _ => none
/-- Whether a store was issued by the control core or an engine of a room in the partition of `room`. -/
def State.sharesPartition (s : State) (room : Nat) (m : MemMsg) : Bool :=
  match m.who with
  | .core | .eng _ => decide (s.partition m.room = s.partition room)
  | .put | .host | .atom => false
/-- Inserts a message in the order of the numbers, which is the order of issue. -/
def insertMsg (m : MemMsg) : List MemMsg → List MemMsg
  | [] => [m]
  | n :: l => if n.id ≤ m.id then n :: insertMsg m l else m :: n :: l
/-- Stores that rooms of a room's partition have issued and that no home has applied yet: buffered ones, those on their way,
and those that wait for a granule; in the order of issue. Copies of the partition hold their bytes (R286, R307). -/
def State.flying (s : State) (room : Nat) : List MemMsg :=
  ((s.agenda.filterMap fun a => storeOnWay a.2) ++ s.msauQ.flatMap (fun q => q.2.filterMap storeOnWay) ++
    (s.waiting.filter (·.store)) ++ s.bufferedFor room).foldl
    (fun l m => if s.sharesPartition room m then insertMsg m l else l) []
/-- A value under the bytes of stores. -/
def overlay (ms : List MemMsg) (key w v : Nat) : Nat :=
  if ms = [] then v
  else leNat ((List.range w).map fun i => (bufferedByte ms (key + i)).getD (BitVec.ofNat 8 (v / 256 ^ i)))
/-- The value of a part as a room reads it at its home: under the stores of its partition issued before number `id`. -/
def State.seen (s : State) (room id : Nat) (p : Part) : Nat :=
  overlay (if cacheable p then (s.flying room).filter fun m => decide (m.id < id) else []) p.key p.w (homeValue s p)

/-- The copies of a line that a room can read are dropped. -/
def State.dropCopies (s : State) (room line : Nat) : State :=
  (s.setCopy (s.partition room) line {}).setCopy (coreHolder room) line {}
/-- The home grants a lease on a part's line, and the reader's partition, and core cache, take a copy (R283, R284), with the
bytes of the partition's own stores still on their way (R286). A line with a snoop to answer is leased no more (R295); the
reader's older copies go, since it has now read the line's newer bytes (R307). -/
def grantLease (s : State) (room : Nat) (core : Bool) (p : Part) : State :=
  let line := lineOf p.key
  if !(cacheable p) then s
  else if s.snoops.any (fun g => g / 2 = line) then s.dropCopies room line else
  let e := s.tick + leaseOf p
  let v := overlay (s.flying room) (line * 128) 128 (homeValue s { p with key := line * 128, w := 128 })
  let c : Copy := { bytes := leBytes 128 v, lend := e }
  let s := { s with lend := tset 0 s.lend line (max e (tget 0 s.lend line)) }
  let s := s.placeCopy (s.partition room) line c
  if core then s.setCopy (coreHolder room) line c else s

/-! ## Heat (R361, R362) -/

/-- HEATCFG in force. -/
def State.heatEpoch (s : State) : Nat := s.tick / 4096 / 2 ^ (min s.hall.heatD 20)
/-- The count of a page now (R362). -/
def State.heatValue (s : State) (page : Nat) : Nat :=
  let (c, e0) := tget (0, 0) s.heat page
  c >>> min 16 (s.heatEpoch - e0)
/-- Number of the unit that a page's misses reach: its channel, or its CXL port; a page of port registers reaches neither. -/
def heatUnit (s : State) (p : Part) : Option Nat :=
  match p.place with
  | .hostC | .hostN => some (256 + hostPortOf p.key)
  | .tier => some (256 + getField (tierEntry s p.key) 1 2)
  | .hbm | .repl =>
    some (if p.cmp then recordChannel s (keyTenant p.key) (keyMdx p.key) else Config.channelOf (p.key / 65536) % 256)
  | .port | .scratch _ | .attic _ | .shadow _ => none
/-- A demand miss of a page at a unit (R361). -/
def heatMiss (s : State) (u page : Nat) : State :=
  let full := 2 ^ s.hall.heatS
  let d := (tget none s.down u).getD full
  if d ≤ 1 then
    { s with down := tset none s.down u none,
             heat := tset (0, 0) s.heat page (min 0xFFFF (s.heatValue page + 1), s.heatEpoch) }
  else { s with down := tset none s.down u (some (d - 1)) }
/-- Inserts a miss behind those of its place in the order of R268. -/
def insertMiss (m : Nat × Nat × Nat) : List (Nat × Nat × Nat) → List (Nat × Nat × Nat)
  | [] => [m]
  | n :: l => if n.1 ≤ m.1 then n :: insertMiss m l else m :: n :: l
/-- A demand miss reaches its unit in this tick; the misses of a tick are taken at its end, in the order of R268 (R361). -/
def State.noteMiss (s : State) (order : Nat) (p : Part) : State :=
  match heatUnit s p with
  | some u => { s with misses := insertMiss (order, u, p.key / 65536) s.misses }
  | none => s
/-- The demand misses of the tick are taken. -/
def State.takeMisses (s : State) : State := s.misses.foldl (fun s m => heatMiss s m.2.1 m.2.2) { s with misses := [] }
/-- A store is a buffered one that its room has drained (R293). -/
def State.drained (s : State) (m : MemMsg) : Bool :=
  m.store && (s.wing (wingOf m.room)).keys.any fun k => k.draining.any fun p => p.1 = m.id
/-- The demand misses of a message: one for each line of a HEAT page, of the control core, of L, S and C entries, and of their
atomics; a store whose line the room's partition holds misses nothing, and a write-back is none (R361). -/
def heatOf (s : State) (m : MemMsg) : State :=
  let miss (p : Part) : Bool :=
    p.heat && !(m.store && m.who ≠ .atom && cacheable p && (s.copy? (s.partition m.room) (lineOf p.key)).isSome)
  if m.who = .host ∨ 256 ≤ m.room ∨ s.drained m then s
  else (m.parts.foldl (fun (a : List Nat × State) p =>
    if miss p && !a.1.contains (lineOf p.key) then (lineOf p.key :: a.1, a.2.noteMiss (senderKey m) p) else a) ([], s)).2

/-! ## Incarnations, migration, the bridge -/

/-- Drops a message that bears an old incarnation (R301). -/
def State.dropStale (s : State) (agent carried : Nat) : State :=
  let s := s.logAdd (logRec 4 none agent (BitVec.ofNat 64 s.tick)
    (BitVec.ofNat 64 (carried % 2 ^ 16 + 2 ^ 16 * (tget 0 s.hall.inc agent))) 0)
  s.modHall fun h => { h with dropcnt := min 0xFFFFFFFF (h.dropcnt + 1) }
def State.stale (s : State) (agent carried : Nat) : Bool := decide (tget 0 s.hall.inc agent ≠ carried)
/-- The incarnation that an agent's messages bear. -/
def State.incOf (s : State) (agent : Nat) : Nat := tget 0 s.hall.inc agent

/-- Where a part of a request to a sealed source page goes: MOVED; the requester walks again, and the request goes where the
walk leads, or to the destination if that is the source still (R359). Every line stands at its destination from the seal
on. A walk that fails, or that grants no such access, is the requester's fault (DESIGN CHOICE, log entry 85). -/
def movedPart (s : State) (tenant : Nat) (satp : W64) (store : Bool) (p : Part) : Except Nat Part :=
  let dst := s.movedPa p.key
  if p.place ≠ .hbm ∨ p.cmp ∨ dst = p.key then .ok p
  else if getField satp 60 4 ≠ 15 then .ok { p with key := dst }
  else match walk s tenant (getField satp 0 36) p.va with
    | .error f => .error f
    | .ok (e, l) =>
      if !(if store then pteW e else pteR e || pteX e) then .error 1
      else match locOfLeaf s tenant ⟨tenant, getField satp 44 16, getField p.va 16 39, l, e⟩ p.va with
        | .error f => .error f
        | .ok q =>
          if q.place = .repl then .error 1
          else .ok { p with place := q.place, key := if q.place = .hbm ∧ !q.cmp then s.movedPa q.key else q.key, ms := q.ms,
                            watch := q.watch, cmp := q.cmp, heat := q.heat }
/-- A part where its page stands now (R359). -/
def State.homeOf (s : State) (p : Part) : Part := if p.place = .hbm ∧ !p.cmp then { p with key := s.movedPa p.key } else p
/-- A message with its parts where their pages have moved, or the first fault of a re-walk. What carries no root of page tables
(a put's write, a host's access) is forwarded; so is a part of a split store whose walk fails, as other bytes of that store have
been stored, which R125 rules out for one that faults (DESIGN CHOICE, log entry 85). -/
def moved (s : State) (m : MemMsg) : Except (Nat × W64) MemMsg :=
  let satp := match m.who with | .put | .host => 0 | _ => m.satp
  let go (p : Part) : Except Nat Part :=
    match movedPart s m.tenant satp m.store p with
    | .error f => if m.split then movedPart s m.tenant 0 m.store p else .error f
    | .ok q => .ok q
  match m.parts.findSome? fun p => match go p with | .error f => some (f, p.va) | .ok _ => none with
  | some f => .error f
  | none => .ok { m with parts := m.parts.map fun p => match go p with | .ok q => q | .error _ => p }

/-- Granules of host-homed and tier lines that parts need held: both halves for a load, those written for a store (R295, R299). -/
def granulesOf (store : Bool) (parts : List Part) : List Nat :=
  (parts.flatMap fun p =>
    match p.place with
    | .hostC | .tier =>
      if store then
        (let g := granuleOf p.key; let g2 := granuleOf (p.key + p.w - 1); if g = g2 then [g] else [g, g2])
      else [2 * lineOf p.key, 2 * lineOf p.key + 1]
    | _ => []).eraseDups
def needed (m : MemMsg) : List Nat := granulesOf m.store m.parts
/-- Those that the bridge does not hold. -/
def missing (s : State) (m : MemMsg) : List Nat := (needed m).filter fun g => (tget {} s.grans g).st = 0

/-- Writes back the M halves of the least recently written line, as one more line would become M (R298). -/
def writeBackOldest (s : State) : State :=
  let l := s.grans.filter fun e => decide (e.2.st = 2) && decide (2 ^ 52 ≤ e.1 * 64)
  let last (line : Nat) : Nat := l.foldl (fun n e => if e.1 / 2 = line then max n e.2.order else n) 0
  match (l.map fun e => e.1 / 2).eraseDups with
  | [] => s
  | e :: r =>
    let line := r.foldl (fun a b => if last b < last a then b else a) e
    { s with grans := [2 * line, 2 * line + 1].foldl (fun g i =>
        tmod {} g i fun x => if x.st = 2 then { x with st := 1 } else x) s.grans }
/-- A store turns a held half into M. -/
def dirtyGran (s : State) (tenant g : Nat) : State :=
  let line := g / 2
  let isM := (tget {} s.grans (2 * line)).st = 2 ∨ (tget {} s.grans (2 * line + 1)).st = 2
  let s := if !isM ∧ 2 ^ 52 ≤ g * 64 ∧ 262144 ≤ s.dirtyLines.length then writeBackOldest s else s
  { s with grans := tset {} s.grans g { st := 2, order := s.seq, tenant := tenant } }.nextId

/-! ## Watched lines (R263, R268 to R274) -/

/-- An armed entry whose range holds a physical line. -/
def WEntry.has (e : WEntry) (line : Nat) : Bool := e.lines.contains line
def entryDepth (b : BitVec 1024) : Nat := (b.extractLsb' 512 4).toNat
def entryRate (b : BitVec 1024) : Nat := (b.extractLsb' 520 16).toNat
def entryFirst (b : BitVec 1024) : W64 := b.extractLsb' 0 64
def entryHandler (b : BitVec 1024) : W64 := b.extractLsb' 128 64
def entryArg (b : BitVec 1024) : W64 := b.extractLsb' 192 64
def entryRooms (b : BitVec 1024) : BitVec 256 := b.extractLsb' 256 256
/-- Virtual address of the i-th line of an entry's range. -/
def entryLineVa (b : BitVec 1024) (i : Nat) : W64 := entryFirst b + BitVec.ofNat 64 (128 * i)

/-- The armed entries, with their numbers. -/
def State.armed (s : State) : List (Nat × WEntry) :=
  s.hall.watch.filterMap fun (i, e) => match e with | some w => if w.state = 1 then some (i, w) else none | none => none
/-- The entries that compare at this tick: the armed ones, and those disabled in it (R274). -/
def State.comparing (s : State) : List (Nat × WEntry) :=
  s.hall.watch.filterMap fun (i, e) => match e with
    | some w => if w.state = 1 ∨ w.ranAt = some s.tick then some (i, w) else none
    | none => none
/-- Whether a line is watched: its page is marked WATCH, or an armed entry holds it. -/
def watchedPart (s : State) (p : Part) : Bool :=
  p.watch || (p.place = .hbm && s.comparing.any fun e => e.2.has (lineOf p.key))

/-- Queue code of a store behind a RUNAWAY (R340). -/
def whoCode : Who → Nat | .core => 0 | .eng .s => 2 | .eng .c | .put => 4 | .atom => 6 | _ => 0

/-- A trigger counts another's stores too (R263). -/
def Trig.join (t u : Trig) : Trig :=
  { t with count := min 0xFFFFFFFF (t.count + u.count), depth := max t.depth u.depth, vt := max t.vt u.vt, wait := t.wait ++ u.wait }
/-- The tick's stores are counted into the trigger that has not started in it (R270). -/
def WEntry.settle (e : WEntry) : WEntry :=
  match e.pend, e.fresh with
  | _, [] => e
  | some t, l => { e with pend := some (l.foldl Trig.join t), fresh := [] }
  | none, t :: l => { e with pend := some (l.foldl Trig.join t), fresh := [] }
/-- Effect of a store that is not silent on one entry (R263, R269, R270, R272, R274). A store behind a trigger stands by itself
until the tick ends: it is counted into that trigger unless a room is claimed for it in this tick. -/
def triggerEntry (e : WEntry) (changed : List Nat) (depth room queue vt now : Nat) (wait : Option Nat) : WEntry :=
  let line := match (List.range e.lines.length).find? fun i => changed.contains (e.lines.getD i 0) with
    | some i => entryLineVa e.image i
    | none => entryFirst e.image
  let d := match e.pend with | some t => max t.depth depth | none => depth
  if entryDepth e.image < d then
    { e with state := 2, pend := none, fresh := [], ranAt := some now, runaway := some (false, room, queue) }
  else
    let t : Trig := { count := 1, depth := depth, line := line, vt := vt, wait := wait.toList }
    if e.pend.isSome then { e with fresh := e.fresh ++ [t] } else { e with pend := some t }

/-- One store instruction at the watch table: silent for every entry it touches, or counted by each (R263, R269). An entry
disabled in this tick still compares (R274). -/
def watchStore (s : State) (touched changed : List Nat) (depth room queue vt : Nat) (wait : Option Nat) : State :=
  s.comparing.foldl (fun s (i, e) =>
    if touched.any e.has then
      let e' := if changed = [] then { e with silent := min 0xFFFFFFFF (e.silent + 1) }
                else if e.state = 1 then triggerEntry e changed depth room queue vt s.tick wait else e
      s.modHall fun h => { h with watch := tset none h.watch i (some e') }
    else s) s

/-! ## Applying a store at its home -/

/-- Whether a part would change a byte of its line; poisoned old data counts as changed (R268). -/
def partChanges (s : State) (p : Part) : Bool :=
  (p.place = .hbm && !p.cmp && s.poisoned p.key p.w) || decide (homeValue s p ≠ p.data % 256 ^ p.w)

/-- Keys of the poisoned granules that a list of parts writes whole. -/
def wholeGranules (s : State) (parts : List Part) : List Nat :=
  if s.poison = [] then [] else
  ((parts.map fun p => p.key / 128).eraseDups.filter fun g => tget false s.poison g).filter fun g =>
    (List.range 128).all fun i => parts.any fun p => p.key ≤ 128 * g + i && decide (128 * g + i < p.key + p.w)

/-- Change wakes to the monitors of a line, for a store with visibility time vt (R326). -/
def wakeMonitors (s : State) (line vt : Nat) : State :=
  (tget [] s.mons line).foldl (fun s r =>
    (s.schedule (max (s.tick + 1) (vt + Config.messageDelay s.fresh % 65)) (.monChangeWake r line)).bump) s
/-- Reservations of other agents on a line end with a store to it. The SCs that have failed count no longer: the four attempts of
R329 are for loops to whose line no other agent stores. -/
def endReservations (s : State) (agent line : Nat) : State :=
  { s with rooms := s.rooms.map fun (i, x) =>
      match x.resv with
      | some v => if v.line = line ∧ i ≠ agent then (i, { x with resv := none, scFails := 0 }) else (i, x)
      | none => (i, x) }
/-- Reservations on a line end with the loss of E at the bridge, which is no store (R329). -/
def loseReservations (s : State) (line : Nat) : State :=
  { s with rooms := s.rooms.map fun (i, x) =>
      match x.resv with
      | some v => if v.line = line then (i, { x with resv := none }) else (i, x)
      | none => (i, x) }
/-- A room makes its fourth attempt at an LR and SC on a line (R329). -/
def State.fourthTry (s : State) (line : Nat) : Bool :=
  s.rooms.any fun e => decide (3 ≤ e.2.scFails) && (match e.2.resv with | some v => decide (v.line = line) | none => false)

/-- Writes the bytes of plain parts (not compressed, not ports), and clears the poison of granules written whole. -/
def writeParts (s : State) (parts : List Part) : State :=
  let whole := wholeGranules s parts
  let s := parts.foldl (fun s p => s.write p.key p.w p.data) s
  { s with poison := whole.foldl (fun t g => tset false t g false) s.poison }

/-- The chunks that a sector needs for its plain bytes: 1 to 7, or 8 with RAW (R365). -/
def sectorChunks (bytes : List Byte) : Nat := 1 + (Config.chunksFor bytes - 1) % 8

/-- A sector after a store: its bytes, its poison and the chunks it needs. -/
structure SectorPlan where
  tenant : Nat
  mdx    : Nat
  sec    : Nat
  bytes  : List Byte
  poison : Bool
  need   : Nat
  have_  : List Nat
  deriving DecidableEq, Repr

/-- What each sector that the parts write becomes (R365). -/
def sectorPlans (s : State) (parts : List Part) : List SectorPlan :=
  (parts.map fun p => p.key / 4096).eraseDups.map fun q =>
    let key := q * 4096
    let t := keyTenant key
    let x := keyMdx key
    let c := keySector key
    let d := sectorDesc s t x c
    let bad := decide (sectorFault s t x c = some 4)
    let mine := parts.filter fun p => p.key / 4096 = q
    let old := if bad ∨ descNch d = 0 then List.replicate 4096 0 else s.mem.bytes key 4096
    let full := (List.range 4096).all fun i => mine.any fun p => p.key ≤ key + i && decide (key + i < p.key + p.w)
    let new := mine.foldl (fun l p => patchBytes l (p.key % 4096) (leBytes p.w p.data)) old
    { tenant := t, mdx := x, sec := c, bytes := new, poison := bad && !full, need := sectorChunks new,
      have_ := descChunks d }
/-- The plans of one tick in increasing channel number (R363). -/
def orderPlans (s : State) (l : List SectorPlan) : List SectorPlan :=
  (List.range 256).flatMap fun u => l.filter fun p => recordChannel s p.tenant p.mdx = u

/-- Whether the free list has the chunks that the plans take, for each tenant (R365). -/
def plansFit (s : State) (l : List SectorPlan) : Bool :=
  l.all fun p => decide ((l.foldl (fun n q => if q.tenant = p.tenant then n + (q.need - q.have_.length) else n) 0) ≤
    tget 0 s.hall.fcnt p.tenant)

/-- Takes a chunk from the top of a tenant's free list. -/
def takeChunk (s : State) (tenant : Nat) : State × Nat :=
  let n := tget 0 s.hall.fcnt tenant
  (s.modHall fun h => { h with fcnt := tset 0 h.fcnt tenant (n - 1) },
   s.read ((tget 0 s.hall.flb tenant).toNat + 4 * (n - 1)) 4)
/-- Returns a chunk to it. -/
def putChunk (s : State) (tenant c : Nat) : State :=
  let n := tget 0 s.hall.fcnt tenant
  (s.write ((tget 0 s.hall.flb tenant).toNat + 4 * n) 4 c).modHall fun h =>
    { h with fcnt := tset 0 h.fcnt tenant (n + 1) }
def takeChunks (s : State) (tenant : Nat) : Nat → State × List Nat
  | 0 => (s, [])
  | n + 1 => let (s, c) := takeChunk s tenant
             let (s, l) := takeChunks s tenant n
             (s, c :: l)

/-- The descriptor of a sector (R363). The ECC field and the contents of chunks are the engine's own. -/
def newDesc (bytes : List Byte) (poison : Bool) (chunks : List Nat) : BitVec 512 :=
  let low : BitVec 64 := crc32 bytes ++ 0#26 ++ BitVec.ofBool poison ++ BitVec.ofBool (decide (chunks.length = 8)) ++
    BitVec.ofNat 4 chunks.length
  (Config.descriptorRest bytes).extractLsb' 320 192 ++
    BitVec.ofNat 256 (chunks.foldr (fun c a => c % 2 ^ 32 + 2 ^ 32 * a) 0) ++ low

/-- Rewrites a sector with the chunks it keeps, takes or returns (R365); a chunk that is written whole is poisoned no more
(R391). -/
def rewriteSector (s : State) (p : SectorPlan) : State :=
  let (s, taken) := takeChunks s p.tenant (p.need - p.have_.length)
  let s := (p.have_.drop p.need).foldl (fun s c => putChunk s p.tenant c) s
  let chunks := p.have_.take p.need ++ taken
  let clean := if s.poison = [] then [] else chunks.foldl (fun t c => tdrop t (chunkAddr s p.tenant c / 128) (chunkAddr s p.tenant c / 128 + 4)) s.poison
  let s := { s with mem := s.mem.putBytes (cmpKey p.tenant p.mdx (4096 * p.sec)) p.bytes, poison := clean }
  s.write (descAddr s p.tenant p.mdx p.sec) 64 (newDesc p.bytes p.poison chunks).toNat

/-- `check()` on a barrier object's 32 bytes: the object after it, and whether the phase completed (R318). -/
def barCheck (o : BitVec 256) : BitVec 256 × Bool :=
  let npart : BitVec 16 := o.extractLsb' 0 16
  let arrived : BitVec 16 := o.extractLsb' 16 16
  let phase : BitVec 16 := o.extractLsb' 32 16
  let pend : BitVec 40 := o.extractLsb' 64 40
  let expb : BitVec 40 := o.extractLsb' 128 40
  if arrived = npart ∧ expb.toNat ≤ pend.toNat then
    ((o.extractLsb' 168 88) ++ 0#40 ++ (o.extractLsb' 104 24) ++ (pend - expb) ++ (o.extractLsb' 48 16) ++ (phase + 1) ++
      0#16 ++ npart, true)
  else (o, false)

/-- Releases every wait held on a barrier object: the rooms learn of it within 64 ticks (R318, R321). -/
def releaseWaits (s : State) (key : Nat) : State :=
  let mine := s.barHeld.filter fun b => b.key = key
  mine.foldl (fun s b => (s.schedule s.cohTick (.barWaitRelease b.room b.id)).bump)
    { s with barHeld := s.barHeld.filter fun b => b.key ≠ key }

/-- Runs `check()` on the barrier object at a key (R317, R318). -/
def checkBarrier (s : State) (key : Nat) : State :=
  let (o, done) := barCheck (BitVec.ofNat 256 (s.read key 32))
  if done then releaseWaits (s.write key 32 o.toNat) key else s

/-- Host-held granules that the parts of a store write (R297). -/
def hostHeldBy (s : State) (who : Who) (parts : List Part) : List Nat :=
  if s.hostHeld = [] ∨ who = .host then [] else
  ((parts.filter fun p => p.place = .hbm && !p.cmp).map fun p => granuleOf p.key).eraseDups.filter
    fun g => tget false s.hostHeld g

/-- The visibility time of a part applied at this tick (R286, R289, R299, R307). -/
def partVt (s : State) (p : Part) : Nat :=
  if cacheable p then max s.tick (tget 0 s.lend (lineOf p.key) + 1) else s.tick

/-- What becomes of a store at its home. -/
structure Applied where
  s      : State
  vt     : Nat
  wait   : List Nat          -- granules whose BIRsp the visibility time waits for
  wake   : List Nat          -- lines whose monitors wake once those have come
  msg    : MemMsg            -- the store without the parts that it does not write
  fault  : Option (Nat × W64)

/-- The fault that a write of a part meets at its home: SCRATCH_RANGE, a lost link, or a chunk that cannot be reached (R203, R299,
R300, R364). -/
def writeFault (s : State) (p : Part) : Option Nat :=
  if beyondPortion s p then some 6
  else if s.lost p.place p.key then some 5
  else if p.cmp then cmpDown s p.key else none
/-- The first fault that keeps a store from being performed: that of a part, or COMPRESS_FULL (R365). -/
def storeFault (s : State) (m : MemMsg) (plans : List SectorPlan) : Option (Nat × W64) :=
  match m.parts.findSome? fun p => (writeFault s p).map fun f => (f, p.va) with
  | some f => some f
  | none =>
    if plansFit s plans then none
    else some (3, (match m.parts.find? (·.cmp) with | some p => p.va | none => 0))

/-- Applies a store instruction at its home, in one tick: the compare of watched lines, the bytes, the compressed
sectors, the ports, the bridge halves, monitors, reservations and barriers. -/
def applyStore (s : State) (m : MemMsg) : Applied :=
  let plans := sectorPlans s (m.parts.filter (·.cmp))
  match storeFault s m plans with
  | some f => { s := s, vt := s.tick, wait := [], wake := [], msg := m, fault := some f }
  | none =>
    let watched := m.parts.filter (watchedPart s)
    let silent := watched ≠ [] && !watched.any (partChanges s)
    let written := if silent then m.parts.filter fun p => !watchedPart s p else m.parts
    let plain := written.filter fun p => !p.cmp && decide (p.place ≠ .port)
    let held := hostHeldBy s m.who written
    let touched := (watched.map fun p => lineOf p.key).eraseDups
    let changedAll := ((plain.filter (partChanges s)).map fun p => lineOf p.key).eraseDups
    let changedCmp := ((m.parts.filter fun p => p.cmp && partChanges s p).map fun p => lineOf p.key).eraseDups
    let changedW := if silent then [] else ((watched.filter (partChanges s)).map fun p => lineOf p.key).eraseDups
    let vts := m.parts.map fun p => if silent && watchedPart s p then s.tick else partVt s p
    let vt := vts.foldl max s.tick
    let s := writeParts s plain
    let s := (orderPlans s plans).foldl rewriteSector s
    let s := (m.parts.filter fun p => p.place = .port).foldl
      (fun s p => portWrite s p.key (BitVec.ofNat 64 p.data) m.tenant) s
    let s := (needed m).foldl (fun s g => dirtyGran s m.tenant g) s
    let s := heatOf s m
    let s := if touched = [] then s
      else watchStore s touched changedW m.depth m.room (whoCode m.who) vt (if held = [] then none else some m.id)
    let changed := changedAll ++ changedCmp
    let s := changed.foldl (fun s l => endReservations s m.room l) s
    let s := if held = [] then changed.foldl (fun s l => wakeMonitors s l vt) s else s
    let objs := ((plain.flatMap fun p => (List.range ((p.key % 32 + p.w + 31) / 32)).map fun i =>
      p.key / 32 * 32 + 32 * i).eraseDups.filter fun k => tget false s.barObjs k)
    let s := objs.foldl checkBarrier s
    { s := s, vt := vt, wait := held, wake := changed, msg := { m with parts := written }, fault := none }

/-! ## Engine entries and their messages -/

/-- Changes the entry of a queue that waits for a message, or whose answer the message carries. -/
def modEntry (s : State) (room : Nat) (e : Eng) (p : Entry → Bool) (f : Entry → Entry) : State :=
  s.modRoom room fun x => x.modQueue e fun q => { q with q := q.q.map fun n => if p n then f n else n }

/-- In `got`, a `c.put` marks the message of a block sent under this key and its number, with the block's cursor + 1. -/
def ackKey : Nat := 2 ^ 129
/-- A message of an entry has been performed at its home. -/
def performed (s : State) (room : Nat) (e : Eng) (id : Nat) : State :=
  modEntry s room e (fun n => n.msgs.contains id) fun n =>
    let l := n.msgs.filter (· ≠ id)
    { n with msgs := l, got := tset 0 n.got (ackKey + id) 0, minFin := if l = [] then max n.minFin s.tick else n.minFin }

/-- What an entry keeps in `got` across a fault: a `c.fill` the sources that it has read, each once (R217); a `c.mcast` what
it noted about its destinations (R215). -/
def Entry.heldGot (n : Entry) : Tbl Nat :=
  match n.instr with
  | .cFill _ _ _ _ _ => n.got.filter fun p => 16 ≤ p.1
  | .cMcast _ _ _ _ _ => n.got.filter fun p => decide (0 < p.1) && decide (p.1 < 3)
  | _ => []
/-- A block of a `c.put` has failed at `va`: the entry notes the first such block, and faults there once every block that it
has sent is accepted or discarded (R333). -/
def Entry.putFails (n : Entry) (id code now : Nat) (va : W64) : Entry :=
  let a := tget 0 n.got (ackKey + id)
  let b := if a = 0 then n.cursor + 1 else a
  let got := tset 0 n.got (ackKey + id) 0
  let got := if tget 0 got 4 = 0 ∨ b < tget 0 got 4 then tset 0 (tset 0 (tset 0 got 4 b) 5 code) 6 va.toNat else got
  { n with msgs := n.msgs.filter (· ≠ id), got := got, more := some now }
/-- An entry in flight faults: it stays at its head without any effect, to be executed again (R125). -/
def entryFault (s : State) (room : Nat) (e : Eng) (id code : Nat) (va : W64) : State :=
  modEntry s room e (fun n => n.msgs.contains id) fun n =>
    match n.instr with
    | .cPut _ _ _ _ _ => n.putFails id code s.tick va
    | _ =>
      { n with msgs := [], issued := none, more := none, effs := [], got := n.heldGot,
               cursor := if e = .c then n.cursor else 0,
               fault := some { code := code, va := va, cursor := 0, detail := 0 }, held := [] }

/-- A trap of the control core for an access that failed after its lane had dispatched. -/
def lateTrap (s : State) (m : MemMsg) (code : Nat) (va : W64) : State :=
  s.modRoom m.room fun x => { x with misuse := x.misuse ++ [{ code := code, tval := va, lane := m.lane, word := 0 }] }

/-! ## Answers of loads -/

/-- The value that an RV load writes. -/
def loadValue (op : LdOp) (v : Nat) : W64 :=
  match op with
  | .lb => (BitVec.ofNat 8 v).signExtend 64
  | .lh => (BitVec.ofNat 16 v).signExtend 64
  | .lw => (BitVec.ofNat 32 v).signExtend 64
  | .ld => BitVec.ofNat 64 v
  | .lbu => (BitVec.ofNat 8 v).setWidth 64
  | .lhu => (BitVec.ofNat 16 v).setWidth 64
  | .lwu => (BitVec.ofNat 32 v).setWidth 64
/-- The value that an FP load writes: a single is NaN-boxed. -/
def floadValue (dbl : Bool) (v : Nat) : W64 := if dbl then BitVec.ofNat 64 v else 0xFFFFFFFF#32 ++ BitVec.ofNat 32 v
/-- A pattern from its 64-byte image (R87); entries are held less 127, which an unlisted entry reads as. -/
def patternOf (v : Nat) : Tbl (BitVec 7) := tofn 127 64 fun j => BitVec.ofNat 7 (v / 256 ^ j)

/-- Data of the stream element under way reach an iq; the element arrives with the last of them (R219). -/
def Room.streamData (x : Room) (q id : Nat) (vals : List (Nat × Nat)) : Room :=
  let i := tget {} x.iq q
  match i.stream with
  | some st =>
    let left := st.asked.filter (· ≠ id)
    let got := vals.foldl (fun t (p, v) => tset 0 t p (BitVec.ofNat 32 v)) st.got
    if st.asked.contains id then
      { x with iq := tset {} x.iq q { i with stream := some { st with asked := left, got := got } } }
    else x
  | none => x

/-- A source fault stops a stream (R219). -/
def Room.streamFault (x : Room) (q id code : Nat) (va : W64) : Room :=
  let i := tget {} x.iq q
  match i.stream with
  | some st =>
    let f : FaultInfo := { code := code, va := va, cursor := BitVec.ofNat 64 st.arrived, detail := 0 }
    let st' := { st with asked := [], got := [], sent := false, fault := some f }
    if st.asked.contains id then { x with iq := tset {} x.iq q { i with stream := some st' } } else x
  | none => x

/-- Delivers a load's data to its destination. -/
def deliver (s : State) (m : MemMsg) (vals : List (Nat × Nat)) : State :=
  let v0 := match vals with | (_, v) :: _ => v | [] => 0
  match m.dest with
  | .x rd op => s.modRoom m.room fun x =>
      if x.outs.any fun o => o.id = m.id then (x.setX rd (loadValue op v0)).answered m.id |>.freed m.id s.tick else x
  | .f rd dbl => s.modRoom m.room fun x =>
      if x.outs.any fun o => o.id = m.id then
        (let y := (x.setF rd (floadValue dbl v0)).answered m.id
         { y with csr := { y.csr with mstatus := setField y.csr.mstatus 13 2 3 } }.freed m.id s.tick)
      else x
  | .bnet p => s.modRoom m.room fun x =>
      if x.hold = .answer m.id then ({ x with bnet := tset [] x.bnet p (patternOf v0) }.answered m.id).retire s.tick
      else x.answered m.id
  | .entry e =>
      performed (modEntry s m.room e (fun n => n.msgs.contains m.id) fun n =>
        { n with got := vals.foldl (fun t (p, v) => tset 0 t p v) n.got }) m.room e m.id
  | .iqStream q => s.modRoom m.room fun x => x.streamData q m.id vals
  | .credit k => s.schedule s.tick (.cpfCredit ⟨m.tenant, m.id, k, m.room, m.inc⟩)
  | .cbu w =>
    let take (c : Cbu) : Cbu := if c.asked = some m.id then { c with asked := none, got := some (BitVec.ofNat 128 v0) } else c
    s.modWing w fun x => { x with cbu := x.cbu.map take }
  | .none => s

/-- A load's fault at its destination: an entry holds it; the control core traps (R125, R280, R391). -/
def deliverFault (s : State) (m : MemMsg) (code : Nat) (va : W64) : State :=
  match m.dest with
  | .entry e => entryFault s m.room e m.id code va
  | .x _ _ | .f _ _ | .bnet _ =>
    let trap := if code = 4 ∨ code = 6 then 5 else if code ≤ 1 then 13 else 48 + code
    lateTrap (s.modRoom m.room fun x => { (x.answered m.id) with hold := if x.hold = .answer m.id then .none else x.hold })
      m trap va
  | .iqStream q => s.modRoom m.room fun x => x.streamFault q m.id code va
  | .credit k => s.schedule s.tick (.cpfCredit ⟨m.tenant, m.id, k, m.room, m.inc⟩)
  | .cbu w =>
    let stop (c : Cbu) : Cbu :=
      if c.asked = some m.id then
        { c with asked := none, recorded := false,
                 halt := some { code := code, va := va, cursor := BitVec.ofNat 64 c.cursor, detail := 0 } }
      else c
    s.modWing w fun x => { x with cbu := x.cbu.map stop }
  | .none => s

/-- The sectors that parts read and whose CRC does not match are poisoned from now on (R364). -/
def poisonRead (s : State) (parts : List Part) : State :=
  ((parts.filter (·.cmp)).map fun p => p.key / 4096 * 4096).eraseDups.foldl
    (fun s k => poisonSector s (keyTenant k) (keyMdx k) (keySector k)) s
/-- Performs a load at its home: the first part that fails, in position order, faults; otherwise the bytes return and
every leased line is granted (R284). A CBU takes no lease, and sees what the home holds (R252). -/
def performLoad (s : State) (m : MemMsg) : State :=
  match m.parts.findSome? fun p => (partFault s p).map fun c => (c, p.va) with
  | some (c, va) => deliverFault (poisonRead s m.parts) m c va
  | none =>
    let unit : Bool := match m.dest with | .cbu _ => true | _ => false
    let own := if unit then [] else (s.flying m.room).filter fun q => decide (q.id < m.id)
    let vals := m.parts.map fun p => (p.pos, overlay (if cacheable p then own else []) p.key p.w (homeValue s p))
    let lines := m.parts.foldl (fun (a : List Part) p =>
      if a.any fun q => lineOf q.key = lineOf p.key then a else a ++ [p]) []
    let s := heatOf s m
    let s := if unit then s else lines.foldl (fun s p => grantLease s m.room (m.who = .core) p) s
    deliver s m vals

/-! ## Answers of stores -/

/-- A drained store has been performed at its home with its visibility time (R293). -/
def keyPerformed (s : State) (room id vt : Nat) : State :=
  let f (k : Key) : Key :=
    if k.unperf.contains id then { k with unperf := k.unperf.filter (· ≠ id), maxVt := max k.maxVt vt } else k
  if (s.wing (wingOf room)).keys = [] then s else s.modWing (wingOf room) fun x => { x with keys := x.keys.map f }

/-- Channel of a key: its MSAU, and the lease directory of its lines (R283). -/
def channel (key : Nat) : Nat := Config.channelOf (key / 65536) % 256
/-- The agent of a base die or of the hall that answers for a part, as a sender of coherence messages (R285): its compression engine
or channel, or the bridge; none for a scratchpad or a device. -/
def homeAgent (s : State) (p : Part) : Option Nat :=
  match p.place with
  | .hbm => some (512 + if p.cmp then recordChannel s (keyTenant p.key) (keyMdx p.key) else channel p.key)
  | .hostC | .tier => some 768
  | _ => none
/-- An answer leaves its home for a tick, once fewer than 256 messages of that agent are outstanding (R285). -/
def sendAnswer (s : State) (home : Option Nat) (due : Nat) (i : Instr) : State :=
  match home with
  | some a => let d := due + (s.leaves a 256 - s.tick); (s.noteCoh true a d).schedule d i
  | none => s.schedule due i
/-- A store's answer is on its way to its room (R286). The bytes of a put are accepted once its VT has passed (R303); its
message carries the window handle in place of a root. -/
def sendVt (s : State) (m : MemMsg) (due vt : Nat) : State :=
  let s := keyPerformed s m.room m.id vt
  match m.who with
  | .put => s.schedule (max s.tick vt) (.putAccept { m with store := false } m.satp)
  | .core | .eng _ | .host | .atom =>
    sendAnswer s ((m.parts.getLast?).bind (homeAgent s)) due (.vtAnswer m.room m.who m.id vt)

/-- The issuing room's partition and control-core cache lose their copies of a store's lines: the store has failed, and its
bytes stand in them. -/
def State.dropOwn (s : State) (room : Nat) (parts : List Part) : State :=
  parts.foldl (fun s p => if cacheable p then
    (s.setCopy (s.partition room) (lineOf p.key) {}).setCopy (coreHolder room) (lineOf p.key) {} else s) s

/-- A store that must first back-invalidate has no bound from its first answer on (R288). -/
def unbound (s : State) (m : MemMsg) : State :=
  let f (l : List OutStore) := l.map fun o => if o.id = m.id then { o with bound := none } else o
  match m.who with
  | .eng e => modEntry (s.modRoom m.room fun x => { x with stores := f x.stores }) m.room e
      (fun n => n.sent.any fun o => o.id = m.id) fun n => { n with sent := f n.sent }
  | _ => s.modRoom m.room fun x => { x with stores := f x.stores }

/-- A drained store's answer reaches its room (R293). -/
def keyAnswer (s : State) (room id : Nat) : State :=
  let f (k : Key) : Key := { k with draining := k.draining.filter fun p => p.1 ≠ id }
  if (s.wing (wingOf room)).keys = [] then s else s.modWing (wingOf room) fun x => { x with keys := x.keys.map f }

/-- Whether every buffered store of a room into a region has been drained and answered (R324). -/
def State.keyDrained (s : State) (w slot room : Nat) : Bool :=
  (s.wing w).keys.all fun k => k.slot ≠ slot || !k.draining.any fun p => p.2 = room
/-- A `key.pass` completes once that is so. -/
def State.passDone (s : State) (room : Nat) : State :=
  match (s.room room).hold with
  | .keyPass w slot => if s.keyDrained w slot room then s.modRoom room fun x => x.retire s.tick else s
  | _ => s
/-- A job learns the visibility time of a store that an iteration of its has left (R236). -/
def State.lateKnown (s : State) (room id vt : Nat) : State :=
  if s.hall.jobs.all fun j => j.late = [] then s else
  let known (j : Job) : Job :=
    if j.late.contains (room, id) then { j with late := j.late.filter (· ≠ (room, id)), endHz := max j.endHz vt } else j
  s.modHall fun h => { h with jobs := h.jobs.map known }
/-- A store's fault: an entry holds it; a control-core store traps (R300). Its bytes leave the room's own copies, and no key
waits for it longer. -/
def storeFails (s : State) (m : MemMsg) (code : Nat) (va : W64) : State :=
  let s := keyAnswer (keyPerformed ((s.dropOwn m.room m.parts).lateKnown m.room m.id 0) m.room m.id 0) m.room m.id
  State.passDone (match m.who with
  | .eng e => modEntry (entryFault s m.room e m.id code va) m.room e
      (fun n => n.sent.any fun o => o.id = m.id) fun n => { n with sent := n.sent.filter fun o => o.id ≠ m.id }
  | .core => lateTrap (s.modRoom m.room fun x => { x with stores := x.stores.filter fun o => o.id ≠ m.id }) m
      (if code = 6 then 7 else if code ≤ 1 then 15 else 48 + code) va
  | .put => entryFault s m.room .c m.id code va
  | .host | .atom => s) m.room

/-- A store whose visibility time is known: an S entry may finish with it (R16). -/
def settled (s : State) (m : MemMsg) : State :=
  match m.who with | .eng .s => performed s m.room .s m.id | _ => s

/-- The CXL port whose host holds a granule of device memory, as an agent of R301. -/
def State.holderAgent (s : State) (g : Nat) : Nat := 256 + tget 0 s.heldBy g
/-- Whether the host has been asked for its copy of a granule and has not answered. -/
def State.birspAsked (s : State) (g : Nat) : Bool :=
  s.agenda.any fun a => match a.2 with
    | .birspArrival h _ => decide (h.granule = g) && !s.stale (s.holderAgent g) h.inc | _ => false
/-- Asks the host for its copy of a granule, unless that has been asked already (R297). -/
def State.askBirsp (s : State) (g : Nat) : State :=
  if s.birspAsked g then s else (s.schedule s.openTick (.birspArrival ⟨g, s.incOf (s.holderAgent g)⟩ [])).bump

/-- Performs a store at its home and answers it. A store that must first back-invalidate a host copy waits for the BIRsp
with its visibility time (R297). -/
def performStore (s : State) (m : MemMsg) : State :=
  let a := applyStore s m
  match a.fault with
  | some (c, va) => storeFails a.s m c va
  | none =>
    let s := match m.who with | .eng .s => a.s | .eng e => performed a.s m.room e m.id | _ => a.s
    let own := m.parts.all fun p => p.place = .scratch m.room
    if a.wait = [] then (sendVt (settled s m) m (if own then s.tick else s.vtTick) a.vt).bump
    else
      a.wait.foldl (fun (s : State) g =>
        State.askBirsp { s with birsp := tmod [] s.birsp g (· ++ [⟨a.msg, a.vt, a.wake⟩]) } g) (unbound s m)

/-! ## Messages at the homes -/

/-- The CXL port through which a granule of host memory or of the second tier is reached, and the service core of its software
directory, as agents of R301. -/
def State.portAgent (s : State) (g : Nat) : Nat :=
  256 + if 2 ^ 52 ≤ 64 * g then hostPortOf (64 * g) else getField (tierEntry s (64 * g)) 1 2
def coreUnit (g : Nat) : Nat := Config.serviceCore g % 15
def coreAgent (g : Nat) : Nat := 272 + coreUnit g
/-- Whether the host, or the software directory, has been asked for a granule and has not answered. -/
def State.granAsked (s : State) (g : Nat) : Bool :=
  s.agenda.any fun a => match a.2 with
    | .rdownCompletion h _ => decide (h.granule = g) && !s.stale (s.portAgent g) h.inc
    | .sharingMiss _ h => decide (h.granule = g) && !s.stale (coreAgent g) h.inc
    | _ => false
/-- An ownership read of a granule is under way (R295). -/
def State.askRdown (s : State) (g : Nat) : State :=
  (s.schedule s.openTick (.rdownCompletion ⟨g, s.incOf (s.portAgent g)⟩ [])).bump
/-- Asks for a granule that a message lacks, unless that has been asked: an ownership read, or for a marked granule the software
directory, in a service-core slot of the tenant (R295, R296). -/
def State.askGran (s : State) (m : MemMsg) (g : Nat) : State :=
  if s.granAsked g then s
  else if tget false s.marks g then
    (s.schedule (s.serveTick (calUnit 3 (coreUnit g)) m.tenant s.openTick) (.sharingMiss m ⟨g, s.incOf (coreAgent g)⟩)).bump
  else s.askRdown g
/-- Asks for every granule that a message lacks. -/
def askHost (s : State) (m : MemMsg) (gs : List Nat) : State := gs.foldl (fun s g => s.askGran m g) s
/-- An atomic as a message that needs its granule. -/
def atomAsk (a : AtomMsg) : MemMsg :=
  { room := a.room, tenant := a.tenant, who := .atom, depth := a.depth, inc := a.inc, id := a.id, issued := 0, store := true,
    satp := a.satp, dest := .none, parts := [a.part] }
/-- Asks again for whatever the waiting messages and atomics lack and nobody has been asked for. -/
def State.reask (s : State) : State :=
  let s := s.waiting.foldl (fun s w => askHost s w (missing s w)) s
  s.waitAtom.foldl (fun s a => askHost s (atomAsk a) (missing s (atomAsk a))) s

/-- The bridge obtains a granule that it lacks, with the bytes that the host then has, for a reader that takes its bytes in one
step; of one that its software directory marks it keeps nothing (R295, R296; DESIGN CHOICE, log entry 84). -/
def State.ownNow (s : State) (g : Nat) : State :=
  if (tget {} s.grans g).st ≠ 0 ∨ s.hall.linkLost.getLsbD (s.portAgent g - 256) then s
  else
    let s := { s with mem := s.mem.putBytes (64 * g) ((Config.currentRead g s.fresh).take 64) }.bump
    if tget false s.marks g then s else { s with grans := tset {} s.grans g { st := 1, order := 0, tenant := 0 } }
/-- Every granule that the reading of parts needs is obtained. -/
def State.ownParts (s : State) (parts : List Part) : State := (granulesOf false parts).foldl State.ownNow s
/-- The demand misses of parts that a room's control core reads in one step: of lines that its partition does not hold (R361). -/
def State.readMisses (s : State) (room : Nat) (parts : List Part) : State :=
  heatOf s { room := room, tenant := 0, who := .core, depth := 0, inc := 0, id := 0, issued := 0, store := false, satp := 0,
             dest := .none, parts := parts.filter fun p => (s.copy? (s.partition room) (lineOf p.key)).isNone }

/-! ## The banks of a scratchpad (R194, R195) -/

/-- Takes ticks one after another from tick t on, each at the first tick at which no bank that it needs is held. -/
def takeTicks (held : Tbl (BitVec 16)) (t : Nat) : Nat → List (BitVec 16) → List (Nat × BitVec 16)
  | _, [] => []
  | 0, m :: l => (t, m) :: takeTicks held (t + 1) 0 l
  | fuel + 1, m :: l =>
    if tget 0 held t &&& m = 0 then (t, m) :: takeTicks held (t + 1) fuel l else takeTicks held (t + 1) fuel (m :: l)
/-- Banks held at ticks, beside those of a table. -/
def holdAt (held : Tbl (BitVec 16)) (l : List (Nat × BitVec 16)) : Tbl (BitVec 16) :=
  l.foldl (fun h e => tmod 0 h e.1 (· ||| e.2)) held
/-- The tick after the last of a list that begins at t. -/
def ticksEnd (t : Nat) (l : List (Nat × BitVec 16)) : Nat := l.foldl (fun m e => max m (e.1 + 1)) t
/-- Adds conflict ticks to a field of BCONF, saturating (R195). -/
def addConf (b : W64) (e : Eng) (n : Nat) : W64 :=
  let lo := match e with | .l => 0 | .s => 16 | .c => 32 | .m | .v => 48
  setField b lo 16 (min 0xFFFF (getField b lo 16 + n))
/-- The ticks from the present one on of what is held. -/
def Room.heldFrom (x : Room) (now : Nat) : Room :=
  { x with banks := x.banks.filter fun e => now ≤ e.1, plans := x.plans.filter fun p => p.ticks.any fun e => now ≤ e.1 }
/-- Takes passes from tick t on, holding their banks, for an entry or the stream of an iq: the ticks that they take. -/
def Room.takeMasks (x : Room) (e : Eng) (qpos : Nat) (strm : Option Nat) (now t : Nat) (masks : List (BitVec 16)) : Room × Nat :=
  let x := x.heldFrom now
  let l := takeTicks x.banks t (masks.length + x.banks.length) masks
  let mine (p : Plan) : Bool := decide (p.eng = e) && decide (p.qpos = qpos) && decide (p.strm = strm)
  let plans := if x.plans.any mine then x.plans.map fun p => if mine p then { p with ticks := p.ticks ++ l } else p
    else x.plans ++ [⟨e, qpos, strm, l⟩]
  ({ x with banks := holdAt x.banks l, plans := plans }, ticksEnd t l - t)
/-- The passes of a plan end d ticks later: so does what waits for them, and the ticks count in BCONF. -/
def Room.delay (x : Room) (p : Plan) (d : Nat) : Room :=
  let later (n : Entry) : Entry :=
    if n.qpos ≠ p.qpos then n else
    match p.eng, n.nest with
    | .m, some t => { n with nest := some { t with tick := t.tick + d }, more := n.more.map (· + d) }
    | .c, _ => { n with more := n.more.map (· + d) }
    | _, _ => { n with minFin := n.minFin + d }
  let x := { x with bconf := addConf x.bconf p.eng d }
  match p.strm with
  | some q => { x with iq := tmod {} x.iq q fun i => { i with stream := i.stream.map fun st => { st with till := st.till + d } } }
  | none => x.modQueue p.eng fun q => { q with q := q.q.map later }
/-- Whether banks held at ticks meet those of an element of a plan that has not passed. -/
def meetsPlan (now : Nat) (l : List (Nat × BitVec 16)) (e : Nat × BitVec 16) : Bool :=
  decide (now ≤ e.1) && l.any fun h => decide (h.1 = e.1) && decide (h.2 &&& e.2 ≠ 0)
/-- A plan takes its ticks anew from the first that meets banks held by another source on. -/
def Room.replan (now : Nat) (l : List (Nat × BitVec 16)) (x : Room) (p : Plan) : Room :=
  let keep := p.ticks.takeWhile fun e => !meetsPlan now l e
  let rest := p.ticks.drop keep.length
  match rest with
  | [] => { x with plans := x.plans ++ [p] }
  | e :: _ =>
    let banks := rest.foldl (fun h e => tmod 0 h e.1 (· &&& ~~~e.2)) x.banks
    let again := takeTicks (holdAt banks l) e.1 (rest.length + banks.length + l.length) (rest.map (·.2))
    let d := ticksEnd e.1 again - ticksEnd e.1 rest
    ({ x with banks := holdAt banks again, plans := x.plans ++ [{ p with ticks := keep ++ again }] }).delay p d
/-- Another source holds banks at ticks: the passes under way that need them take one more tick for each (R194). -/
def Room.holdBanks (x : Room) (now : Nat) (l : List (Nat × BitVec 16)) : Room :=
  if l = [] then x else
  let x := x.heldFrom now
  let y := x.plans.foldl (Room.replan now l) { x with plans := [] }
  { y with banks := holdAt y.banks l }
/-- The bank of a scratchpad key, as a mask. -/
def bankOf (q key : Nat) : BitVec 16 := 1#16 <<< ((key - scratchKey q 0) / 2 ^ 18)
/-- The banks of scratchpads that an access of a control core or of another room holds in the tick in which a port applies it. -/
def holdBanks (s : State) (m : MemMsg) : State :=
  let mine (q : Nat) : Bool := match m.who with | .eng _ => decide (q = m.room) | _ => false
  m.parts.foldl (fun s p => match p.place with
    | .scratch q => if mine q then s else s.modRoom q fun x => x.holdBanks s.tick [(s.tick, bankOf q p.key ||| bankOf q (p.key + p.w - 1))]
    | _ => s) s
/-- Performs a load or store at its home. Bytes of a put that reach it after the close of their window are discarded (R333). -/
def perform (s : State) (m : MemMsg) : State :=
  if m.store ∧ m.who = .put ∧ (s.window? m.tenant m.satp).isNone then
    entryFault s m.room .c m.id 1 (match m.parts with | p :: _ => p.va | [] => 0)
  else
    let s := holdBanks s m
    if m.store then performStore s m else performLoad s m

/-- Whether two messages touch one line. -/
def meetLines (a b : MemMsg) : Bool := a.parts.any fun p => b.parts.any fun q => lineOf p.key = lineOf q.key
/-- Whether a message can be performed at the bridge: every granule that it needs is held, and no earlier message of its sender
waits for one of its lines, nor an earlier store for another line while both store to one (R95, R126, R263); or a link that it
needs is lost. -/
def bridgeReady (s : State) (m : MemMsg) : Bool :=
  m.parts.any (fun p => s.lost p.place p.key) ||
    (missing s m = [] && !s.waiting.any fun w => decide (w.id < m.id) && decide (w.room = m.room) && decide (w.who = m.who) &&
      (((needed w).any fun g => (needed m).any fun h => g / 2 = h / 2) || (w.store && m.store && meetLines w m)))

/-- The atomics of a room's control core that no agent has yet performed. -/
def State.atomsUnderWay (s : State) (r : Nat) : List AtomMsg :=
  let mine (i : Instr) : Option AtomMsg := match i with
    | .msauAtomic a | .bridgeAtomic a | .pcieAtomicCompletion a _ => if a.room = r then some a else none
    | _ => none
  (s.agenda.filterMap fun a => mine a.2) ++ (s.msauQ.flatMap fun q => q.2.filterMap mine) ++
    s.waitAtom.filter fun a => a.room = r
/-- One of them is to a line. -/
def State.atomOnWay (s : State) (r line : Nat) : Bool := (s.atomsUnderWay r).any fun a => lineOf a.part.key = line
/-- A load of a room reaches its home before an earlier atomic of the room to one of its lines has been performed: it waits for
it (R95, R126). Lines marked MS are ordered by their MSAU. -/
def State.behindAtom (s : State) (m : MemMsg) : Bool :=
  !m.store && (match m.who with | .core | .eng _ => true | _ => false) &&
    (s.atomsUnderWay m.room).any fun a => decide (a.id < m.id) && m.parts.any fun p => !p.ms && lineOf p.key = lineOf a.part.key

/-- Whether a message bears an incarnation that its agent no longer has. A CBU is none of the agents of R301. -/
def State.staleMsg (s : State) (m : MemMsg) : Bool :=
  match m.dest with | .cbu _ => false | _ => s.stale m.room m.inc
/-- The room of a load that has been sent on from a sealed page reads the page's old copies no more (R307, R359). -/
def leaveSource (s : State) (m m' : MemMsg) : State :=
  if m.store then s else
  (m.parts.zip m'.parts).foldl (fun s p => if p.1.key = p.2.key then s else s.dropCopies m.room (lineOf p.1.key)) s
/-- A load or store arrives at its home; a home drops it if its agent has been scrubbed since (R301). -/
def arrive (s : State) (m : MemMsg) : State :=
  if s.staleMsg m then s.dropStale m.room m.inc
  else if s.behindAtom m then s.schedule (s.tick + 1) (.loadAtHome m)
  else
    match moved s m with
    | .error (c, va) => if m.store then storeFails s m c va else deliverFault s m c va
    | .ok m' =>
      let s := leaveSource s m m'
      let m := m'
      if bridgeReady s m then perform s m
      else
        let s := askHost s m (missing s m)
        { s with waiting := s.waiting ++ [m] }

/-- A read reaches its home (R284). -/
def execLoadAtHome (m : MemMsg) (s : State) : Res := .next (arrive s { m with store := false })
/-- A store arrives at its home (R286). -/
def execStoreAtHome (m : MemMsg) (s : State) : Res := .next (arrive s { m with store := true })

/-! ## The MSAUs (R289) -/

/-- Tenant in whose slots an MSAU performs a request (R245); a host's access is one of tenant 0. -/
def msauTenant (s : State) (i : Instr) : Nat :=
  match i with
  | .msauRequest m => (match m.who with | .host => 0 | _ => m.tenant)
  | .msauAtomic a => a.tenant
  | .barrierRequest b => (s.room b.room).tenant
  | .cpfCredit c => c.tenant
  | _ => 0
/-- An LR or SC of a room whose last three attempts have failed (R329). -/
def State.lastTry (s : State) (fn : AtomFn) (r : Nat) : Bool :=
  match fn with | .lr _ | .sc _ => decide (3 ≤ (s.room r).scFails) | _ => false
/-- A request is the LR or SC of a fourth attempt: the MSAU takes it before the other requests of its tenant. -/
def State.msauFirst (s : State) (i : Instr) : Bool := match i with | .msauAtomic a => s.lastTry a.fn a.room | _ => false
/-- The room whose requests to an MSAU keep their order (R320, R327). -/
def msauRoom (i : Instr) : Option Nat :=
  match i with
  | .msauRequest m => some m.room
  | .msauAtomic a => some a.room
  | .barrierRequest b => some b.room
  | _ => none
/-- The blocks of 32 bytes that a request touches: the barrier object of a request or a credit, and those that an access or an
atomic may change (R317). -/
def msauBars (i : Instr) : List Nat :=
  match i with
  | .barrierRequest b => [b.key / 32]
  | .cpfCredit c => [c.key / 32]
  | .msauRequest m => m.parts.flatMap fun p => (List.range ((p.key % 32 + p.w + 31) / 32)).map (p.key / 32 + ·)
  | .msauAtomic a => [a.part.key / 32]
  | _ => []
def isCredit : Instr → Bool | .cpfCredit _ => true | _ => false
/-- An MSAU has performed no request at this tick. -/
def State.msauFree (s : State) (u : Nat) : Bool := decide (tget 0 s.msauAt u ≠ s.tick + 1)
/-- Whether stores that rooms of an atomic's partition issued before it are still on their way to its line: the room may have read
their bytes in a copy, and an atomic reads none that are older (R95, R307). -/
def State.atomBehind (s : State) (a : AtomMsg) : Bool :=
  cacheable a.part && (match a.fn with | .lr _ => false | _ => true) &&
    (s.flying a.room).any fun m => decide (m.id < a.id) && m.parts.any fun p => lineOf p.key = lineOf a.part.key
/-- A store to watched lines, none of them marked MS, takes no turn of its MSAU. -/
def msauPasses (i : Instr) : Bool := match i with | .msauRequest m => !m.parts.any (·.ms) | _ => false
/-- Whether an MSAU can perform a request at this tick, as its one request of the tick, in a slot of its tenant (R245, R289). An
atomic waits for the host copy of its granule (R297) and for stores before it; the LR of a fourth attempt waits for a time in which
the tenant is served for 48 ticks on, so that its SC finds the tenant served too (R329). -/
def State.msauCan (s : State) (u : Nat) (i : Instr) : Bool :=
  (msauPasses i || (s.msauFree u && s.mayServe (calUnit 5 u) (msauTenant s i) s.tick)) &&
  (match i with
   | .msauAtomic a =>
     !tget false s.hostHeld (granuleOf a.part.key) && !s.atomBehind a &&
       (match a.fn with
        | .lr _ => !s.lastTry a.fn a.room || s.mayServe (calUnit 5 u) a.tenant (s.tick + 48)
        | _ => true)
   | _ => true)
/-- An MSAU takes its request of the tick: its rotation pointer goes to the tenant (R245). -/
def State.msauTake (s : State) (u : Nat) (i : Instr) : State :=
  { s with msauAt := tset 0 s.msauAt u (s.tick + 1),
           hall := { s.hall with rot := tset 0 s.hall.rot (calUnit 5 u) (msauTenant s i) } }
/-- A request waits at an MSAU, behind those that came before it. -/
def State.msauHold (s : State) (u : Nat) (i : Instr) : State := { s with msauQ := tmod [] s.msauQ u (· ++ [i]) }
/-- Whether a waiting request must be performed before another: of its room (R320, R327), or, of a credit and another, to the
same barrier object (R318). -/
def msauBefore (j i : Instr) : Bool :=
  (msauRoom j ≠ none && msauRoom j = msauRoom i) ||
  ((isCredit i || isCredit j) && (msauBars j).any (msauBars i).contains)
/-- The oldest waiting request that can be performed, behind none that must come before it; with those that stay. -/
def pickRequest (can : Instr → Bool) : List Instr → List Instr → Option (Instr × List Instr)
  | _, [] => none
  | bs, i :: l =>
    if can i && !(bs.any fun j => msauBefore j i) then some (i, l)
    else (pickRequest can (i :: bs) l).map fun p => (p.1, i :: p.2)
/-- What an MSAU takes from its queue now: a request of the lowest tenant above the last one served, of those with a request that
can be performed: that of a fourth attempt, or else the oldest (R245, R329). -/
def State.msauNext (s : State) (u : Nat) : Option (Instr × List Instr) :=
  let q := tget [] s.msauQ u
  let last := tget 0 s.hall.rot (calUnit 5 u)
  let of (t : Nat) : Option (Instr × List Instr) :=
    let can (i : Instr) : Bool := decide (msauTenant s i = t) && s.msauCan u i
    (pickRequest (fun i => s.msauFirst i && can i) [] q).or (pickRequest can [] q)
  if q = [] then none else ((List.range 16).map fun k => (last + 1 + k) % 16).findSome? of
/-- The MSAU at which an arriving request joins the queue, to be taken from it in the turn of its tenant. -/
def msauAt (i : Instr) : Option Nat :=
  match i with
  | .msauRequest m => if m.parts.any (·.ms) then (m.parts.getLast?).map fun p => channel p.key else none
  | .msauAtomic a => if a.part.place = .hbm then some (channel a.part.key) else none
  | .barrierRequest b => some (channel b.key)
  | .cpfCredit c => some (channel c.key)
  | _ => none
/-- The granule of a waiting atomic whose host copy has not been asked for (R297). -/
def State.msauAsks (s : State) : Option Nat :=
  s.msauQ.findSome? fun q => q.2.findSome? fun i => match i with
    | .msauAtomic a =>
      let g := granuleOf a.part.key
      if tget false s.hostHeld g && !s.birspAsked g then some g else none
    | _ => none

/-- The MSAU of a message's lines; of a watched store over several, that of the last (R263). -/
def msauOf (m : MemMsg) : Nat := match m.parts.getLast? with | some p => channel p.key | none => 0
/-- The serial number of a request to an MSAU. -/
def reqId : Instr → Nat
  | .msauRequest m => m.id
  | .msauAtomic a => a.id
  | .barrierRequest b => b.id
  | _ => 0
/-- An MSAU of a message's lines at which an earlier request of its room waits: of the control core and the engines, whose requests
to one MSAU keep their order (R263, R320, R327). -/
def State.msauAhead (s : State) (m : MemMsg) : Option Nat :=
  let ahead (i : Instr) : Bool := decide (reqId i < m.id) && decide (msauRoom i = some m.room)
  match m.who with
  | .core | .eng _ => (m.parts.map fun p => channel p.key).eraseDups.find? fun u => (tget [] s.msauQ u).any ahead
  | .put | .host | .atom => none
/-- A load or store reaches the homes of its lines: on MS lines the MSAU performs it as its one request of a tick (R289). A store to
other watched lines is compared as it arrives, and waits behind the room's earlier requests to its MSAU, without a bound on its
visibility time from then on (DESIGN CHOICE, log entry 86). -/
def reachHome (s : State) (m : MemMsg) : State :=
  if m.parts.any (·.ms) then
    if (s.msauAhead m).isNone && s.msauCan (msauOf m) (.msauRequest m) then
      arrive (s.msauTake (msauOf m) (.msauRequest m)) m
    else s.msauHold (msauOf m) (.msauRequest m)
  else match s.msauAhead m with
    | some u => (unbound s m).msauHold u (.msauRequest m)
    | none => arrive s m
/-- A load or store joins the queue of its MSAU, or reaches its homes. -/
def joinHome (s : State) (m : MemMsg) : State :=
  match msauAt (.msauRequest m) with
  | some u => s.msauHold u (.msauRequest m)
  | none => reachHome s m

/-- The MSAU performs a load or store to lines marked MS or ZF, in a slot of the tenant (R245, R289), or a store to watched
lines, which it compares in the tick of its arrival (R263, R268). -/
def execMsauRequest (m : MemMsg) (s : State) : Res := .next (reachHome s m)

/-! ## Sending -/

/-- How the parts of an access travel: to the room's own scratchpad; in the data class; to the bridge; to the switch that
combines replicas; to a channel's lease directory; to its MSAU, a request for each line. -/
inductive PartClass where | own | data | bridge | repl | coh | msau (u line : Nat)
  deriving DecidableEq, Repr
def clsOf (room : Nat) (p : Part) : PartClass :=
  match p.place with
  | .hbm => if p.ms then .msau (channel p.key) (lineOf p.key) else .coh
  | .hostC | .tier => .bridge
  | .repl => .repl
  | .scratch q => if q = room then .own else .data
  | .attic _ | .shadow _ | .port | .hostN => .data
/-- The class of a sender's messages to scratchpads and devices. -/
def dataClass : Who → MsgClass
  | .core | .atom => .core | .eng e => .eng e | .put => .put | .host => .data


/-- The room whose core or engine has made a request, whether its control core has, and the keys that it touches. -/
def reqRoom : Instr → Option Nat
  | .loadAtHome m | .storeAtHome m | .msauRequest m => (match m.who with | .core | .eng _ => some m.room | _ => none)
  | .msauAtomic a | .bridgeAtomic a => some a.room
  | .barrierRequest b => some b.room
  | _ => none
def reqCore : Instr → Bool
  | .loadAtHome m | .storeAtHome m | .msauRequest m => decide (m.who = .core)
  | .msauAtomic _ | .bridgeAtomic _ | .barrierRequest _ => true
  | _ => false
def reqKeys : Instr → List Nat
  | .loadAtHome m | .storeAtHome m | .msauRequest m => m.parts.map (·.key)
  | .msauAtomic a | .bridgeAtomic a => [a.part.key]
  | .barrierRequest b => [b.key]
  | _ => []
/-- A request that an MSAU serves (R263, R289). -/
def toMsau : Instr → Bool
  | .msauRequest _ | .barrierRequest _ => true
  | .msauAtomic a => decide (a.part.place = .hbm)
  | _ => false
/-- The first tick behind a room's requests under way: with `core`, of its control core to the same lines (R95); with `msau`, to the
MSAU of one of the keys (R320, R327). -/
def behindOwn (s : State) (room : Nat) (core : Bool) (keys : List Nat) (msau : Bool) : Nat :=
  s.agenda.foldl (fun t a =>
    if reqRoom a.2 = some room ∧
        ((core && reqCore a.2 && (reqKeys a.2).any fun k => keys.any fun q => lineOf k = lineOf q) ||
         (msau && toMsau a.2 && (reqKeys a.2).any fun k => keys.any fun q => channel k = channel q)) = true
    then max t (a.1 + 1) else t) 0


/-- The classes of parts, each once, that of the leased lines first: its stores have a bound from their issue on (R288). -/
def classesOf (cls : Part → PartClass) (parts : List Part) : List PartClass :=
  let l := (parts.map cls).eraseDups
  l.filter (· = .coh) ++ l.filter (· ≠ .coh)
/-- Sends the parts of one load, one message for each class; answers with the message numbers. -/
def sendLoad (s : State) (room : Nat) (who : Who) (dest : Dest) (satp : W64) (parts : List Part) : State × List Nat :=
  (classesOf (clsOf room) parts).foldl (fun (a : State × List Nat) c =>
    let (s, ids) := a
    let x := s.room room
    let m : MemMsg := { room := room, tenant := x.tenant, who := who, depth := 0, inc := s.incOf room, id := s.seq,
                        issued := s.tick, store := false, satp := satp, dest := dest,
                        parts := parts.filter fun p => clsOf room p = c, lane := x.pc }
    let keys := m.parts.map fun (p : Part) => p.key
    let own := min (behindOwn s room (decide (who = .core)) keys false) (s.tick + 64)
    let s' := match c with
      | .msau u _ => s.send room (.msau u) (max s.cohTick (behindOwn s room false keys true)) (.msauRequest m)
      | .repl => s.send room (dataClass who) s.openTick (.replicaLoad m)
      | .coh | .bridge => s.send room .coh (max s.cohTick own) (.loadAtHome m)
      | .own => s.schedule (s.tick + 1) (.loadAtHome m)
      | .data => s.send room (dataClass who) s.openTick (.loadAtHome m)
    (s'.nextId, ids ++ [m.id])) (s, [])

/-- The bound of a store's visibility time, as VHZ counts it (R288, R335). -/
def storeBound (now : Nat) (c : PartClass) : Option Nat :=
  match c with
  | .own => some (now + 1)
  | .coh => some (now + 2112)
  | .data | .bridge | .repl | .msau _ _ => none

/-- The message of a store instruction. -/
def storeMsg (s : State) (room : Nat) (who : Who) (satp : W64) (parts : List Part) (split : Bool := false) : MemMsg :=
  let x := s.room room
  { room := room, tenant := x.tenant, who := who, depth := x.depth, inc := s.incOf room, id := s.seq, issued := s.tick,
    store := true, satp := satp, dest := .none, parts := parts, lane := x.pc, split := split }

/-- A part that its home may still refuse: in a compressed page, over a link, in the attic portion (R203, R300, R365). -/
def mayFail (p : Part) : Bool := p.cmp || (match p.place with | .hostC | .hostN | .tier | .attic _ => true | _ => false)
/-- How each part of a store travels: the parts on watched lines go together, so that they are compared as one store
instruction (R263, R267). -/
def watchClass (s : State) (room : Nat) (parts : List Part) : Part → PartClass :=
  let watched := parts.filter (watchedPart s)
  let last := ((watched.filter (·.ms)).getLast?).map fun (p : Part) => PartClass.msau (channel p.key) (lineOf p.key)
  fun p => if p.place = .hbm && watchedPart s p then last.getD .coh else clsOf room p
/-- Parts that their homes may refuse all go to one home, and are judged there together, so that the store stores nothing if it fails
(R125). They have no others beside them (`issueStore`). -/
def storeClass (s : State) (room : Nat) (parts : List Part) : Part → PartClass :=
  let one := watchClass s room parts
  if parts.any mayFail ∧ 1 < ((parts.map one).eraseDups).length then fun _ => .bridge else one

/-- A store to leased lines arrives behind the stores of its partition to the same lines, whose bytes its copies already
hold, within the bound of R285. -/
def behindStores (s : State) (room : Nat) (parts : List Part) : Nat :=
  s.agenda.foldl (fun t a => match storeOnWay a.2 with
    | some m => if s.sharesPartition room m && m.parts.any fun q => parts.any fun p => lineOf q.key = lineOf p.key
                then max t (min (a.1 + 1) (s.tick + 64)) else t
    | none => t) 0


/-- Sends one store instruction to its homes, one message for each class of its parts, with the bytes already in the room's
own copies (R286); answers with the stores, their bounds and their parts. `split`: parts of it travel elsewhere. -/
def sendStore (s : State) (room : Nat) (who : Who) (satp : W64) (parts : List Part) (split : Bool := false) :
    State × List (OutStore × List Part) :=
  let cls := storeClass s room parts
  let l := classesOf cls parts
  l.foldl (fun (a : State × List (OutStore × List Part)) c =>
    let (s, outs) := a
    let mine := parts.filter fun p => cls p = c
    let m := storeMsg s room who satp mine (split || decide (1 < l.length))
    let keys := mine.map fun (p : Part) => p.key
    let watch := mine.any (watchedPart s)
    let due := max s.cohTick (behindStores s room mine)
    let own := min (behindOwn s room (decide (who = .core)) keys watch) (s.tick + 64)
    let s' := match c with
      | .own => s.schedule (s.tick + 1) (.storeAtHome m)
      | .msau u _ => s.send room (.msau u) (max due (behindOwn s room false keys true)) (.msauRequest m)
      | .coh => s.send room .coh (max due own) (if watch then .msauRequest m else .storeAtHome m)
      | .bridge => s.send room .coh (max due own) (.storeAtHome m)
      | .data | .repl => s.send room (dataClass who) s.openTick (.storeAtHome m)
    (s'.nextId, outs ++ [({ id := m.id, bound := storeBound s.tick c }, mine)])) (s.patchOwn room parts, [])

/-! ## Key regions at issue (R292, R293) -/

/-- The region of a wing that holds a physical address. -/
def State.keyAt (s : State) (wing key : Nat) : Option Key :=
  (s.wing wing).keys.find? fun k => k.base ≤ key && decide (key < k.base + 2 ^ k.lsz)
def keyed (p : Part) : Bool :=
  match p.place with | .hbm | .tier => !p.cmp | _ => false
/-- The slots of the regions into which parts store and which the room does not hold. -/
def keysWanted (s : State) (room : Nat) (parts : List Part) : List Nat :=
  if (s.wing (wingOf room)).keys = [] then [] else
  (parts.filterMap fun p => if keyed p then
    (match s.keyAt (wingOf room) p.key with
     | some k => if k.holder = some room ∧ k.passing.isNone then none else some k.slot
     | none => none) else none).eraseDups
/-- A free region's key goes to a room at once; otherwise the room joins its queue, once (R292). -/
def askKey (room now : Nat) (k : Key) : Key :=
  if k.holder.isNone ∧ k.queue = [] then { k with holder := some room, since := now }
  else if k.queue.contains room then k else { k with queue := k.queue ++ [room] }
def State.askKeys (s : State) (room : Nat) (slots : List Nat) : State :=
  let f (k : Key) : Key := if slots.contains k.slot then askKey room s.tick k else k
  s.modWing (wingOf room) fun x => { x with keys := x.keys.map f }
/-- Whether a part is buffered by the holder: not on pages marked WATCH, MS or ZF (R293). -/
def bufferedPart (s : State) (room : Nat) (p : Part) : Bool :=
  keyed p && !p.ms && !watchedPart s p &&
    (match s.keyAt (wingOf room) p.key with | some k => k.holder = some room | none => false)

/-- Slot of the region of the room's wing that holds a part; none when the part lies in no region that buffers or orders
stores. -/
def regionOf (s : State) (room : Nat) (p : Part) : Option Nat :=
  if keyed p then (s.keyAt (wingOf room) p.key).map (·.slot) else none
/-- Changes the region with a slot. -/
def State.modRegion (s : State) (w slot : Nat) (f : Key → Key) : State :=
  s.modWing w fun x => { x with keys := x.keys.map fun k => if k.slot = slot then f k else k }

/-- Buffers the parts of a store that lie in a region with its holder. -/
def bufferStore (s : State) (room : Nat) (who : Who) (satp : W64) (slot : Nat) (parts : List Part) : State × OutStore :=
  let m := storeMsg s room who satp parts
  let s := (s.patchOwn room parts).modRegion (wingOf room) slot fun k => { k with buffered := k.buffered ++ [m] }
  (s.nextId, { id := m.id, bound := none })

/-- Issues one store instruction of a room that holds every key it needs: buffered parts stay with the holder, the rest go
to their homes; a pass waits for those of its region (R293). Answers with the stores that the horizon must cover, and the
messages under way. -/
def issueStore (s : State) (room : Nat) (who : Who) (satp : W64) (parts : List Part) (split : Bool := false) :
    State × List OutStore × List Nat :=
  if (s.wing (wingOf room)).keys = [] then
    (let (s, o) := sendStore s room who satp parts split; (s, o.map (·.1), o.map (·.1.id)))
  else
    let rest := parts.filter fun p => !bufferedPart s room p
    let buf := parts.filter (bufferedPart s room)
    let (s, o1) := sendStore s room who satp rest (split || buf ≠ [])
    let s := o1.foldl (fun s o => ((o.2.filterMap (regionOf s room)).eraseDups).foldl (fun s slot =>
      s.modRegion (wingOf room) slot fun k => { k with unperf := k.unperf ++ [o.1.id] }) s) s
    let (s, o2) := ((buf.filterMap (regionOf s room)).eraseDups).foldl (fun (a : State × List OutStore) slot =>
      let (s, o) := bufferStore a.1 room who satp slot (buf.filter fun p => regionOf s room p = some slot)
      (s, a.2 ++ [o])) (s, [])
    (s, o1.map (·.1) ++ o2, o1.map (·.1.id))

/-- A part of a store that goes ahead of those that no home refuses (R125): it may be refused, and is not buffered. -/
def goesFirst (s : State) (room : Nat) (p : Part) : Bool := mayFail p && !bufferedPart s room p
/-- The parts of a store that go ahead of others: none when all go together. -/
def firstParts (s : State) (room : Nat) (parts : List Part) : List Part :=
  let l := parts.filter (goesFirst s room)
  if l.length = parts.length then [] else l
/-- Whether the parts of a store travel apart, so that one of them may be performed and another refused later: between the seal and
the release of a page its re-walk is made before anything is stored (R359). -/
def travelsApart (s : State) (room : Nat) (parts : List Part) : Bool :=
  decide (1 < ((parts.map (watchClass s room parts)).eraseDups).length)
/-- The first fault of a re-walk of a store that travels apart, into a page that has been sealed. -/
def movedFault (s : State) (room : Nat) (satp : W64) (parts : List Part) : Option (Nat × W64) :=
  if travelsApart s room parts then
    parts.findSome? fun p => match movedPart s (s.room room).tenant satp true p with | .error f => some (f, p.va) | .ok _ => none
  else none
/-- A room's buffered stores to one of the lines of parts that are written through, in a region that it holds. -/
def State.bufferedTo (s : State) (room : Nat) (parts : List Part) : List Nat :=
  let thru := parts.filter fun p => keyed p && !bufferedPart s room p
  if thru = [] then [] else
  ((s.wing (wingOf room)).keys.filter fun k => k.holder = some room &&
    k.buffered.any fun m => m.parts.any fun p => thru.any fun q => lineOf p.key = lineOf q.key).map (·.slot)
/-- A drained store of a room to one of the lines of parts that are written through is on its way. -/
def State.drainingTo (s : State) (room : Nat) (parts : List Part) : Bool :=
  (s.wing (wingOf room)).keys.any (fun k => k.draining ≠ []) &&
    s.agenda.any fun a => match a.2 with
      | .storeAtHome m => m.room = room && s.drained m &&
          parts.any fun p => keyed p && !bufferedPart s room p && m.parts.any fun q => lineOf q.key = lineOf p.key
      | _ => false
/-- What a store of a room waits for before any of its parts leaves: an own atomic on its way to one of its lines (R95, R126), buffered
stores to lines that it writes through (R293), and, where its parts go to one home together, the room's earlier messages of its
queue in the data class (R126). -/
def State.storeWaits (s : State) (room : Nat) (who : Who) (parts : List Part) : Bool :=
  let first := parts.filter (goesFirst s room)
  (s.atomsUnderWay room).any (fun a => parts.any fun p => lineOf p.key = lineOf a.part.key) || s.drainingTo room parts ||
    (decide (1 < ((first.map (clsOf room)).eraseDups).length) &&
      decide (s.tick < tget 0 (s.room room).lastDue (dataClass who).num))
/-- A store that waits: its room drains what it has buffered for lines that are written through. -/
def State.drainTo (s : State) (room : Nat) (parts : List Part) : State :=
  (s.bufferedTo room parts).foldl (fun s slot => drainKey s (wingOf room) slot) s

/-! ## Answers at the room -/

/-- A store's visibility time reaches the room (R288). -/
def execVtAnswer (room : Nat) (who : Who) (id vt : Nat) (s : State) : Res :=
  .next <|
  let s := keyPerformed (keyAnswer (s.lateKnown room id vt) room id) room id 0
  let s := match who with
    | .eng e => modEntry s room e (fun n => n.sent.any fun o => o.id = id) fun n =>
        { n with sent := n.sent.filter fun o => o.id ≠ id, vt := max n.vt vt }
    | _ => s
  State.passDone (s.modRoom room fun x =>
    if x.stores.any fun o => o.id = id then
      { x with stores := x.stores.filter fun o => o.id ≠ id, hz := max x.hz vt }
    else x) room

/-! ## Bridge and back-invalidation -/

/-- Performs every waiting message that can be performed now, in order; a store into compressed pages takes its turn among those of
the tick (R363). -/
def retryWaiting (s : State) : State :=
  s.waiting.foldl (fun s m =>
    if bridgeReady s m then (if m.store && m.parts.any (·.cmp) then s.schedule s.tick (.storeAtHome m) else perform s m)
    else { s with waiting := s.waiting ++ [m] }) { s with waiting := [] }

/-- Atomics that waited for a granule are tried again, all in the order of their rooms, in whichever ticks they have reached the
bridge: R281 orders only those that reach it in one tick (DESIGN CHOICE, log entry 87). -/
def retryAtomics (s : State) : State :=
  s.waitAtom.foldl (fun s a => s.schedule s.tick (.bridgeAtomic a)) { s with waitAtom := [] }

/-- A service core sets or clears the mark of a granule of a host-homed line, as its software directory says; the bridge keeps at
most 4,096 (R296). The second tier has no software directory (R299). -/
def State.remark (s : State) (g : Nat) : State :=
  if g * 64 < 2 ^ 52 then s else
  let m := Config.directoryMarks g s.fresh && decide ((s.marks.filter fun e => e.2 && decide (e.1 ≠ g)).length < 4096)
  { s with marks := tset false s.marks g m }.bump

/-- Whether something waits for a line at the bridge: a message, an atomic, or a room that makes its fourth attempt at an SC
(R329). -/
def State.bridgeBusy (s : State) (line : Nat) : Bool :=
  let atom (a : AtomMsg) : Bool := decide (lineOf a.part.key = line)
  (s.waiting.any fun m => (needed m).any fun q => q / 2 = line) || s.waitAtom.any atom ||
  (s.agenda.any fun i => match i.2 with | .bridgeAtomic a => atom a | _ => false) || s.fourthTry line
/-- The bridge evicts lines that nothing waits for and whose leases have ended: M halves are written back, and every half is
held no more (R295). When it does so is a value of Config. -/
def State.evictLines (s : State) : State :=
  let goes (g : Nat) : Bool :=
    Config.bridgeEvicts (g / 2) s.fresh && decide (tget 0 s.lend (g / 2) < s.tick) && !s.bridgeBusy (g / 2)
  let out := (s.grans.filter fun e => goes e.1).map (·.1 / 2)
  out.eraseDups.foldl loseReservations { s with grans := s.grans.filter fun e => !goes e.1 }.bump

/-- A CXL.cache ownership read completes: the bridge holds the granule in E, with the host's bytes where they differ from
the last known (R295, R299), and the software directory may mark it (R296). A message of a dead incarnation is dropped (R301),
and of a host whose link is lost the bridge holds nothing (R300). -/
def execRdownCompletion (g : BridgeMsg) (data : List Byte) (s : State) : Res :=
  .next <|
  if s.stale (s.portAgent g.granule) g.inc then (s.dropStale (s.portAgent g.granule) g.inc).reask
  else if s.hall.linkLost.getLsbD (s.portAgent g.granule - 256) then (retryAtomics (retryWaiting s)).reask
  else
  let s := if (tget {} s.grans g.granule).st = 0 then
      { s with grans := tset {} s.grans g.granule { st := 1, order := 0, tenant := 0 },
               mem := s.mem.putBytes (64 * g.granule) (data.take 64) }
    else s
  (retryAtomics (retryWaiting s)).reask.evictLines.remark g.granule

/-- Serves a waiting access uncached (R296): a load receives the host's current bytes and no lease is granted; a store is
written through and no half stays held. -/
def serveUncached (s : State) (w : MemMsg) : State :=
  let gs := missing s w
  if w.store then
    let s := performStore s w
    { s with grans := gs.foldl (fun t g => tset {} t g {}) s.grans }
  else
    let s := gs.foldl (fun s g => { s with mem := s.mem.putBytes (64 * g) ((Config.currentRead g s.fresh).take 64) }.bump) s
    match w.parts.findSome? fun p => (partFault s p).map fun c => (c, p.va) with
    | some (c, va) => deliverFault s w c va
    | none => deliver (heatOf s w) w (w.parts.map fun p => (p.pos, s.seen w.room w.id p))

/-- A sharing miss at a service core, in a slot of the tenant: the directory code obtains E for the bridge, or serves the access
uncached, with no lease and no copy kept (R296). For an atomic, which the bridge performs only while it holds E, it obtains E
(R281). -/
def execSharingMiss (m : MemMsg) (g : BridgeMsg) (s : State) : Res :=
  .next <|
  let unit := calUnit 3 (coreUnit g.granule)
  if s.stale (coreAgent g.granule) g.inc then (s.dropStale (coreAgent g.granule) g.inc).reask
  else if !s.mayServe unit m.tenant s.tick then s.schedule (s.serveTick unit m.tenant (s.tick + 1)) (.sharingMiss m g)
  else if Config.directoryObtains g.granule s.fresh || (s.waitAtom.any fun a => granuleOf a.part.key = g.granule) then
    s.bump.askRdown g.granule
  else
    let s := s.bump
    let mine := s.waiting.filter fun w => w.id = m.id
    let s := mine.foldl serveUncached { s with waiting := s.waiting.filter fun w => w.id ≠ m.id }
    ((retryAtomics (retryWaiting s)).reask).remark g.granule

/-- Tells the watch table, the monitors and the requester that a store's visibility time is known. -/
def settleVt (s : State) (b : BiWait) : State :=
  let m := b.msg
  let vt := max b.vt s.tick
  let known (t : Trig) : Trig :=
    if t.wait.contains m.id then { t with wait := t.wait.filter (· ≠ m.id), vt := max t.vt vt } else t
  let s := s.modHall fun h => { h with watch := h.watch.map fun (i, e) => (i, e.map fun w =>
    { w with pend := w.pend.map known, fresh := w.fresh.map known }) }
  let s := { s with rooms := s.rooms.map fun (r, x) =>
    match x.hold with
    | .thread v l => if l.contains m.id then (r, { x with hold := .thread (max v vt) (l.filter (· ≠ m.id)) }) else (r, x)
    | _ => (r, x) }
  let s := b.wake.foldl (fun s l => wakeMonitors s l vt) s
  (sendVt (settled s m) m s.vtTick vt).bump

/-- The host's copy of a granule has ended: dirty host data lies beneath the waiting stores' bytes, the bit clears, and the
stores take their visibility times (R297). -/
def hostCopyEnds (granule : Nat) (dirty : List Byte) (s : State) : State :=
  let l := tget [] s.birsp granule
  let s := { s with birsp := tset [] s.birsp granule [], hostHeld := tset false s.hostHeld granule false,
                    heldBy := tset 0 s.heldBy granule 0, mem := s.mem.putBytes (64 * granule) (dirty.take 64) }
  let s := if dirty = [] then s else
    l.foldl (fun s b => (b.msg.parts.filter fun p => granuleOf p.key = granule && p.place = .hbm).foldl
      (fun s p => s.write p.key p.w p.data) s) s
  l.foldl (fun s b =>
    if s.birsp.any fun e => e.2.any fun w => w.msg.id = b.msg.id then s else settleVt s b) s
/-- A BIRsp arrives (R297); one of a dead incarnation is dropped (R301). -/
def execBirspArrival (g : BridgeMsg) (dirty : List Byte) (s : State) : Res :=
  .next (if s.stale (s.holderAgent g.granule) g.inc then s.dropStale (s.holderAgent g.granule) g.inc
    else hostCopyEnds g.granule dirty s)

end Sys2Proof.Machine
end

