-- ==== Sys2Proof/Machine/Operands.lean ====
section
/-! DEFINITION. Operands of the engine lanes (R62 to R69): what each lane names, layout records and their addresses
(R97, R122, R190, R191), masks and register tiles, and the bank passes of the scratchpad (R193, R194). -/

namespace Sys2Proof.Machine

/-! ## What a lane names -/

/-- The operands that dispatch, issue and finish look at. Register fields of classes Vs, Vd and Ss keep their 5-bit
value: below 24 a v register, else an iq (V sources), an oq (V destinations, S sources). -/
structure Lane where
  eng  : Eng
  sync : BitVec 6
  xa   : Reg := 0
  xb   : Reg := 0
  lay  : Option Nat := none       -- record of the lay field
  lay2 : Option Nat := none       -- record of the register field
  layd : Option Nat := none       -- record that an l.lay writes
  fill : Option Nat := none       -- iq filled
  bind : Option Nat := none       -- iq bound as a stream
  vs   : List Nat := []           -- V sources
  vv   : List Nat := []           -- v registers read beside them, or named by L, S and M
  vd   : Option Nat := none       -- V destination
  vw   : List Nat := []           -- v registers written beside it
  ks   : List Nat := []
  kd   : List Nat := []
  win  : Option Nat := none
  ss   : Option Nat := none       -- S source
  cq   : Nat := 0                 -- control-queue values it pushes
  ival : Nat := 1
  lat  : Nat := 1
  deriving DecidableEq, Repr

/-- The POP bits and the PUSH bits. -/
def Lane.pops (l : Lane) : BitVec 3 := l.sync.extractLsb' 3 3
def Lane.pushes (l : Lane) : BitVec 3 := l.sync.extractLsb' 0 3

/-- An L lane with a record. -/
def lLane (sy : BitVec 6) (lay : BitVec 4) (xa : Reg) (xb : BitVec 4) : Lane :=
  { eng := .l, sync := sy, xa := xa, xb := xb.setWidth 5, lay := some lay.toNat }
/-- An L lane with a destination of class Ld. -/
def lLd (sy : BitVec 6) (rd : Reg) (lay : BitVec 4) (xa : Reg) (xb : BitVec 4) : Lane :=
  if rd.toNat < 24 then { lLane sy lay xa xb with vw := [rd.toNat] }
  else { lLane sy lay xa xb with fill := some (rd.toNat - 24) }
/-- An S lane with a source of class Ss. -/
def sSs (sy : BitVec 6) (rs : Reg) (lay : BitVec 4) (xa : Reg) (xb : BitVec 4) : Lane :=
  { eng := .s, sync := sy, xa := xa, xb := xb.setWidth 5, lay := some lay.toNat, ss := some rs.toNat,
    vv := if rs.toNat < 24 then [rs.toNat] else [] }
/-- An M lane without a record. -/
def mLane (sy : BitVec 6) (xa xb : Reg) : Lane := { eng := .m, sync := sy, xa := xa, xb := xb }
/-- A C lane with a source record, and a destination record. -/
def cLane (sy : BitVec 6) (lay : BitVec 4) (xa : Reg) (xb : BitVec 4) : Lane :=
  { eng := .c, sync := sy, xa := xa, xb := xb.setWidth 5, lay := some lay.toNat }
def cRec (sy : BitVec 6) (rd : Reg) (lay : BitVec 4) (xa : Reg) (xb : BitVec 4) : Lane :=
  { cLane sy lay xa xb with lay2 := some rd.toNat }
/-- A V lane of the VV form with a governing mask: two sources. -/
def vv2 (sy : BitVec 6) (vd va vb : Reg) (k : BitVec 3) (ival lat : Nat) : Lane :=
  { eng := .v, sync := sy, vs := [va.toNat, vb.toNat], vd := some vd.toNat, ks := [k.toNat], ival := ival, lat := lat }
/-- The same with one source. -/
def vv1 (sy : BitVec 6) (vd va : Reg) (k : BitVec 3) (ival lat : Nat) : Lane :=
  { eng := .v, sync := sy, vs := [va.toNat], vd := some vd.toNat, ks := [k.toNat], ival := ival, lat := lat }
/-- The same with the destination as a third source. -/
def vv3 (sy : BitVec 6) (vd va vb : Reg) (k : BitVec 3) : Lane :=
  { vv2 sy vd va vb k 1 4 with vv := [vd.toNat] }
/-- A compare: a mask destination and a condition. -/
def vCmp (sy : BitVec 6) (kd va vb : Reg) (lat : Nat) : Lane :=
  { eng := .v, sync := sy, vs := [va.toNat, vb.toNat], kd := [kd.toNat], lat := lat }
/-- A lane of the VA or VC form. -/
def va1 (sy : BitVec 6) (vd va : Reg) (ival lat : Nat) : Lane :=
  { eng := .v, sync := sy, vs := [va.toNat], vd := some vd.toNat, ival := ival, lat := lat }
/-- A mask lane. -/
def kLane (sy : BitVec 6) (kd : Reg) (ks : List Nat) : Lane :=
  { eng := .v, sync := sy, ks := ks, kd := [kd.toNat] }
/-- A lane of a window accumulator. -/
def wLane (sy : BitVec 6) (w : Reg) (lat : Nat) : Lane := { eng := .v, sync := sy, win := some w.toNat, lat := lat }

/-- What an engine lane names, with its issue interval and latency for V (R67, R68, R143, R157). -/
def laneOf (i : Instr) : Option Lane :=
  match i with
  | .lNop sy => some { eng := .l, sync := sy }
  | .lV sy rd lay xa xb => some (lLd sy rd lay xa xb)
  | .lVs sy rd lay xa xb => some (lLd sy rd lay xa xb)
  | .lBc sy rd lay xa xb => some (lLd sy rd lay xa xb)
  | .lEl sy rd lay xa xb => some (lLd sy rd lay xa xb)
  | .lGat sy rd lay xa xb => some (lLd sy rd lay xa xb)
  | .lQ sy lay xa xb => some { lLane sy lay xa xb with cq := 1 }
  | .lK sy rd lay xa xb => some { lLane sy lay xa xb with kd := [rd.toNat] }
  | .lPf sy lay xa xb => some (lLane sy lay xa xb)
  | .lLay sy rd xa xb => some { eng := .l, sync := sy, xa := xa, xb := xb.setWidth 5, layd := some rd.toNat }
  | .sNop sy => some { eng := .s, sync := sy }
  | .sV sy rd lay xa xb => some (sSs sy rd lay xa xb)
  | .sVs sy rd lay xa xb => some (sSs sy rd lay xa xb)
  | .sRow sy rd lay xa xb => some (sSs sy rd lay xa xb)
  | .sSc sy rd lay xa xb => some (sSs sy rd lay xa xb)
  | .sK sy rd lay xa xb =>
    some { eng := .s, sync := sy, xa := xa, xb := xb.setWidth 5, lay := some lay.toNat, ks := [rd.toNat] }
  | .sEl sy rd lay xa xb => some (sSs sy rd lay xa xb)
  | .sC24 sy rd lay xa xb => some (sSs sy rd lay xa xb)
  | .mNop sy => some (mLane sy 0 0)
  | .mSet sy _ xa => some (mLane sy xa 0)
  | .mSetx sy _ lay xa xb => some { mLane sy xa (xb.setWidth 5) with lay := some lay.toNat }
  | .mGo sy xa xb => some (mLane sy xa (xb.setWidth 5))
  | .mClr sy _ => some (mLane sy 0 0)
  | .mRetScratchpad sy _ lay xa xb => some { mLane sy xa (xb.setWidth 5) with lay := some lay.toNat }
  | .mRetOq sy _ _ xa xb => some (mLane sy xa (xb.setWidth 5))
  | .mGidx sy rd xa xb => some { mLane sy xa (xb.setWidth 5) with vv := [rd.toNat] }
  | .mSc sy lay xa xb => some { mLane sy xa (xb.setWidth 5) with lay := some lay.toNat }
  | .cNop sy => some { eng := .c, sync := sy }
  | .cCopy sy rd lay xa xb =>
    some (if rd.toNat < 16 then cRec sy rd lay xa xb else { cLane sy lay xa xb with fill := some (rd.toNat - 24) })
  | .cMcast sy rd lay xa xb => some (cRec sy rd lay xa xb)
  | .cPut sy rd lay xa xb => some (cRec sy rd lay xa xb)
  | .cFill sy rd lay xa xb => some (cRec sy rd lay xa xb)
  | .cScl sy lay xa xb => some (cLane sy lay xa xb)
  | .cStrm sy rd lay xa xb => some { cLane sy lay xa xb with bind := some (rd.toNat - 24) }
  | .cPf sy lay xa xb => some (cLane sy lay xa xb)
  | .vNop sy => some { eng := .v, sync := sy }
  | .vAddF sy vd va vb k => some (vv2 sy vd va vb k 1 4)
  | .vSubF sy vd va vb k => some (vv2 sy vd va vb k 1 4)
  | .vMulF sy vd va vb k => some (vv2 sy vd va vb k 1 4)
  | .vFmaF sy vd va vb k => some (vv3 sy vd va vb k)
  | .vFmsF sy vd va vb k => some (vv3 sy vd va vb k)
  | .vMinF sy vd va vb k => some (vv2 sy vd va vb k 1 4)
  | .vMaxF sy vd va vb k => some (vv2 sy vd va vb k 1 4)
  | .vAbsF sy vd va k => some (vv1 sy vd va k 1 2)
  | .vNegF sy vd va k => some (vv1 sy vd va k 1 2)
  | .vDivF sy vd va vb k => some (vv2 sy vd va vb k 8 14)
  | .vSqrtF sy vd va k => some (vv1 sy vd va k 8 14)
  | .vRsqF sy vd va k => some (vv1 sy vd va k 2 8)
  | .vRcpF sy vd va k => some (vv1 sy vd va k 2 8)
  | .vExp2F sy vd va k => some (vv1 sy vd va k 2 8)
  | .vLog2F sy vd va k => some (vv1 sy vd va k 2 8)
  | .vTanhF sy vd va k => some (vv1 sy vd va k 4 10)
  | .vSgnjF sy vd va vb k => some (vv2 sy vd va vb k 1 2)
  | .vClsF sy vd va k => some (vv1 sy vd va k 1 2)
  | .vCmpF sy kd va vb _ => some (vCmp sy kd va vb 4)
  | .vAddI sy vd va vb k => some (vv2 sy vd va vb k 1 2)
  | .vSubI sy vd va vb k => some (vv2 sy vd va vb k 1 2)
  | .vMulI sy vd va vb k => some (vv2 sy vd va vb k 1 3)
  | .vMulhI sy vd va vb k => some (vv2 sy vd va vb k 1 3)
  | .vMulhC sy vd va vb k => some (vv2 sy vd va vb k 1 3)
  | .vMinI sy vd va vb k => some (vv2 sy vd va vb k 1 2)
  | .vMaxI sy vd va vb k => some (vv2 sy vd va vb k 1 2)
  | .vMinC sy vd va vb k => some (vv2 sy vd va vb k 1 2)
  | .vMaxC sy vd va vb k => some (vv2 sy vd va vb k 1 2)
  | .vAnd sy vd va vb k => some (vv2 sy vd va vb k 1 2)
  | .vOr sy vd va vb k => some (vv2 sy vd va vb k 1 2)
  | .vXor sy vd va vb k => some (vv2 sy vd va vb k 1 2)
  | .vNot sy vd va k => some (vv1 sy vd va k 1 2)
  | .vShl sy vd va vb k => some (vv2 sy vd va vb k 1 2)
  | .vShr sy vd va vb k => some (vv2 sy vd va vb k 1 2)
  | .vSra sy vd va vb k => some (vv2 sy vd va vb k 1 2)
  | .vPopc sy vd va k => some (vv1 sy vd va k 1 2)
  | .vClz sy vd va k => some (vv1 sy vd va k 1 2)
  | .vCmpI sy kd va vb _ => some (vCmp sy kd va vb 2)
  | .vCmpC sy kd va vb _ => some (vCmp sy kd va vb 2)
  | .vMov sy vd va k => some (vv1 sy vd va k 1 2)
  | .vMovi sy vd _ => some { eng := .v, sync := sy, vd := some vd.toNat, lat := 2 }
  | .vBcx sy vd xa xb => some { eng := .v, sync := sy, xa := xa, xb := xb, vd := some vd.toNat, lat := 2 }
  | .vIns sy vd xa xb => some { eng := .v, sync := sy, xa := xa, xb := xb, vd := some vd.toNat, vv := [vd.toNat], lat := 2 }
  | .vExt sy va xa xb => some { eng := .v, sync := sy, xa := xa, xb := xb, vs := [va.toNat], cq := 1, lat := 3 }
  | .vSel sy vd va vb k => some (vv2 sy vd va vb k 1 2)
  | .vIota sy vd _ => some { eng := .v, sync := sy, vd := some vd.toNat, lat := 2 }
  | .vPerm sy vd va vb k => some (vv2 sy vd va vb k 2 6)
  | .vRotr sy vd va _ => some (va1 sy vd va 1 2)
  | .vRotc sy vd va _ => some (va1 sy vd va 1 5)
  | .vBcr sy vd va _ => some (va1 sy vd va 1 2)
  | .vBcc sy vd va _ => some (va1 sy vd va 1 4)
  | .vRedrF sy vd va _ => some (va1 sy vd va 1 4)
  | .vRedcF sy vd va _ => some (va1 sy vd va 1 7)
  | .vRedrI sy vd va _ => some (va1 sy vd va 1 4)
  | .vRedcI sy vd va _ => some (va1 sy vd va 1 7)
  | .vScnrF sy vd va => some (va1 sy vd va 2 8)
  | .vTr16 sy vd va => some (va1 sy vd va 2 6)
  | .vCvt sy vd va _ _ _ => some (va1 sy vd va 1 3)
  | .vPack sy vd va _ => some { va1 sy vd va 1 2 with vv := [vd.toNat] }
  | .vUnpk sy vd va _ => some (va1 sy vd va 1 2)
  | .vIsect sy kp va vb =>
    some { eng := .v, sync := sy, vs := [va.toNat, vb.toNat], kd := [2 * kp.toNat, 2 * kp.toNat + 1], cq := 4, ival := 2,
           lat := 6 }
  | .vC24 sy vd va vm k => some { vv1 sy vd va k 1 4 with vw := [vm.toNat] }
  | .vFnd sy va xa xb _ => some { eng := .v, sync := sy, xa := xa, xb := xb, vs := [va.toNat], cq := 1, lat := 3 }
  | .kAnd sy kd ka kb => some (kLane sy kd [ka.toNat, kb.toNat])
  | .kOr sy kd ka kb => some (kLane sy kd [ka.toNat, kb.toNat])
  | .kXor sy kd ka kb => some (kLane sy kd [ka.toNat, kb.toNat])
  | .kAndn sy kd ka kb => some (kLane sy kd [ka.toNat, kb.toNat])
  | .kNot sy kd ka => some (kLane sy kd [ka.toNat])
  | .kMov sy kd ka => some (kLane sy kd [ka.toNat])
  | .kCnt sy vd ka => some { eng := .v, sync := sy, ks := [ka.toNat], vd := some vd.toNat, lat := 3 }
  | .wCfg sy w _ => some (wLane sy w 1)
  | .wLen sy w _ => some (wLane sy w 1)
  | .wPush sy w va k => some { wLane sy w 2 with vs := [va.toNat], ks := [k.toNat] }
  | .wRd sy vd w k => some { wLane sy w 3 with vd := some vd.toNat, ks := [k.toNat] }
  | .wClr sy w => some (wLane sy w 1)
  | .wStat sy w => some { wLane sy w 2 with cq := 1 }
  | _ => none

/-- The v registers that a lane names in any field (R241). -/
def Lane.vregs (l : Lane) : List Nat := (l.vs ++ l.vv ++ l.vd.toList ++ l.vw).filter (· < 24)
/-- The iqs it pops: each once (R42). -/
def Lane.iqs (l : Lane) : List Nat := ((l.vs.filter (24 ≤ ·)).map (· - 24)).eraseDups
/-- The oq it pushes into. -/
def Lane.oqDest (l : Lane) : Option Nat := l.vd.bind fun r => if 24 ≤ r then some (r - 24) else none
/-- The oq it pops (R43). -/
def Lane.oqSrc (l : Lane) : Option Nat := l.ss.bind fun r => if 24 ≤ r then some (r - 24) else none
/-- Registers and masks that a V entry reads, for R143. -/
def Lane.readsV (l : Lane) : List Nat := (l.vs ++ l.vv).filter (· < 24)
def Lane.readsK (l : Lane) : List Nat := l.ks.filter (0 < ·)
def Lane.writesV (l : Lane) : List Nat := (l.vd.toList ++ l.vw).filter (· < 24)

/-! ## Layout records (R97, R122, R190) -/

def recBase (r : LayRec) : W64 := r.extractLsb' 0 64
def recE (r : LayRec) (i : Nat) : Nat := (r.extractLsb' (64 + 32 * i) 32).toNat
def recS (r : LayRec) (i : Nat) : W64 := r.extractLsb' (192 + 64 * i) 64
def recFmt (r : LayRec) : Nat := (r.extractLsb' 448 3).toNat
/-- Invalid: a reserved bit, or an extent above 2^24 (R191). -/
def recInvalid (r : LayRec) : Bool := decide (r.extractLsb' 451 61 ≠ 0) || (List.range 4).any fun i => 2 ^ 24 < recE r i
/-- Some extent is 0. -/
def recEmpty (r : LayRec) : Bool := (List.range 4).any fun i => recE r i = 0
/-- P, the number of positions. -/
def recP (r : LayRec) : Nat := recE r 0 * recE r 1 * recE r 2 * recE r 3
/-- A(m, o). -/
def recAddr (r : LayRec) (m : Nat) (o : W64) : W64 :=
  let e0 := recE r 0
  let e1 := recE r 1
  let e2 := recE r 2
  o + recBase r + BitVec.ofNat 64 (m % e0) * recS r 0 + BitVec.ofNat 64 (m / e0 % e1) * recS r 1 +
    BitVec.ofNat 64 (m / (e0 * e1) % e2) * recS r 2 + BitVec.ofNat 64 (m / (e0 * e1 * e2)) * recS r 3
/-- Width in bytes of an element of a VC type (R97, R101). -/
def fmtWidth (f : Nat) : Nat := if f = 0 ∨ f = 6 then 4 else if f = 1 ∨ f = 2 then 2 else 1
/-- The format of a VC type code (R69). -/
def fmtTy (f : Nat) : Fp.Ty :=
  match f with | 0 => .f32 | 1 => .bf16 | 2 => .f16 | 3 => .e4m3 | 4 => .t8 | 5 => .t6 | 6 => .i32 | _ => .i8

/-! ## Masks and tiles -/

/-- Every bit set: k0. -/
def fullMask : Mask := (List.range 16).map fun i => (i, 0xFFFFFFFFFFFFFFFF#64)
/-- A mask register; k0 reads as all ones (R38). -/
def Room.getK (x : Room) (r : Nat) : Mask := if r = 0 then fullMask else tget [] x.k r
def maskRow (m : Mask) (i : Nat) : W64 := tget 0 m i
/-- The 1,024 bits of a mask by n = 64 i + j. -/
def maskBits (m : Mask) : List Bool := (tdense 0 16 0 m).flatMap fun w => (List.range 64).map w.getLsbD
/-- A mask of 16 rows. -/
def maskOf (f : Nat → W64) : Mask := tofn 0 16 f
/-- A row of 64 bits. -/
def rowOfBits (l : List Bool) : W64 := BitVec.ofNat 64 (l.foldr (fun b a => (if b then 1 else 0) + 2 * a) 0)
/-- Splits a list into rows of 64. -/
def rows64 {α : Type} (l : List α) : List (List α) := (List.range 16).map fun i => (l.drop (64 * i)).take 64
/-- The mask of 1,024 bits. -/
def maskOfBits (l : List Bool) : Mask := tofList 0 0 ((rows64 l).map rowOfBits)
/-- The 1,024 elements of a tile, and back. -/
def elems (t : Tile) : List W32 := tdense 0 1024 0 t
def tileOf (l : List W32) : Tile := tofList 0 0 l
/-- The elements of `new` where a bit is set, of `old` elsewhere. -/
def merge : List Bool → List W32 → List W32 → List W32
  | b :: bs, n :: ns, o :: os => (if b then n else o) :: merge bs ns os
  | _, _, _ => []

/-! ## Bank passes (R193, R194) -/

/-- Ticks of one pass over own-scratchpad offsets: the most distinct bank rows in any bank. -/
def passTick (offs : List Nat) : Nat :=
  let rows := (offs.map (· / 512)).eraseDups
  let banks := (rows.map (· / 512)).eraseDups
  banks.foldl (fun m b => max m (rows.filter fun r => r / 512 = b).length) 1
/-- Banks that a pass needs in its tick i: those of which it touches more than i bank rows. -/
def passBanks (offs : List Nat) (i : Nat) : BitVec 16 :=
  let rows := (offs.map (· / 512)).eraseDups
  ((rows.map (· / 512)).eraseDups).foldl
    (fun m b => if i < (rows.filter fun r => r / 512 = b).length then m ||| (1#16 <<< b) else m) 0
/-- The passes of numbered accesses, 128 numbers a pass, each as the offsets of the bytes that it touches. -/
def passesOf (l : List (Nat × Nat)) : List (List Nat) :=
  ((l.map (·.1 / 128)).eraseDups).map fun g => (l.filter fun p => p.1 / 128 = g).map (·.2)
/-- The ticks of passes, as the banks that each needs. -/
def passMasks (passes : List (List Nat)) : List (BitVec 16) :=
  passes.flatMap fun offs => (List.range (passTick offs)).map (passBanks offs)
/-! ## Accesses -/

/-- One access of an entry: number, address, width. -/
structure Access where
  n  : Nat
  va : W64
  w  : Nat
  deriving DecidableEq, Repr

/-- The place of one access, or the first failing check: ALIGN, translation, permission, range, link, also of the chunks of a
compressed page (R125, R364). An access to the port range is 8 bytes wide (R402). -/
def placeOf (s : State) (c : Ctx) (w : Want) (a : Access) : Except Nat Loc :=
  if a.va.toNat % a.w ≠ 0 then .error 2
  else match locate s c w a.va with
    | .error f => .error f
    | .ok l =>
      if l.place = .port ∧ a.w ≠ 8 then .error 2
      else match (if l.cmp then cmpDown s l.key else none) with | some f => .error f | none => .ok l
/-- A read of an address has found a sector whose CRC does not match: the sector is poisoned from now on (R364). -/
def State.poisonAt (s : State) (c : Ctx) (va : W64) : State :=
  match place s c .load va with
  | .ok l => if l.cmp then poisonSector s (keyTenant l.key) (keyMdx l.key) (keySector l.key) else s
  | .error _ => s

/-- The part of an access, with store data. -/
def partOf (a : Access) (l : Loc) (data : Nat) : Part :=
  { pos := a.n, va := a.va, place := l.place, key := l.key, w := a.w, data := data, ms := l.ms, watch := l.watch,
    cmp := l.cmp, heat := l.heat }

/-- The parts of a list of accesses in order of their numbers, or the failure of the lowest-numbered one. For a load,
poison of data that no copy `hit` holds counts as a failure (R125). -/
def placeAll (s : State) (c : Ctx) (w : Want) (hit : Part → Bool) : List Access → Except (Nat × W64) (List (Part × Loc))
  | [] => .ok []
  | a :: r =>
    match placeOf s c w a with
    | .error f => .error (f, a.va)
    | .ok l =>
      let p := partOf a l 0
      match (if w = .load && !hit p then partFault s p else none) with
      | some f => .error (f, a.va)
      | none =>
        match placeAll s c w hit r with
        | .error f => .error f
        | .ok ps => .ok ((p, l) :: ps)

/-- The bridge holds the tier entries that the translation of addresses needs (R299). -/
def State.needAll (s : State) (c : Ctx) (l : List W64) : State := l.foldl (fun s va => s.needTier c va) s
/-- An address in each 64 KiB page of a range. -/
def pageVas (base n : Nat) : List W64 :=
  if n = 0 then [] else
  (List.range ((base + n - 1) / 65536 - base / 65536 + 1)).map fun i => BitVec.ofNat 64 (max base ((base / 65536 + i) * 65536))
/-- The TLBs and the bridge hold what the accesses used. -/
def fillAll (s : State) (l : List (Part × Loc)) : State := l.foldl (fun s p => (s.fillTlb p.2).fillTier p.2) s

end Sys2Proof.Machine
end

