-- ==== Sys2Proof/Machine/Flags.lean ====
section
/-! DEFINITION. Flags: the sticky flags of the engines in VFLAGS (R108, R109), the accrued flags of the control core in
fcsr (R95), and the conditions of the compares (R69, R148, R150). -/

namespace Sys2Proof.Machine

/-- Low bit of an engine's field of VFLAGS. -/
def vflShift : Eng → Nat | .v => 0 | .m => 8 | .c => 16 | .l | .s => 0
/-- An entry's flags as it finishes: they join VFLAGS at the end of the tick, after any write of the tick. -/
def Room.orVflags (x : Room) (e : Eng) (fl : Nat) : Room :=
  { x with vflNew := x.vflNew ||| (BitVec.ofNat 64 (fl % 32) <<< vflShift e) }
/-- The flags of a tick join VFLAGS. -/
def Room.commitFlags (x : Room) : Room := { x with vflags := x.vflags ||| x.vflNew, vflNew := 0 }
/-- Bits of VFLAGS that a write keeps: VFL, MFL and CFL. -/
def vflagsMask : W64 := 0x1F1F1F#64

/-- ORs flags into fcsr's fflags and marks the FP state dirty. -/
def Room.orFflags (x : Room) (fl : Nat) : Room :=
  { x with csr := { x.csr with fcsr := x.csr.fcsr ||| BitVec.ofNat 64 (fl % 32) } }

/-- Truth and flags of an FP32 compare (R148). -/
def fpCond (c : Nat) (a b : W32) : Bool × Nat :=
  let x := Fp.d32 a
  let y := Fp.d32 b
  let nan := x.isNan || y.isNan
  let sig := max (Fp.sigFlag x) (Fp.sigFlag y)
  match c with
  | 0 => (Fp.eqV x y, sig)
  | 1 => (!Fp.eqV x y, sig)
  | 2 => (Fp.ltV x y, if nan then Fp.NV else 0)
  | 3 => (Fp.ltV x y || Fp.eqV x y, if nan then Fp.NV else 0)
  | 4 => (Fp.ltV y x, if nan then Fp.NV else 0)
  | 5 => (Fp.ltV y x || Fp.eqV x y, if nan then Fp.NV else 0)
  | 6 => (nan, sig)
  | _ => (!nan, sig)

/-- An integer compare, signed or unsigned (R150). -/
def intCond (signed : Bool) (c : Nat) (a b : W32) : Bool :=
  let lt (x y : W32) : Bool := if signed then x.slt y else x.ult y
  match c with
  | 0 => a == b
  | 1 => a != b
  | 2 => lt a b
  | 3 => !lt b a
  | 4 => lt b a
  | _ => !lt a b

end Sys2Proof.Machine
end

