-- ==== Sys2Proof/Machine/Engine.lean ====
section
/-! DEFINITION. What every engine entry has in common: token counters (R30 to R34), dispatch into a queue (R25 to R27,
R40, R41, R65, R115), data queues (R41 to R45), faults at the head (R66, R125), finishing and retiring (R16, R29, R33). -/

namespace Sys2Proof.Machine

/-! ## Tokens -/

/-- Counters, in the order of R31, that an engine's pop bits 0 to 2 name. -/
def popCounter (e : Eng) : List Nat :=
  match e with | .l => [1, 3, 5] | .v => [0, 7, 9] | .s => [6, 11, 13] | .m => [2, 8, 10] | .c => [4, 12, 15]
/-- Counters that its push bits name. -/
def pushCounter (e : Eng) : List Nat :=
  match e with | .l => [0, 2, 4] | .v => [1, 6, 8] | .s => [7, 10, 12] | .m => [3, 9, 11] | .c => [5, 13, 14]
/-- C to X, and X to C. -/
def tokCX : Nat := 14
def tokXC : Nat := 15
/-- The counters that a 3-bit field selects. -/
def selected (f : BitVec 3) (l : List Nat) : List Nat :=
  (l.zipIdx.filter fun p => f.getLsbD p.2).map (·.1)

/-- Tokens that a pop sees: those pushed before this tick (R34). -/
def Room.tokens (x : Room) (c : Nat) : Nat := tget 0 x.tok c
/-- Value of a counter with the pushes of this tick. -/
def Room.tokenCount (x : Room) (c : Nat) : Nat := tget 0 x.tok c + tget 0 x.tokS c
def Room.popToken (x : Room) (c : Nat) : Room := { x with tok := tmod 0 x.tok c (· - 1) }
def Room.pushToken (x : Room) (c : Nat) : Room := { x with tokS := tmod 0 x.tokS c (· + 1) }
def Room.popTokens (x : Room) (l : List Nat) : Room := l.foldl Room.popToken x
/-- A `tsig` pushes its token, which releases the control core's stores sent so far (R80). -/
def Room.release (x : Room) : Room :=
  { x.pushToken tokXC with rel := (x.pushToken tokXC).rel ++ [tget 0 x.lastDue coreStoreKey] }
def Room.pushTokens (x : Room) (l : List Nat) : Room := l.foldl Room.pushToken x
/-- At the end of a tick its pushes become visible. -/
def Room.commitTokens (x : Room) : Room :=
  { x with tok := x.tokS.foldl (fun t p => tmod 0 t p.1 (· + p.2)) x.tok, tokS := [] }

/-! ## Dispatch -/

/-- A `q.save` or a `q.load` stops every engine (R344, R345). -/
def Room.saving (x : Room) : Bool := match x.hold with | .qSave _ _ _ _ _ | .qLoad => true | _ => false
/-- The M engine issues nothing and takes no further step: held for pre-emption from the tick of interrupt 18 on (R348), or for
a save (R344). -/
def Room.mStops (x : Room) : Bool := x.mHeld || x.mSoon || x.saving

/-- The slip depth of a queue in force (R27). -/
def Room.slip (x : Room) (e : Eng) : Nat :=
  let d := match e with
    | .l => getField x.qslip 0 7 | .v => getField x.qslip 8 7 | .s => getField x.qslip 16 7
    | .m => getField x.qslip 24 5 | .c => getField x.qslip 32 6
  if d = 0 ∨ e.depth < d then e.depth else d

/-- The record of layN as an entry dispatched now uses it (R40): the register's, or that of an `l.lay` not finished. -/
def Room.layNow (x : Room) (n : Nat) : LayRef :=
  let p := tget 0 x.ql.layBy n
  let loads (m : Entry) : Bool := match m.instr with | .lLay _ rd _ _ => decide (rd.toNat = n) | _ => false
  if p ≠ 0 ∧ x.ql.q.any (fun m => m.qpos = p - 1 && !m.pushWait && loads m) then .dep n (p - 1) else .known (tget 0 x.lay n)

/-- The next position of an iq is reserved. -/
def Room.reserveIq (x : Room) (q : Nat) : Room :=
  let i := tget {} x.iq q
  { x with iq := tset {} x.iq q { i with els := i.els ++ [{ id := i.nextId, el := none }], nextId := i.nextId + 1 } }

/-- The entry of a lane dispatched now. -/
def newEntry (x : Room) (i : Instr) (l : Lane) : Entry :=
  { instr := i, word := x.curWord, xa := x.getX l.xa, xb := x.getX l.xb, bankfmt := x.bankfmt, satp := x.csr.satp,
    mode := x.mode, lay := match l.lay with | some n => x.layNow n | none => .none,
    lay2 := match l.lay2 with | some n => x.layNow n | none => .none, qpos := (x.queue l.eng).disp,
    iqId := match l.fill, l.bind with
      | some q, _ => some (q, (tget {} x.iq q).nextId)
      | none, some q => some (q, (tget {} x.iq q).nextId)
      | none, none => none,
    elems := [], popped := false, issued := none, more := none, minFin := 0, msgs := [], sent := [], vt := 0, got := [],
    cursor := 0, mask := 0, mask2 := 0, fault := none, recorded := false, effs := [], nest := none, flags := 0,
    pushWait := false, after := tget 0 x.lastDue coreStoreKey }

/-- Places an entry at the tail of its queue. -/
def Room.place (x : Room) (l : Lane) (n : Entry) : Room :=
  let x := x.modQueue l.eng fun q => { q with
    q := q.q ++ [n], disp := (q.disp + 1) % 2 ^ 32,
    layBy := match l.layd with | some d => tset 0 q.layBy d (1 + q.disp) | none => q.layBy }
  match l.fill with | some q => x.reserveIq q | none => x

/-- VREGS of the running iteration. -/
def Room.vregs (x : Room) : Nat := match x.run with | some u => u.vregs | none => 0

/-- Dispatch of an engine lane (R25 to R27, R65, R241): ILLEGAL_OP for a v register at VREGS or above, a wait for a
pending x register or while the queue holds its slip depth, otherwise a new entry. -/
def enqueue (i : Instr) (l : Lane) (s : State) : State :=
  let x := s.me
  if l.vregs.any (x.vregs ≤ ·) then s.illegalOp
  else if x.pendingAny [l.xa.toNat, l.xb.toNat] || x.lateAny s.tick [l.xa.toNat, l.xb.toNat] || decide (x.slip l.eng ≤ (x.queue l.eng).q.length) then s.wait
  else s.modMe fun x => (x.place l (newEntry x i l)).retire s.tick

/-- Whether the step runs a queue's entry; the lane is dispatched otherwise. -/
def actsFor (e : Eng) (s : State) : Bool := match s.act with | .entry e' => e = e' | .lane => false

/-- An entry waits for a message: of a `c.put`, for its sources, and not for the acceptance of blocks sent (R304). -/
def Entry.waits (n : Entry) : Bool := n.msgs.any fun i => tget 0 n.got (ackKey + i) = 0
/-- A C entry stands between two blocks, with everything that it has sent performed; a `c.put` has only sent its blocks, and
their acceptances may still be on the way (R212, R304). -/
def Entry.blockEnd (x : Room) (n : Entry) : Bool :=
  n.more.isSome && decide (tget 0 n.got 0 = 0) && decide (tget 0 n.got 4 = 0) &&
    (match n.instr, n.iqId with
     | .cPut _ _ _ _ _, _ => !n.waits
     | .cStrm _ _ _ _ _, some (q, _) =>
       n.msgs = [] && (match (tget {} x.iq q).stream with | some st => !st.sent | none => true)
     | _, _ => n.msgs = [])
/-- An M entry stands at the end of a k-block, or in no reduction loop. -/
def Entry.kBlockEnd (n : Entry) : Bool :=
  match n.nest with | some t => decide (t.stage ≠ 1) || t.steps = [] | none => true
/-- An entry that goes no further: of C at a block's end, once a save or a kill stops the engine; of M at a k-block's end,
after a kill (R344, R349). -/
def Room.halts (x : Room) (e : Eng) (n : Entry) : Bool :=
  match e with
  | .c => (x.saving || x.dying.isSome) && n.blockEnd x
  | .m => x.dying.isSome && n.kBlockEnd
  | .l | .v | .s => false
/-- The entry of a queue that takes a step now: issued, a step due, and no message on the way that it waits for. -/
def Room.acting (x : Room) (e : Eng) (now : Nat) : Option Entry :=
  (x.queue e).q.find? fun n =>
    (match n.more with | some t => decide (t ≤ now) | none => false) && !n.waits && !x.halts e n

/-- An engine lane: at dispatch it becomes an entry; when its entry acts, `act` is its effect. -/
def engLane (i : Instr) (act : Entry → State → State) (s : State) : State :=
  match laneOf i with
  | none => s
  | some l =>
    if actsFor l.eng s then
      match s.me.acting l.eng s.tick with
      | some n => act n { s with act := .lane }
      | none => { s with act := .lane }
    else enqueue i l { s with act := .lane }

/-- Replaces the entry of a queue at a position. -/
def Room.setEntry (x : Room) (e : Eng) (n : Entry) : Room :=
  x.modQueue e fun q => { q with q := q.q.map fun m => if m.qpos = n.qpos then n else m }
def State.setEntry (s : State) (e : Eng) (n : Entry) : State := s.modMe fun x => x.setEntry e n

/-- The entry holds a fault: it stays at its head, to be executed again after a replay (R66, R125). -/
def Entry.faulted (n : Entry) (f : FaultInfo) : Entry :=
  { n with fault := some f, recorded := false, issued := none, more := none, msgs := [], effs := [], got := n.heldGot, held := [] }
def accessFault (code : Nat) (va : W64) : FaultInfo := { code := code, va := va, cursor := 0, detail := 0 }
/-- ILLEGAL_OP at the head. -/
def illegalHead : FaultInfo := { code := 13, va := 0, cursor := 0, detail := 0 }

/-- The record that an entry uses; the zero record for none. -/
def LayRef.get : LayRef → LayRec | .known r => r | .none => 0 | .dep _ _ => 0
def LayRef.ready : LayRef → Bool | .dep _ _ => false | .none => true | .known _ => true

/-- The context of an entry's translation (R352). -/
def entryCtx (r : Nat) (e : Eng) (n : Entry) : Ctx := { room := r, satp := n.satp, mode := n.mode, shadow := e = .c, repl := e = .l }

/-! ## Own scratchpad and copies -/

/-- The offset of a part in the room's own scratchpad. -/
def ownOffset (r : Nat) (p : Part) : Option Nat :=
  match p.place with | .scratch q => if q = r then some (p.key - scratchKey r 0) else none | _ => none
/-- An entry of an engine of the acting room, or the stream of an iq, takes passes from tick t on; every tick beyond the first of
a pass is a conflict tick in the engine's field of BCONF (R194, R195). An earlier entry of the same engine that holds a bank is
another source of R194 to a later one (DESIGN CHOICE, log entry 71). Answers with the ticks that they take. -/
def State.takePasses (s : State) (e : Eng) (qpos : Nat) (t : Nat) (passes : List (List Nat)) (strm : Option Nat := none) :
    State × Nat :=
  if passes = [] then (s, 0)
  else
    let (x, n) := s.me.takeMasks e qpos strm s.tick t (passMasks passes)
    (s.setRoom s.turn { x with bconf := addConf x.bconf e (n - passes.length) }, n)
/-- The passes of an entry's parts in the room's own scratchpad. -/
def ownPasses (r : Nat) (parts : List Part) : List (List Nat) :=
  passesOf (parts.flatMap fun p => match ownOffset r p with | some o => [(p.pos, o), (p.pos, o + p.w - 1)] | none => [])
/-- The value of a part in a leased copy of the room's partition. -/
def leasedValue (s : State) (r : Nat) (p : Part) : Option Nat := hitValue s (s.partition r) p
/-- A load that an engine of a room has sent for a line and that its home has not performed. -/
def State.loadOnWay (s : State) (r : Nat) (e : Eng) (line : Nat) : Bool :=
  let mine (m : MemMsg) : Bool := m.room = r && m.who = .eng e && !m.store && m.parts.any fun p => lineOf p.key = line
  (s.agenda.any fun a => match a.2 with | .loadAtHome m => mine m | _ => false) || s.waiting.any mine
/-- The value of a part that an engine of the room can read at once: its own scratchpad, or a leased copy in its partition, unless
an earlier load of its queue from the line is under way, which may read newer bytes (R307), or an atomic of the control core, whose
bytes the engine must see (R80, R126, R310). -/
def nearValue (s : State) (r : Nat) (e : Eng) (p : Part) : Option Nat :=
  if p.place = .scratch r then some (s.read p.key p.w)
  else if s.loadOnWay r e (lineOf p.key) || s.atomOnWay r (lineOf p.key) then none else leasedValue s r p
/-- A code of a format in a lane: bits above a T6 code are 0, and those of its byte in memory are written as 0, as R101 says of T6,
where R97 moves the whole byte of every one-byte format (DEDUCED, log entry 77). -/
def laneCode6 (fmt : Nat) (v : W32) : W32 := if fmt = 5 then v &&& 0x3F#32 else v

/-! ## Data queues (R41 to R45) -/

/-- Elements of an iq that have arrived or are being written, among them the element that a stream has asked for (R41, R219). -/
def Iq.held (i : Iq) : Nat :=
  (i.els.filter fun e => e.el.isSome || e.busy).length + (match i.stream with | some st => if st.sent then 1 else 0 | none => 0)
/-- The oldest element, if it can be popped at a tick. -/
def Iq.ready (i : Iq) (now : Nat) : Option Tile :=
  match i.els with
  | { el := some (t, a), .. } :: _ => if a < now then some t else none
  | _ => none
/-- Pops the oldest element; a stream whose last element is popped ends (R219). -/
def Iq.pop (i : Iq) : Iq :=
  match i.els with
  | [] => i
  | e :: r =>
    let st := match i.stream with
      | some st => if e.strm then (if st.popped + 1 = st.total then none else some { st with popped := st.popped + 1 })
                   else some st
      | none => none
    { i with els := r, stream := st }
/-- The reserved element `id` is being written, or arrives. -/
def Iq.begin (i : Iq) (id : Nat) : Iq :=
  let f (e : IqEl) : IqEl := if e.id = id ∧ !e.strm then { e with busy := true } else e
  { i with els := i.els.map f }
def Iq.fill (i : Iq) (id : Nat) (t : Tile) (now : Nat) : Iq :=
  let f (e : IqEl) : IqEl := if e.id = id ∧ !e.strm then { e with busy := false, el := some (t, now) } else e
  { i with els := i.els.map f }
/-- The oldest element of an oq, if it can be popped at a tick. -/
def Oq.ready (o : Oq) (now : Nat) : Option Tile :=
  match o.els with
  | some (t, a) :: _ => if a < now then some t else none
  | _ => none
/-- Fills the first place that is only reserved. -/
def fillFirst (v : Tile × Nat) : List (Option (Tile × Nat)) → List (Option (Tile × Nat))
  | [] => []
  | none :: r => some v :: r
  | some w :: r => some w :: fillFirst v r
/-- Places of the control queue that are neither filled nor reserved. -/
def Room.cqFree (x : Room) : Nat := 16 - x.cq.length - x.cqRes
/-- A popped element of an entry: iq q under q, oq q under 8 + q. -/
def Entry.popped? (n : Entry) (i : Nat) : Tile :=
  match n.elems.find? fun p => p.1 = i with | some p => p.2 | none => []

/-! ## Finishing -/

/-- One effect of a finishing entry on the room. -/
def applyEff (now : Nat) (x : Room) (f : Eff) : Room :=
  match f with
  | .v r m t => { x with v := tset [] x.v r (tileOf (merge (maskBits m) (elems t) (elems (tget [] x.v r)))) }
  | .k r m => if r = 0 then x else { x with k := tset [] x.k r m }
  | .w r w => { x with w := tset {} x.w r w }
  | .lay n r => { x with lay := tset 0 x.lay n r }
  | .iq q id t => { x with iq := tmod {} x.iq q fun i => i.fill id t now }
  | .oq q t => { x with oq := tmod {} x.oq q fun o => { o with els := fillFirst (t, now) o.els } }
  | .cq vs => { x with cq := x.cq ++ vs.map fun v => (v, now), cqRes := x.cqRes - vs.length }
  | .scales a vs => { x with scales := (vs.zipIdx).foldl (fun t p => tset 0 t (a + p.2) p.1) x.scales }
  | .nest n v => { x with nestS := tset 0 x.nestS n v }
  | .bind n v r => { x with nestS := tset 0 x.nestS n v, recS := tset 0 x.recS n r }
  | .gather l => { x with gather := l }
  | .scratch _ => x

/-- Entries that wait for the record of the `l.lay` at a queue position take it (R40). -/
def resolveLay (pos : Nat) (r : LayRec) (x : Room) : Room :=
  let f (l : LayRef) : LayRef := match l with | .dep n p => if p = pos then .known r else .dep n p | other => other
  let g (q : Queue) : Queue := { q with q := q.q.map fun n => { n with lay := f n.lay, lay2 := f n.lay2 } }
  { x with ql := g x.ql, qs := g x.qs, qm := g x.qm, qc := g x.qc }

/-- The counters that an entry pushes. -/
def Entry.pushes (n : Entry) : List Nat :=
  match laneOf n.instr with | some l => selected l.pushes (pushCounter l.eng) | none => []
def Entry.pops (n : Entry) : List Nat :=
  match laneOf n.instr with | some l => selected l.pops (popCounter l.eng) | none => []
/-- Whether every counter that it pushes to is below 31 (R33). -/
def Room.canPush (x : Room) (n : Entry) : Bool := n.pushes.all fun c => x.tokenCount c < 31

/-- Low level of a queue, and its QLP bit (R29). -/
def lowLevel (x : Room) : Eng → Nat
  | .l => getField x.qwmark 0 6 | .v => getField x.qwmark 8 6 | .s => getField x.qwmark 16 6
  | .m => getField x.qwmark 24 4 | .c => getField x.qwmark 32 5
/-- A retirement: the entry leaves its queue with its pushes, and may set QLP (R29, R33). -/
def Room.retireEntry (x : Room) (e : Eng) (n : Entry) : Room :=
  let x := x.pushTokens n.pushes
  let occ := (x.queue e).q.length
  let x := x.modQueue e fun q => { q with q := q.q.filter fun m => m.qpos ≠ n.qpos, ret := (q.ret + 1) % 2 ^ 32 }
  let lv := lowLevel x e
  if lv ≠ 0 ∧ occ = lv + 1 then { x with qwmark := setField x.qwmark (40 + e.num) 1 1 } else x

/-- The stores of a finished entry whose answers have not returned are covered by the room's horizon (R288). -/
def Room.coverStores (x : Room) (n : Entry) : Room := { x with stores := x.stores ++ n.sent, hz := max x.hz n.vt }

/-- A part of on-chip memory at a key. -/
def plainPart (key w v : Nat) : Part :=
  { pos := 0, va := 0, place := .scratch 0, key := key, w := w, data := v, ms := false, watch := false, cmp := false, heat := false }
/-- The bytes that an entry stores into its own scratchpad as it finishes; a granule written whole is poisoned no more (R391). -/
def writeScratch (s : State) (l : List Eff) : State :=
  l.foldl (fun s f => match f with
    | .scratch ws => writeParts s (ws.map fun (k, w, v) => plainPart k w v)
    | _ => s) s

/-- The next entry of a queue to finish: the first one not finished. -/
def Queue.finishing (q : Queue) : Option Entry := q.q.find? fun n => !n.pushWait
/-- Whether it finishes at a tick. -/
def Entry.done (n : Entry) (now : Nat) : Bool :=
  n.issued.isSome && n.fault.isNone && n.more.isNone && decide (n.msgs = []) && decide (n.minFin ≤ now)

/-- An entry finishes: its effects and flags take place; at the head with every counter below 31 it makes its pushes and
retires, otherwise it waits with its pushes (R16, R33, R109). -/
def finishEntry (s : State) (r : Nat) (e : Eng) (n : Entry) : State :=
  let s := writeScratch s n.effs
  s.modRoom r fun x =>
    let x := (n.effs.foldl (applyEff s.tick) x).coverStores n
    let x := x.orVflags e n.flags
    let x := match n.effs with | .lay _ rc :: _ => resolveLay n.qpos rc x | _ => x
    let n := { n with pushWait := true, effs := [], sent := [] }
    let x := x.modQueue e fun q => { q with lastFin := s.tick }
    if (x.queue e).q.head?.map (·.qpos) = some n.qpos ∧ x.canPush n then x.retireEntry e n else x.setEntry e n

end Sys2Proof.Machine
end

