-- ==== Sys2Proof/Machine/Vector.lean ====
section
/-! DEFINITION. The elementwise, mask and move instructions of the vector engine (R142 to R156). An entry reads its sources
when it acts, at its issue, and writes its destination when it finishes. -/

namespace Sys2Proof.Machine

/-! ## Elementwise operations -/

/-- Elements that a bit governs, with the flags they raise; ungoverned elements are 0 and raise nothing (R98). -/
def gov1 (op : W32 → W32 × Nat) : List Bool → List W32 → List W32 × Nat
  | b :: bs, a :: as =>
    let (r, fl) := gov1 op bs as
    if b then (let (v, f) := op a; (v :: r, f ||| fl)) else (0 :: r, fl)
  | _, _ => ([], 0)
def gov2 (op : W32 → W32 → W32 × Nat) : List Bool → List W32 → List W32 → List W32 × Nat
  | g :: gs, a :: as, b :: bs =>
    let (r, fl) := gov2 op gs as bs
    if g then (let (v, f) := op a b; (v :: r, f ||| fl)) else (0 :: r, fl)
  | _, _, _ => ([], 0)
def gov3 (op : W32 → W32 → W32 → W32 × Nat) : List Bool → List W32 → List W32 → List W32 → List W32 × Nat
  | g :: gs, a :: as, b :: bs, d :: ds =>
    let (r, fl) := gov3 op gs as bs ds
    if g then (let (v, f) := op a b d; (v :: r, f ||| fl)) else (0 :: r, fl)
  | _, _, _, _ => ([], 0)
/-- Truth of a compare for every element. -/
def compareAll (op : W32 → W32 → Bool × Nat) : List W32 → List W32 → List Bool × Nat
  | a :: as, b :: bs =>
    let (r, fl) := compareAll op as bs
    let (v, f) := op a b
    (v :: r, f ||| fl)
  | _, _ => ([], 0)

/-- An operation that raises no flag. -/
def quiet (f : W32 → W32) (a : W32) : W32 × Nat := (f a, 0)
def quiet2 (f : W32 → W32 → W32) (a b : W32) : W32 × Nat := (f a b, 0)
/-- vd - va × vb (R145). -/
def fms (a b d : W32) : W32 × Nat := Fp.fma32 (a ^^^ (if (Fp.d32 a).isNan then 0 else 0x80000000#32)) b d
/-- Number of set bits among the low n bits. -/
def popCount : Nat → Nat → Nat
  | 0, _ => 0
  | n + 1, v => v % 2 + popCount n (v / 2)
/-- Number of zeros from bit n - 1 downward to the first 1. -/
def leadingZeros : Nat → Nat → Nat
  | 0, _ => 0
  | n + 1, v => if v.testBit n then 0 else 1 + leadingZeros n v

/-! ## Entries -/

/-- What a V entry has computed: effects, flags, and its issue interval when it is not the one of its lane. -/
structure VOut where
  effs  : List Eff := []
  flags : Nat := 0
  ival  : Option Nat := none
  deriving DecidableEq, Repr

/-- A source of class Vs: a register, or the element popped from an iq. -/
def srcTile (x : Room) (n : Entry) (r : Reg) : Tile :=
  if r.toNat < 24 then tget [] x.v r.toNat else n.popped? (r.toNat - 24)
/-- A destination of class Vd: the governed elements of a register, or an oq element with zeros elsewhere (R142). -/
def destEff (vd : Reg) (m : Mask) (l : List W32) : Eff :=
  if vd.toNat < 24 then .v vd.toNat m (tileOf l)
  else .oq (vd.toNat - 24) (tileOf (merge (maskBits m) l (List.replicate 1024 0)))
/-- Every element of the destination. -/
def vAll (vd : Reg) (l : List W32) (fl : Nat := 0) : VOut := { effs := [destEff vd fullMask l], flags := fl }
/-- The mask of one element. -/
def oneBit (i : Nat) : Mask := [(i / 64, 1#64 <<< (i % 64))]

/-- A governed operation of one, two or three operands; the third is the destination itself. -/
def vGov1 (op : W32 → W32 × Nat) (vd va : Reg) (k : BitVec 3) (x : Room) (n : Entry) : VOut :=
  let m := x.getK k.toNat
  let (l, fl) := gov1 op (maskBits m) (elems (srcTile x n va))
  { effs := [destEff vd m l], flags := fl }
def vGov2 (op : W32 → W32 → W32 × Nat) (vd va vb : Reg) (k : BitVec 3) (x : Room) (n : Entry) : VOut :=
  let m := x.getK k.toNat
  let (l, fl) := gov2 op (maskBits m) (elems (srcTile x n va)) (elems (srcTile x n vb))
  { effs := [destEff vd m l], flags := fl }
def vGov3 (op : W32 → W32 → W32 → W32 × Nat) (vd va vb : Reg) (k : BitVec 3) (x : Room) (n : Entry) : VOut :=
  let m := x.getK k.toNat
  let (l, fl) := gov3 op (maskBits m) (elems (srcTile x n va)) (elems (srcTile x n vb)) (elems (srcTile x n vd))
  { effs := [destEff vd m l], flags := fl }
/-- A compare into a mask: every bit of kd (R148, R150). -/
def vCompare (op : W32 → W32 → Bool × Nat) (kd va vb : Reg) (x : Room) (n : Entry) : VOut :=
  let (l, fl) := compareAll op (elems (srcTile x n va)) (elems (srcTile x n vb))
  { effs := [.k kd.toNat (maskOfBits l)], flags := fl }
/-- A mask operation on all 16 rows (R156). -/
def vMask (op : W64 → W64 → W64) (kd ka kb : Reg) (x : Room) (_ : Entry) : VOut :=
  { effs := [.k kd.toNat (maskOf fun i => op (maskRow (x.getK ka.toNat) i) (maskRow (x.getK kb.toNat) i))] }

/-- A V entry acts: its effects follow at its finish, its latency after this tick, and the next entry issues no earlier
than its interval (R143). -/
def vAct (l : Lane) (o : VOut) (n : Entry) (s : State) : State :=
  let s := s.setEntry .v { n with effs := o.effs, flags := o.flags, more := none, minFin := s.tick + l.lat }
  s.modMe fun x => { x with qv := { x.qv with nextIss := max x.qv.nextIss (s.tick + o.ival.getD l.ival) } }

/-- A V lane with its effect as a function of the room and the entry. -/
def vLane (i : Instr) (f : Room → Entry → VOut) (s : State) : Res :=
  .next (engLane i (fun n s => match laneOf i with | some l => vAct l (f s.me n) n s | none => s) s)

/-- `v.nop`: only tokens (R144). -/
def execVNop (sy : BitVec 6) (s : State) : Res :=
  vLane (.vNop sy) (fun _ _ => {}) s

/-- `v.add.f`: FP32 add (R144). -/
def execVAddF (sy : BitVec 6) (vd va vb : Reg) (k : BitVec 3) (s : State) : Res :=
  vLane (.vAddF sy vd va vb k) (vGov2 Fp.add32 vd va vb k) s

/-- `v.sub.f`: FP32 subtract (R144). -/
def execVSubF (sy : BitVec 6) (vd va vb : Reg) (k : BitVec 3) (s : State) : Res :=
  vLane (.vSubF sy vd va vb k) (vGov2 Fp.sub32 vd va vb k) s

/-- `v.mul.f`: FP32 multiply (R144). -/
def execVMulF (sy : BitVec 6) (vd va vb : Reg) (k : BitVec 3) (s : State) : Res :=
  vLane (.vMulF sy vd va vb k) (vGov2 Fp.mul32 vd va vb k) s

/-- `v.fma.f`: va × vb + vd, rounded once (R145). -/
def execVFmaF (sy : BitVec 6) (vd va vb : Reg) (k : BitVec 3) (s : State) : Res :=
  vLane (.vFmaF sy vd va vb k) (vGov3 Fp.fma32 vd va vb k) s

/-- `v.fms.f`: vd - va × vb, rounded once (R145). -/
def execVFmsF (sy : BitVec 6) (vd va vb : Reg) (k : BitVec 3) (s : State) : Res :=
  vLane (.vFmsF sy vd va vb k) (vGov3 fms vd va vb k) s

/-- `v.min.f`: minimum (R110, R144). -/
def execVMinF (sy : BitVec 6) (vd va vb : Reg) (k : BitVec 3) (s : State) : Res :=
  vLane (.vMinF sy vd va vb k) (vGov2 Fp.min32 vd va vb k) s

/-- `v.max.f`: maximum (R110, R144). -/
def execVMaxF (sy : BitVec 6) (vd va vb : Reg) (k : BitVec 3) (s : State) : Res :=
  vLane (.vMaxF sy vd va vb k) (vGov2 Fp.max32 vd va vb k) s

/-- `v.abs.f`: absolute value of the bits (R146). -/
def execVAbsF (sy : BitVec 6) (vd va : Reg) (k : BitVec 3) (s : State) : Res :=
  vLane (.vAbsF sy vd va k) (vGov1 (quiet fun a => a &&& 0x7FFFFFFF#32) vd va k) s

/-- `v.neg.f`: negation of the bits (R146). -/
def execVNegF (sy : BitVec 6) (vd va : Reg) (k : BitVec 3) (s : State) : Res :=
  vLane (.vNegF sy vd va k) (vGov1 (quiet fun a => a ^^^ 0x80000000#32) vd va k) s

/-- `v.div.f`: correctly rounded quotient (R112, R144). -/
def execVDivF (sy : BitVec 6) (vd va vb : Reg) (k : BitVec 3) (s : State) : Res :=
  vLane (.vDivF sy vd va vb k) (vGov2 Fp.div32 vd va vb k) s

/-- `v.sqrt.f`: correctly rounded square root (R112, R146). -/
def execVSqrtF (sy : BitVec 6) (vd va : Reg) (k : BitVec 3) (s : State) : Res :=
  vLane (.vSqrtF sy vd va k) (vGov1 Fp.sqrt32 vd va k) s

/-- `v.rsq.f`: correctly rounded reciprocal square root (R112, R113). -/
def execVRsqF (sy : BitVec 6) (vd va : Reg) (k : BitVec 3) (s : State) : Res :=
  vLane (.vRsqF sy vd va k) (vGov1 Fp.rsq32 vd va k) s

/-- `v.rcp.f`: correctly rounded reciprocal (R112, R113). -/
def execVRcpF (sy : BitVec 6) (vd va : Reg) (k : BitVec 3) (s : State) : Res :=
  vLane (.vRcpF sy vd va k) (vGov1 Fp.rcp32 vd va k) s

/-- `v.exp2.f`: correctly rounded 2^x (R112, R113). -/
def execVExp2F (sy : BitVec 6) (vd va : Reg) (k : BitVec 3) (s : State) : Res :=
  vLane (.vExp2F sy vd va k) (vGov1 Fp.exp2_32 vd va k) s

/-- `v.log2.f`: correctly rounded log2 x (R112, R113). -/
def execVLog2F (sy : BitVec 6) (vd va : Reg) (k : BitVec 3) (s : State) : Res :=
  vLane (.vLog2F sy vd va k) (vGov1 Fp.log2_32 vd va k) s

/-- `v.tanh.f`: correctly rounded tanh x (R112, R113). -/
def execVTanhF (sy : BitVec 6) (vd va : Reg) (k : BitVec 3) (s : State) : Res :=
  vLane (.vTanhF sy vd va k) (vGov1 Fp.tanh32 vd va k) s

/-- `v.sgnj.f`: magnitude of va with the sign of vb (R147). -/
def execVSgnjF (sy : BitVec 6) (vd va vb : Reg) (k : BitVec 3) (s : State) : Res :=
  vLane (.vSgnjF sy vd va vb k) (vGov2 (quiet2 fun a b => (a &&& 0x7FFFFFFF#32) ||| (b &&& 0x80000000#32)) vd va vb k) s

/-- `v.cls.f`: one-hot class (R147). -/
def execVClsF (sy : BitVec 6) (vd va : Reg) (k : BitVec 3) (s : State) : Res :=
  vLane (.vClsF sy vd va k) (vGov1 (quiet fun a => BitVec.ofNat 32 (Fp.classOf Fp.fp32 a.toNat)) vd va k) s

/-- `v.cmp.f`: FP32 compare into a mask (R148). -/
def execVCmpF (sy : BitVec 6) (kd va vb : Reg) (c : BitVec 3) (s : State) : Res :=
  vLane (.vCmpF sy kd va vb c) (vCompare (fpCond c.toNat) kd va vb) s

/-- `v.add.i`: sum modulo 2^32 (R149). -/
def execVAddI (sy : BitVec 6) (vd va vb : Reg) (k : BitVec 3) (s : State) : Res :=
  vLane (.vAddI sy vd va vb k) (vGov2 (quiet2 fun a b => a + b) vd va vb k) s

/-- `v.sub.i`: difference modulo 2^32 (R149). -/
def execVSubI (sy : BitVec 6) (vd va vb : Reg) (k : BitVec 3) (s : State) : Res :=
  vLane (.vSubI sy vd va vb k) (vGov2 (quiet2 fun a b => a - b) vd va vb k) s

/-- `v.mul.i`: low half of the product (R149). -/
def execVMulI (sy : BitVec 6) (vd va vb : Reg) (k : BitVec 3) (s : State) : Res :=
  vLane (.vMulI sy vd va vb k) (vGov2 (quiet2 fun a b => a * b) vd va vb k) s

/-- `v.mulh.i`: high half of the signed product (R149). -/
def execVMulhI (sy : BitVec 6) (vd va vb : Reg) (k : BitVec 3) (s : State) : Res :=
  vLane (.vMulhI sy vd va vb k) (vGov2 (quiet2 fun a b => (a.signExtend 64 * b.signExtend 64 : BitVec 64).extractLsb' 32 32) vd va vb k) s

/-- `v.mulh.c`: high half of the unsigned product (R149). -/
def execVMulhC (sy : BitVec 6) (vd va vb : Reg) (k : BitVec 3) (s : State) : Res :=
  vLane (.vMulhC sy vd va vb k) (vGov2 (quiet2 fun a b => (a.setWidth 64 * b.setWidth 64 : BitVec 64).extractLsb' 32 32) vd va vb k) s

/-- `v.min.i`: signed minimum (R149). -/
def execVMinI (sy : BitVec 6) (vd va vb : Reg) (k : BitVec 3) (s : State) : Res :=
  vLane (.vMinI sy vd va vb k) (vGov2 (quiet2 fun a b => if b.slt a then b else a) vd va vb k) s

/-- `v.max.i`: signed maximum (R149). -/
def execVMaxI (sy : BitVec 6) (vd va vb : Reg) (k : BitVec 3) (s : State) : Res :=
  vLane (.vMaxI sy vd va vb k) (vGov2 (quiet2 fun a b => if a.slt b then b else a) vd va vb k) s

/-- `v.min.c`: unsigned minimum (R149). -/
def execVMinC (sy : BitVec 6) (vd va vb : Reg) (k : BitVec 3) (s : State) : Res :=
  vLane (.vMinC sy vd va vb k) (vGov2 (quiet2 fun a b => if b.ult a then b else a) vd va vb k) s

/-- `v.max.c`: unsigned maximum (R149). -/
def execVMaxC (sy : BitVec 6) (vd va vb : Reg) (k : BitVec 3) (s : State) : Res :=
  vLane (.vMaxC sy vd va vb k) (vGov2 (quiet2 fun a b => if a.ult b then b else a) vd va vb k) s

/-- `v.and`: bitwise AND (R149). -/
def execVAnd (sy : BitVec 6) (vd va vb : Reg) (k : BitVec 3) (s : State) : Res :=
  vLane (.vAnd sy vd va vb k) (vGov2 (quiet2 fun a b => a &&& b) vd va vb k) s

/-- `v.or`: bitwise OR (R149). -/
def execVOr (sy : BitVec 6) (vd va vb : Reg) (k : BitVec 3) (s : State) : Res :=
  vLane (.vOr sy vd va vb k) (vGov2 (quiet2 fun a b => a ||| b) vd va vb k) s

/-- `v.xor`: bitwise XOR (R149). -/
def execVXor (sy : BitVec 6) (vd va vb : Reg) (k : BitVec 3) (s : State) : Res :=
  vLane (.vXor sy vd va vb k) (vGov2 (quiet2 fun a b => a ^^^ b) vd va vb k) s

/-- `v.not`: bitwise NOT (R149). -/
def execVNot (sy : BitVec 6) (vd va : Reg) (k : BitVec 3) (s : State) : Res :=
  vLane (.vNot sy vd va k) (vGov1 (quiet fun a => ~~~a) vd va k) s

/-- `v.shl`: shift left by vb[4:0] (R149). -/
def execVShl (sy : BitVec 6) (vd va vb : Reg) (k : BitVec 3) (s : State) : Res :=
  vLane (.vShl sy vd va vb k) (vGov2 (quiet2 fun a b => a <<< (b.toNat % 32)) vd va vb k) s

/-- `v.shr`: logical shift right by vb[4:0] (R149). -/
def execVShr (sy : BitVec 6) (vd va vb : Reg) (k : BitVec 3) (s : State) : Res :=
  vLane (.vShr sy vd va vb k) (vGov2 (quiet2 fun a b => a >>> (b.toNat % 32)) vd va vb k) s

/-- `v.sra`: arithmetic shift right by vb[4:0] (R149). -/
def execVSra (sy : BitVec 6) (vd va vb : Reg) (k : BitVec 3) (s : State) : Res :=
  vLane (.vSra sy vd va vb k) (vGov2 (quiet2 fun a b => a.sshiftRight (b.toNat % 32)) vd va vb k) s

/-- `v.popc`: number of set bits (R149). -/
def execVPopc (sy : BitVec 6) (vd va : Reg) (k : BitVec 3) (s : State) : Res :=
  vLane (.vPopc sy vd va k) (vGov1 (quiet fun a => BitVec.ofNat 32 (popCount 32 a.toNat)) vd va k) s

/-- `v.clz`: number of leading zeros (R149). -/
def execVClz (sy : BitVec 6) (vd va : Reg) (k : BitVec 3) (s : State) : Res :=
  vLane (.vClz sy vd va k) (vGov1 (quiet fun a => BitVec.ofNat 32 (leadingZeros 32 a.toNat)) vd va k) s

/-- `v.cmp.i`: signed compare into a mask (R150). -/
def execVCmpI (sy : BitVec 6) (kd va vb : Reg) (c : BitVec 3) (s : State) : Res :=
  vLane (.vCmpI sy kd va vb c) (vCompare (fun a b => (intCond true c.toNat a b, 0)) kd va vb) s

/-- `v.cmp.c`: unsigned compare into a mask (R150). -/
def execVCmpC (sy : BitVec 6) (kd va vb : Reg) (c : BitVec 3) (s : State) : Res :=
  vLane (.vCmpC sy kd va vb c) (vCompare (fun a b => (intCond false c.toNat a b, 0)) kd va vb) s

/-- `v.mov`: copies governed elements (R151). -/
def execVMov (sy : BitVec 6) (vd va : Reg) (k : BitVec 3) (s : State) : Res :=
  vLane (.vMov sy vd va k) (vGov1 (quiet fun a => a) vd va k) s

/-- `v.movi`: the sign-extended immediate in every element (R151). -/
def execVMovi (sy : BitVec 6) (vd : Reg) (imm : BitVec 13) (s : State) : Res :=
  vLane (.vMovi sy vd imm) (fun _ _ => vAll vd (List.replicate 1024 (imm.signExtend 32))) s

/-- `v.bcx`: a broadcast or a ramp (R152). -/
def execVBcx (sy : BitVec 6) (vd xa xb : Reg) (s : State) : Res :=
  vLane (.vBcx sy vd xa xb)
    (fun _ n => vAll vd ((List.range 1024).map fun i => n.xa.setWidth 32 + BitVec.ofNat 32 i * n.xb.setWidth 32)) s

/-- `v.ins`: one element, number xb[9:0] (R152). -/
def execVIns (sy : BitVec 6) (vd xa xb : Reg) (s : State) : Res :=
  vLane (.vIns sy vd xa xb) (fun _ n =>
    let i := getField n.xb 0 10
    { effs := [.v vd.toNat (oneBit i) (tset 0 [] i (n.xa.setWidth 32))] }) s

/-- `v.ext`: pushes element xa[9:0] into the control queue (R153). -/
def execVExt (sy : BitVec 6) (va xa xb : Reg) (s : State) : Res :=
  vLane (.vExt sy va xa xb) (fun x n =>
    let w := tget 0 (srcTile x n va) (getField n.xa 0 10)
    { effs := [.cq [if n.xb.getLsbD 0 then w.signExtend 64 else w.setWidth 64]] }) s

/-- `v.sel`: va where the mask is 1, vb elsewhere (R154). -/
def execVSel (sy : BitVec 6) (vd va vb : Reg) (k : BitVec 3) (s : State) : Res :=
  vLane (.vSel sy vd va vb k) (fun x n =>
    vAll vd (merge (maskBits (x.getK k.toNat)) (elems (srcTile x n va)) (elems (srcTile x n vb)))) s

/-- `v.iota`: imm + n in element n (R151). -/
def execVIota (sy : BitVec 6) (vd : Reg) (imm : BitVec 13) (s : State) : Res :=
  vLane (.vIota sy vd imm)
    (fun _ _ => vAll vd ((List.range 1024).map fun i => imm.signExtend 32 + BitVec.ofNat 32 i)) s

/-- `v.perm`: va at the indices of vb (R155). -/
def execVPerm (sy : BitVec 6) (vd va vb : Reg) (k : BitVec 3) (s : State) : Res :=
  vLane (.vPerm sy vd va vb k) (fun x n =>
    let a := (elems (srcTile x n va)).toArray
    vGov1 (quiet fun i => a.getD (i.toNat % 1024) 0) vd vb k x n) s

/-- `k.and`: mask logic (R156). -/
def execKAnd (sy : BitVec 6) (kd ka kb : Reg) (s : State) : Res :=
  vLane (.kAnd sy kd ka kb) (vMask (fun a b => a &&& b) kd ka kb) s

/-- `k.or`: mask logic (R156). -/
def execKOr (sy : BitVec 6) (kd ka kb : Reg) (s : State) : Res :=
  vLane (.kOr sy kd ka kb) (vMask (fun a b => a ||| b) kd ka kb) s

/-- `k.xor`: mask logic (R156). -/
def execKXor (sy : BitVec 6) (kd ka kb : Reg) (s : State) : Res :=
  vLane (.kXor sy kd ka kb) (vMask (fun a b => a ^^^ b) kd ka kb) s

/-- `k.andn`: mask logic (R156). -/
def execKAndn (sy : BitVec 6) (kd ka kb : Reg) (s : State) : Res :=
  vLane (.kAndn sy kd ka kb) (vMask (fun a b => a &&& ~~~b) kd ka kb) s

/-- `k.not`: mask NOT (R156). -/
def execKNot (sy : BitVec 6) (kd ka : Reg) (s : State) : Res :=
  vLane (.kNot sy kd ka) (vMask (fun a _ => ~~~a) kd ka ka) s

/-- `k.mov`: mask copy (R156). -/
def execKMov (sy : BitVec 6) (kd ka : Reg) (s : State) : Res :=
  vLane (.kMov sy kd ka) (vMask (fun a _ => a) kd ka ka) s

/-- `k.cnt`: set bits of each mask row (R156). -/
def execKCnt (sy : BitVec 6) (vd ka : Reg) (s : State) : Res :=
  vLane (.kCnt sy vd ka) (fun x _ =>
    vAll vd (((tdense 0 16 0 (x.getK ka.toNat)).map fun w => List.replicate 64 (BitVec.ofNat 32 (popCount 64 w.toNat))).flatten)) s

end Sys2Proof.Machine
end

