-- ==== Sys2Proof/Machine/Axis.lean ====
section
/-! DEFINITION. Axis operations, conversions and sparse helpers of the vector engine (R157 to R168). -/

namespace Sys2Proof.Machine

/-! ## Rows and columns -/

/-- The 16 rows of a source. -/
def srcRows (x : Room) (n : Entry) (r : Reg) : List (List W32) := rows64 (elems (srcTile x n r))
/-- Moves a list up by k places, cyclically. -/
def rotUp {α : Type} (l : List α) (k : Nat) : List α := l.drop (l.length - k) ++ l.take (l.length - k)
/-- The columns of a list of rows. -/
def columns (n : Nat) (rows : List (List W32)) : List (List W32) :=
  (List.range n).map fun j => rows.map fun r => r.getD j 0

/-- One level of a reduction tree: nodes 2m and 2m + 1 combine, in that order (R111). -/
def treeLevel (op : W32 → W32 → W32 × Nat) : List W32 → List W32 × Nat
  | a :: b :: r =>
    let (l, fl) := treeLevel op r
    let (v, f) := op a b
    (v :: l, f ||| fl)
  | l => (l, 0)
/-- The tree of R111 of 2^n nodes. -/
def tree (op : W32 → W32 → W32 × Nat) : Nat → List W32 → W32 × Nat
  | 0, l => (l.headD 0, 0)
  | n + 1, l =>
    let (l, f) := treeLevel op l
    let (v, g) := tree op n l
    (v, f ||| g)
/-- The operator of a reduction: 0 sum, 1 max, 2 min (R69, R161). -/
def redOp (float : Bool) (op : BitVec 2) : W32 → W32 → W32 × Nat :=
  match float, op.toNat with
  | true, 0 => Fp.add32
  | true, 1 => Fp.max32
  | true, _ => Fp.min32
  | false, 0 => quiet2 fun a b => a + b
  | false, 1 => quiet2 fun a b => if a.slt b then b else a
  | false, _ => quiet2 fun a b => if b.slt a then b else a
/-- A row reduction (R161). -/
def redRow (float : Bool) (vd va : Reg) (op : BitVec 2) (x : Room) (n : Entry) : VOut :=
  let rs := (srcRows x n va).map (tree (redOp float op) 6)
  vAll vd (rs.map fun r => List.replicate 64 r.1).flatten (rs.foldl (fun f r => f ||| r.2) 0)
/-- A column reduction (R161). -/
def redCol (float : Bool) (vd va : Reg) (op : BitVec 2) (x : Room) (n : Entry) : VOut :=
  let cs := (columns 64 (srcRows x n va)).map (tree (redOp float op) 4)
  vAll vd (List.replicate 16 (cs.map (·.1))).flatten (cs.foldl (fun f r => f ||| r.2) 0)

/-- Element-wise sums of two lists. -/
def addAll : List W32 → List W32 → List W32 × Nat
  | a :: as, b :: bs =>
    let (l, fl) := addAll as bs
    let (v, f) := Fp.add32 a b
    (v :: l, f ||| fl)
  | _, _ => ([], 0)
/-- One level of the scan of R162, of distance d. -/
def scanLevel (p : List W32 × Nat) (d : Nat) : List W32 × Nat :=
  let (t, f) := addAll p.1 (p.1.drop d)
  (p.1.take d ++ t, p.2 ||| f)
/-- Inclusive prefix sum of a row (R162). -/
def scanRow (l : List W32) : List W32 × Nat := [1, 2, 4, 8, 16, 32].foldl scanLevel (l, 0)

/-- `v.rotr`: moves columns up by n (R159). -/
def execVRotr (sy : BitVec 6) (vd va : Reg) (n : BitVec 6) (s : State) : Res :=
  vLane (.vRotr sy vd va n) (fun x e => vAll vd ((srcRows x e va).map fun r => rotUp r n.toNat).flatten) s
/-- `v.rotc`: moves rows up by n (R159). -/
def execVRotc (sy : BitVec 6) (vd va : Reg) (n : BitVec 6) (s : State) : Res :=
  vLane (.vRotc sy vd va n) (fun x e => vAll vd (rotUp (srcRows x e va) n.toNat).flatten) s
/-- `v.bcr`: column n in every column (R160). -/
def execVBcr (sy : BitVec 6) (vd va : Reg) (n : BitVec 6) (s : State) : Res :=
  vLane (.vBcr sy vd va n)
    (fun x e => vAll vd ((srcRows x e va).map fun r => List.replicate 64 (r.getD n.toNat 0)).flatten) s
/-- `v.bcc`: row n in every row (R160). -/
def execVBcc (sy : BitVec 6) (vd va : Reg) (n : BitVec 6) (s : State) : Res :=
  vLane (.vBcc sy vd va n)
    (fun x e => vAll vd (List.replicate 16 ((srcRows x e va).getD n.toNat [])).flatten) s
/-- `v.redr.f` (R161). -/
def execVRedrF (sy : BitVec 6) (vd va : Reg) (op : BitVec 2) (s : State) : Res :=
  vLane (.vRedrF sy vd va op) (redRow true vd va op) s
/-- `v.redc.f` (R161). -/
def execVRedcF (sy : BitVec 6) (vd va : Reg) (op : BitVec 2) (s : State) : Res :=
  vLane (.vRedcF sy vd va op) (redCol true vd va op) s
/-- `v.redr.i` (R161). -/
def execVRedrI (sy : BitVec 6) (vd va : Reg) (op : BitVec 2) (s : State) : Res :=
  vLane (.vRedrI sy vd va op) (redRow false vd va op) s
/-- `v.redc.i` (R161). -/
def execVRedcI (sy : BitVec 6) (vd va : Reg) (op : BitVec 2) (s : State) : Res :=
  vLane (.vRedcI sy vd va op) (redCol false vd va op) s
/-- `v.scnr.f`: inclusive prefix sum of each row (R162). -/
def execVScnrF (sy : BitVec 6) (vd va : Reg) (s : State) : Res :=
  vLane (.vScnrF sy vd va) (fun x e =>
    let rs := (srcRows x e va).map scanRow
    vAll vd (rs.map (·.1)).flatten (rs.foldl (fun f r => f ||| r.2) 0)) s
/-- `v.tr16`: transposes the four blocks of 16 × 16 (R163). -/
def execVTr16 (sy : BitVec 6) (vd va : Reg) (s : State) : Res :=
  vLane (.vTr16 sy vd va) (fun x e =>
    let rows := srcRows x e va
    let block (b : Nat) : List (List W32) := columns 16 (rows.map fun r => (r.drop (16 * b)).take 16)
    vAll vd ((List.range 16).map fun i => ((List.range 4).map fun b => (block b).getD i []).flatten).flatten) s

/-! ## Conversion and packing -/

/-- `v.cvt` (R164). -/
def execVCvt (sy : BitVec 6) (vd va : Reg) (st dt : BitVec 3) (mode : BitVec 2) (s : State) : Res :=
  vLane (.vCvt sy vd va st dt mode)
    (vGov1 (Fp.convert (fmtTy st.toNat) (fmtTy dt.toNat) mode.toNat) vd va 0) s
/-- `v.pack`: byte n of each lane (R165). -/
def execVPack (sy : BitVec 6) (vd va : Reg) (n : BitVec 6) (s : State) : Res :=
  vLane (.vPack sy vd va n) (vGov3 (fun a _ d =>
    let sh := 8 * (n.toNat % 4)
    ((d &&& ~~~(0xFF#32 <<< sh)) ||| ((a &&& 0xFF#32) <<< sh), 0)) vd va va 0) s
/-- `v.unpk`: byte n of each lane, zero-extended (R165). -/
def execVUnpk (sy : BitVec 6) (vd va : Reg) (n : BitVec 6) (s : State) : Res :=
  vLane (.vUnpk sy vd va n) (vGov1 (quiet fun a => (a >>> (8 * (n.toNat % 4))) &&& 0xFF#32) vd va 0) s

/-! ## Sparse helpers -/

/-- Padding of an index row (R166). -/
def padIdx : W32 := 0xFFFFFFFF#32
/-- The non-padding element in the highest column. -/
def lastIdx (l : List W32) : W32 := ((l.filter (· ≠ padIdx)).getLast?).getD padIdx
/-- Bits of the elements of a row that occur in another row. -/
def occurs (a b : List W32) : W64 := rowOfBits (a.map fun v => v ≠ padIdx && b.contains v)
/-- Number of non-padding elements at most m. -/
def advance (l : List W32) (m : W32) : Nat := (l.filter fun v => v ≠ padIdx && !m.ult v).length
/-- Eight counts in the bytes of a doubleword. -/
def packBytes (l : List Nat) : W64 := BitVec.ofNat 64 (l.foldr (fun b a => b % 256 + 256 * a) 0)
/-- What `v.isect` computes (R166). -/
def isect (kp : Reg) (a b : List (List W32)) : List Eff :=
  let p := a.zip b
  let m (r : List W32 × List W32) : W32 := if (lastIdx r.2).ult (lastIdx r.1) then lastIdx r.2 else lastIdx r.1
  let aa := p.map fun r => advance r.1 (m r)
  let ab := p.map fun r => advance r.2 (m r)
  [.k (2 * kp.toNat) (tofList 0 0 (p.map fun r => occurs r.1 r.2)),
   .k (2 * kp.toNat + 1) (tofList 0 0 (p.map fun r => occurs r.2 r.1)),
   .cq [packBytes (aa.take 8), packBytes (aa.drop 8), packBytes (ab.take 8), packBytes (ab.drop 8)]]
/-- `v.isect` (R166). -/
def execVIsect (sy : BitVec 6) (kp va vb : Reg) (s : State) : Res :=
  vLane (.vIsect sy kp va vb) (fun x n => { effs := isect kp (srcRows x n va) (srcRows x n vb) }) s

/-- Rank of a value in a group (R167). -/
def c24Key (x : W32) : Nat :=
  let m := x &&& 0x7FFFFFFF#32
  if 0x7F800000#32 < m then 0x7F800001 else m.toNat
/-- The index of the largest key among `idx`, the lowest of equal ones. -/
def c24Best (g : List W32) (idx : List Nat) : Nat :=
  idx.foldl (fun b i => if c24Key (g.getD b 0) < c24Key (g.getD i 0) then i else b) (idx.headD 0)
/-- The kept elements of a group of four and its nibble. -/
def c24Group (g : List W32) : List W32 × Nat :=
  let p := c24Best g [0, 1, 2, 3]
  let q := c24Best g ([0, 1, 2, 3].filter (· ≠ p))
  let lo := min p q
  let hi := max p q
  ([g.getD lo 0, g.getD hi 0], 4 * hi + lo)
/-- A compressed row and its metadata. -/
def c24Row (r : List W32) : List W32 × Nat :=
  let gs := (List.range 16).map fun g => c24Group ((r.drop (4 * g)).take 4)
  ((gs.map (·.1)).flatten ++ List.replicate 32 0, gs.foldr (fun g a => g.2 + 16 * a) 0)
/-- What `v.c24` computes: rows that bit 0 of the mask governs (R167). -/
def c24 (vd va vm : Reg) (k : BitVec 3) (x : Room) (n : Entry) : VOut :=
  let m := x.getK k.toNat
  let gov (i : Nat) : Bool := (maskRow m i).getLsbD 0
  let rs := (srcRows x n va).map c24Row
  let meta_ := rs.map fun r => BitVec.ofNat 32 r.2 :: BitVec.ofNat 32 (r.2 / 2 ^ 32) :: List.replicate 62 0
  { effs := [destEff vd (maskOf fun i => if gov i then 0xFFFFFFFFFFFFFFFF#64 else 0) (rs.map (·.1)).flatten,
             .v vm.toNat (maskOf fun i => if gov i then 3#64 else 0) (tileOf meta_.flatten)] }
/-- `v.c24` (R167). -/
def execVC24 (sy : BitVec 6) (vd va vm : Reg) (k : BitVec 3) (s : State) : Res :=
  vLane (.vC24 sy vd va vm k) (c24 vd va vm k) s

/-- The comparison of `v.fnd` by its kind (R168). -/
def fndCond (kind c : Nat) (a b : W32) : Bool × Nat :=
  match kind with
  | 0 => (intCond true c a b, 0)
  | 1 => (intCond false c a b, 0)
  | _ => fpCond c a b
/-- What `v.fnd` computes: the value pushed and the flags. -/
def fnd (c : BitVec 3) (l : List W32) (xa xb : W64) : W64 × Nat :=
  let from_ := getField xb 0 10
  let (bs, fl) := compareAll (fndCond (getField xb 10 2) c.toNat) (l.drop from_) (List.replicate 1024 (xa.setWidth 32))
  let first := match bs.findIdx? (·) with | some i => from_ + i | none => 1024
  (BitVec.ofNat 64 (first + 65536 * (bs.filter (·)).length), fl)
/-- `v.fnd` (R168). -/
def execVFnd (sy : BitVec 6) (va xa xb : Reg) (c : BitVec 3) (s : State) : Res :=
  vLane (.vFnd sy va xa xb c) (fun x n =>
    let (v, fl) := fnd c (elems (srcTile x n va)) n.xa n.xb
    { effs := [.cq [v]], flags := fl }) s

/-! ## Window accumulators (R169 to R176) -/

/-- An operator of R174, x the older operand. Codes 10 to 15, which only a save area written by software can bring in, act as xor
(DESIGN CHOICE, log entry 93). -/
def winOp (op : Nat) (x y : W32) : W32 × Nat :=
  match op with
  | 0 => Fp.add32 x y
  | 1 => (x + y, 0)
  | 2 => Fp.mul32 x y
  | 3 => Fp.max32 x y
  | 4 => Fp.min32 x y
  | 5 => (if x.slt y then y else x, 0)
  | 6 => (if y.slt x then y else x, 0)
  | 7 => (x &&& y, 0)
  | 8 => (x ||| y, 0)
  | _ => (x ^^^ y, 0)
/-- The value with nothing to combine. -/
def winUnit (op : Nat) : W32 :=
  match op with
  | 2 => 0x3F800000#32 | 3 => 0xFF800000#32 | 4 => 0x7F800000#32 | 5 => 0x80000000#32 | 6 => 0x7FFFFFFF#32
  | 7 => 0xFFFFFFFF#32 | _ => 0
def winFloat (op : Nat) : Bool := op = 0 || op = 2 || op = 3 || op = 4
/-- Lane by lane over two rows. -/
def winRow (op : Nat) : List W32 → List W32 → List W32 × Nat
  | a :: as, b :: bs =>
    let (l, fl) := winRow op as bs
    let (v, f) := winOp op a b
    (v :: l, f ||| fl)
  | _, _ => ([], 0)
/-- canon of R173. -/
def canonLane (op : Nat) (v : W32) : W32 × Nat :=
  let d := Fp.d32 v
  if winFloat op && d.isNan then (Fp.nan32, Fp.sigFlag d) else (v, 0)
def canonRow (op : Nat) (l : List W32) : List W32 × Nat :=
  let p := l.map (canonLane op)
  (p.map (·.1), p.foldl (fun f q => f ||| q.2) 0)

def Win.count (w : Win) : Nat := w.front.length + w.back.length
/-- The front stack that a flip forms from the back rows, newest first (R173). -/
def flipRows (op : Nat) : List (List W32) → List W32 → List (List W32) × Nat
  | [], _ => ([], 0)
  | e :: r, a =>
    let (v, f) := if a = [] then (e, 0) else winRow op e a
    let (l, g) := flipRows op r v
    (v :: l, f ||| g)
/-- A flip: the window, its flags, and the ticks it takes. -/
def Win.flip (w : Win) : Win × Nat × Nat :=
  let (l, f) := flipRows w.op w.back.reverse []
  ({ w with front := l, back := [] }, f, (w.back.length + 3) / 4)
/-- A push of one row: the window, its flags, and its flip ticks. -/
def Win.push (w : Win) (row : List W32) : Win × Nat × Nat :=
  let (r, f0) := canonRow w.op row
  let (w, f1, t) := if w.count = w.len then
      (let (w, f, t) := if w.front = [] then w.flip else (w, 0, 0)
       ({ w with front := w.front.dropLast }, f, t))
    else (w, 0, 0)
  let (b, f2) := if w.back = [] then (r, 0) else winRow w.op w.bagg r
  ({ w with back := w.back ++ [r], bagg := b }, f0 ||| f1 ||| f2, t)
/-- The rows that a push governs: bit 0 of each row of the mask. -/
def govRows (m : Mask) (rows : List (List W32)) : List (List W32) :=
  (rows.zipIdx.filter fun p => (maskRow m p.2).getLsbD 0).map (·.1)
/-- Pushes rows in order. -/
def Win.pushAll (w : Win) (rows : List (List W32)) : Win × Nat × Nat :=
  rows.foldl (fun (a : Win × Nat × Nat) r =>
    let (w, f, t) := a.1.push r
    (w, a.2.1 ||| f, a.2.2 + t)) (w, 0, 0)
/-- Empties a window (R171). -/
def Win.empty (w : Win) : Win := { w with front := [], back := [], bagg := [] }
/-- The row that `w.rd` forms (R175). -/
def Win.read (w : Win) : List W32 × Nat :=
  match w.front.getLast?, w.back with
  | some f, _ :: _ => winRow w.op f w.bagg
  | some f, [] => (f, 0)
  | none, _ :: _ => (w.bagg, 0)
  | none, [] => (List.replicate 64 (winUnit w.op), 0)
/-- The window-row declaration of the iteration (R76, R170). -/
def Room.wrows (x : Room) : Nat := match x.run with | some u => u.wrows | none => 0
/-- Rows that the windows of a set hold, but for one window. -/
def rowsBeside (w : Tbl Win) (i : Nat) : Nat := w.foldl (fun n p => if p.1 = i then n else n + 2 * p.2.len) 0
/-- Rows of the declaration that no window of a set holds. -/
def Room.rowsLeft (x : Room) (w : Tbl Win) : Nat :=
  x.wrows - w.foldl (fun n p => n + 2 * p.2.len) 0
/-- Rows that no window holds. -/
def Room.freeRows (x : Room) : Nat := x.rowsLeft x.w
/-- The windows as an entry of the V queue finds them: after every entry before it (R39). -/
def Room.winsBefore (x : Room) (n : Entry) : Tbl Win :=
  (x.qv.q.takeWhile fun e => e.qpos ≠ n.qpos).foldl (fun t e => e.effs.foldl (fun t f =>
    match f with | .w i v => tset {} t i v | _ => t) t) x.w
/-- The word of `w.stat` (R172). -/
def Win.stat (w : Win) (free : Nat) : W64 :=
  BitVec.ofNat 64 (w.count + 2 ^ 10 * w.len + 2 ^ 20 * w.op + 2 ^ 24 * w.front.length + 2 ^ 34 * w.back.length + 2 ^ 44 * free)
def Room.win (x : Room) (w : Reg) : Win := tget {} x.w w.toNat

/-- `w.cfg`: sets OP and empties the window (R171). -/
def execWCfg (sy : BitVec 6) (w : Reg) (imm : BitVec 13) (s : State) : Res :=
  vLane (.wCfg sy w imm) (fun x _ => { effs := [.w w.toNat { (x.win w).empty with op := imm.toNat }] }) s
/-- `w.len`: allots rows, sets LEN and empties the window (R170, R171). -/
def execWLen (sy : BitVec 6) (w : Reg) (imm : BitVec 13) (s : State) : Res :=
  vLane (.wLen sy w imm) (fun x _ => { effs := [.w w.toNat { (x.win w).empty with len := imm.toNat }] }) s
/-- `w.push`: pushes the governed rows, evicting and flipping as needed (R173). -/
def execWPush (sy : BitVec 6) (w va : Reg) (k : BitVec 3) (s : State) : Res :=
  vLane (.wPush sy w va k) (fun x n =>
    let rows := govRows (x.getK k.toNat) (srcRows x n va)
    let (v, f, t) := (x.win w).pushAll rows
    { effs := [.w w.toNat v], flags := f, ival := some (max 1 rows.length + t) }) s
/-- `w.rd`: the window's aggregate in every governed row (R175). The aggregate is computed once, and raises the flags of all its
lanes whatever the mask (DEDUCED, log entry 65). -/
def execWRd (sy : BitVec 6) (vd w : Reg) (k : BitVec 3) (s : State) : Res :=
  vLane (.wRd sy vd w k) (fun x _ =>
    let (r, f) := (x.win w).read
    { effs := [destEff vd (x.getK k.toNat) (List.replicate 16 r).flatten], flags := f }) s
/-- `w.clr`: empties a window (R171). -/
def execWClr (sy : BitVec 6) (w : Reg) (s : State) : Res :=
  vLane (.wClr sy w) (fun x _ => { effs := [.w w.toNat (x.win w).empty] }) s
/-- `w.stat`: pushes the window's status into the control queue (R172). -/
def execWStat (sy : BitVec 6) (w : Reg) (s : State) : Res :=
  vLane (.wStat sy w) (fun x n => { effs := [.cq [(x.win w).stat (x.rowsLeft (x.winsBefore n))]] }) s

/-- Faults of a V entry at its head: WINDOW_ALLOC (R170), a push into a window of length 0 (R173), kind 3 of `v.fnd`
(R168). -/
def vHead (x : Room) (n : Entry) : Option FaultInfo :=
  match n.instr with
  | .wLen _ w imm =>
    if x.wrows < rowsBeside (x.winsBefore n) w.toNat + 2 * imm.toNat then
      some { code := 9, va := 0, cursor := 0, detail := BitVec.ofNat 64 w.toNat } else none
  | .wPush _ w _ k =>
    if (x.win w).len = 0 ∧ (List.range 16).any (fun i => (maskRow (x.getK k.toNat) i).getLsbD 0) then some illegalHead
    else none
  | .vFnd _ _ _ _ _ => if getField n.xb 10 2 = 3 then some illegalHead else none
  | _ => none

end Sys2Proof.Machine
end

