-- ==== Sys2Proof/Machine/LoadStore.lean ====
section
/-! DEFINITION. The load and store engines (R122 to R141). An entry checks every access as it acts, reads what lies near,
asks for the rest, and finishes once everything has come back or been performed. -/

namespace Sys2Proof.Machine

/-! ## Accesses of the forms (R141) -/

/-- The access of position m at offset o, under the number n. -/
def posAccess (r : LayRec) (m : Nat) (o : W64) (n : Nat) : Access :=
  { n := n, va := recAddr r m o, w := fmtWidth (recFmt r) }
/-- Accesses of positions that lie inside the record. -/
def posAccesses (r : LayRec) (o : W64) (ms : List Nat) : List Access :=
  (ms.filter (· < recP r)).map fun m => posAccess r m o m
/-- Positions of the rows that a row mask selects. -/
def maskedRows (xb : W64) : List Nat :=
  (List.range 1024).filter fun n => xb.getLsbD (n / 64)
/-- The access of an offset table, under a number of its own. -/
def tableAccess (xb : W64) : Access := { n := 1024, va := xb, w := 64 }
/-- Offset g[i] of a table image. -/
def tableOff (t i : Nat) : W32 := BitVec.ofNat 32 (t / 2 ^ (32 * i))
/-- Accesses of the rows of a table that are not padding. -/
def tableAccesses (r : LayRec) (xa : W64) (t : Nat) : List Access :=
  (List.range 16).flatMap fun i =>
    let g := tableOff t i
    if g = 0x80000000#32 then []
    else ((List.range 64).filter (· < recP r)).map fun j => posAccess r j (xa + g.signExtend 64) (64 * i + j)
/-- The doublewords of a mask. -/
def maskAccesses (r : LayRec) (o : W64) : List Access :=
  (List.range 16).map fun i => { n := i, va := o + recBase r + BitVec.ofNat 64 i * recS r 1, w := 8 }

/-! ## Loads -/

/-- Performs the accesses of a load: the lowest-numbered failure faults the entry; otherwise near data are read and the
rest is asked for (R124, R125). `extra` ticks are passes already taken. -/
def loadAccesses (e : Eng) (accs : List Access) (extra : Nat) (next : Option Nat) (n : Entry) (s : State) : State :=
  let r := s.turn
  let s := s.needAll (entryCtx r e n) (accs.map (·.va))
  match placeAll s (entryCtx r e n) .load (fun p => (nearValue s r e p).isSome && decide (p.place ≠ .scratch r)) accs with
  | .error (f, va) => (s.poisonAt (entryCtx r e n) va).setEntry e ({ n with cursor := 0 }.faulted (accessFault f va))
  | .ok pl =>
    let s := fillAll s pl
    let parts := pl.map (·.1)
    let near := parts.filterMap fun p => (nearValue s r e p).map fun v => (p.pos, v)
    let far := parts.filter fun p => (nearValue s r e p).isNone
    let (s, t) := s.takePasses e n.qpos (s.tick + extra) (ownPasses r parts)
    let (s, ids) := sendLoad s r (.eng e) (.entry e) n.satp far
    let n' := { n with got := near.foldl (fun m v => tset 0 m v.1 v.2) n.got, msgs := ids, more := next,
                       minFin := s.tick + max 1 (extra + t) }
    (s.setEntry e n').bump

/-- An L lane whose accesses are known at once. -/
def lLoad (i : Instr) (accs : Entry → List Access) (s : State) : Res :=
  .next (engLane i (fun n s => loadAccesses .l (accs n) 0 none n s) s)

/-- An L or S entry with an offset table: first the table, then `rest` with the ticks that its pass still takes and its bytes
(R130, R138). -/
def withTable (e : Eng) (rest : Nat → Nat → Entry → State → State) (n : Entry) (s : State) : State :=
  if n.cursor = 1 then rest (n.minFin - s.tick) (tget 0 n.got 1024) n s
  else
    let s := loadAccesses e [tableAccess n.xb] 0 (some s.tick) { n with cursor := 1 } s
    match (s.me.queue e).q.find? fun m => m.qpos = n.qpos with
    | some m => if m.fault.isNone ∧ m.msgs = [] then rest (m.minFin - s.tick) (tget 0 m.got 1024) m s else s
    | none => s

/-- An entry without accesses finishes one tick after its issue. -/
def actNothing (e : Eng) (n : Entry) (s : State) : State := s.setEntry e { n with more := none, minFin := s.tick + 1 }

/-- `l.nop` (R127). -/
def execLNop (sy : BitVec 6) (s : State) : Res := .next (engLane (.lNop sy) (actNothing .l) s)
/-- `l.v` (R128). -/
def execLV (sy : BitVec 6) (rd : Reg) (lay : BitVec 4) (xa : Reg) (xb : BitVec 4) (s : State) : Res :=
  lLoad (.lV sy rd lay xa xb) (fun n => posAccesses n.lay.get (n.xa + n.xb) (List.range 1024)) s
/-- `l.vs` (R128). -/
def execLVs (sy : BitVec 6) (rd : Reg) (lay : BitVec 4) (xa : Reg) (xb : BitVec 4) (s : State) : Res :=
  lLoad (.lVs sy rd lay xa xb) (fun n => posAccesses n.lay.get n.xa (maskedRows n.xb)) s
/-- `l.bc` (R128). -/
def execLBc (sy : BitVec 6) (rd : Reg) (lay : BitVec 4) (xa : Reg) (xb : BitVec 4) (s : State) : Res :=
  lLoad (.lBc sy rd lay xa xb) (fun n => posAccesses n.lay.get (n.xa + n.xb) (List.range 64)) s
/-- `l.el` (R129). -/
def execLEl (sy : BitVec 6) (rd : Reg) (lay : BitVec 4) (xa : Reg) (xb : BitVec 4) (s : State) : Res :=
  lLoad (.lEl sy rd lay xa xb) (fun n => posAccesses n.lay.get n.xa [getField n.xb 0 10]) s
/-- `l.gat` (R130). -/
def execLGat (sy : BitVec 6) (rd : Reg) (lay : BitVec 4) (xa : Reg) (xb : BitVec 4) (s : State) : Res :=
  .next (engLane (.lGat sy rd lay xa xb)
    (withTable .l fun d t n s => loadAccesses .l (tableAccesses n.lay.get n.xa t) d none n s) s)
/-- `l.q` (R131). -/
def execLQ (sy : BitVec 6) (lay : BitVec 4) (xa : Reg) (xb : BitVec 4) (s : State) : Res :=
  lLoad (.lQ sy lay xa xb) (fun n => [{ n := 0, va := n.xa + n.xb + recBase n.lay.get, w := 8 }]) s
/-- `l.k` (R132). -/
def execLK (sy : BitVec 6) (rd : Reg) (lay : BitVec 4) (xa : Reg) (xb : BitVec 4) (s : State) : Res :=
  lLoad (.lK sy rd lay xa xb) (fun n => maskAccesses n.lay.get (n.xa + n.xb)) s
/-- `l.lay` (R134). -/
def execLLay (sy : BitVec 6) (rd : Reg) (xa : Reg) (xb : BitVec 4) (s : State) : Res :=
  lLoad (.lLay sy rd xa xb) (fun n => [{ n := 0, va := n.xa + n.xb, w := 64 }]) s

/-- The lines of accesses that may be prefetched, each once: no scratchpad, no MS page, no failing check (R133, R220). -/
def prefetchLines (s : State) (c : Ctx) (accs : List Access) : List Part :=
  (accs.foldl (fun (a : List Part) (x : Access) =>
    match placeOf s c .load x with
    | .error _ => a
    | .ok l =>
      let p := partOf { x with w := 1 } l 0
      let p := { p with key := lineOf p.key * 128, w := 128, heat := false }
      if cacheable p && !(a.any fun q => q.key = p.key) then p :: a else a) []).reverse
/-- `l.pf`: requests the lines of `l.v` with the same operands, and drops those that would fault (R133). -/
def execLPf (sy : BitVec 6) (lay : BitVec 4) (xa : Reg) (xb : BitVec 4) (s : State) : Res :=
  .next (engLane (.lPf sy lay xa xb) (fun n s =>
    let r := n.lay.get
    let accs := if recEmpty r || recInvalid r then [] else posAccesses r (n.xa + n.xb) (List.range 1024)
    let s := s.needAll (entryCtx s.turn .l n) (accs.map (·.va))
    let lines := prefetchLines s (entryCtx s.turn .l n) accs
    let far := lines.filter fun p => (hitValue s (s.partition s.turn) { p with w := 1 }).isNone
    let s := far.foldl (fun s p => (sendLoad s s.turn (.eng .l) .none n.satp [p]).1) s
    actNothing .l n s) s)

/-! ## What a load writes as it finishes -/

/-- A destination of class Ld: elements that the mask selects of a v register, or a whole iq element with zeros
elsewhere. -/
def loadDest (rd : Reg) (m : Mask) (l : List W32) (n : Entry) : List Eff :=
  if rd.toNat < 24 then [.v rd.toNat m (tileOf l)]
  else match n.iqId with
    | some (q, id) => [.iq q id (tileOf (merge (maskBits m) l (List.replicate 1024 0)))]
    | none => []
/-- The loaded element numbers as a dense list; those not loaded are 0. -/
def gotElems (n : Entry) : List W32 :=
  (tdense 0 1024 0 (n.got.filter fun p => p.1 < 1024)).map fun v => laneCode6 (recFmt n.lay.get) (BitVec.ofNat 32 v)
/-- The rows that a row mask selects. -/
def rowsMask (xb : W64) : Mask := maskOf fun i => if xb.getLsbD i then 0xFFFFFFFFFFFFFFFF#64 else 0

/-- Effects of an L entry (R128 to R134). -/
def lEffs (n : Entry) : List Eff :=
  match n.instr with
  | .lV _ rd _ _ _ => loadDest rd fullMask (gotElems n) n
  | .lVs _ rd _ _ _ => loadDest rd (rowsMask n.xb) (gotElems n) n
  | .lBc _ rd _ _ _ => loadDest rd fullMask (List.replicate 16 ((gotElems n).take 64)).flatten n
  | .lEl _ rd _ _ _ => loadDest rd (oneBit (getField n.xb 0 10)) (gotElems n) n
  | .lGat _ rd _ _ _ => loadDest rd fullMask (gotElems n) n
  | .lQ _ _ _ _ => [.cq [BitVec.ofNat 64 (tget 0 n.got 0)]]
  | .lK _ rd _ _ _ => [.k rd.toNat (maskOf fun i => BitVec.ofNat 64 (tget 0 n.got i))]
  | .lLay _ rd _ _ => [.lay rd.toNat (BitVec.ofNat 512 (tget 0 n.got 0))]
  | _ => []

/-- ILLEGAL_OP at the head of L, S and C queues for the record that an entry uses (R123, R191). -/
def recFault (r : LayRec) : Option FaultInfo := if recEmpty r || recInvalid r then some illegalHead else none
/-- ILLEGAL_OP at the head for an iq to which a stream is bound (R44, R219). An entry that comes to its head before the `c.strm` that
was dispatched ahead of it has issued finds no stream bound, and fills its place: R219 would have it fault, R44 not (DESIGN CHOICE,
log entry 89). -/
def streamFaultOf (x : Room) (n : Entry) : Option FaultInfo :=
  match n.iqId with
  | some (q, id) => (match (tget {} x.iq q).stream with
    | some st => if st.pos ≤ id then some illegalHead else none | none => none)
  | none => none
/-- Faults of an L entry at its head. -/
def lHead (x : Room) (n : Entry) : Option FaultInfo :=
  match n.instr with
  | .lNop _ | .lPf _ _ _ _ | .lLay _ _ _ _ => none
  | _ => match streamFaultOf x n with | some f => some f | none => recFault n.lay.get

/-! ## Stores -/

/-- The source of a store of class Ss. -/
def storeSrc (x : Room) (n : Entry) (r : Reg) : Tile :=
  if r.toNat < 24 then tget [] x.v r.toNat else n.popped? (8 + (r.toNat - 24))

/-- The parts of a store of an S or C entry leave the acting room: own-scratchpad bytes are written at once, and the rest goes to
its homes as one store instruction (R124, R267). `split`: other parts of the store have gone before. Answers as `issueStore`. -/
def storeParts (e : Eng) (satp : W64) (parts : List Part) (split : Bool) (s : State) : State × List OutStore × List Nat :=
  let r := s.turn
  let mine := parts.filter fun p => p.place = .scratch r
  let rest := parts.filter fun p => p.place ≠ .scratch r
  let s := if mine = [] then s else (applyStore s (storeMsg s r (.eng e) satp mine)).s
  if rest = [] then (s, [], []) else issueStore s r (.eng e) satp rest (split || mine ≠ [])
/-- One step of a store whose checks have been made: it waits, `wait`; or its parts leave, with the ticks of its passes. Parts that a
home may refuse go first, where there are others; those follow, `held`, once they have been performed, so that an entry that
faults stores no byte (R125). `go` is the entry with the parts still held, its store messages, and the ticks. -/
def storeStep (e : Eng) (n : Entry) (parts : List Part) (t0 : Nat) (wait : State → State)
    (go : List Part → List OutStore → List Nat → Nat → State → State) (s : State) : State :=
  let r := s.turn
  let keys := keysWanted s r parts
  if keys ≠ [] then wait (s.askKeys r keys)
  else if s.storeWaits r (.eng e) parts || s.bufferedTo r parts ≠ [] then wait (s.drainTo r parts)
  else
    let first := if n.held = [] then firstParts s r parts else []
    let held := if first = [] then [] else parts.filter fun p => !goesFirst s r p
    let (s, t) := if n.held = [] then s.takePasses e n.qpos t0 (ownPasses r parts) else (s, 0)
    let (s, outs, ids) := if first = [] then storeParts e n.satp parts (n.held ≠ []) s else issueStore s r (.eng e) n.satp first
    go held outs ids t s
/-- The faults of a store before any of it leaves, after those of its accesses: of a page that has moved (R359), then
COMPRESS_FULL (R125). -/
def storeChecks (s : State) (r : Nat) (satp : W64) (parts : List Part) : Option (Nat × W64) :=
  match movedFault s r satp parts with
  | some f => some f
  | none =>
    let cmps := parts.filter (·.cmp)
    if plansFit s (sectorPlans s cmps) then none else some (3, (cmps.map fun (p : Part) => p.va).headD 0)

/-- Performs the accesses of a store of an S entry, with their data: every check first, then the keys, then the parts in one or two
steps (R124, R125, R267, R292). `extra` ticks are passes already taken. -/
def storeAccesses (accs : List (Access × Nat)) (extra : Nat) (n : Entry) (s : State) : State :=
  let r := s.turn
  let wait (s : State) : State := s.setEntry .s { n with more := some (s.tick + 1) }
  let go (held : List Part) (outs : List OutStore) (ids : List Nat) (t : Nat) (s : State) : State :=
    (s.setEntry .s { n with held := held, sent := n.sent ++ outs, msgs := ids,
                            more := if held = [] then none else some (s.tick + 1),
                            minFin := max n.minFin (s.tick + max 1 (extra + t)) }).bump
  if n.held ≠ [] then storeStep .s n n.held s.tick wait go s
  else
    let s := s.needAll (entryCtx r .s n) (accs.map (·.1.va))
    match placeAll s (entryCtx r .s n) .store (fun _ => true) (accs.map (·.1)) with
    | .error (f, va) => s.setEntry .s ({ n with cursor := 0 }.faulted (accessFault f va))
    | .ok pl =>
      let parts : List Part := (pl.zip accs).map fun (p, a) => { p.1 with data := a.2 % 256 ^ a.1.w }
      match storeChecks s r n.satp parts with
      | some (f, va) => s.setEntry .s ({ n with cursor := 0 }.faulted (accessFault f va))
      | none => storeStep .s n parts (s.tick + extra) wait go (fillAll s pl)

/-- Positions with their data. -/
def posData (r : LayRec) (o : W64) (l : List (Nat × W32)) : List (Access × Nat) :=
  (l.filter fun p => p.1 < recP r).map fun p => (posAccess r p.1 o p.1, (laneCode6 (recFmt r) p.2).toNat)
/-- Elements under their numbers. -/
def numbered (l : List W32) : List (Nat × W32) := l.zipIdx.map fun p => (p.2, p.1)

/-- An S lane. -/
def sStore (i : Instr) (accs : Room → Entry → List (Access × Nat)) (s : State) : Res :=
  .next (engLane i (fun n s => storeAccesses (accs s.me n) 0 n s) s)

/-- `s.nop` (R135). -/
def execSNop (sy : BitVec 6) (s : State) : Res := .next (engLane (.sNop sy) (actNothing .s) s)
/-- `s.v` (R136). -/
def execSV (sy : BitVec 6) (rd : Reg) (lay : BitVec 4) (xa : Reg) (xb : BitVec 4) (s : State) : Res :=
  sStore (.sV sy rd lay xa xb)
    (fun x n => posData n.lay.get (n.xa + n.xb) (numbered (elems (storeSrc x n rd)))) s
/-- `s.vs` (R136). -/
def execSVs (sy : BitVec 6) (rd : Reg) (lay : BitVec 4) (xa : Reg) (xb : BitVec 4) (s : State) : Res :=
  sStore (.sVs sy rd lay xa xb)
    (fun x n => posData n.lay.get n.xa ((numbered (elems (storeSrc x n rd))).filter fun p => n.xb.getLsbD (p.1 / 64))) s
/-- `s.row`: row xb[3:0] as positions 0 to 63 (R137). -/
def execSRow (sy : BitVec 6) (rd : Reg) (lay : BitVec 4) (xa : Reg) (xb : BitVec 4) (s : State) : Res :=
  sStore (.sRow sy rd lay xa xb)
    (fun x n => posData n.lay.get n.xa (numbered ((rows64 (elems (storeSrc x n rd))).getD (getField n.xb 0 4) []))) s
/-- `s.sc`: rows through an offset table (R138). -/
def execSSc (sy : BitVec 6) (rd : Reg) (lay : BitVec 4) (xa : Reg) (xb : BitVec 4) (s : State) : Res :=
  .next (engLane (.sSc sy rd lay xa xb) (withTable .s fun d t n s =>
    let src := storeSrc s.me n rd
    storeAccesses ((tableAccesses n.lay.get n.xa t).map fun a => (a, (laneCode6 (recFmt n.lay.get) (tget 0 src a.n)).toNat)) d n
      s) s)
/-- `s.k` (R139). -/
def execSK (sy : BitVec 6) (rd : Reg) (lay : BitVec 4) (xa : Reg) (xb : BitVec 4) (s : State) : Res :=
  sStore (.sK sy rd lay xa xb)
    (fun x n => (maskAccesses n.lay.get (n.xa + n.xb)).map fun a => (a, (maskRow (x.getK rd.toNat) a.n).toNat)) s
/-- `s.el`: element xb[9:0] (R137). -/
def execSEl (sy : BitVec 6) (rd : Reg) (lay : BitVec 4) (xa : Reg) (xb : BitVec 4) (s : State) : Res :=
  sStore (.sEl sy rd lay xa xb)
    (fun x n => let i := getField n.xb 0 10; posData n.lay.get n.xa [(i, tget 0 (storeSrc x n rd) i)]) s
/-- `s.c24`: columns 0 to 31 of every row as positions 32 i + j (R140). -/
def execSC24 (sy : BitVec 6) (rd : Reg) (lay : BitVec 4) (xa : Reg) (xb : BitVec 4) (s : State) : Res :=
  sStore (.sC24 sy rd lay xa xb)
    (fun x n => posData n.lay.get (n.xa + n.xb)
      (numbered ((rows64 (elems (storeSrc x n rd))).map fun r => r.take 32).flatten)) s

/-- Faults of an S entry at its head (R123). -/
def sHead (n : Entry) : Option FaultInfo :=
  match n.instr with
  | .sNop _ => none
  | _ => recFault n.lay.get

end Sys2Proof.Machine
end

