-- ==== Sys2Proof/Machine/Matrix.lean ====
section
/-! DEFINITION. The matrix engine (R177 to R189, R205 to R211): nest registers, nests, retirement, the gather list and
scales; and the exact block sum of R118 to R121. -/

namespace Sys2Proof.Machine

/-! ## The block sum (R118 to R121) -/

/-- A finite value in units of 2^-149, or a special value. -/
inductive Op where
  | num (v : Int)
  | inf (neg : Bool)
  | nan (sig : Bool)
  deriving DecidableEq, Repr

/-- An operand of a format, exactly: every value of every format is a multiple of 2^-149. -/
def operand (t : Fp.Ty) (w : W32) : Op :=
  match Fp.value t w with
  | .nan s => .nan s
  | .inf n => .inf n
  | .fin n m e => .num (Fp.atExp n m e (-149))

/-- Product of two operands, with NV for 0 × ∞ and for a signalling NaN. The unit exponents add. -/
def mulOp (a b : Op) : Op × Nat :=
  match a, b with
  | .nan s, .nan t => (.nan false, if s || t then Fp.NV else 0)
  | .nan s, _ => (.nan false, if s then Fp.NV else 0)
  | _, .nan s => (.nan false, if s then Fp.NV else 0)
  | .inf m, .inf n => (.inf (m != n), 0)
  | .inf m, .num v => if v = 0 then (.nan false, Fp.NV) else (.inf (m != decide (v < 0)), 0)
  | .num v, .inf m => if v = 0 then (.nan false, Fp.NV) else (.inf (m != decide (v < 0)), 0)
  | .num v, .num w => (.num (v * w), 0)
/-- The finite part of a value in a sum. -/
def Op.finite (a : Op) : Int := match a with | .num v => v | _ => 0
def Op.isNan (a : Op) : Bool := match a with | .nan _ => true | _ => false

/-- S of R118: the sum of the products of a row of A and a column of B, with its flags. Its terms have no order: +∞ and −∞
among them raise NV even beside a NaN (R120). -/
def blockSum (as bs : List Op) : Op × Nat :=
  let ps := List.zipWith mulOp as bs
  let flags := ps.foldl (fun f p => f ||| p.2) 0
  let pos := ps.any fun p => p.1 = .inf false
  let neg := ps.any fun p => p.1 = .inf true
  if pos && neg then (.nan false, flags ||| Fp.NV)
  else if ps.any fun p => p.1.isNan then (.nan false, flags)
  else if pos || neg then (.inf neg, flags)
  else (.num (ps.foldl (fun t p => t + p.1.finite) 0), flags)
/-- z + T rounded once; an exact zero is +0 (R118, R119). T has the exponent k. An infinite z is no term of R120 beside a T that
is NaN: a product of the other infinity in a block with a quiet NaN raises no NV with it (DESIGN CHOICE, log entry 72). -/
def addTerm (z : W32) (t : Op) (k : Int) : W32 × Nat :=
  match Fp.d32 z, t with
  | .nan s, .nan _ => (Fp.nan32, if s then Fp.NV else 0)
  | .nan s, _ => (Fp.nan32, if s then Fp.NV else 0)
  | _, .nan _ => (Fp.nan32, 0)
  | .inf m, .inf n => if m = n then (z, 0) else (Fp.nan32, Fp.NV)
  | .inf _, .num _ => (z, 0)
  | .fin _ _ _, .inf n => (if n then 0xFF800000#32 else 0x7F800000#32, 0)
  | .fin n m e, .num v =>
    let (u, j) := Fp.sumAt n m e (decide (v < 0)) v.natAbs k
    Fp.r32 (Fp.roundInt Fp.fp32 .rne false u j)
/-- z(i, j) after a block, in float mode: scales sA and sB as FP32, or none. The two scales are multiplied first, so a quiet NaN
scale beside an infinite one and a block sum of zero raises no NV (DESIGN CHOICE, log entry 72). -/
def accFloat (z : W32) (as bs : List Op) (sc : Option (W32 × W32)) : W32 × Nat :=
  let (v, f) := blockSum as bs
  match sc with
  | none => let (r, g) := addTerm z v (-298); (r, f ||| g)
  | some (x, y) =>
    let (p, g) := mulOp (operand .f32 x) (operand .f32 y)
    let (t, h) := mulOp p v
    let (r, i) := addTerm z t (-596)
    (r, f ||| g ||| h ||| i)
/-- z(i, j) after a block, in integer mode (R121). -/
def accInt (z : W32) (as bs : List W32) : W32 :=
  (as.zip bs).foldl (fun z p => z + (p.1.extractLsb' 0 8).signExtend 32 * (p.2.extractLsb' 0 8).signExtend 32) z

/-! ## Nest registers (R178, R183) -/

/-- The registers, records and gather list of a nest. -/
def NestRun.reg (n : NestRun) (i : Nat) : W64 := tget 0 n.regs i
def NestRun.rc (n : NestRun) (i : Nat) : LayRec := tget 0 n.recs i
def NestRun.m (n : NestRun) : Nat := getField (n.reg 0) 0 8 + 1
def NestRun.n (n : NestRun) : Nat := getField (n.reg 0) 8 8 + 1
def NestRun.acc (n : NestRun) : Nat := getField (n.reg 0) 16 2
def NestRun.afmt (n : NestRun) : Nat := getField (n.reg 0) 18 3
def NestRun.bfmt (n : NestRun) : Nat := getField (n.reg 0) 21 3
def NestRun.ag (n : NestRun) : Bool := (n.reg 0).getLsbD 24
def NestRun.bc (n : NestRun) : Bool := (n.reg 0).getLsbD 25
def NestRun.scl (n : NestRun) : Bool := (n.reg 0).getLsbD 26
/-- Trip count and role of a level. -/
def NestRun.trip (n : NestRun) (j : Nat) : Nat := getField (n.reg (1 + j)) 0 32
def NestRun.role (n : NestRun) (j : Nat) : Nat := getField (n.reg (1 + j)) 32 3
def NestRun.k (n : NestRun) : Nat := n.trip 0
def NestRun.ar (n : NestRun) : Bool := (n.reg 7).getLsbD 0
def NestRun.tgt (n : NestRun) : Nat := getField (n.reg 7) 1 3
def NestRun.sa (n : NestRun) : Nat := getField (n.reg 11) 0 14
def NestRun.sb (n : NestRun) : Nat := getField (n.reg 11) 16 14
def NestRun.astr (n : NestRun) (j : Nat) : W64 := ((n.reg (16 + j)).extractLsb' 0 32).signExtend 64
def NestRun.bstr (n : NestRun) (j : Nat) : W64 := ((n.reg (16 + j)).extractLsb' 32 32).signExtend 64
def NestRun.cstr (n : NestRun) (j : Nat) : W64 := ((n.reg (24 + j)).extractLsb' 0 32).signExtend 64
/-- The output levels that are present. -/
def NestRun.levels (n : NestRun) : List Nat := [1, 2, 3, 4, 5].filter fun j => n.role j ≠ 0
def NestRun.tiles (n : NestRun) : Nat := n.levels.foldl (fun t j => t * n.trip j) 1
/-- Integer mode (R121). -/
def NestRun.int (n : NestRun) : Bool := n.afmt = 7 && n.bfmt = 7 && !n.scl
/-- Twice the ticks of a step (R187). -/
def NestRun.tau2 (n : NestRun) : Nat :=
  if n.afmt = 0 ∨ n.bfmt = 0 then 8
  else if n.afmt = 1 ∨ n.afmt = 2 ∨ n.bfmt = 1 ∨ n.bfmt = 2 then 2 else 1
/-- Ticks that k steps occupy. -/
def NestRun.ticks (n : NestRun) (k : Nat) : Nat := (k * n.tau2 + 1) / 2
def NestRun.blocks (n : NestRun) : Nat := (n.k + 31) / 32
/-- Steps of block b. -/
def NestRun.blockSteps (n : NestRun) (b : Nat) : Nat := min 32 (n.k - 32 * b)
/-- Offset that a tile adds to a generator with step `str` by level (R185). -/
def NestRun.tileOff (n : NestRun) (str : Nat → W64) : W64 :=
  (n.levels.foldl (fun (a : Nat × W64) j =>
    (a.1 / n.trip j, a.2 + BitVec.ofNat 64 (a.1 % n.trip j) * str j)) (n.tile, 0)).2
/-- row(i). -/
def NestRun.row (n : NestRun) (i : Nat) : Nat := if n.ag then (n.gather.getD i 0).toNat else i
/-- Address of A(i, k), and of B(k, j) (R179). -/
def NestRun.aAddr (n : NestRun) (i k : Nat) : W64 :=
  n.reg 8 + n.tileOff n.astr + recBase (n.rc 8) + BitVec.ofNat 64 k * recS (n.rc 8) 0 +
    BitVec.ofNat 64 (n.row i) * recS (n.rc 8) 1
def NestRun.bAddr (n : NestRun) (k j : Nat) : W64 :=
  n.reg 9 + n.tileOff n.bstr + recBase (n.rc 9) + BitVec.ofNat 64 j * recS (n.rc 9) 0 + BitVec.ofNat 64 k * recS (n.rc 9) 1

/-! ## Checks (R186, R207) -/

/-- Whether p holds for every i below n. -/
def allBelow (p : Nat → Bool) : Nat → Bool
  | 0 => true
  | n + 1 => p n && allBelow p n
/-- Whether p holds at base + Σ idx × stride for every index vector of the dimensions. -/
def allPos (p : W64 → Bool) : List (Nat × W64) → W64 → Bool
  | [], b => p b
  | (n, st) :: r, b => allBelow (fun i => allPos p r (b + BitVec.ofNat 64 i * st)) n
/-- Smallest and largest sum over the dimensions, as integers. -/
def extremes (b : W64) (dims : List (Nat × W64)) : Int × Int :=
  dims.foldl (fun (a : Int × Int) d =>
    let v := d.2.toInt * ((d.1 - 1 : Nat) : Int)
    (a.1 + min v 0, a.2 + max v 0)) (b.toInt, b.toInt)
/-- First byte of the own-scratchpad window. -/
def ownWindow : W64 := 0xFFC0000000000000#64
/-- Format of a bank as captured. -/
def bankFmt (fmts : W64) (off : Nat) : Nat := getField fmts (4 * (off / 0x40000)) 4
/-- Every offset of the dimensions lies below `size`, in a bank of format `fmt`. -/
def scratchOk (size : Nat) (fmts : W64) (fmt : Nat) (b : W64) (dims : List (Nat × W64)) : Bool :=
  let (lo, hi) := extremes (b - ownWindow) dims
  let uniform := (List.range 16).all fun k =>
    decide ((k : Int) < lo / 0x40000) || decide (hi / 0x40000 < (k : Int)) || decide (getField fmts (4 * k) 4 = fmt)
  if 0 ≤ lo ∧ hi < (size : Int) ∧ uniform then true
  else allPos (fun a => decide ((a - ownWindow).toNat < size) && decide (bankFmt fmts (a - ownWindow).toNat = fmt)) dims b
/-- Every offset lies below `size`. R177 and R207 speak of the offset of an element: only its first byte is checked here and
in `scratchOk`, and an element that begins in range is read whole (DESIGN CHOICE, log entry 57). -/
def belowOk (size : Nat) (b : W64) (dims : List (Nat × W64)) : Bool :=
  let (lo, hi) := extremes b dims
  if 0 ≤ lo ∧ hi < (size : Int) then true else allPos (fun a => decide (a.toNat < size)) dims b

/-- Positions 0 to count - 1 of a record at an offset lie in the scratchpad, in banks of a format: a position is where its
element begins, and an element that begins in range is written or read whole (DESIGN CHOICE, log entry 57). -/
def recordOk (size : Nat) (fmts : W64) (fmt count : Nat) (r : LayRec) (o : W64) : Bool :=
  scratchOk size fmts fmt (o + recBase r) ((List.range 4).map fun i => (recE r i, recS r i)) ||
  allBelow (fun m => let a := recAddr r m o - ownWindow
                     decide (a.toNat < size) && decide (bankFmt fmts a.toNat = fmt)) count
/-- The dimensions of the output levels with steps `str`. -/
def NestRun.tileDims (n : NestRun) (str : Nat → W64) : List (Nat × W64) := n.levels.map fun j => (n.trip j, str j)

/-- Level structure, strides, length, formats, scales and reserved bits. -/
def NestRun.shapeOk (n : NestRun) : Bool :=
  let lv := n.levels
  decide (n.role 0 = 3) && decide (n.trip 0 ≠ 0) &&
  (lv.all fun j => n.role j ≠ 3 && decide (n.role j < 6) && decide (n.trip j ≠ 0) &&
    (n.role j ≠ 1 || n.bstr j = 0) && (n.role j ≠ 2 || n.astr j = 0) &&
    (n.role j ≠ 5 || lv.all fun i => i < j || n.role i = 5)) &&
  (lv.isEmpty || n.ar) && (!n.ar || decide (n.tgt < 5)) &&
  decide (n.k ≤ 65536) && decide (n.ticks n.k ≤ 65536) && decide (n.m ≤ 128) && decide (n.n ≤ 128) &&
  decide (n.afmt ≠ 6) && decide (n.bfmt ≠ 6) && decide ((n.afmt = 7) = (n.bfmt = 7)) &&
  (!n.scl || (decide (n.sa + 128 * n.blocks ≤ 16384) && decide (n.sb + 128 * n.blocks ≤ 16384))) &&
  decide (getField (n.reg 0) 27 37 = 0) && ((List.range 6).all fun j => getField (n.reg (1 + j)) 35 29 = 0) &&
  decide (getField (n.reg 7) 4 60 = 0) && decide (getField (n.reg 11) 14 2 = 0) && decide (getField (n.reg 11) 30 34 = 0) &&
  ([25, 26, 27, 28, 29].all fun i => getField (n.reg i) 32 32 = 0)

/-- Operand generators: records, extents, gather list, scratchpad and cellar ranges. -/
def NestRun.operandsOk (n : NestRun) (scratch : Nat) (fmts : W64) : Bool :=
  let a := n.rc 8
  let b := n.rc 9
  !recInvalid a && !recInvalid b && decide (recFmt a = n.afmt) && decide (recFmt b = n.bfmt) &&
  decide (n.k ≤ recE a 0) && decide (0 < recE a 2) && decide (0 < recE a 3) &&
  decide (n.n ≤ recE b 0) && decide (n.k ≤ recE b 1) && decide (0 < recE b 2) && decide (0 < recE b 3) &&
  (!n.ag || decide (n.m ≤ n.gather.length)) && ((List.range n.m).all fun i => n.row i < recE a 1) &&
  (let base := n.reg 8 + recBase a
   let dims := (n.k, recS a 0) :: n.tileDims n.astr
   (List.range n.m).all fun i => scratchOk scratch fmts n.afmt (base + BitVec.ofNat 64 (n.row i) * recS a 1) dims) &&
  (let base := n.reg 9 + recBase b
   let dims := (n.n, recS b 0) :: (n.k, recS b 1) :: n.tileDims n.bstr
   if n.bc then belowOk (2 ^ 28) base dims else scratchOk scratch fmts n.bfmt base dims)

/-- Retirement: CBIND's record is valid, since its FMT serves every target (R183, R191); into scratchpad, every position is
inside the record and in banks of its format. -/
def NestRun.retireOk (n : NestRun) (scratch : Nat) (fmts : W64) : Bool :=
  let c := n.rc 10
  if n.ar && recInvalid c then false
  else if n.ar ∧ n.tgt = 0 then
    decide (n.m * n.n ≤ recP c) &&
      allPos (recordOk scratch fmts (recFmt c) (n.m * n.n) c) (n.tileDims n.cstr) (n.reg 10)
  else true

/-- The nest that an `m.go` would capture now. -/
def nestOf (x : Room) (n : Entry) : NestRun :=
  { regs := tmod 0 x.nestS 10 (· + n.xa + n.xb), recs := x.recS, gather := x.gather }

/-- The fault of an `m.go` at its head: NEST_INVALID (R207), then PERMISSION for a cellar of another owner (R199). -/
def nestFault (s : State) (r : Nat) (n : Entry) : Option FaultInfo :=
  let x := s.room r
  let t := nestOf x n
  let a := tget ({} : Acc) x.z t.acc
  let mode := if t.int then 2 else 1
  if !(t.shapeOk && t.operandsOk x.scratch n.bankfmt && t.retireOk x.scratch n.bankfmt && (a.mode = 0 || a.mode = mode)) then
    some { code := 14, va := 0, cursor := 0, detail := 0 }
  else if t.bc ∧ getField (s.wing (wingOf r)).stairown (4 * (stairOf r % 16)) 4 ≠ x.tenant then
    some { code := 1, va := 0, cursor := 0, detail := 0 }
  else none

/-! ## Retirement (R180, R209) -/

/-- The elements of an accumulator at positions N i + j, row by row. -/
def accRows (a : Acc) (m n : Nat) : List W32 :=
  ((List.range m).map fun i => tdense 0 n (128 * i) (a.el.filter fun p => 128 * i ≤ p.1 && p.1 < 128 * i + n)).flatten
/-- M and N of a retirement. -/
def accShape (a : Acc) : Nat × Nat := a.mn.getD (128, 128)
/-- The converted positions of an accumulator and their flags: mode rnes. -/
def accConverted (a : Acc) (fmt : Nat) : List W32 × Nat :=
  let (m, n) := accShape a
  let ty : Fp.Ty := if a.mode = 2 then .i32 else .f32
  let l := (accRows a m n).map (Fp.convert ty (fmtTy fmt) 1)
  (l.map (·.1), l.foldl (fun f p => f ||| p.2) 0)
/-- Stores of a retirement through a record of the room's scratchpad: key, width, value. -/
def retireStores (r : Nat) (rc : LayRec) (o : W64) (l : List W32) : List (Nat × Nat × Nat) :=
  let w := fmtWidth (recFmt rc)
  l.zipIdx.map fun p => (scratchKey r (recAddr rc p.2 o - ownWindow).toNat, w, p.1.toNat)
/-- The passes of a retirement into scratchpad: one for every 16 elements of a row (R194). -/
def retirePasses (r : Nat) (n : Nat) (st : List (Nat × Nat × Nat)) : List (List Nat) :=
  passesOf (st.zipIdx.flatMap fun p =>
    let g := (p.2 / n * ((n + 15) / 16) + p.2 % n / 16) * 128
    let o := p.1.1 - scratchKey r 0
    [(g, o), (g, o + p.1.2.1 - 1)])
/-- Ticks from the start of a retirement into an oq to the push of element e. -/
def pushTick (m n e : Nat) : Nat :=
  (n + 15) / 16 * (min (1024 * e + 1023) (m * n - 1) / n + 1)
/-- Element e of a retirement into an oq. -/
def oqElement (l : List W32) (e : Nat) : Tile := tileOf (((l.drop (1024 * e)).take 1024) ++ List.replicate 1024 0 |>.take 1024)
/-- Pushes an element into an oq, if it holds fewer than 4. -/
def Room.pushOq (x : Room) (q : Nat) (t : Tile) (now : Nat) : Option Room :=
  let o := tget {} x.oq q
  if o.els.length < 4 then some { x with oq := tset {} x.oq q { els := o.els ++ [some (t, now)] } } else none

/-! ## m.go -/

/-- An `m.go` that has still steps to take: its last tile's last step lies ahead, or it stands at its head with a fault. -/
def Entry.stepsAhead (e : Entry) : Bool :=
  match e.nest with
  | some t => !e.pushWait && (e.issued.isNone || (e.more.isSome && (decide (t.stage < 2) || decide (t.tile + 1 < t.tiles))))
  | none => false
/-- Offset and width in the scratchpad of every position of a retirement through a record. -/
def retireSpans (rc : LayRec) (o : W64) (count : Nat) : List (Nat × Nat) :=
  (List.range count).map fun m => ((recAddr rc m o - ownWindow).toNat, fmtWidth (recFmt rc))
/-- Bytes of retirements into the scratchpad that an entry has still to apply at its port: of an `m.ret`, or of the tiles of a nest
that retires them, unless the engine stops and leaves them to be made later (R196, R344, R348). -/
def Room.spansAhead (x : Room) (e : Entry) : List (Nat × Nat) :=
  if e.more.isNone then [] else
  match e.instr, e.nest with
  | .mRetScratchpad _ z _ _ _, _ =>
    let (m, n) := accShape (tget ({} : Acc) x.z z.toNat)
    retireSpans e.lay.get (e.xa + e.xb) (m * n)
  | _, some t =>
    if !t.ar || t.tgt ≠ 0 || x.mStops then [] else
      ((List.range t.tiles).filter fun i => t.tile < i ∨ (t.tile = i ∧ t.stage ≤ 2)).flatMap fun i =>
        retireSpans (t.rc 10) (t.reg 10 + { t with tile := i }.tileOff t.cstr) (t.m * t.n)
  | _, none => []
/-- Whether two lists of spans share a byte. -/
def spansMeet (a b : List (Nat × Nat)) : Bool :=
  a.any fun p => b.any fun q => decide (p.1 < q.1 + q.2) && decide (q.1 < p.1 + p.2)
/-- A nest that retires the accumulator z by itself and has not finished by a tick. -/
def Entry.retires (e : Entry) (z now : Nat) : Bool :=
  match e.nest with
  | some t => t.ar && decide (t.acc = z) && !e.pushWait && (e.more.isSome || decide (now ≤ e.minFin))
  | none => false
/-- The entries of an M queue before an entry. -/
def Room.beforeM (x : Room) (n : Entry) : List Entry := x.qm.q.takeWhile fun e => e.qpos ≠ n.qpos
/-- An earlier `m.go` of an M queue has still steps to take (R188). -/
def earlierGo (x : Room) (n : Entry) : Bool := (x.beforeM n).any Entry.stepsAhead
/-- An earlier `m.go` reads before a retirement's bytes are applied: any that has steps ahead, or, once the engine stops for
a save or a pre-emption, any whose loop has begun (R196, R344, R348). -/
def readsFirst (x : Room) (n : Entry) : Bool :=
  if x.mStops then
    (x.beforeM n).any fun e => e.more.isSome && (match e.nest with | some t => decide (t.stage = 1) | none => false)
  else earlierGo x n
/-- An earlier retirement of an M queue has still to be applied at the port to bytes that an entry accesses there: the accesses of
an entry follow those of the entries before it (R196; DEDUCED, log entry 59). -/
def earlierBytes (x : Room) (n : Entry) (spans : List (Nat × Nat)) : Bool :=
  (x.beforeM n).any fun e => spansMeet (x.spansAhead e) spans
/-- The bytes of the scratchpad from which a nest takes the operands of its current block. -/
def NestRun.blockSpans (t : NestRun) : List (Nat × Nat) :=
  let ks := List.range (t.blockSteps t.block)
  let span (a : W64) (f : Nat) : Nat × Nat := ((a - ownWindow).toNat, fmtWidth f)
  ((List.range t.m).flatMap fun i => ks.map fun k => span (t.aAddr i (32 * t.block + k)) t.afmt) ++
    if t.bc then [] else ks.flatMap fun k => (List.range t.n).map fun j => span (t.bAddr (32 * t.block + k) j) t.bfmt
/-- An earlier retirement or clear of an accumulator, or a nest that retires it, that does not finish by this tick (R185,
R188). -/
def earlierUse (x : Room) (n : Entry) (z now : Nat) : Bool :=
  let before := x.beforeM n
  let uses (i : Instr) : Bool := match i with
    | .mRetScratchpad _ y _ _ _ => y.toNat = z | .mRetOq _ _ y _ _ => y.toNat = z | .mClr _ y => y.toNat = z
    | _ => false
  (before.any fun e => e.retires z now) ||
  (before.zipIdx.any fun p => uses p.1.instr && !p.1.pushWait &&
    !(before.take (p.2 + 1)).all fun e => e.pushWait || e.done now)

/-- The bank rows of the bytes of an element at an address of the own window. -/
def elemRows (a : W64) (w : Nat) : List Nat :=
  let o := (a - ownWindow).toNat
  if o / 512 = (o + w - 1) / 512 then [o / 512] else [o / 512, (o + w - 1) / 512]
/-- The bank rows that the fill of the current block touches, each once. -/
def NestRun.fillRows (t : NestRun) : List Nat :=
  let ks := List.range (t.blockSteps t.block)
  let offA := (List.range t.m).flatMap fun i => ks.flatMap fun k => elemRows (t.aAddr i (32 * t.block + k)) (fmtWidth t.afmt)
  let offB := if t.bc then [] else
    ks.flatMap fun k => (List.range t.n).flatMap fun j => elemRows (t.bAddr (32 * t.block + k) j) (fmtWidth t.bfmt)
  tkeys ((offA ++ offB).foldl (fun tb r => tset false tb r true) ([] : Tbl Bool)) fun b => b
/-- Distinct 512-byte bank rows in the fullest bank that the fill of the current block touches (R189). -/
def NestRun.fillTicks (t : NestRun) : Nat :=
  let rows := t.fillRows
  (List.range 16).foldl (fun m b => max m (rows.filter fun r => r / 512 = b).length) 0
/-- The gather unit reads the current block of a nest from tick `at_` on, holding in its tick i the banks of which it touches more
than i bank rows (R189, R194). -/
def Room.fill (x : Room) (now at_ : Nat) (t : NestRun) : Room :=
  let rows := t.fillRows
  let mask (i : Nat) : BitVec 16 := (List.range 16).foldl (fun m b =>
    if i < (rows.filter fun r => r / 512 = b).length then m ||| (1#16 <<< b) else m) 0
  x.holdBanks now ((List.range t.fillTicks).map fun i => (at_ + i, mask i))
/-- The block that the latch takes up while the current one computes: the next of the tile, or the first of the next tile. -/
def NestRun.ahead (t : NestRun) : Option NestRun :=
  if t.block + 1 < t.blocks then some { t with block := t.block + 1 }
  else if t.tile + 1 < t.tiles then some { t with tile := t.tile + 1, block := 0 } else none
/-- Stall ticks before the current block: what its fill exceeds the block before it by, or 16 ticks for the first. -/
def NestRun.stall (t : NestRun) : Nat :=
  let before := if t.block ≠ 0 then t.ticks (32 * t.block) - t.ticks (32 * (t.block - 1))
    else if t.tile ≠ 0 then t.ticks t.k - t.ticks (32 * (t.blocks - 1)) else 16
  t.fillTicks - before

/-- Operands of step k: the column of A and the row of B. The cellar is read in the half active at this tick, which may be any
position of the frame of R5, as in the cases of R222 (DEDUCED, log entry 78). -/
def stepOperands (s : State) (r : Nat) (t : NestRun) (k : Nat) : List W32 × List W32 :=
  let wa := fmtWidth t.afmt
  let wb := fmtWidth t.bfmt
  let st := stairOf r
  ((List.range t.m).map fun i => BitVec.ofNat 32 (s.read (scratchKey r (t.aAddr i k - ownWindow).toNat) wa),
   (List.range t.n).map fun j => BitVec.ofNat 32 (
    if t.bc then s.read (cellarKey st (s.stair st).act (t.bAddr k j).toNat) wb
    else s.read (scratchKey r (t.bAddr k j - ownWindow).toNat) wb))
/-- A cellar read of step k that fails its ECC (R199). -/
def stepPoisoned (s : State) (r : Nat) (t : NestRun) (k : Nat) : Bool :=
  t.bc && !s.poison.isEmpty && (List.range t.n).any fun j =>
    s.poisoned (cellarKey (stairOf r) (s.stair (stairOf r)).act (t.bAddr k j).toNat) (fmtWidth t.bfmt)

/-- Adds the block whose steps have been taken into the accumulator: the new elements and the flags. -/
def blockAdd (x : Room) (t : NestRun) : Acc × Nat :=
  let a := tget ({} : Acc) x.z t.acc
  let as := columns t.m (t.steps.map (·.1))
  let bs := columns t.n (t.steps.map (·.2))
  let oa := as.map fun r => r.map (operand (fmtTy t.afmt))
  let ob := bs.map fun c => c.map (operand (fmtTy t.bfmt))
  let res : List (Nat × W32 × Nat) :=
    if t.int then
      (as.zipIdx.flatMap fun p => bs.zipIdx.map fun q =>
        (128 * p.2 + q.2, accInt (tget 0 a.el (128 * p.2 + q.2)) p.1 q.1, 0))
    else
      (oa.zipIdx.flatMap fun p => ob.zipIdx.map fun q =>
        let sc := if t.scl then some (tget 0 x.scales (t.sa + 128 * t.block + p.2), tget 0 x.scales (t.sb + 128 * t.block + q.2))
                  else none
        let (v, f) := accFloat (tget 0 a.el (128 * p.2 + q.2)) p.1 q.1 sc
        (128 * p.2 + q.2, v, f))
  let keep := a.el.filter fun e => !(e.1 / 128 < t.m && e.1 % 128 < t.n)
  let el := (res.filter fun e => e.2.1 ≠ 0).map fun e => (e.1, e.2.1)
  ({ el := keep.foldl (fun l e => tset 0 l e.1 e.2) el, mode := if t.int then 2 else 1, mn := some (t.m, t.n) },
   res.foldl (fun f e => f ||| e.2.2) 0)

/-- The entry of an `m.go` with its nest and the tick of its next step. -/
def goNext (n : Entry) (t : NestRun) (at_ : Nat) : Entry := { n with nest := some t, more := some at_ }
/-- The nest has done its last work at a tick. -/
def goDone (n : Entry) (t : NestRun) (fin : Nat) : Entry := { n with nest := some t, more := none, minFin := fin }

/-- The tile's last block has been added at `last` + 6: the nest is done, or its retirement follows (R185, R188). -/
def afterLoop (n : Entry) (t : NestRun) (last : Nat) : Entry :=
  if t.ar then goNext n { t with stage := 2, tick := last + 7, steps := [] } (last + 7)
  else goDone n { t with steps := [] } (last + 6)
/-- The tile has been retired at `fin`: the next tile follows, or the nest is done. -/
def afterRetire (n : Entry) (t : NestRun) (fin : Nat) : Entry :=
  if t.tile + 1 < t.tiles then
    goNext n { t with tile := t.tile + 1, block := 0, stage := 0, stalled := false, tick := fin + 1, pushed := 0 } (fin + 1)
  else goDone n t fin

/-- One tick of a reduction loop: the steps of this tick take their operands; the block's last tick adds it. -/
def loopTick (r : Nat) (n : Entry) (t : NestRun) (s : State) : State :=
  let k0 := 32 * t.block
  let rel := s.tick - t.tick
  let s := if rel = 0 then (match t.ahead with | some u => s.modMe fun x => x.fill s.tick s.tick u | none => s) else s
  let now := (List.range (t.blockSteps t.block)).filter fun k =>
    decide (t.steps.length ≤ k) && decide (((k0 + k) * t.tau2) / 2 - (k0 * t.tau2) / 2 ≤ rel)
  if now.any fun k => stepPoisoned s r t (k0 + k) then
    s.setEntry .m { (n.faulted { code := 4, va := 0, cursor := BitVec.ofNat 64 (t.tile + 2 ^ 48 * t.block), detail := 0 }) with
      nest := some { t with stage := 0, stalled := false, steps := [] } }
  else
    let t := { t with steps := t.steps ++ now.map fun k => stepOperands s r t (k0 + k) }
    let len := t.ticks (min t.k (k0 + 32)) - t.ticks k0
    let s := s.modMe fun x => { x with mLast := s.tick }
    if rel + 1 < len then s.setEntry .m (goNext n t (s.tick + 1))
    else
      let (a, f) := blockAdd s.me t
      let s := s.modMe fun x => { x with z := tset {} x.z t.acc a }
      let n := { n with flags := n.flags ||| f }
      if t.block + 1 < t.blocks then
        let t := { t with block := t.block + 1, steps := [] }
        let st := t.stall
        let s := s.modMe fun x => { x with bconf := addConf x.bconf .m st }
        s.setEntry .m (goNext n { t with tick := s.tick + 1 + st } (s.tick + 1 + st))
      else s.setEntry .m (afterLoop n t s.tick)

/-- The accumulator of a retired tile: +0 in every element. -/
def clearTile (x : Room) (t : NestRun) : Room := { x with z := tmod {} x.z t.acc fun a => { a with el := [] } }

/-- A retirement under way: its end, or the next element of an oq. -/
def retireTick (n : Entry) (t : NestRun) (s : State) : State :=
  let a := tget ({} : Acc) s.me.z t.acc
  let (l, f) := accConverted a (recFmt (t.rc 10))
  if t.tgt = 0 then
    let s := s.modMe fun x => clearTile x t
    s.setEntry .m (afterRetire { n with flags := n.flags ||| f } t s.tick)
  else
    match s.me.pushOq (t.tgt - 1) (oqElement l t.pushed) s.tick with
    | none => s.setEntry .m (goNext n t (s.tick + 1))
    | some x =>
      let s := s.modMe fun _ => x
      let t := { t with pushed := t.pushed + 1 }
      if 1024 * t.pushed < t.m * t.n then
        let d := pushTick t.m t.n t.pushed - pushTick t.m t.n (t.pushed - 1)
        s.setEntry .m (goNext n t (s.tick + d))
      else (s.modMe fun x => clearTile x t).setEntry .m (afterRetire { n with flags := n.flags ||| f } t s.tick)

/-- The retirement goes on at a tick, which may be this one: its end, or its next push. -/
def retireAt (n : Entry) (t : NestRun) (at_ : Nat) (s : State) : State :=
  let t := { t with stage := 3, tick := at_ }
  if at_ ≤ s.tick then retireTick n t s else s.setEntry .m (goNext n t at_)
/-- A retirement starts: into scratchpad its bytes are applied at the port now, before those of any later entry (R196), and
it ends after its passes; into an oq its first element is pushed later. The first tick s of R209 is the tick before this one,
the second of R188's example (DEDUCED, log entry 58). -/
def retireStart (r : Nat) (n : Entry) (t : NestRun) (s : State) : State :=
  if t.tgt = 0 then
    let a := tget ({} : Acc) s.me.z t.acc
    let (l, _) := accConverted a (recFmt (t.rc 10))
    let st := retireStores r (t.rc 10) (t.reg 10 + t.tileOff t.cstr) l
    let (s, tk) := (writeScratch s [.scratch st]).takePasses .m n.qpos s.tick (retirePasses r t.n st)
    retireAt n t (s.tick + tk - 1) s
  else retireAt n t (s.tick - 1 + pushTick t.m t.n t.pushed) s

/-- One action of an `m.go`: it captures the shadow set at its issue, then takes its steps (R185, R188, R206, R208). An
M engine held for pre-emption begins no loop and no retirement (R348). -/
def goAct (n : Entry) (s : State) : State :=
  let r := s.turn
  let x := s.me
  match n.nest with
  | none =>
    let t := nestOf x n
    let mode := if t.int then 2 else 1
    let s := s.modMe fun x =>
      { x with nestA := x.nestS, recA := x.recS, z := tmod {} x.z t.acc fun a => { a with mode := mode } }
    let s := s.modMe fun x => x.fill s.tick s.tick t
    s.setEntry .m (goNext n { t with tick := s.tick + 16 } (s.tick + 1))
  | some t =>
    let t := if t.stage = 0 ∧ n.issued = some s.tick then { t with tick := s.tick + 16 } else t
    let wait := s.setEntry .m (goNext n t (s.tick + 1))
    match t.stage with
    | 0 =>
      if x.mStops || decide (s.tick < t.tick) || decide (s.tick ≤ x.mLast) || earlierGo x n ||
        earlierBytes x n t.blockSpans || earlierUse x n t.acc s.tick
      then wait
      else
        let st := t.stall
        if st = 0 || t.stalled then loopTick r n { t with stage := 1, tick := s.tick } s
        else (s.modMe fun x => { x with bconf := addConf x.bconf .m st }).setEntry .m
          (goNext n { t with stalled := true, tick := s.tick + st } (s.tick + st))
    | 1 => loopTick r n t s
    | 2 => if x.mStops then wait else retireStart r n t s
    | _ => retireTick n t s

/-- `m.go` (R185, R206). -/
def execMGo (sy : BitVec 6) (xa : Reg) (xb : BitVec 4) (s : State) : Res := .next (engLane (.mGo sy xa xb) goAct s)

/-! ## The other M entries -/

/-- An M entry that has done its work at its issue and finishes after some ticks. -/
def mAct (n : Entry) (effs : List Eff) (flags ticks : Nat) (s : State) : State :=
  s.setEntry .m { n with more := none, effs := effs, flags := flags, minFin := s.tick + ticks }

/-- `m.nop` (R205). -/
def execMNop (sy : BitVec 6) (s : State) : Res := .next (engLane (.mNop sy) (actNothing .m) s)
/-- `m.set`: a shadow register (R184). Effects of an M entry on M registers take place as it issues, in queue order. -/
def execMSet (sy : BitVec 6) (rd xa : Reg) (s : State) : Res :=
  .next (engLane (.mSet sy rd xa) (fun n s =>
    mAct n [] 0 1 (s.modMe fun x => applyEff s.tick x (.nest rd.toNat n.xa))) s)
/-- `m.setx`: a shadow binding register (R184). -/
def execMSetx (sy : BitVec 6) (rd : Reg) (lay : BitVec 4) (xa : Reg) (xb : BitVec 4) (s : State) : Res :=
  .next (engLane (.mSetx sy rd lay xa xb) (fun n s =>
    mAct n [] 0 1 (s.modMe fun x => applyEff s.tick x (.bind rd.toNat (n.xa + n.xb) n.lay.get))) s)
/-- `m.clr`: +0 everywhere and mode none, for every later entry of the queue, in 16 ticks (R188, R209). -/
def execMClr (sy : BitVec 6) (rd : Reg) (s : State) : Res :=
  .next (engLane (.mClr sy rd) (fun n s =>
    let z : Acc := { tget ({} : Acc) s.me.z rd.toNat with el := [], mode := 0 }
    mAct n [] 0 16 (s.modMe fun x => { x with z := tset {} x.z rd.toNat z })) s)
/-- `m.ret` into scratchpad (R209): it takes its passes from its issue; its bytes are applied at the port at the first tick at
which no earlier nest has steps ahead, and before those of any later entry (R196; DEDUCED, log entry 59). -/
def execMRetScratchpad (sy : BitVec 6) (z : BitVec 2) (lay : BitVec 4) (xa : Reg) (xb : BitVec 4) (s : State) : Res :=
  .next (engLane (.mRetScratchpad sy z lay xa xb) (fun n s =>
    let a := tget ({} : Acc) s.me.z z.toNat
    let rc := n.lay.get
    let (l, f) := accConverted a (recFmt rc)
    let st := retireStores s.turn rc (n.xa + n.xb) l
    let (s, tk) := if n.minFin ≠ 0 then (s, n.minFin - s.tick) else
      s.takePasses .m n.qpos s.tick (retirePasses s.turn (accShape a).2 st)
    let spans := retireSpans rc (n.xa + n.xb) l.length
    if readsFirst s.me n || earlierBytes s.me n spans then
      s.setEntry .m { n with more := some (s.tick + 1), flags := f, minFin := s.tick + tk }
    else mAct n [] f tk (writeScratch s [.scratch st])) s)
/-- `m.ret` into an oq: element by element as places are free (R209). -/
def execMRetOq (sy : BitVec 6) (tgt : BitVec 3) (z : BitVec 2) (xa : Reg) (xb : BitVec 4) (s : State) : Res :=
  .next (engLane (.mRetOq sy tgt z xa xb) (fun n s =>
    let a := tget ({} : Acc) s.me.z z.toNat
    let (m, w) := accShape a
    if n.minFin = 0 then
      let at_ := if n.cursor = 0 then s.tick + pushTick m w 0 else s.tick + 1
      s.setEntry .m { n with minFin := s.tick, more := some at_ }
    else
      let (l, f) := accConverted a (getField n.xa 0 3)
      match s.me.pushOq (tgt.toNat - 1) (oqElement l n.cursor) s.tick with
      | none => s.setEntry .m { n with more := some (s.tick + 1) }
      | some x =>
        let c := n.cursor + 1
        let n := { n with cursor := c, flags := f }
        let n := if 1024 * c < m * w then { n with more := some (s.tick + pushTick m w c - pushTick m w (c - 1)) }
          else { n with more := none, minFin := s.tick }
        (s.modMe fun _ => x).setEntry .m n) s)
/-- `m.gidx`: the gather list (R179, R210). -/
def execMGidx (sy : BitVec 6) (rd : Reg) (xa : Reg) (xb : BitVec 4) (s : State) : Res :=
  .next (engLane (.mGidx sy rd xa xb) (fun n s =>
    let l := ((elems (tget [] s.me.v rd.toNat)).drop (64 * getField n.xa 0 4)).take (getField n.xb 0 8)
    mAct n [] 0 1 (s.modMe fun x => applyEff s.tick x (.gather l))) s)
/-- `m.sc`: scales from the scratchpad (R211); a poisoned granule is a fault, to be replayed (R391). Its conflict ticks are counted in CM, the field of its engine, of which R195 names only
the gather unit and retirement (DESIGN CHOICE, log entry 71). -/
def execMSc (sy : BitVec 6) (lay : BitVec 4) (xa : Reg) (xb : BitVec 4) (s : State) : Res :=
  .next (engLane (.mSc sy lay xa xb) (fun n s =>
    let rc := n.lay.get
    let offs := (List.range (recP rc)).map fun m => (m, (recAddr rc m n.xa - ownWindow).toNat)
    let vals := offs.map fun p => BitVec.ofNat 32 (s.read (scratchKey s.turn p.2) 4)
    let (s, tk) := if n.minFin ≠ 0 then (s, n.minFin - s.tick) else s.takePasses .m n.qpos s.tick (passesOf (offs ++ offs.map fun p => (p.1, p.2 + 3)))
    if earlierBytes s.me n (offs.map fun p => (p.2, 4)) then s.setEntry .m { n with more := some (s.tick + 1), minFin := s.tick + tk }
    else match offs.find? fun p => s.poisoned (scratchKey s.turn p.2) 4 with
    | some p => s.setEntry .m (n.faulted (accessFault 4 (ownWindow + BitVec.ofNat 64 p.2)))
    | none => mAct n [] 0 (max 1 tk) (s.modMe fun x => applyEff s.tick x (.scales (getField n.xb 0 14) vals))) s)

/-- Faults of an M entry at its head (R207, R209 to R211). R191 names the entries of L, S and C and `m.go` for an invalid record; an
`m.ret` into scratchpad and an `m.sc` that name one raise ILLEGAL_OP there too (DESIGN CHOICE, log entry 73). An `m.go` that has
captured its nest before a `q.load` is not checked again, not for the owner of its cellar either (DESIGN CHOICE, log entry 83). -/
def mHead (s : State) (r : Nat) (n : Entry) : Option FaultInfo :=
  let x := s.room r
  let bad (b : Bool) : Option FaultInfo := if b then some illegalHead else none
  match n.instr with
  | .mGo _ _ _ => if n.nest.isNone then nestFault s r n else none
  | .mRetScratchpad _ z _ _ _ =>
    let (m, w) := accShape (tget ({} : Acc) x.z z.toNat)
    let rc := n.lay.get
    bad (recInvalid rc || decide (recP rc < m * w) ||
      !recordOk x.scratch n.bankfmt (recFmt rc) (m * w) rc (n.xa + n.xb))
  | .mGidx _ _ _ _ =>
    let c := getField n.xb 0 8
    bad (decide (c = 0) || decide (128 < c) || decide (15 < getField n.xa 0 4 + (c - 1) / 64))
  | .mSc _ _ _ _ =>
    let rc := n.lay.get
    bad (recInvalid rc || decide (recFmt rc ≠ 0) || decide (16384 < getField n.xb 0 14 + recP rc) ||
      !recordOk x.scratch n.bankfmt 0 (recP rc) rc n.xa)
  | _ => none

/-- Whether an M entry may issue beside those in flight (R188, R211). A clear lets a retirement into an oq end first. -/
def mMayIssue (x : Room) (n : Entry) : Bool :=
  let before := x.beforeM n
  let gos := before.filterMap fun e => if e.pushWait then none else e.nest
  !x.mStops &&
  (match n.instr with
   | .mGo _ _ _ => decide (gos.length < 2)
   | .mRetScratchpad _ z _ _ _ => !gos.any fun t => t.acc = z.toNat
   | .mRetOq _ _ z _ _ => !gos.any fun t => t.acc = z.toNat
   | .mClr _ z => !(gos.any fun t => t.acc = z.toNat) && !before.any fun e =>
      match e.instr with
      | .mRetOq _ _ y _ _ => decide (y.toNat = z.toNat) && e.more.isSome
      | .mRetScratchpad _ y _ _ _ => decide (y.toNat = z.toNat) && e.more.isSome
      | _ => false
   | .mSc _ _ _ _ => !gos.any fun t => t.scl
   | _ => true)

end Sys2Proof.Machine
end

