-- ==== Sys2Proof/Machine/Copy.lean ====
section
/-! DEFINITION. The copy engine (R116, R181, R204, R212 to R220) and the acceptance of puts (R303, R331).

A C entry takes its positions in blocks of 128. Each block is read, checked on both sides, and then written; `cursor` is
the number of positions done. In `got` an entry holds, under key 0, that the block's sources have been read; under keys 1
and 2, 1 + the first failing position, and code and room, of the first failing destination of a `c.mcast`; under key 3, 1 + the cursor behind a block that is
being written; under keys 4 to 6, of a `c.put`, 1 + the cursor of the first block that failed, its code and address; and
position m of its source under 16 + m. -/

namespace Sys2Proof.Machine

/-! ## Sides (R116) -/

/-- Offset in the issuing room's own scratchpad, through the own window or the wing window. -/
def ownOff (r : Nat) (va : W64) : Option Nat :=
  let a := va.toNat
  let w := 0xFFC0000100000000 + r % 64 * 0x400000
  if 0xFFC0000000000000 ≤ a ∧ a < 0xFFC0000000400000 then some (a - 0xFFC0000000000000)
  else if w ≤ a ∧ a < w + 0x400000 then some (a - w) else none
/-- The format of a side: the captured format of the bank in the room's own scratchpad, the record's elsewhere. -/
def sideFmt (r : Nat) (n : Entry) (rc : LayRec) (va : W64) : Nat :=
  match ownOff r va with | some o => bankFmt n.bankfmt o | none => recFmt rc

/-- One side of a position: whether it is a source, its number, address and format. A destination in a window or at other
rooms' scratchpads has been checked as the entry issued, but for its alignment: `bare`. -/
structure Side where
  src  : Bool
  m    : Nat
  va   : W64
  fmt  : Nat
  bare : Bool := false
  deriving DecidableEq, Repr

/-- A side by R116, and a side that counts as memory or fills an iq, in the record's own format. -/
def sideOf (r : Nat) (n : Entry) (rc : LayRec) (o : W64) (src : Bool) (m : Nat) : Side :=
  let va := recAddr rc m o
  { src := src, m := m, va := va, fmt := sideFmt r n rc va }
def sidePlain (rc : LayRec) (o : W64) (src : Bool) (m : Nat) : Side :=
  { src := src, m := m, va := recAddr rc m o, fmt := recFmt rc }
/-- The access of a side; that of source position m has number 16 + m. -/
def Side.access (x : Side) : Access := { n := if x.src then 16 + x.m else x.m, va := x.va, w := fmtWidth x.fmt }

/-- Checks sides in order (R125, R212): the parts of the sources, or the first failure. -/
def checkSides (s : State) (c : Ctx) : List Side → Except (Nat × W64) (List (Part × Loc))
  | [] => .ok []
  | x :: l =>
    if x.bare then (if x.va.toNat % fmtWidth x.fmt = 0 then checkSides s c l else .error (2, x.va))
    else
    match placeOf s c (if x.src then .load else .store) x.access with
    | .error f => .error (f, x.va)
    | .ok loc =>
      let p := partOf x.access loc 0
      match (if x.src && (p.place = .scratch c.room || (nearValue s c.room .c p).isNone) then partFault s p else none) with
      | some f => .error (f, x.va)
      | none =>
        match checkSides s c l with
        | .error e => .error e
        | .ok ps => .ok (if x.src then (p, loc) :: ps else ps)

/-- A converted element: equal formats move unchanged, others by R105 to R107 in mode rnes. -/
def sideConv (a b : Nat) (v : W32) : W32 × Nat := if a = b then (v, 0) else Fp.convert (fmtTy a) (fmtTy b) 1 v

/-- The value of source position m, once read. -/
def Entry.source (n : Entry) (m : Nat) : W32 := BitVec.ofNat 32 (tget 0 n.got (16 + m))
/-- A C entry fails at the block of its cursor: it holds the fault there, a `c.put` once the blocks sent before are settled. -/
def Entry.fails (n : Entry) (code now : Nat) (va : W64) : Entry :=
  match n.instr with
  | .cPut _ _ _ _ _ => n.putFails 0 code now va
  | _ => n.faulted (accessFault code va)
/-- The entry with its cursor behind the block that it has written: its stores have been performed. -/
def Entry.settle (n : Entry) : Entry :=
  if tget 0 n.got 3 = 0 ∨ n.msgs ≠ [] then n else { n with cursor := tget 0 n.got 3 - 1, got := tset 0 n.got 3 0 }

/-! ## Blocks (R212) -/

/-- The positions of the block at a cursor. -/
def blockAt (cursor total : Nat) : List Nat := (List.range (min 128 (total - cursor))).map (cursor + ·)

/-- Reads the sources of a block, after checking every side of it. -/
def readBlock (n : Entry) (sides : List Side) (s : State) : State :=
  let r := s.turn
  let s := s.needAll (entryCtx r .c n) (sides.map (·.va))
  match checkSides s (entryCtx r .c n) sides with
  | .error (f, va) => (s.poisonAt (entryCtx r .c n) va).setEntry .c (n.fails f s.tick va)
  | .ok pl =>
    let s := fillAll s pl
    let parts := pl.map (·.1)
    let near := parts.filterMap fun p => (nearValue s r .c p).map fun v => (p.pos, v)
    let far := parts.filter fun p => (nearValue s r .c p).isNone
    let (s, t) := s.takePasses .c n.qpos s.tick (ownPasses r (parts.map fun p => { p with pos := p.pos - 16 }))
    let (s, ids) := sendLoad s r (.eng .c) (.entry .c) n.satp far
    let got := near.foldl (fun m v => tset 0 m v.1 v.2) (tset 0 n.got 0 1)
    (s.setEntry .c { n with got := got, msgs := n.msgs ++ ids, more := some (s.tick + max 1 t) }).bump

/-- A converted destination position: its access, its bytes and its flags. -/
structure Moved where
  acc : Access
  v   : W32
  fl  : Nat

/-- Bytes of shadow windows are on their way. -/
def toShadow (p : Part) : Bool := match p.place with | .shadow _ => true | _ => false

/-- Entries whose mark says that shadow bytes have left: a `c.put` and a `c.strm` use it otherwise. -/
def Entry.shadowing (n : Entry) : Bool :=
  match n.instr with | .cPut _ _ _ _ _ | .cStrm _ _ _ _ _ | .cMcast _ _ _ _ _ | .cPf _ _ _ _ => false | _ => true

/-- The entry whose block up to `hi` is being written: its flags, store messages and next tick. The sources of a `c.fill`
stay read. -/
def blockDone (n : Entry) (hi fl : Nat) (keep : Bool) (outs : List OutStore) (ids : List Nat) (next : Nat) : Entry :=
  let got := if keep then tset 0 n.got 0 0 else n.got.filter fun p => decide (0 < p.1) && (decide (p.1 < 16) || decide (ackKey ≤ p.1))
  { n with flags := n.flags ||| fl, sent := n.sent ++ outs, msgs := ids, more := some next, got := tset 0 got 3 (hi + 1) }

/-- Writes a block: own-scratchpad bytes at once, the rest as one store instruction (R267), after every check of the
destinations, the chunks and the keys; in two steps where some of it may be refused (R125). The first shadow write of an entry is
noted for R200. -/
def writeBlock (n : Entry) (hi : Nat) (keep : Bool) (l : List Moved) (s : State) : State :=
  let r := s.turn
  let wait (s : State) : State := s.setEntry .c { n with more := some (s.tick + 1) }
  let fl := l.foldl (fun f a => f ||| a.fl) 0
  let go (parts held : List Part) (outs : List OutStore) (ids : List Nat) (t : Nat) (s : State) : State :=
    let n := if parts.any toShadow then { n with mask := 1 } else n
    let next := s.tick + max 1 t
    (s.setEntry .c (if held = [] then { blockDone n hi fl keep outs ids next with held := [] }
      else { n with held := held, sent := n.sent ++ outs, msgs := ids, more := some next })).bump
  if n.held ≠ [] then storeStep .c n n.held s.tick wait (go n.held) s
  else
    let s := s.needAll (entryCtx r .c n) (l.map (·.acc.va))
    match placeAll s (entryCtx r .c n) .store (fun _ => true) (l.map (·.acc)) with
    | .error (f, va) => s.setEntry .c (n.fails f s.tick va)
    | .ok pl =>
      let parts : List Part := (pl.zip l).map fun (p, a) => { p.1 with data := a.v.toNat % 256 ^ a.acc.w }
      match storeChecks s r n.satp parts with
      | some (f, va) => s.setEntry .c (n.fails f s.tick va)
      | none => storeStep .c n parts s.tick wait (go parts) (fillAll s pl)

/-- Everything has been moved and performed: the entry finishes. -/
def cClose (n : Entry) (effs : List Eff) (s : State) : State :=
  s.setEntry .c { n with more := none, minFin := max n.minFin (s.tick + 1), effs := effs, got := [] }

/-- One action of an entry that moves positions 0 to total - 1: the end, the read of a block, or its write. -/
def blockStep (n : Entry) (total : Nat) (sides : List Nat → List Side) (write : List Nat → State → State)
    (fin : State → State) (s : State) : State :=
  if total ≤ n.cursor then fin s
  else
    let ms := blockAt n.cursor total
    if tget 0 n.got 0 = 0 then readBlock n (sides ms) s else write ms s
/-- A C lane: its entry acts with its cursor behind the blocks written. -/
def cEntry (i : Instr) (act : Entry → State → State) (s : State) : Res := .next (engLane i (fun n s => act n.settle s) s)

/-! ## c.copy, c.fill, c.scl -/

/-- `c.nop` (R212). -/
def execCNop (sy : BitVec 6) (s : State) : Res := .next (engLane (.cNop sy) (actNothing .c) s)

/-- Position m of a `c.copy` or `c.fill` at its destination. -/
def moveTo (r : Nat) (n : Entry) (sm m : Nat) : Moved :=
  let a := sideOf r n n.lay.get n.xb true sm
  let b := sideOf r n n.lay2.get n.xa false m
  let (v, fl) := sideConv a.fmt b.fmt (n.source sm)
  { acc := b.access, v := v, fl := fl }

/-- `c.copy` between records (R181, R214). -/
def copyRec (n : Entry) (s : State) : State :=
  let r := s.turn
  let total := recP n.lay.get
  let sides (ms : List Nat) : List Side :=
    ms.flatMap fun m => [sideOf r n n.lay.get n.xb true m, sideOf r n n.lay2.get n.xa false m]
  blockStep n total sides
    (fun ms => writeBlock n (n.cursor + ms.length) false (ms.map fun m => moveTo r n m m)) (cClose n []) s

/-- The element that a `c.copy` forms for its iq. -/
def cElem (n : Entry) : Tile := match n.elems.find? fun p => p.1 = 16 with | some p => p.2 | none => []

/-- `c.copy` into an iq: the codes of the record's format, without conversion (R214). -/
def copyIq (n : Entry) (s : State) : State :=
  let total := min 1024 (recP n.lay.get)
  let take (ms : List Nat) (s : State) : State :=
    let t := ms.foldl (fun t m => tset 0 t m (laneCode6 (recFmt n.lay.get) (n.source m))) (cElem n)
    let n := { n with elems := (16, t) :: n.elems.filter fun p => p.1 ≠ 16 }
    s.setEntry .c (blockDone n (n.cursor + ms.length) 0 false [] [] s.tick)
  blockStep n total (fun ms => ms.map (sidePlain n.lay.get n.xb true)) take
    (cClose n (match n.iqId with | some (q, id) => [.iq q id (cElem n)] | none => [])) s

/-- `c.copy` (R181, R214). -/
def execCCopy (sy : BitVec 6) (rd : Reg) (lay : BitVec 4) (xa : Reg) (xb : BitVec 4) (s : State) : Res :=
  cEntry (.cCopy sy rd lay xa xb) (if rd.toNat < 16 then copyRec else copyIq) s

/-- From this key on, `got` marks the sources that a `c.fill` holds. -/
def fillMark : Nat := 2 ^ 128
/-- `c.fill`: destination position m takes source position m mod Ps, each read once (R217). -/
def execCFill (sy : BitVec 6) (rd : Reg) (lay : BitVec 4) (xa : Reg) (xb : BitVec 4) (s : State) : Res :=
  cEntry (.cFill sy rd lay xa xb) (fun n s =>
    let r := s.turn
    let ps := recP n.lay.get
    let sides (ms : List Nat) : List Side :=
      (ms.foldl (fun (a : List Nat × List Side) m =>
        let sm := m % ps
        let d := sideOf r n n.lay2.get n.xa false m
        if tget 0 n.got (fillMark + sm) = 1 || a.1.contains sm then (a.1, d :: a.2)
        else (sm :: a.1, d :: sideOf r n n.lay.get n.xb true sm :: a.2)) ([], [])).2.reverse
    let write (ms : List Nat) (s : State) : State :=
      let marked : Entry := { n with got := ms.foldl (fun t m => tset 0 t (fillMark + m % ps) 1) n.got }
      writeBlock marked (n.cursor + ms.length) true (ms.map fun m => moveTo r n (m % ps) m) s
    blockStep n (recP n.lay2.get) sides write (cClose n []) s) s

/-- `c.scl`: FP32 in mode rnes, into scale memory (R218). -/
def execCScl (sy : BitVec 6) (lay : BitVec 4) (xa : Reg) (xb : BitVec 4) (s : State) : Res :=
  cEntry (.cScl sy lay xa xb) (fun n s =>
    let r := s.turn
    let side := sideOf r n n.lay.get n.xa true
    let put (ms : List Nat) (s : State) : State :=
      let l := ms.map fun m => Fp.convert (fmtTy (side m).fmt) .f32 1 (n.source m)
      let fl := l.foldl (fun f p => f ||| p.2) 0
      let s := s.modMe fun x => applyEff s.tick x (.scales (getField n.xb 0 14 + n.cursor) (l.map (·.1)))
      s.setEntry .c (blockDone n (n.cursor + ms.length) fl false [] [] s.tick)
    blockStep n (recP n.lay.get) (fun ms => ms.map side) put (cClose n []) s) s

/-! ## c.mcast (R215) -/

/-- First position, if any, whose own-window offset is not below a size. -/
def firstBeyond (rc : LayRec) (size : Nat) : Option Nat :=
  let (lo, hi) := extremes (recBase rc - ownWindow) ((List.range 4).map fun i => (recE rc i, recS rc i))
  if 0 ≤ lo ∧ hi < (size : Int) then none
  else (List.range (recP rc)).find? fun m => decide (size ≤ (recAddr rc m 0 - ownWindow).toNat)
/-- The failing check of wing-local room q as a destination: its code, and 1 + the first failing position. -/
def mcastFails (s : State) (r : Nat) (rc : LayRec) (q : Nat) : Option (Nat × Nat) :=
  let x := s.room (64 * wingOf r + q)
  if x.run.isNone ∨ x.tenant ≠ (s.room r).tenant then some (1, 0)
  else (firstBeyond rc (min 0x400000 x.scratch)).map fun m => (6, m + 1)
/-- Checks the destinations at issue: those that pass, those that fail, and the first failure. -/
def mcastCheck (n : Entry) (s : State) : Entry :=
  let qs := (List.range 64).filter n.xa.getLsbD
  let bad := qs.filterMap fun q => (mcastFails s s.turn n.lay2.get q).map fun f => (q, f)
  let word (l : List Nat) : W64 := BitVec.ofNat 64 (l.foldl (fun a q => a + 2 ^ q) 0)
  let ok := qs.filter fun q => !bad.any fun b => b.1 = q
  let got := match bad with
    | (q, c, m) :: _ => tset 0 (tset 0 n.got 1 m) 2 (c + 16 * q)
    | [] => n.got
  { n with mask := word ok, mask2 := word (bad.map (·.1)), got := got }

/-- The destination of position m at an own-window offset, with the format of the issuing room's bank (R116). -/
def mcastDest (n : Entry) (m : Nat) : Nat × Nat :=
  let o := (recAddr n.lay2.get m 0 - ownWindow).toNat
  (o, bankFmt n.bankfmt o)

/-- Delivers a block to every room that passed. -/
def mcastWrite (n : Entry) (ms : List Nat) (s : State) : State :=
  let r := s.turn
  let items := ms.map fun m =>
    let (o, df) := mcastDest n m
    let (v, fl) := sideConv (sideOf r n n.lay.get n.xb true m).fmt df (n.source m)
    (m, o, fmtWidth df, v, fl)
  let qs := (List.range 64).filter n.mask.getLsbD
  let parts : List Part := qs.flatMap fun q => items.map fun (m, o, w, v, _) =>
    { pos := m, va := recAddr n.lay2.get m 0, place := .scratch (64 * wingOf r + q),
      key := scratchKey (64 * wingOf r + q) o, w := w, data := v.toNat % 256 ^ w, ms := false, watch := false,
      cmp := false, heat := false }
  let fl := items.foldl (fun f p => f ||| p.2.2.2.2) 0
  let (s, t) := s.takePasses .c n.qpos s.tick (ownPasses r parts)
  let (s, outs) := sendStore s r (.eng .c) n.satp parts
  s.setEntry .c (blockDone n (n.cursor + ms.length) fl false (outs.map (·.1)) (outs.map (·.1.id)) (s.tick + max 1 t))
/-- The sides of position m: the source, and the offset to be stored to, in the bank's format. -/
def mcastSides (r : Nat) (n : Entry) (m : Nat) : List Side :=
  [sideOf r n n.lay.get n.xb true m,
   { src := false, m := m, va := recAddr n.lay2.get m 0, fmt := (mcastDest n m).2, bare := true }]

/-- The end of a delivery: the entry finishes, or holds MCAST_PARTIAL with the rooms that failed for its replay. -/
def mcastEnd (n : Entry) (s : State) : State :=
  if n.mask2 = 0 then cClose { n with mask := 0 } [] s
  else
    let va : W64 := match tget 0 n.got 1 with | 0 => 0 | m + 1 => recAddr n.lay2.get m 0
    let f : FaultInfo := { code := 10, va := va, cursor := BitVec.ofNat 64 (tget 0 n.got 2), detail := n.mask2 }
    s.setEntry .c { n.faulted f with xa := n.mask2, mask := 0, mask2 := 0, cursor := 0 }

/-- `c.mcast` (R215). -/
def execCMcast (sy : BitVec 6) (rd : Reg) (lay : BitVec 4) (xa : Reg) (xb : BitVec 4) (s : State) : Res :=
  cEntry (.cMcast sy rd lay xa xb) (fun n s =>
    let n := if n.mask = 0 ∧ n.mask2 = 0 then mcastCheck n s else n
    let total := if n.mask = 0 then 0 else recP n.lay.get
    blockStep n total (fun ms => ms.flatMap (mcastSides s.turn n)) (mcastWrite n) (mcastEnd n) s) s

/-! ## c.put (R216, R303, R331) -/

/-- The part of a byte range of a window: its page is the one recorded at opening. -/
def windowPart (w : Window) (m off wd data : Nat) : Part :=
  let va := w.base + BitVec.ofNat 64 off
  let i := va.toNat / 65536 - w.base.toNat / 65536
  match w.pages[i]? with
  | some p => { p with pos := m, va := va, key := p.key + va.toNat % 65536, w := wd, data := data }
  | none => { pos := m, va := va, place := .hbm, key := 0, w := wd, data := data, ms := false, watch := false, cmp := false,
              heat := false }

/-- The origin counter of a handle. -/
def Room.origin? (x : Room) (h : W64) : Option Origin := x.origins.find? fun o => o.handle = h
def Room.modOrigin (x : Room) (h : W64) (f : Origin → Origin) : Room :=
  { x with origins := x.origins.map fun o => if o.handle = h then f o else o }
/-- A put of the room to a handle begins, and ends; a slot freed meanwhile goes with it (R331, R332). -/
def Room.putBegins (x : Room) (h : W64) : Room :=
  match x.origin? h with
  | some _ => x.modOrigin h fun o => { o with open_ := o.open_ + 1 }
  | none => { x with origins := x.origins ++ [{ handle := h, count := 0, open_ := 1, free := false }] }
def Room.putEnds (x : Room) (h : W64) : Room :=
  let x := x.modOrigin h fun o => { o with open_ := o.open_ - 1 }
  { x with origins := x.origins.filter fun o => !(o.handle = h && o.free && o.open_ = 0) }

/-- The sides of position m of a put: its source, and its place in the window, if that is one of this package. -/
def putSides (s : State) (n : Entry) (m : Nat) : List Side :=
  sidePlain n.lay.get n.xb true m ::
    (match (if s.farHandle n.xa then none else s.window? s.me.tenant n.xa) with
     | some w => [{ src := false, m := m, va := w.base + recAddr n.lay2.get m 0, fmt := recFmt n.lay2.get, bare := true }]
     | none => [])
/-- A message of a put's block is on its way: the block's acceptance is noted under its number. -/
def putSent (n : Entry) (id : Nat) : Entry :=
  { n with msgs := n.msgs ++ [id], got := tset 0 n.got (ackKey + id) (n.cursor + 1) }
/-- Sends a block of a put to its window, each message in its own time: puts have no order (R304). To another package it
leaves over Nuldolink; whether that package's window accepts it is a value of Config, and its bytes count once the answer
has come. -/
def putWrite (n : Entry) (ms : List Nat) (s : State) : State :=
  let r := s.turn
  let rd := n.lay2.get
  let w := fmtWidth (recFmt rd)
  let items := ms.map fun m => (m, (recAddr rd m 0).toNat, sideConv (recFmt n.lay.get) (recFmt rd) (n.source m))
  let fl := items.foldl (fun f p => f ||| p.2.2.2) 0
  let sent (now : Nat) (n : Entry) : Entry :=
    let b := blockDone n 0 fl false [] n.msgs (now + 1)
    { b with cursor := n.cursor + ms.length, got := tset 0 b.got 3 0 }
  let far := s.farHandle n.xa
  match (if far then some none else (s.window? s.me.tenant n.xa).map some) with
  | none => s.setEntry .c (n.fails 1 s.tick (recAddr rd n.cursor 0))
  | some win =>
    let parts := items.map fun p => (match win with
      | some v => windowPart v p.1 p.2.1 w (p.2.2.1.toNat % 256 ^ w)
      | none => { pos := p.1, va := recAddr rd p.1 0, place := .port, key := 0, w := w, data := 0, ms := false,
                  watch := false, cmp := false, heat := false : Part })
    let cls := watchClass s r parts
    let (s, n) := ((parts.map cls).eraseDups).foldl (fun (a : State × Entry) c =>
      let (s, n) := a
      let m := { storeMsg s r .put n.xa (parts.filter fun p => cls p = c) with
        who := .put, store := !(far && Config.remoteWindow n.xa.toNat s.fresh) }
      (((s.schedule s.openTick (.putAccept m n.xa)).bump).nextId, putSent n m.id)) (s, n)
    s.setEntry .c (sent s.tick n)

/-- A put with nothing left to send: it finishes once every block is accepted, or holds the fault of the first block that
failed, at its cursor (R216, R333). -/
def putEnd (n : Entry) (s : State) : State :=
  if n.msgs ≠ [] then s.setEntry .c { n with more := some (s.tick + 1) }
  else match tget 0 n.got 4 with
    | 0 => cClose { n with mask := 0 } [] (s.modMe fun x => x.putEnds n.xa)
    | b + 1 => s.setEntry .c { (n.faulted (accessFault (tget 0 n.got 5) (BitVec.ofNat 64 (tget 0 n.got 6)))) with cursor := b }
/-- `c.put` (R216). -/
def execCPut (sy : BitVec 6) (rd : Reg) (lay : BitVec 4) (xa : Reg) (xb : BitVec 4) (s : State) : Res :=
  cEntry (.cPut sy rd lay xa xb) (fun n s =>
    let (n, s) := if n.mask = 0 then ({ n with mask := 1 }, s.modMe fun x => x.putBegins n.xa) else (n, s)
    if tget 0 n.got 4 ≠ 0 then putEnd n s
    else blockStep n (recP n.lay.get) (fun ms => ms.flatMap (putSides s n)) (putWrite n) (putEnd n) s) s

/-- Bytes of a put reach their window: a closed window discards them, as one of SYS 0 does those of another package, and the
put stops; otherwise they are applied, at the MSAU of their lines for a page marked MS or ZF. One that the MSAU or the bridge
holds is discarded there if the window has been closed meanwhile (`perform`). Once their VT has passed they
are accepted: both counters advance (R303, R331, R333). A put that has come from another package bears depth 0 (R272). -/
def execPutAccept (m : MemMsg) (handle : W64) (s : State) : Res :=
  .next <|
  let i := handleIndex handle
  let outside := decide (256 ≤ m.room)
  if m.store then
    if s.stale m.room m.inc then s.dropStale m.room m.inc
    else match s.window? m.tenant handle with
    | none => entryFault s m.room .c m.id 1 (match m.parts with | p :: _ => p.va | [] => 0)
    | some w =>
      if outside && !w.sys then s
      else joinHome s { m with who := .put, satp := handle, depth := if outside then 0 else m.depth }
  else
    let bytes := BitVec.ofNat 64 ((m.parts.map (·.w)).foldl (· + ·) 0)
    let s := match s.window? m.tenant handle with
      | some w => s.modHall fun h => { h with windows := tset {} h.windows i { w with target := w.target + bytes } }
      | none => s
    let s := s.modRoom m.room fun x =>
      if x.qc.q.any fun n => n.msgs.contains m.id then
        x.modOrigin handle fun o => { o with count := o.count + bytes } else x
    performed s m.room .c m.id

/-! ## c.strm (R219) -/

/-- Asks for the next element of a stream, if its iq has room and none is under way: a failing access stops it. -/
def streamAsk (n : Entry) (q : Nat) (s : State) : State :=
  let r := s.turn
  let i := tget {} s.me.iq q
  match i.stream with
  | none => s
  | some st =>
    if st.sent ∨ st.fault.isSome ∨ st.total ≤ st.arrived ∨ 4 ≤ i.held then s
    else
      let lo := 1024 * st.arrived
      let accs := ((List.range 1024).filter fun j => decide (lo + j < recP st.lrec)).map fun j =>
        { posAccess st.lrec (lo + j) st.off j with n := j }
      let put (s : State) (st : Stream) : State := s.modMe fun x => { x with iq := tmod {} x.iq q fun i => { i with stream := some st } }
      let s := s.needAll (entryCtx r .c n) (accs.map (·.va))
      match placeAll s (entryCtx r .c n) .load (fun p => (nearValue s r .c p).isSome && decide (p.place ≠ .scratch r)) accs with
      | .error (f, va) =>
        let f : FaultInfo := { code := f, va := va, cursor := BitVec.ofNat 64 st.arrived, detail := 0 }
        put (s.poisonAt (entryCtx r .c n) va) { st with fault := some f, recorded := false }
      | .ok pl =>
        let s := fillAll s pl
        let parts := pl.map (·.1)
        let near := parts.filterMap fun p => (nearValue s r .c p).map fun v => (p.pos, v)
        let far := parts.filter fun p => (nearValue s r .c p).isNone
        let (s, t) := s.takePasses .c n.qpos s.tick (ownPasses r parts) (some q)
        let (s, ids) := sendLoad s r (.eng .c) (.iqStream q) st.satp far
        put s { st with sent := true, asked := ids, till := s.tick + t,
                        got := near.foldl (fun t v => tset 0 t v.1 (BitVec.ofNat 32 v.2)) [] }

/-- `c.strm`: binds as it issues, then asks for element after element; it finishes when the last has arrived. -/
def execCStrm (sy : BitVec 6) (rd : Reg) (lay : BitVec 4) (xa : Reg) (xb : BitVec 4) (s : State) : Res :=
  .next (engLane (.cStrm sy rd lay xa xb) (fun n s =>
    match n.iqId with
    | none => actNothing .c n s
    | some (q, id) =>
      let poll (s : State) : State := streamAsk n q (s.setEntry .c { n with mask := 1, more := some (s.tick + 1) })
      if n.mask = 0 then
        let st : Stream := { total := getField n.xb 0 32, pos := id, arrived := 0, popped := 0, lrec := n.lay.get, off := n.xa,
                             satp := n.satp, mode := n.mode, fault := none, recorded := false }
        poll (s.modMe fun x => { x with iq := tmod {} x.iq q fun i => { i with stream := some st } })
      else
        match (tget {} s.me.iq q).stream with
        | some st => if st.arrived = st.total then s.setEntry .c { n with mask := 0, more := none, minFin := s.tick }
                     else poll s
        | none => s.setEntry .c { n with mask := 0, more := none, minFin := s.tick }) s)

/-- A bound stream whose element has arrived (R219). -/
def Room.streamReady (x : Room) (q now : Nat) : Bool :=
  match (tget {} x.iq q).stream with
  | some st => st.sent && st.asked.isEmpty && st.fault.isNone && decide (st.arrived < st.total) && decide (st.till ≤ now)
  | none => false
/-- Its element takes its place in the iq: after the elements reserved before the binding and the stream's own. -/
def Room.streamArrives (x : Room) (q now : Nat) : Room :=
  let i := tget {} x.iq q
  match i.stream with
  | none => x
  | some st =>
    let data : Tile := st.got.foldl (fun t p => tset 0 t p.1 (laneCode6 (recFmt st.lrec) p.2)) []
    let el : IqEl := { id := 0, strm := true, el := some (data, now) }
    let before := i.els.takeWhile fun e => e.strm || decide (e.id < st.pos)
    let after := i.els.dropWhile fun e => e.strm || decide (e.id < st.pos)
    let st := { st with sent := false, got := [], arrived := st.arrived + 1 }
    { x with iq := tset {} x.iq q { i with els := before ++ el :: after, stream := some st } }

/-- An element of a bound stream arrives in its iq (R219). -/
def execStreamElementArrival (room q : Nat) (s : State) : Res :=
  .next (if (s.room room).streamReady q s.tick then s.modRoom room fun x => x.streamArrives q s.tick else s)

/-! ## c.pf (R220) -/

/-- The fault of a barrier's address (R317), or its place: the fault of its walk (R355), or PERMISSION for whatever is not a
device-homed page marked MS. -/
def barrierKey (s : State) (c : Ctx) (va : W64) : Except Nat Loc :=
  if va.toNat % 32 ≠ 0 then .error 2
  else match place s c .load va with
    | .error f => .error (if f = 6 then 1 else f)
    | .ok l =>
      let marked : Bool := match l.leaf with | some t => pteMs t.pte | none => false
      if l.place = .hbm ∧ !l.cmp ∧ marked then .ok l else .error 1

/-- The line that holds a byte: a line to be requested, or one that is skipped, by its number. -/
def pfLine (s : State) (c : Ctx) (va : W64) : Nat × Option Part :=
  match locate s c .load va with
  | .error _ => (2 ^ 60 + va.toNat / 128, none)
  | .ok l =>
    let p := partOf { n := 0, va := va, w := 1 } l 0
    let p := { p with key := lineOf p.key * 128, w := 128, heat := false }
    (lineOf p.key, if cacheable p then some p else none)
/-- The lines that hold a position: an element that is not aligned may lie in two. -/
def pfLines (s : State) (c : Ctx) (rec : LayRec) (o : W64) (m : Nat) : List (Nat × Option Part) :=
  let va := recAddr rec m o
  let last := va + BitVec.ofNat 64 (fmtWidth (recFmt rec) - 1)
  pfLine s c va :: (if va.toNat / 128 = last.toNat / 128 then [] else [pfLine s c last])

/-- A credit of a room's `c.pf` leaves for the barrier at a key. -/
def State.sendCredit (s : State) (r b : Nat) : State :=
  (s.schedule s.cohTick (.cpfCredit ⟨(s.room r).tenant, s.seq, b, r, s.incOf r⟩)).bump
/-- `c.pf`: every line is requested or credited once (R204, R220). -/
def execCPf (sy : BitVec 6) (lay : BitVec 4) (xa : Reg) (xb : BitVec 4) (s : State) : Res :=
  .next (engLane (.cPf sy lay xa xb) (fun n s =>
    let r := s.turn
    let total := recP n.lay.get
    let fresh : Bool := tget 0 n.got 1 = 0
    let bar := if fresh then (match barrierKey s (entryCtx r .c n) n.xb with | .error f => .error f | .ok l => .ok l.key)
      else Except.ok (tget 0 n.got 1 - 1)
    match bar with
    | .error f => s.setEntry .c (n.fails f s.tick n.xb)
    | .ok b =>
      if total ≤ n.cursor then cClose n [] s
      else
        let ms := blockAt n.cursor total
        let lines := pfLines s (entryCtx r .c n) n.lay.get n.xa
        let past := if fresh then ((List.range n.cursor).flatMap lines).foldl (fun t l => tset 0 t (16 + l.1) 1) n.got else n.got
        let (seen, s) := (ms.flatMap lines).foldl (fun (a : Tbl Nat × State) l =>
          let (seen, s) := a
          let (k, p) := l
          if tget 0 seen (16 + k) ≠ 0 then (seen, s)
          else
            let seen := tset 0 seen (16 + k) 1
            match p with
            | some p =>
              if (hitValue s (s.partition r) { p with w := 1 }).isSome then
                (seen, s.sendCredit r b)
              else (seen, (sendLoad s r (.eng .c) (.credit b) n.satp [p]).1)
            | none => (seen, s.sendCredit r b)) (tset 0 past 1 (b + 1), s)
        s.setEntry .c { n with cursor := n.cursor + ms.length, got := seen, more := some (s.tick + 1) }) s)

/-! ## Faults at the head -/

/-- Faults of a C entry at its head (R66, R181, R191, R215 to R220, R317, R331). -/
def cHead (s : State) (r : Nat) (n : Entry) : Option FaultInfo :=
  let x := s.room r
  let a := n.lay.get
  let b := n.lay2.get
  let ill (c : Bool) (rest : Option FaultInfo) : Option FaultInfo := if c then some illegalHead else rest
  match n.instr with
  | .cCopy _ rd _ _ _ =>
    if rd.toNat < 16 then ill (recInvalid a || recInvalid b || decide (recP a ≠ recP b)) none
    else ill (recInvalid a) (streamFaultOf x n)
  | .cMcast _ _ _ _ _ => ill (recInvalid a || recInvalid b || decide (recP a ≠ recP b)) none
  | .cFill _ _ _ _ _ => ill (recInvalid a || recInvalid b || decide (recP a = 0) || decide (recP b < recP a)) none
  | .cScl _ _ _ _ => ill (recInvalid a || decide (16384 < getField n.xb 0 14 + recP a)) none
  | .cStrm _ rd _ _ _ =>
    let e := getField n.xb 0 32
    ill (recInvalid a || decide (e = 0) || decide ((recP a + 1023) / 1024 < e) ||
      (n.mask = 0 && (tget {} x.iq (rd.toNat - 24)).stream.isSome)) none
  | .cPf _ _ _ _ =>
    ill (recInvalid a) (match barrierKey s (entryCtx r .c n) n.xb with | .error f => some (accessFault f n.xb) | .ok _ => none)
  | .cPut _ _ _ _ _ =>
    let w := fmtWidth (recFmt b)
    let slots : Option FaultInfo :=
      if (x.origin? n.xa).isNone ∧ 64 ≤ x.origins.length then some { code := 9, va := 0, cursor := 0, detail := 0 } else none
    ill (recInvalid a || recInvalid b || decide (recP a ≠ recP b))
      (if s.farHandle n.xa then slots
       else match s.window? x.tenant n.xa with
        | none => some (accessFault 1 0)
        | some win =>
          let dims := (List.range 4).map fun i => (recE b i, recS b i)
          let inside := belowOk (win.size - w + 1) (recBase b) dims ||
            allBelow (fun m => decide ((recAddr b m 0).toNat + w ≤ win.size)) (recP b)
          if inside then slots else some (accessFault 1 0))
  | _ => none

end Sys2Proof.Machine
end

