-- ==== Sys2Proof/Machine/Issue.lean ====
section
/-! DEFINITION. The steps that engine queues take by themselves: issue (R16, R32, R41 to R45, R66, R143, R390), finish
(R16, R33), deferred pushes (R33), fault records (R340), and the delivery of stair posts (R45). A step that is not due
changes nothing. -/

namespace Sys2Proof.Machine

/-- A room whose lanes and entries may start: an iteration runs, no kill has ended it, and the stair does not throttle its
tenant in this slot (R349, R390). -/
def State.throttled (s : State) (r : Nat) : Bool :=
  decide (slotOf s.tick % 8 < tget 0 (s.stair (stairOf r)).level (s.room r).tenant)
def State.mayStart (s : State) (r : Nat) : Bool :=
  let x := s.room r
  x.run.isSome && x.dying.isNone && !s.throttled r
/-- V entries before one that have not finished write nothing that it reads, and use no window of its (R143, R157). -/
def hazardFree (before : List Entry) (l : Lane) : Bool :=
  before.all fun m => m.pushWait || (match laneOf m.instr with
    | some k => !(k.writesV.any l.readsV.contains || (k.kd.filter (0 < ·)).any l.readsK.contains ||
                  (l.win.isSome && l.win = k.win))
    | none => true)

/-- A `c.strm` in flight, and a `c.put` that has sent its last block, let later C entries issue; any other entry with steps to
take does not, but for M (R188). -/
def blocksIssue (e : Eng) (m : Entry) : Bool :=
  match e with
  | .m => false
  | .c => m.more.isSome && (match m.instr with
    | .cStrm _ _ _ _ _ => false
    | .cPut _ _ _ _ _ => decide (m.cursor < recP m.lay.get)
    | _ => true)
  | .l | .s | .v => m.more.isSome

/-- The entry of a queue that is to issue next: the first not issued, behind no finished entry that waits to push and no
entry that still has accesses to make. -/
def Room.candidate (x : Room) (e : Eng) (now : Nat) : Option Entry :=
  let q := x.queue e
  if q.q.any (·.pushWait) ∨ now < q.nextIss then none
  else match q.q.find? (·.issued.isNone) with
    | none => none
    | some n =>
      let before := q.q.takeWhile fun m => m.qpos ≠ n.qpos
      if n.fault.isSome ∨ !n.lay.ready ∨ !n.lay2.ready ∨ before.any (blocksIssue e) then none
      else match laneOf n.instr with
        | none => none
        | some l => if (e = .v ∧ !hazardFree before l) ∨ (e = .m ∧ !mMayIssue x n) then none else some n

/-- Every token that an entry pops is there. -/
def Room.hasTokens (x : Room) (n : Entry) : Bool := n.pops.all fun c => 1 ≤ x.tokens c
/-- The fault of an entry at the head of its queue (R66). A push into a window of length 0 is found once the entry's tokens
are there. -/
def headFault (s : State) (r : Nat) (e : Eng) (n : Entry) : Option FaultInfo :=
  let x := s.room r
  if n.unassigned then some illegalHead else
  match e with
  | .l => lHead x n
  | .s => sHead n
  | .m => mHead s r n
  | .c => cHead s r n
  | .v => match n.instr with
    | .wPush _ _ _ _ => if x.hasTokens n then vHead x n else none
    | _ => vHead x n

/-- Data-queue operands and places are ready: elements to pop, places to reserve (R41 to R45). -/
def Room.dataReady (x : Room) (l : Lane) (now : Nat) : Bool :=
  (l.iqs.all fun q => ((tget {} x.iq q).ready now).isSome) &&
  (match l.oqSrc with | some q => ((tget {} x.oq q).ready now).isSome | none => true) &&
  (match l.oqDest with | some q => decide ((tget {} x.oq q).els.length < 4) | none => true) &&
  (match l.fill with | some q => decide ((tget {} x.iq q).held < 4) | none => true) &&
  decide (l.cq ≤ x.cqFree)

/-- Pops an entry's tokens and operands and reserves its places. -/
def Room.popFor (x : Room) (l : Lane) (n : Entry) (now : Nat) : Room × Entry :=
  let els := (l.iqs.map fun q => (q, ((tget {} x.iq q).ready now).getD [])) ++
    (match l.oqSrc with | some q => [(8 + q, ((tget {} x.oq q).ready now).getD [])] | none => [])
  let x := x.popTokens n.pops
  let x := l.iqs.foldl (fun (x : Room) q => { x with iq := tmod {} x.iq q Iq.pop }) x
  let x := match l.oqSrc with
    | some q => { x with oq := tmod {} x.oq q fun o => { els := o.els.drop 1 } } | none => x
  let x := match l.oqDest with
    | some q => { x with oq := tmod {} x.oq q fun o => { els := o.els ++ [none] } } | none => x
  let x := match l.fill, n.iqId with
    | some q, some (_, id) => { x with iq := tmod {} x.iq q fun i => i.begin id } | _, _ => x
  let (rel, after) := if n.pops.contains tokXC then (x.rel.drop 1, max n.after (x.rel.headD 0)) else (x.rel, n.after)
  ({ x with cqRes := x.cqRes + l.cq, rel := rel }, { n with elems := n.elems ++ els, popped := true, after := after })

/-- The entry issues now: it takes its first step in this tick. The accesses that its queue makes in the data class from now on
arrive after the control core's stores that it must see (R80, R126). -/
def Room.issue (x : Room) (e : Eng) (n : Entry) (now : Nat) : Room :=
  let k := (MsgClass.eng e).num
  ({ x.modQueue e fun q => { q with nextIss := now + 1 } with
      lastDue := tset 0 x.lastDue k (max n.after (tget 0 x.lastDue k)) }).setEntry e
    { n with issued := some now, more := some now, minFin := 0 }

/-- One attempt of a queue to issue: the room's state after an issue or a fault at the head; none when it waits. -/
def issueOf (s : State) (r : Nat) (e : Eng) : Option State :=
  let x := s.room r
  if !s.mayStart r ∨ x.saving ∨ (e ≠ .v ∧ e ≠ .m ∧ s.cohFull r) then none
  else match x.candidate e s.tick with
    | none => none
    | some n =>
      match headFault s r e n with
      | some f => some (s.setRoom r (x.setEntry e { n with fault := some f, recorded := false }))
      | none =>
        match laneOf n.instr with
        | none => none
        | some l =>
          if n.popped then some (s.setRoom r (x.issue e n s.tick))
          else if x.hasTokens n && x.dataReady l s.tick then
            (let (x, n) := x.popFor l n s.tick
             some (s.setRoom r (x.issue e n s.tick)))
          else none

/-- A queue-head entry issues (R32). -/
def execEntryIssue (room : Nat) (e : Eng) (s : State) : Res := .next ((issueOf s room e).getD s)

/-- The entry of a queue that finishes now. -/
def finishing (s : State) (r : Nat) (e : Eng) : Option Entry :=
  match ((s.room r).queue e).finishing with
  | some n => if n.done s.tick then some n else none
  | none => none

/-- An engine entry finishes (R16). -/
def execEntryFinish (room : Nat) (e : Eng) (s : State) : Res :=
  .next (match finishing s room e with
    | some n => finishEntry s room e (if e = .l then { n with effs := lEffs n } else n)
    | none => s)

/-- The head of a queue that waits only for its counters, and can make its pushes now. -/
def deferred (s : State) (r : Nat) (e : Eng) : Option Entry :=
  let x := s.room r
  match (x.queue e).q with
  | n :: _ => if n.pushWait && x.canPush n then some n else none
  | [] => none

/-- A finished entry makes its deferred pushes and retires (R33). -/
def execEntryDeferredPush (room : Nat) (e : Eng) (s : State) : Res :=
  .next (match deferred s room e with
    | some n => s.modRoom room fun x => x.retireEntry e n
    | none => s)

/-! ## Fault records (R340) -/

/-- The words of a fault record. -/
def recordBits (code tenant room src : Nat) (repl : Bool) (slot qpos : Nat) (va cursor detail : W64) : BitVec 256 :=
  detail ++ cursor ++ va ++
    (BitVec.ofNat 32 qpos ++ 0#2 ++ BitVec.ofNat 10 slot ++ BitVec.ofBool repl ++ BitVec.ofNat 3 src ++
      BitVec.ofNat 8 room ++ BitVec.ofNat 4 tenant ++ BitVec.ofNat 4 code : W64)

/-- The lowest free place of a wing's fault buffer: R340 does not say which place a record takes (DESIGN CHOICE, log entry 76). -/
def freeSlot (l : List FRec) : Option Nat :=
  if 1024 ≤ l.length then none else (List.range 1024).find? fun i => !l.any fun f => f.slot = i

/-- The destination width of a C entry at its cursor: of its side's format (R116, R212), and of a word of scale memory. -/
def destWidth (r : Nat) (n : Entry) : Nat :=
  match n.instr with
  | .cScl _ _ _ _ => 4
  | .cMcast _ _ _ _ _ => fmtWidth (mcastDest n n.cursor).2
  | .cPut _ _ _ _ _ => fmtWidth (recFmt n.lay2.get)
  | _ => match n.lay2 with
    | .none => fmtWidth (recFmt n.lay.get)
    | _ => fmtWidth (sideOf r n n.lay2.get n.xa false n.cursor).fmt
/-- The CURSOR of an entry's record: for C the bytes done at the destination's width (R212). -/
def recordCursor (r : Nat) (e : Eng) (n : Entry) (f : FaultInfo) : W64 :=
  if e = .c ∧ f.code ≠ 10 then BitVec.ofNat 64 (n.cursor * destWidth r n) else f.cursor

/-- What a source still has to record: wing, room, tenant, SRC, REPL, position, and the fault. -/
structure Unrecorded where
  wing   : Nat
  room   : Nat
  tenant : Nat
  num    : Nat
  repl   : Bool
  qpos   : Nat
  info   : FaultInfo

/-- The unrecorded fault of a source. -/
def unrecorded (s : State) (src : FaultSrc) : Option Unrecorded :=
  match src with
  | .entry r e =>
    let x := s.room r
    if x.dying.isSome then none else
    match (x.queue e).q.find? fun n => n.fault.isSome && !n.recorded with
    | some n => n.fault.map fun f =>
        { wing := wingOf r, room := r, tenant := x.tenant, num := e.num, repl := true, qpos := n.qpos,
          info := { f with cursor := recordCursor r e n f } }
    | none => none
  | .stream r q =>
    let x := s.room r
    match (tget {} x.iq q).stream with
    | some st =>
      if st.recorded then none
      else st.fault.map fun f =>
        { wing := wingOf r, room := r, tenant := x.tenant, num := 4, repl := true,
          qpos := match x.qc.q.find? fun n => n.iqId = some (q, st.pos) with | some n => n.qpos | none => 0, info := f }
    | none => none
  | .cbu w =>
    (match (s.wing w).cbu with
    | some c =>
      if c.recorded then none
      else c.halt.map fun f => { wing := w, room := 255, tenant := c.tenant, num := 5, repl := true, qpos := 0, info := f }
    | none => none)
  | .watch i a b c =>
    match (s.hall.disarmed.find? fun p => p.1 = i && p.2.runaway = some (a, b, c)).map (·.2) |>.or (tget none s.hall.watch i) with
    | some e => e.runaway.map fun (rate, room, queue) =>
        { wing := e.wing, room := 255, tenant := e.tenant, num := 6, repl := false, qpos := 0,
          info := { code := 8, va := 0, cursor := 0,
                    detail := BitVec.ofNat 64 (i +
                      if rate then 2 ^ 10 else 2 ^ 11 * room + 2 ^ 19 * queue) } }
    | none => none

/-- The source has recorded its fault. -/
def markRecorded (s : State) (src : FaultSrc) : State :=
  match src with
  | .entry r e =>
    let pos := (((s.room r).queue e).q.find? fun n => n.fault.isSome && !n.recorded).map (·.qpos)
    let f (n : Entry) : Entry := if some n.qpos = pos then { n with recorded := true } else n
    s.modRoom r fun x => x.modQueue e fun q => { q with q := q.q.map f }
  | .stream r q =>
    let f (i : Iq) : Iq := { i with stream := i.stream.map fun st => { st with recorded := true } }
    s.modRoom r fun x => { x with iq := tmod {} x.iq q f }
  | .cbu w => s.modWing w fun x => { x with cbu := x.cbu.map fun c => { c with recorded := true } }
  | .watch i a b c =>
    let f (e : Option WEntry) : Option WEntry := e.map fun e => { e with runaway := none }
    let mine (p : Nat × WEntry) : Bool := p.1 = i && p.2.runaway = some (a, b, c)
    if s.hall.disarmed.any mine then s.modHall fun h => { h with disarmed := h.disarmed.eraseP mine }
    else s.modHall fun h => { h with watch := tmod none h.watch i f }

/-- Writes the record of a source's fault into its wing's buffer, if a place is free. -/
def recordFault (s : State) (src : FaultSrc) : Option State :=
  match unrecorded s src with
  | none => none
  | some u =>
    match freeSlot (s.wing u.wing).faults with
    | none => none
    | some slot =>
      let bits := recordBits u.info.code u.tenant u.room u.num u.repl slot u.qpos u.info.va u.info.cursor u.info.detail
      let f : FRec := { slot := slot, bits := bits, tenant := u.tenant, room := if u.room = 255 ∧ 5 ≤ u.num then 256 else u.room,
                        src := src }
      some (markRecorded (s.modWing u.wing fun w => { w with faults := w.faults ++ [f] }) src)

/-- A faulting entry, CBU read or watch entry writes its record (R340). -/
def execFaultRecordWrite (src : FaultSrc) (s : State) : Res := .next ((recordFault s src).getD s)

/-! ## Stair posts (R45) -/

/-- A buffered stair post takes a free place of the room's control queue. -/
def execCqStairPostDelivery (room : Nat) (s : State) : Res :=
  .next (s.modRoom room fun x =>
    match x.posts with
    | p :: l => if 0 < x.cqFree then { x with posts := l, cq := x.cq ++ [(p.1, s.tick)] } else x
    | [] => x)

end Sys2Proof.Machine
end

