-- ==== Sys2Proof/Machine/Rv.lean ====
section
/-! DEFINITION. The RV64 base of the control core (R94, R95): integer and floating-point instructions, loads and stores,
fences, and the fetch of lines (R17 to R22). -/

namespace Sys2Proof.Machine

/-! ## Integer operations, as published -/

/-- Sign-extends the low 32 bits. -/
def sx32 (v : W64) : W64 := (v.extractLsb' 0 32).signExtend 64
def low32 (v : W64) : W32 := v.extractLsb' 0 32
/-- Zero-extends the low 32 bits. -/
def zx32 (v : W64) : W64 := (low32 v).setWidth 64

/-- Division and remainder of w-bit words, as published: by zero all ones and the dividend, and no trap on overflow. -/
def divS {w : Nat} (a b : BitVec w) : BitVec w := if b = 0 then -1 else a.sdiv b
def divU {w : Nat} (a b : BitVec w) : BitVec w := if b = 0 then -1 else a.udiv b
def remS {w : Nat} (a b : BitVec w) : BitVec w := if b = 0 then a else a.srem b
def remU {w : Nat} (a b : BitVec w) : BitVec w := if b = 0 then a else a.umod b
/-- High half of a product of integers. -/
def mulHigh (a b : Int) : W64 := BitVec.ofInt 64 (a * b / 2 ^ 64)

/-- Register operations. -/
def alu (op : AluOp) (a b : W64) : W64 :=
  let sh := b.toNat % 64
  let shw := b.toNat % 32
  match op with
  | .add => a + b
  | .sub => a - b
  | .sll => a <<< sh
  | .slt => if a.slt b then 1 else 0
  | .sltu => if a.ult b then 1 else 0
  | .xor => a ^^^ b
  | .srl => a >>> sh
  | .sra => a.sshiftRight sh
  | .or => a ||| b
  | .and => a &&& b
  | .mul => a * b
  | .mulh => mulHigh a.toInt b.toInt
  | .mulhsu => mulHigh a.toInt b.toNat
  | .mulhu => mulHigh a.toNat b.toNat
  | .div => divS a b
  | .divu => divU a b
  | .rem => remS a b
  | .remu => remU a b
  | .addw => sx32 (a + b)
  | .subw => sx32 (a - b)
  | .sllw => sx32 (a <<< shw)
  | .srlw => (low32 a >>> shw).signExtend 64
  | .sraw => ((low32 a).sshiftRight shw).signExtend 64
  | .mulw => sx32 (a * b)
  | .divw => (divS (low32 a) (low32 b)).signExtend 64
  | .divuw => (divU (low32 a) (low32 b)).signExtend 64
  | .remw => (remS (low32 a) (low32 b)).signExtend 64
  | .remuw => (remU (low32 a) (low32 b)).signExtend 64
  | .sh1add => (a <<< 1) + b
  | .sh2add => (a <<< 2) + b
  | .sh3add => (a <<< 3) + b
  | .adduw => zx32 a + b
  | .sh1adduw => (zx32 a <<< 1) + b
  | .sh2adduw => (zx32 a <<< 2) + b
  | .sh3adduw => (zx32 a <<< 3) + b
  | .andn => a &&& ~~~b
  | .orn => a ||| ~~~b
  | .xnor => ~~~(a ^^^ b)
  | .max => if a.slt b then b else a
  | .maxu => if a.ult b then b else a
  | .min => if b.slt a then b else a
  | .minu => if b.ult a then b else a
  | .rol => a.rotateLeft sh
  | .ror => a.rotateRight sh
  | .rolw => ((low32 a).rotateLeft shw).signExtend 64
  | .rorw => ((low32 a).rotateRight shw).signExtend 64

/-- Operations with a sign-extended immediate. -/
def aluImm (op : AluIOp) (a : W64) (imm : BitVec 12) : W64 :=
  let b := imm.signExtend 64
  match op with
  | .addi => a + b
  | .slti => if a.slt b then 1 else 0
  | .sltiu => if a.ult b then 1 else 0
  | .xori => a ^^^ b
  | .ori => a ||| b
  | .andi => a &&& b
  | .addiw => sx32 (a + b)

/-- Shifts by an immediate. -/
def aluShift (op : ShOp) (a : W64) (sh : Nat) : W64 :=
  match op with
  | .slli => a <<< sh
  | .srli => a >>> sh
  | .srai => a.sshiftRight sh
  | .rori => a.rotateRight sh
  | .slliuw => zx32 a <<< sh
  | .slliw => sx32 (a <<< sh)
  | .srliw => (low32 a >>> sh).signExtend 64
  | .sraiw => ((low32 a).sshiftRight sh).signExtend 64
  | .roriw => ((low32 a).rotateRight sh).signExtend 64

/-- Number of zeros below the lowest 1 of the low n bits. -/
def trailingZeros : Nat → Nat → Nat
  | 0, _ => 0
  | n + 1, v => if v % 2 = 1 then 0 else 1 + trailingZeros n (v / 2)
/-- The eight bytes of a doubleword, lowest first. -/
def bytes8 (a : W64) : List Byte := (List.range 8).map fun i => a.extractLsb' (8 * i) 8
/-- One-operand operations. -/
def aluUnary (op : UnOp) (a : W64) : W64 :=
  match op with
  | .clz => BitVec.ofNat 64 (leadingZeros 64 a.toNat)
  | .ctz => BitVec.ofNat 64 (trailingZeros 64 a.toNat)
  | .cpop => BitVec.ofNat 64 (popCount 64 a.toNat)
  | .sextb => (a.extractLsb' 0 8).signExtend 64
  | .sexth => (a.extractLsb' 0 16).signExtend 64
  | .zexth => (a.extractLsb' 0 16).setWidth 64
  | .orcb => BitVec.ofNat 64 (leNat ((bytes8 a).map fun b => if b = 0 then 0 else 0xFF#8))
  | .rev8 => BitVec.ofNat 64 (leNat (bytes8 a).reverse)
  | .clzw => BitVec.ofNat 64 (leadingZeros 32 (low32 a).toNat)
  | .ctzw => BitVec.ofNat 64 (trailingZeros 32 (low32 a).toNat)
  | .cpopw => BitVec.ofNat 64 (popCount 32 (low32 a).toNat)

/-- Branch conditions. -/
def branchTaken (op : BrOp) (a b : W64) : Bool :=
  match op with
  | .beq => a == b
  | .bne => a != b
  | .blt => a.slt b
  | .bge => !a.slt b
  | .bltu => a.ult b
  | .bgeu => !a.ult b

/-! ## Running a lane -/

/-- Runs the rest of a lane once registers can be used; f registers have the numbers 32 to 63 (R9, R77). -/
def State.whenNums (s : State) (dest l : List Nat) (f : Room → State) : State :=
  if s.me.pendingAny (l ++ dest) || s.me.lateAny s.tick l then s.wait else f s.me
/-- Number of an f register. -/
def fnum (r : Reg) : Nat := 32 + r.toNat

/-- A taken branch or jump; a target that is not a multiple of 4 raises instruction-address-misaligned (R22). -/
def State.jumpTo (s : State) (rd : Reg) (target : W64) : State :=
  if target.toNat % 4 ≠ 0 then s.exc 0 target
  else s.modMe fun x => (x.setX rd (nextPc x.pc)).retireTo s.tick target

/-! ## Floating point (R95) -/

/-- FS is not Off. -/
def Room.fpOn (x : Room) : Bool := getField x.csr.mstatus 13 2 ≠ 0
/-- Marks the floating-point state dirty. -/
def Room.fpDirty (x : Room) : Room := { x with csr := { x.csr with mstatus := setField x.csr.mstatus 13 2 3 } }
/-- Format of F or D. -/
def fpFmt (dbl : Bool) : Fp.Fmt := if dbl then Fp.fp64 else Fp.fp32
/-- The operand that an f register holds: a single that is not NaN-boxed is the default NaN. -/
def fpRead (dbl : Bool) (v : W64) : Nat :=
  if dbl then v.toNat else if v.extractLsb' 32 32 = 0xFFFFFFFF#32 then (low32 v).toNat else Fp.fp32.qnan
/-- A result as an f register holds it. -/
def fpBox (dbl : Bool) (v : Nat) : W64 := floadValue dbl v
/-- The rounding mode of an instruction: its own, or that of fcsr; none for a reserved one. -/
def rvRm (x : Room) (rm : BitVec 3) : Option Fp.Rm :=
  match (if rm = 7 then getField x.csr.fcsr 5 3 else rm.toNat) with
  | 0 => some .rne | 1 => some .rtz | 2 => some .rdn | 3 => some .rup | 4 => some .rmm | _ => none

/-- Values of f registers as numbers. -/
def fpVal (dbl : Bool) (v : W64) : Fp.Val := Fp.decode (fpFmt dbl) (fpRead dbl v)
/-- A NaN of an operation with a signalling operand raises NV. -/
def fpArith (op : FOp) (f : Fp.Fmt) (rm : Fp.Rm) (a b : Fp.Val) : Nat × Nat :=
  match op with
  | .fadd => Fp.addV f rm a b
  | .fsub => Fp.addV f rm a b.neg
  | .fmul => Fp.mulV f rm a b
  | .fdiv => Fp.divV f rm a b
  | .fsqrt => Fp.sqrtV f rm a
/-- The fused operations. -/
def fpFused (op : FmaOp) (f : Fp.Fmt) (rm : Fp.Rm) (a b c : Fp.Val) : Nat × Nat :=
  match op with
  | .fmadd => Fp.fmaV f rm a b c
  | .fmsub => Fp.fmaV f rm a b c.neg
  | .fnmsub => Fp.fmaV f rm a.neg b c
  | .fnmadd => Fp.fmaV f rm a.neg b c.neg
/-- Minimum and maximum: the number beside a NaN, and -0 below +0. -/
def fpMinMax (f : Fp.Fmt) (max_ : Bool) (x y : Nat) : Nat × Nat :=
  let a := Fp.decode f x
  let b := Fp.decode f y
  let fl := max (Fp.sigFlag a) (Fp.sigFlag b)
  if a.isNan && b.isNan then (f.qnan, fl)
  else if a.isNan then (y, fl)
  else if b.isNan then (x, fl)
  else if Fp.below a b then (if max_ then y else x, fl) else (if max_ then x else y, fl)
/-- Comparisons: `fle` and `flt` signal on every NaN, `feq` on a signalling one. -/
def fpCompare (op : FQOp) (a b : Fp.Val) : Nat × Nat :=
  let nan := a.isNan || b.isNan
  match op with
  | .le => (if Fp.ltV a b || Fp.eqV a b then 1 else 0, if nan then Fp.NV else 0)
  | .lt => (if Fp.ltV a b then 1 else 0, if nan then Fp.NV else 0)
  | _ => (if Fp.eqV a b then 1 else 0, max (Fp.sigFlag a) (Fp.sigFlag b))
/-- Sign injection: the magnitude of x with a sign bit. -/
def withSignOf (f : Fp.Fmt) (x : Nat) (neg : Bool) : Nat := Fp.withSign f neg (x % f.signBit)
def negCode (f : Fp.Fmt) (x : Nat) : Bool := x / f.signBit % 2 = 1

/-- A floating-point result: boxed into rd, with its flags. -/
def Room.fpResult (x : Room) (rd : Reg) (dbl : Bool) (r : Nat × Nat) : Room :=
  ((x.setF rd (fpBox dbl r.1)).orFflags r.2).fpDirty
/-- An integer result of a floating-point instruction, with its flags. -/
def Room.fpToX (x : Room) (rd : Reg) (v : W64) (fl : Nat) : Room :=
  let x := x.setX rd v
  if fl = 0 then x else (x.orFflags fl).fpDirty

/-- The result of an integer conversion in an x register: the word forms are sign-extended. -/
def intResult (ty : IntTy) (v : Nat) : W64 :=
  match ty with
  | .w | .wu => (BitVec.ofNat 32 v).signExtend 64
  | .l | .lu => BitVec.ofNat 64 v
def intSigned : IntTy → Bool | .w | .l => true | .wu | .lu => false
def intWidth : IntTy → Nat | .w | .wu => 32 | .l | .lu => 64
/-- The integer that an x register holds for a conversion. -/
def intValue (ty : IntTy) (v : W64) : Int :=
  match ty with
  | .w => (low32 v).toInt | .wu => (low32 v).toNat | .l => v.toInt | .lu => v.toNat
/-- Conversion between F and D. -/
def fpConvert (dst : Fp.Fmt) (rm : Fp.Rm) (v : Fp.Val) : Nat × Nat :=
  match v with
  | .nan _ => (dst.qnan, Fp.sigFlag v)
  | .inf n => (Fp.withSign dst n dst.infBits, 0)
  | .fin n m e => Fp.round dst rm n m e

/-- Runs a floating-point lane, whose last register is its destination: illegal while FS is Off. -/
def State.fpLane (s : State) (regs : List Nat) (f : Room → Option Room) : State :=
  if !s.me.fpOn then s.illegal
  else s.whenNums (regs.drop (regs.length - 1)) (regs.take (regs.length - 1)) fun x => match f x with
    | some y => s.setRoom s.turn (y.retire s.tick)
    | none => s.illegal

/-! ## Loads and stores of the control core -/

/-- The exception of a failing check of an RV access (R95, R192, R300, R391, R402). -/
def rvCause (w : Want) (dev translated : Bool) (f : Nat) : Nat :=
  let access := match w with | .load => 5 | .fetch => 1 | .store | .atomic => 7
  let page := match w with | .load => 13 | .fetch => 12 | .store | .atomic => 15
  if dev then access
  else match f with
    | 5 => 53
    | 0 | 1 => if translated then page else access
    | _ => access
/-- Address-misaligned. -/
def rvMisaligned (w : Want) : Nat := match w with | .load => 4 | .fetch => 0 | .store | .atomic => 6

/-- The place of an RV access of n bytes, or its exception. Pages marked CMP take no stores or atomics of the control core
(R364), and port registers only accesses of 8 bytes (R402). -/
def coreLoc (s : State) (w : Want) (va : W64) (n : Nat) (c : Ctx := coreCtx s.turn s.me false) : Except Nat Loc :=
  let access := rvCause w true false 0
  let port : Bool := match place s c w va with | .ok l => l.place = .port | .error _ => false
  if va.toNat % n ≠ 0 then .error (if port then access else rvMisaligned w)
  else match locate s c w va with
    | .error f => .error (rvCause w (window s c w va).isSome (getField c.satp 60 4 = 15) f)
    | .ok l =>
      if l.place = .port ∧ n ≠ 8 then .error access
      else if l.cmp ∧ w ≠ .load then .error 7
      else .ok l

/-- An exception of an RV access: a device exception for HOSTLOST. -/
def State.rvExc (s : State) (code : Nat) (va : W64) : State :=
  if 48 ≤ code then s.devExc (code - 48) va else s.exc code va

/-- The value of a part in the core cache or the attic partition (R283). -/
def coreHit (s : State) (r : Nat) (p : Part) : Option Nat :=
  match hitValue s (coreHolder r) p with
  | some v => some v
  | none => hitValue s (s.partition r) p


/-- An A-extension instruction on the line has not yet been answered. -/
def Room.atomOn (x : Room) (line : Nat) : Bool := x.outs.any fun o => o.line = some line

/-- A control-core load: from a copy if no earlier load is still to be performed, else from its home. A load whose bytes now
fault at their home holds dispatch, so that its exception is precise (R95, R391). -/
def rvLoad (s : State) (va : W64) (n : Nat) (dest : Dest) (reg : Nat) (put : Nat → Room → Room) : State :=
  let c := coreCtx s.turn s.me false
  let s := s.needTier c va
  match coreLoc s .load va n with
  | .error c => s.rvExc c va
  | .ok l =>
    if s.me.atomOn (lineOf l.key) then s.wait else
    let s := s.fillTlb l
    let p := partOf { n := 0, va := va, w := n } l 0
    match (if s.me.loadPending || s.atomOnWay s.turn (lineOf p.key) then none else coreHit s s.turn p) with
    | some v => s.modMe fun x => (put v x).retire s.tick
    | none =>
      if s.cohFull s.turn then s.wait else
      let (s, ids) := sendLoad s s.turn .core dest c.satp [p]
      s.modMe fun x =>
        let x := x.await (ids.headD 0) [reg] false true
        if (partFault s p).isSome then x.holdOn (.answer (ids.headD 0)) else x.retire s.tick

/-- A control-core store: into a key region it waits for the key (R292). -/
def rvStore (s : State) (va : W64) (n data : Nat) : State :=
  let c := coreCtx s.turn s.me false
  let s := s.needTier c va
  match coreLoc s .store va n with
  | .error c => s.rvExc c va
  | .ok l =>
    let p := partOf { n := 0, va := va, w := n } l data
    let keys := keysWanted s s.turn [p]
    if s.me.atomOn (lineOf l.key) then s.wait
    else if keys ≠ [] then (s.askKeys s.turn keys).wait
    else if s.storeWaits s.turn .core [p] || s.bufferedTo s.turn [p] ≠ [] then (s.drainTo s.turn [p]).wait
    else if s.lost l.place l.key then s.rvExc 53 va
    else if s.cohFull s.turn then s.wait
    else
      let s := s.fillTlb l
      let (s, outs, _) := issueStore s s.turn .core c.satp [p]
      s.modMe fun x => ({ x with stores := x.stores ++ outs }).retire s.tick

def ldWidth : LdOp → Nat | .lb | .lbu => 1 | .lh | .lhu => 2 | .lw | .lwu => 4 | .ld => 8
def stWidth : StOp → Nat | .sb => 1 | .sh => 2 | .sw => 4 | .sd => 8

/-! ## CSRs (R84, R94 to R96, R248, R339, R341, R360, R400) -/

/-- mip: the writable bits, and the local interrupts 16 to 18 (R29, R338). -/
def mipOf (s : State) (r : Nat) : W64 :=
  let x := s.room r
  let low := x.qwmark.extractLsb' 40 5 &&& x.qwmark.extractLsb' 48 5
  let fault := (s.wing (wingOf r)).faults.any fun f => f.room = r && f.tenant = x.tenant
  let bit (b : Bool) (n : Nat) : W64 := if b then 1#64 <<< n else 0
  (x.csr.mip &&& 0x222#64) ||| bit (low ≠ 0) 16 ||| bit fault 17 ||| bit x.pre 18

/-- Bits of mstatus that a write sets, and those of its view sstatus. -/
def mstatusMask : W64 := 0x7E79AA#64
def sstatusMask : W64 := 0xC6122#64
/-- mstatus as it reads: SD follows FS; SXL and UXL are 0, as R400 has every field but FS. -/
def mstatusRead (v : W64) : W64 := v ||| (if getField v 13 2 = 3 then 1#64 <<< 63 else 0)
def sstatusRead (v : W64) : W64 :=
  (v &&& sstatusMask) ||| (if getField v 13 2 = 3 then 1#64 <<< 63 else 0)

/-- CALSLOT at a tick (R248). -/
def calSlotWord (s : State) (r t : Nat) : W64 :=
  let e := s.calEntry (calUnit 0 r) t
  BitVec.ofNat 64 (slotOf t + 256 * calOwner e + (if calIsOpen e then 4096 else 0))

/-- The CSRs that the control core has. -/
def csrKnown (n : Nat) : Bool :=
  [1, 2, 3, 0x100, 0x104, 0x105, 0x106, 0x10A, 0x140, 0x141, 0x142, 0x143, 0x144, 0x180, 0x300, 0x301, 0x302, 0x303, 0x304,
   0x305, 0x306, 0x30A, 0x320, 0x340, 0x341, 0x342, 0x343, 0x344, 0xB00, 0xB02, 0xF11, 0xF12, 0xF13, 0xF14, 0xF15].contains n ||
  (decide (0x800 ≤ n) && decide (n ≤ 0x810)) || (decide (0x323 ≤ n) && decide (n ≤ 0x33F)) ||
  (decide (0x3A0 ≤ n) && decide (n ≤ 0x3EF)) || (decide (0xB03 ≤ n) && decide (n ≤ 0xB1F)) ||
  (decide (0xC00 ≤ n) && decide (n ≤ 0xC1F))

/-- Number of a mode. -/
def modeNum : Mode → Nat | .u => 0 | .s => 1 | .m => 3

/-- Whether an access to a CSR is legal (R291, and as published). -/
def csrLegal (x : Room) (n : Nat) (write : Bool) : Bool :=
  csrKnown n && decide (n / 256 % 4 ≤ modeNum x.mode) && !(write && decide (n / 1024 = 3)) &&
  !((n = 0x809 || n = 0x80A) && x.mode = .u) && !((n = 1 || n = 2 || n = 3) && !x.fpOn) &&
  !(n = 0x180 && x.mode = .s && x.csr.mstatus.getLsbD 20) &&
  !(decide (0xC00 ≤ n) && decide (n ≤ 0xC1F) && x.mode ≠ .m &&
    (!x.csr.mcounteren.getLsbD (n % 32) || (x.mode = .u && !x.csr.scounteren.getLsbD (n % 32))))

/-- What a CSR reads; 0 for every one to which no rule gives a value, mhartid among them (R400). -/
def csrRead (s : State) (r n : Nat) : W64 :=
  let x := s.room r
  let c := x.csr
  let instret := c.minstretOff + BitVec.ofNat 64 x.disp
  let now := BitVec.ofNat 64 s.tick
  match n with
  | 1 => c.fcsr &&& 0x1F#64
  | 2 => (c.fcsr >>> 5) &&& 7#64
  | 3 => c.fcsr &&& 0xFF#64
  | 0x100 => sstatusRead c.mstatus
  | 0x104 => c.mie &&& c.mideleg
  | 0x105 => c.stvec
  | 0x106 => c.scounteren
  | 0x140 => c.sscratch
  | 0x141 => c.sepc
  | 0x142 => c.scause
  | 0x143 => c.stval
  | 0x144 => mipOf s r &&& c.mideleg
  | 0x180 => c.satp
  | 0x300 => mstatusRead c.mstatus
  | 0x301 => 0x8000000000941129#64
  | 0x302 => c.medeleg
  | 0x303 => c.mideleg
  | 0x304 => c.mie
  | 0x305 => c.mtvec
  | 0x306 => c.mcounteren
  | 0x340 => c.mscratch
  | 0x341 => c.mepc
  | 0x342 => c.mcause
  | 0x343 => c.mtval
  | 0x344 => mipOf s r
  | 0x800 => x.qslip
  | 0x801 => x.qwmark
  | 0x802 => BitVec.ofNat 64 (x.cq.length + (if x.cqTry then 256 else 0))
  | 0x803 => x.vflags
  | 0x804 => x.bankfmt
  | 0x805 => x.bconf
  | 0x806 => BitVec.ofNat 64 x.tenant
  | 0x807 => calSlotWord s r s.tick
  | 0x808 => x.vhz
  | 0x809 => x.keybase
  | 0x80A => x.keyctl
  | 0x80B => x.barrec
  | 0x80C => x.qseq0
  | 0x80D => x.qseq1
  | 0x80E => x.qseq2
  | 0x80F => x.faultrec
  | 0x810 => BitVec.ofNat 64 (s.hall.heatS + 16 * s.hall.heatD)
  | 0xB00 | 0xC00 | 0xC01 => now
  | 0xB02 | 0xC02 => instret
  | _ => 0

/-- The value that a CSR instruction writes. -/
def csrNew (f3 : BitVec 3) (old src : W64) : W64 :=
  match f3.toNat % 4 with | 1 => src | 2 => old ||| src | _ => old &&& ~~~src

/-- Reads a CSR and, for a write, runs `put` with the new value; rd takes the old one. An illegal access raises the RV
illegal-instruction exception (R96). -/
def csrLane (s : State) (n : Nat) (f3 : BitVec 3) (rd rs1 : Reg) (write : Bool) (put : State → W64 → State) : State :=
  let imm : Bool := f3.getLsbD 2
  if !csrLegal s.me n write then s.illegal
  else s.whenNums [rd.toNat] (if imm then [] else [rs1.toNat]) fun x =>
    let old := csrRead s s.turn n
    let src : W64 := if imm then rs1.setWidth 64 else x.getX rs1
    let s := if write then put s (csrNew f3 old src) else s
    s.doneX rd old

/-! ## RV_SCALAR_INSTRUCTION -/

/-- An RV64 instruction that has no row of its own (R94). -/
def execRvScalarInstruction (i : RvInstr) (s : State) : Res :=
  .next <|
  match i with
  | .lui rd imm => s.whenNums [rd.toNat] [] fun _ => s.doneX rd ((imm ++ 0#12).signExtend 64)
  | .auipc rd imm => s.whenNums [rd.toNat] [] fun x => s.doneX rd (x.pc + (imm ++ 0#12).signExtend 64)
  | .jal rd off => s.whenNums [rd.toNat] [] fun x => s.jumpTo rd (x.pc + (off ++ 0#1).signExtend 64)
  | .jalr rd rs1 off => s.whenNums [rd.toNat] [rs1.toNat] fun x =>
      s.jumpTo rd ((x.getX rs1 + off.signExtend 64) &&& ~~~1#64)
  | .branch op rs1 rs2 off => s.whenNums [] [rs1.toNat, rs2.toNat] fun x =>
      if branchTaken op (x.getX rs1) (x.getX rs2) then s.jumpTo 0 (x.pc + (off ++ 0#1).signExtend 64) else s.done
  | .load op rd rs1 off => s.whenNums [rd.toNat] [rs1.toNat] fun x =>
      rvLoad s (x.getX rs1 + off.signExtend 64) (ldWidth op) (.x rd op) rd.toNat fun v y => y.setX rd (loadValue op v)
  | .store op rs1 rs2 off => s.whenNums [] [rs1.toNat, rs2.toNat] fun x =>
      rvStore s (x.getX rs1 + off.signExtend 64) (stWidth op) (x.getX rs2).toNat
  | .alu op rd rs1 rs2 => s.whenNums [rd.toNat] [rs1.toNat, rs2.toNat] fun x =>
      s.doneX rd (alu op (x.getX rs1) (x.getX rs2))
  | .alui op rd rs1 imm => s.whenNums [rd.toNat] [rs1.toNat] fun x => s.doneX rd (aluImm op (x.getX rs1) imm)
  | .shift op rd rs1 sh => s.whenNums [rd.toNat] [rs1.toNat] fun x => s.doneX rd (aluShift op (x.getX rs1) sh.toNat)
  | .unary op rd rs1 => s.whenNums [rd.toNat] [rs1.toNat] fun x => s.doneX rd (aluUnary op (x.getX rs1))
  | .csr c => csrLane s c.csr.toNat c.f3 c.rd c.rs1 false fun s _ => s
  | .ecall => s.exc (match s.me.mode with | .u => 8 | .s => 9 | .m => 11) 0
  | .ebreak => s.exc 3 s.me.pc
  | .sfenceVma rs1 rs2 => s.whenNums [] [rs1.toNat, rs2.toNat] fun x =>
      if x.mode = .u ∨ (x.mode = .s ∧ x.csr.mstatus.getLsbD 20) then s.illegal
      else
        let t := x.tenant
        let hit (e : Tlb) : Bool := decide (e.tenant = t) &&
          (rs1 = 0 || tlbHit { e with asid := 0, pte := e.pte ||| 64#64 } t 0 (x.getX rs1)) &&
          (rs2 = 0 || (decide (e.asid = getField (x.getX rs2) 0 16) && !pteG e.pte))
        ({ s with tlb := s.tlb.filter fun e => !hit e }).modMe fun y => y.retire s.tick
  | .fload dbl rd rs1 off => if !s.me.fpOn then s.illegal else
      s.whenNums [fnum rd] [rs1.toNat] fun x =>
        rvLoad s (x.getX rs1 + off.signExtend 64) (if dbl then 8 else 4) (.f rd dbl) (fnum rd) fun v y =>
          (y.setF rd (floadValue dbl v)).fpDirty
  | .fstore dbl rs1 rs2 off => if !s.me.fpOn then s.illegal else
      s.whenNums [] [rs1.toNat, fnum rs2] fun x =>
        rvStore s (x.getX rs1 + off.signExtend 64) (if dbl then 8 else 4) (x.getF rs2).toNat
  | .fma op dbl rm rd rs1 rs2 rs3 => s.fpLane [fnum rs1, fnum rs2, fnum rs3, fnum rd] fun x =>
      (rvRm x rm).map fun r => x.fpResult rd dbl
        (fpFused op (fpFmt dbl) r (fpVal dbl (x.getF rs1)) (fpVal dbl (x.getF rs2)) (fpVal dbl (x.getF rs3)))
  | .fop op dbl rm rd rs1 rs2 => s.fpLane [fnum rs1, fnum rs2, fnum rd] fun x =>
      (rvRm x rm).map fun r => x.fpResult rd dbl
        (fpArith op (fpFmt dbl) r (fpVal dbl (x.getF rs1)) (fpVal dbl (x.getF rs2)))
  | .fq op dbl rd rs1 rs2 =>
    let f := fpFmt dbl
    (match op with
     | .le | .lt | .eq => s.fpLane [fnum rs1, fnum rs2, rd.toNat] fun x =>
         let (v, fl) := fpCompare op (fpVal dbl (x.getF rs1)) (fpVal dbl (x.getF rs2))
         some (x.fpToX rd (BitVec.ofNat 64 v) fl)
     | .cls => s.fpLane [fnum rs1, rd.toNat] fun x =>
         some (x.fpToX rd (BitVec.ofNat 64 (Fp.classOf f (fpRead dbl (x.getF rs1)))) 0)
     | .mvxf => s.fpLane [fnum rs1, rd.toNat] fun x =>
         some (x.fpToX rd (if dbl then x.getF rs1 else sx32 (x.getF rs1)) 0)
     | .sgnj | .sgnjn | .sgnjx | .min | .max => s.fpLane [fnum rs1, fnum rs2, fnum rd] fun x =>
         let a := fpRead dbl (x.getF rs1)
         let b := fpRead dbl (x.getF rs2)
         some (x.fpResult rd dbl (match op with
           | .sgnj => (withSignOf f a (negCode f b), 0)
           | .sgnjn => (withSignOf f a (!negCode f b), 0)
           | .sgnjx => (withSignOf f a (negCode f a != negCode f b), 0)
           | .max => fpMinMax f true a b
           | _ => fpMinMax f false a b)))
  | .fcvtToInt ty dbl rm rd rs1 => s.fpLane [fnum rs1, rd.toNat] fun x =>
      (rvRm x rm).map fun r =>
        let (v, fl) := Fp.rvToInt (intSigned ty) (intWidth ty) r (fpVal dbl (x.getF rs1))
        x.fpToX rd (intResult ty v) fl
  | .fcvtFromInt ty dbl rm rd rs1 => s.fpLane [rs1.toNat, fnum rd] fun x =>
      (rvRm x rm).map fun r => x.fpResult rd dbl (Fp.roundInt (fpFmt dbl) r false (intValue ty (x.getX rs1)) 0)
  | .fcvtFmt toDbl rm rd rs1 => s.fpLane [fnum rs1, fnum rd] fun x =>
      (rvRm x rm).map fun r => x.fpResult rd toDbl (fpConvert (fpFmt toDbl) r (fpVal (!toDbl) (x.getF rs1)))
  | .fmvFromX dbl rd rs1 => s.fpLane [rs1.toNat, fnum rd] fun x =>
      some ((x.setF rd (fpBox dbl (if dbl then (x.getX rs1).toNat else (low32 (x.getX rs1)).toNat))).fpDirty)

/-! ## Fences -/

/-- Control-core stores of a room that their homes have not yet applied. -/
def coreStoresUnderWay (s : State) (r : Nat) : Bool :=
  let mine (i : Instr) : Bool := match storeOnWay i with | some m => m.room = r && m.who = .core | none => false
  (s.agenda.any fun a => mine a.2) || (s.msauQ.any fun q => q.2.any mine) ||
    (s.waiting.any fun m => m.store && m.room = r && m.who = .core) || s.atomsUnderWay r ≠ []

/-- `fence`: orders the control core's own accesses (R95). Loads of the predecessor set have been performed, stores of it applied at
their homes, and the atomics, which are both, performed, before the lane completes. -/
def execRvFence (_rd _rs1 : Reg) (imm : BitVec 12) (s : State) : Res :=
  .next (if (imm.getLsbD 5 || imm.getLsbD 7) && (s.me.loadPending || s.atomsUnderWay s.turn ≠ []) then s.wait
    else if (imm.getLsbD 4 || imm.getLsbD 6) && coreStoresUnderWay s s.turn then s.wait
    else s.done)
/-- `fence.i`: the room's own fetch sees its earlier control-core stores (R95). -/
def execRvFenceI (_rd _rs1 : Reg) (_imm : BitVec 12) (s : State) : Res :=
  .next (if coreStoresUnderWay s s.turn then s.wait else s.done.modMe fun x => { x with line := none })

/-! ## Fetch (R17, R19, R20) -/

/-- Address of the line of a lane. -/
def lineAddr (pc : W64) : W64 := pc &&& ~~~31#64
/-- Whether dispatch stands in the line that the room holds. -/
def Room.inLine (x : Room) : Bool := match x.line with | some (a, _) => a = lineAddr x.pc | none => false

/-- Dispatch enters a new line: it is fetched by the published RV rules, but never from a device window (R192), and a header whose nibble 0 is not 0xA raises
ILLEGAL_LANE at lane 1 (R19). -/
def execFetchLineEntry (room : Nat) (s : State) : Res :=
  .next <|
  let s := { s with turn := room }
  let x := s.me
  if x.inLine then s
  else
    let a := lineAddr x.pc
    let c := coreCtx room x true
    if (window s c .fetch a).isSome then s.exc 1 x.pc
    else
    let s := s.needTier c a
    match locateNow s c .fetch a with
    | .error f => s.rvExc (rvCause .fetch false (getField c.satp 60 4 = 15) f) x.pc
    | .ok l =>
      let s := s.fillTlb l
      let p := partOf { n := 0, va := a, w := 32 } l 0
      if l.place = .port then s.exc 1 x.pc
      else
        let s := (s.ownParts [p]).readMisses room [p]
        match partFault s p with
        | some f => (poisonRead s [p]).rvExc (if f = 5 then 53 else 1) x.pc
        | none =>
          let bits := BitVec.ofNat 256 (s.seen room s.seq p)
          let header := laneWord bits 0
          let s := s.modMe fun x => { x with line := some (a, bits) }
          if header.extractLsb' 0 4 = 0xA#4 then s
          else (s.modMe fun x => { x with pc := a + 4 }).devExc 12 (0#32 ++ header)

end Sys2Proof.Machine
end

