-- ==== Sys2Proof/Machine/Csr.lean ====
section
/-! DEFINITION. Writes of CSRs (R27, R29, R84, R96, R109, R114, R291, R352, R360, R400), interrupts and traps at a lane
boundary (R28, R58, R338, R339, R401), returns (R24) and `wfi` (R95). -/

namespace Sys2Proof.Machine

/-! ## CSR writes with rows of their own -/

/-- Bits of QSLIP and QWMARK that hold fields. -/
def qslipMask : W64 := 0x3F1F7F7F7F#64
def qwmarkMask : W64 := 0x1F001F0F3F3F3F#64
def qlpMask : W64 := 0x1F0000000000#64
/-- BANKFMT after a write: codes 8 to 15 leave their field (R114). -/
def bankfmtNew (old v : W64) : W64 :=
  (List.range 16).foldl (fun a b => if getField v (4 * b) 4 < 8 then setField a (4 * b) 4 (getField v (4 * b) 4) else a) old

/-- A write to QSLIP (R27). -/
def execQslipWrite (f3 : BitVec 3) (rd rs1 : Reg) (s : State) : Res :=
  .next (csrLane s 0x800 f3 rd rs1 true fun s v => s.modMe fun x => { x with qslip := v &&& qslipMask })
/-- A write to QWMARK: QLP bits written as 1 clear (R29). -/
def execQwmarkWrite (f3 : BitVec 3) (rd rs1 : Reg) (s : State) : Res :=
  .next (csrLane s 0x801 f3 rd rs1 true fun s v => s.modMe fun x =>
    { x with qwmark := (v &&& qwmarkMask) ||| (x.qwmark &&& qlpMask &&& ~~~v) })
/-- A write to VFLAGS: the flags that engines raise in the tick join it afterwards (R109). -/
def execVflagsWrite (f3 : BitVec 3) (rd rs1 : Reg) (s : State) : Res :=
  .next (csrLane s 0x803 f3 rd rs1 true fun s v => s.modMe fun x => { x with vflags := v &&& vflagsMask })
/-- A write to BANKFMT (R114). -/
def execBankfmtWrite (f3 : BitVec 3) (rd rs1 : Reg) (s : State) : Res :=
  .next (csrLane s 0x804 f3 rd rs1 true fun s v => s.modMe fun x => { x with bankfmt := bankfmtNew x.bankfmt v })
/-- satp after a write: MODE 0, or MODE 15 with the reserved bits clear, else unchanged (R95, R352). -/
def satpNew (old v : W64) : W64 :=
  if getField v 60 4 = 0 ∨ (getField v 60 4 = 15 ∧ getField v 36 8 = 0) then v else old
/-- A write to satp (R352). -/
def execSatpWrite (f3 : BitVec 3) (rd rs1 : Reg) (s : State) : Res :=
  .next (csrLane s 0x180 f3 rd rs1 true fun s v => s.modMe fun x =>
    { x with csr := { x.csr with satp := satpNew x.csr.satp v } })
/-- A write to HEATCFG: by tenant 0 in S or M mode, in force at the next period boundary (R360). -/
def execHeatcfgWrite (f3 : BitVec 3) (rd rs1 : Reg) (s : State) : Res :=
  .next (csrLane s 0x810 f3 rd rs1 true fun s v =>
    if s.me.tenant = 0 ∧ s.me.mode ≠ .u then
      s.modHall fun h => { h with heatNew := some (getField v 0 4, getField v 4 5) }
    else s)

/-! ## The other CSRs -/

/-- mstatus after a write of the bits of `mask`; a reserved MPP is not written. -/
def mstatusNew (old v mask : W64) : W64 :=
  let v := (old &&& ~~~mask) ||| (v &&& mask)
  if getField v 11 2 = 2 then setField v 11 2 (getField old 11 2) else v
/-- fcsr and its two views after a write. -/
def fcsrNew (n : Nat) (old v : W64) : W64 :=
  match n with
  | 1 => (old &&& ~~~0x1F#64) ||| (v &&& 0x1F#64)
  | 2 => setField old 5 3 (getField v 0 3)
  | _ => v &&& 0xFF#64
def mieMask : W64 := 0x70AAA#64
def midelegMask : W64 := 0x70222#64

/-- The RV CSRs after a write. -/
def csrSet (c : Csrs) (n : Nat) (v : W64) (disp : Nat) : Csrs :=
  match n with
  | 1 | 2 | 3 => { c with fcsr := fcsrNew n c.fcsr v, mstatus := setField c.mstatus 13 2 3 }
  | 0x100 => { c with mstatus := mstatusNew c.mstatus v sstatusMask }
  | 0x104 => { c with mie := (c.mie &&& ~~~c.mideleg) ||| (v &&& mieMask &&& c.mideleg) }
  | 0x105 => { c with stvec := v &&& ~~~2#64 }
  | 0x106 => { c with scounteren := v &&& 0xFFFFFFFF#64 }
  | 0x140 => { c with sscratch := v }
  | 0x141 => { c with sepc := laneTarget (v &&& ~~~3#64) }
  | 0x142 => { c with scause := v }
  | 0x143 => { c with stval := v }
  | 0x144 => { c with mip := (c.mip &&& ~~~(2#64 &&& c.mideleg)) ||| (v &&& 2#64 &&& c.mideleg) }
  | 0x300 => { c with mstatus := mstatusNew c.mstatus v mstatusMask }
  | 0x302 => { c with medeleg := v &&& ~~~0x800#64 }
  | 0x303 => { c with mideleg := v &&& midelegMask }
  | 0x304 => { c with mie := v &&& mieMask }
  | 0x305 => { c with mtvec := v &&& ~~~2#64 }
  | 0x306 => { c with mcounteren := v &&& 0xFFFFFFFF#64 }
  | 0x340 => { c with mscratch := v }
  | 0x341 => { c with mepc := laneTarget (v &&& ~~~3#64) }
  | 0x342 => { c with mcause := v }
  | 0x343 => { c with mtval := v }
  | 0x344 => { c with mip := v &&& 0x222#64 }
  | 0xB02 => { c with minstretOff := v - BitVec.ofNat 64 (disp + 1) }
  | _ => c

/-- A write to KEYCTL: its fields, and with OP 1 or 2 a command on the wing's key table (R291). A command written while one
is under way is ignored (DESIGN CHOICE, log entry 25). -/
def keyctlWrite (s : State) (v : W64) : State :=
  let x := s.me
  let op := getField v 28 2
  let busy := getField x.keyctl 32 2 = 1
  let kept := (v &&& 0xFFFF7FF#64) ||| (x.keyctl &&& 0x3F00000000#64)
  if op = 1 ∨ op = 2 then
    (if busy then s
     else
      let s := s.modMe fun x => { x with keyctl := setField (setField kept 32 2 1) 34 4 0 }
      s.schedule s.tick (if op = 1 then .keyRegister s.turn x.keybase v else .keyUnregister s.turn x.keybase v))
  else s.modMe fun x => { x with keyctl := kept }

/-- A write to a CSR or port register that has no row of its own (R8). Read-only device CSRs ignore it. -/
def execRegisterWrite (w : RegWrite) (s : State) : Res :=
  .next <|
  match w with
  | .csr c =>
    let n := c.csr.toNat
    csrLane s n c.f3 c.rd c.rs1 true fun s v =>
      match n with
      | 0x805 => s.modMe fun x => { x with bconf := v }
      | 0x809 => s.modMe fun x => { x with keybase := keepBits v 12 40 }
      | 0x80A => keyctlWrite s v
      | _ => s.modMe fun x => { x with csr := csrSet x.csr n v x.disp }
  | .port pa v tenant =>
    match portReg (pa - portBase) with
    | .mbcmd =>
      if getField s.hall.mbstat 0 2 = 1 then s
      else
        let s := s.modHall fun h => { h with mbop := getField v 0 8, mbstat := 1 }
        (match mbStep (getField v 0 8) with
         | some i => s.schedule s.tick i
         | none => (s.modHall fun h => { h with mbstat := 1 }).schedule s.tick .mbCommandDone)
    | .lcfg n => if tenant = 0 then portStore s (.lcfg n) v else s
    | .tsatp n => if tenant = 0 then portStore s (.tsatp n) v else s
    | p => portStore s p v

/-! ## Traps and interrupts at a lane boundary -/

/-- The interrupt that a room takes next, by the RV rules (R338, R400): those of M mode before those of S mode; 18 before
17 before 16 before the others. -/
def interruptReady (s : State) (r : Nat) : Option Nat :=
  let x := s.room r
  let c := x.csr
  let pend := mipOf s r &&& c.mie
  let mOn := x.mode ≠ .m || c.mstatus.getLsbD 3
  let sOn := x.mode = .u || (x.mode = .s && c.mstatus.getLsbD 1)
  let order := [18, 17, 16, 9, 1, 5]
  match (if mOn then order.find? fun i => pend.getLsbD i && !c.mideleg.getLsbD i else none) with
  | some i => some i
  | none => if sOn then order.find? fun i => pend.getLsbD i && c.mideleg.getLsbD i else none

/-- Whether a hold may end for a trap (R78, R279 and the references): not one whose request has left and will be answered. -/
def Hold.breaks : Hold → Bool
  | .none | .tsig | .twait | .efence _ _ _ _ _ | .cqPop _ | .calWait _ | .jobWait _ | .fenceV | .keyGet _ _ | .barWait _
  | .monWait _ _ | .iterEnd | .wfi => true
  | .answer _ | .cbPull _ _ | .qSave _ _ _ _ _ | .qLoad | .thread _ _ | .tlbInv _ _ | .filtSet | .calSet | .attic _ | .fenceI
  | .keyPass _ _ => false

/-- What a hold that ends without effect leaves: a waiting room leaves the queue for a key and the waits of a barrier. -/
def State.endHold (s : State) (r : Nat) : State :=
  match (s.room r).hold with
  | .keyGet w slot =>
    let f (k : Key) : Key := if k.slot = slot then { k with queue := k.queue.filter (· ≠ r) } else k
    s.modWing w fun x => { x with keys := x.keys.map f }
  | .barWait id => { s with barHeld := s.barHeld.filter fun b => !(b.room = r && b.id = id) }
  | _ => s

/-- The trap that a room's lane boundary would take now: a refused request's exception before an interrupt (R58, R338). -/
def trapDue (s : State) (r : Nat) : Option Trap :=
  let x := s.room r
  if x.run.isNone ∨ x.dying.isSome ∨ (x.hold = .none ∧ s.tick < x.nextDispatch) then none
  else match x.misuse with
    | m :: _ => some { int := false, code := m.code, tval := m.tval, lane := if 48 ≤ m.code then some m.lane else none,
                        outc := m.outc }
    | [] => (interruptReady s r).map fun i => { int := true, code := i, tval := 0 }

/-- The trap that a room takes at its lane boundary, or that ends its hold: from then on it dispatches no lane (R77, R78). -/
def trapNow (s : State) (r : Nat) : Option Trap := if (s.room r).hold.breaks then trapDue s r else none
/-- The handler can be entered: no deferred answer is outstanding (R77). A `pw.drop` or `pr.rel` counts until its decision
(DESIGN CHOICE, log entry 55). -/
def trapTaken (s : State) (r : Nat) : Option Trap := if (s.room r).deferred = 0 then trapNow s r else none

/-- The control core takes a trap or an interrupt (R28). xepc is the lane not yet dispatched; after `wfi`, which has then been
executed, the next one. -/
def execTrap (room : Nat) (s : State) : Res :=
  .next <|
  match trapTaken s room with
  | none => s
  | some t =>
    let x := s.room room
    let epc := if x.hold = .wfi then nextPc x.pc else x.pc
    let s := s.endHold room
    let s := s.modRoom room fun x => { x with misuse := if t.int then x.misuse else x.misuse.drop 1,
                                               disp := if x.hold = .wfi then x.disp + 1 else x.disp }
    takeTrap s room t epc

/-- `mret` and `sret` (R24). -/
def execXret (m : Bool) (s : State) : Res :=
  .next <|
  let x := s.me
  if (if m then x.mode ≠ .m else x.mode = .u ∨ (x.mode = .s ∧ x.csr.mstatus.getLsbD 22)) then s.illegal
  else s.modMe fun x => returnTrap x s.tick m

/-- `wfi`: stops dispatch until an interrupt is pending (R95). -/
def execWfi (s : State) : Res :=
  .next <|
  let x := s.me
  if mipOf s s.turn &&& x.csr.mie ≠ 0 then s.done
  else if x.mode ≠ .m ∧ x.csr.mstatus.getLsbD 21 then s.illegal
  else s.holdOn .wfi
/-- A `wfi` that an interrupt which is not enabled has ended. -/
def wfiEnds (s : State) (r : Nat) : Bool :=
  let x := s.room r
  x.hold = .wfi && decide (mipOf s r &&& x.csr.mie ≠ 0)

end Sys2Proof.Machine
end

