-- ==== Sys2Proof/Machine/Pools.lean ====
section
/-! DEFINITION. Slot pools: registration (R49 to R51), decisions (R52 to R56, R58), kills (R61), and the six pool
instructions (R57, R85, R86). -/

namespace Sys2Proof

/-- A slot of a pool. -/
def Machine.Pool.slot (p : Machine.Pool) (i : Nat) : Machine.Slot := tget {} p.slots i

end Sys2Proof

namespace Sys2Proof.Machine

/-! ## Answers to x registers -/

/-- The answer of a request of the room's lane `lane`, with a value for xd. -/
def valueAnswer (id : Nat) (v lane : W64) (word : W32) : Answer :=
  { id := id, value := v, write := true, misuse := none, va := 0, lane := lane, word := word, bar := none }

/-- The next message number is awaited for xd as a deferred answer, and the lane has dispatched. -/
def State.deferX (s : State) (rd : Reg) : State :=
  (s.modMe fun x => (x.await s.seq [rd.toNat] true).retire s.tick).nextId

/-! ## State of a pool (R52) -/

def Pool.setState (p : Pool) (i st : Nat) : Pool := { p with slots := tmod {} p.slots i fun l => { l with state := st } }
def Pool.held? (p : Pool) (r : Nat) : Option Nat := tget none p.held r
def Pool.holder? (p : Pool) (r : Nat) : Option Nat := tget none p.holder r
/-- Address of slot i (R12). -/
def Pool.addr (p : Pool) (i : Nat) : W64 := p.base + BitVec.ofNat 64 i * p.stride

/-- The COMPLETE slot with the largest SEQ among those that `ok` admits. -/
def Pool.newest (p : Pool) (ok : Slot → Bool) : Option Nat :=
  (List.range p.nslot).foldl (fun b i =>
    let l := p.slot i
    if l.state = 2 ∧ ok l then
      (match b with
       | none => some i
       | some j => if (p.slot j).seq < l.seq then some i else b)
    else b) none
/-- latest (R52). -/
def Pool.latest (p : Pool) : Option Nat := p.newest fun _ => true
/-- visible(t) (R52). -/
def Pool.visible (p : Pool) (t : Nat) : Option Nat := p.newest fun l => decide (l.ct ≤ t)

/-- Whether some reader holds slot i. -/
def Pool.heldBySome (p : Pool) (i : Nat) : Bool := (List.range p.nread).any fun r => p.held? r = some i

/-- ABANDONED slots become FREE (R55, choose). -/
def Pool.freeAbandoned (p : Pool) : Pool :=
  (List.range p.nslot).foldl (fun q i => if (q.slot i).state = 3 then q.setState i 0 else q) p

/-- The slot that an open takes (R55, choose), of a pool without ABANDONED slots. -/
def Pool.choose (p : Pool) (t : Nat) : Nat :=
  let cand := (List.range p.nslot).filter fun i =>
    (p.slot i).state ≠ 1 && decide (some i ≠ p.latest) && !p.heldBySome i
  let v := p.visible t
  let cand2 := cand.filter fun i => decide (some i ≠ v)
  let c := if v ≠ p.latest ∧ cand2 ≠ [] then cand2 else cand
  c.headD 0

/-- Opens a slot for a room (R55). -/
def Pool.openFor (p : Pool) (t : Nat) (q : PoolReq) : Pool × W64 :=
  let p := p.freeAbandoned
  let n := p.choose t
  ({ p.setState n 1 with wslot := some n, writer := some q.room, wIter := q.iter }, p.addr n)

/-- Completes the slot being written (R55). -/
def Pool.complete (p : Pool) (w t h : Nat) : Pool :=
  let n := p.ncommit + 1
  { p with ncommit := n, slots := tset {} p.slots w { state := 2, seq := n, ct := max t h }, wslot := none }

/-- The word of `p.stat` (R56). -/
def Pool.statWord (p : Pool) (t sel : Nat) : W64 :=
  let idx (o : Option Nat) : Nat := o.getD 0xFF
  if sel < p.nslot then
    let l := p.slot sel
    if l.state = 2 then BitVec.ofNat 32 l.ct ++ BitVec.ofNat 24 l.seq ++ 0#6 ++ BitVec.ofNat 2 l.state
    else BitVec.ofNat 64 l.state
  else if 64 ≤ sel ∧ sel < 64 + p.nread then
    BitVec.ofNat 48 ((p.holder? (sel - 64)).getD 0 % 256) ++ 0#8 ++ BitVec.ofNat 8 (idx (p.held? (sel - 64)))
  else if sel = 128 then
    BitVec.ofNat 40 p.ncommit ++ BitVec.ofNat 8 (idx p.wslot) ++ BitVec.ofNat 8 (idx (p.visible t)) ++
      BitVec.ofNat 8 (idx p.latest)
  else 0

/-- The result word of `pr.acq` (R13, R55). -/
def Pool.acqWord (p : Pool) (t : Nat) (v : Option Nat) : W64 :=
  match v with
  | none => 0x000000FFFFFFFFFF#64
  | some i => BitVec.ofNat 24 (p.slot i).seq ++ BitVec.ofNat 32 (min (t - (p.slot i).ct) 0xFFFFFFFE) ++ BitVec.ofNat 8 i

/-- A decision at tick t: the pool after it and the word for xd, or none for a refused request (R55, R56, R58). Whether a
`pw.commit` with a reserved bit of xs2 set is refused (R58) or the bit is ignored (R12) the spec leaves open: a value of
Config (DESIGN CHOICE, log entry 21). -/
def Pool.decide (p : Pool) (t : Nat) (q : PoolReq) : Option (Pool × W64) :=
  if q.tenant ≠ p.tenant then none else
  match q.op with
  | .open =>
    some ((match p.wslot with | some w => p.setState w 0 | none => p).openFor t q)
  | .commit =>
    (match p.wslot with
     | none => none
     | some w =>
       if p.writer ≠ some q.room ∨ (q.xs2.toNat / 2 ≠ 0 ∧ Config.reservedCommitRefused = true) then none
       else
         let p1 := p.complete w t q.hz
         if q.xs2.getLsbD 0 then some (p1.openFor t q)
         else some (p1, BitVec.ofNat 64 (max t q.hz)))
  | .drop =>
    (match p.wslot with
     | none => some (p, 0)
     | some w => if p.writer ≠ some q.room then none else some ({ p.setState w 0 with wslot := none }, 0))
  | .acq =>
    let r := q.xs2.toNat
    if p.nread ≤ r then none
    else
      let v := p.visible t
      some ({ p with holder := tset none p.holder r (some q.room), hIter := tset (0, 0) p.hIter r q.iter,
                     held := tset none p.held r v }, p.acqWord t v)
  | .rel =>
    let r := q.xs2.toNat
    if p.nread ≤ r then none else some ({ p with held := tset none p.held r none }, 0)
  | .stat => some (p, p.statWord t q.xs2.toNat)

/-- The wing that holds a registered descriptor. -/
def State.poolHome (s : State) (dpa : Nat) : Option Nat :=
  (List.range 4).find? fun w => (s.wing w).pools.any fun p => p.dpa = dpa
def State.pool? (s : State) (w dpa : Nat) : Option Pool := (s.wing w).pools.find? fun p => p.dpa = dpa
def State.setPool (s : State) (w : Nat) (p : Pool) : State :=
  s.modWing w fun x => { x with pools := x.pools.map fun q => if q.dpa = p.dpa then p else q }

/-- Whether an operation has an xd. -/
def PoolOpHasX : PoolOp → Bool
  | .drop | .rel => false
  | .open | .commit | .acq | .stat => true

/-- Ticks from the decision to the answer: 1 in the requester's wing, 4 from another (R10, R53). -/
def poolReturn (q : PoolReq) : Nat := if q.wing = wingOf q.room then 1 else 4

/-- A pool controller decides a request (R55). A refused request's answer is all ones, with a POOL_MISUSE trap (R58). -/
def execPoolDecision (r : PoolReq) (s : State) : Res :=
  let refuse (s : State) : State :=
    let a : Answer := { id := r.id, value := -1, write := PoolOpHasX r.op, misuse := some 55, va := 0#32 ++ r.word,
                        lane := r.lane, word := r.word, bar := none }
    s.schedule (s.tick + poolReturn r) (.deferredAnswer r.room a)
  let free (s : State) : State := if PoolOpHasX r.op then s else s.modRoom r.room fun x => x.answered r.id
  let uncount (o : Out) : Out := if o.id = r.id ∧ !PoolOpHasX r.op then { o with deferred := false } else o
  let refuse (s : State) : State := refuse (s.modRoom r.room fun x => { x with outs := x.outs.map uncount })
  .next <|
  match s.pool? r.wing r.dpa with
  | none => refuse s
  | some p =>
    match p.decide s.tick r with
    | none => refuse s
    | some (p', v) =>
      let s := s.setPool r.wing p'
      if PoolOpHasX r.op then
        s.schedule (s.tick + poolReturn r) (.deferredAnswer r.room (valueAnswer r.id v r.lane r.word))
      else free s

/-- Abandonment and releases by a kill (R61, R336): of a writer or last acquirer that is the room of a killed iteration (R52), or
that was a killed iteration before it was parked (DESIGN CHOICE, log entry 56). -/
def Pool.kill (p : Pool) (rooms : List Nat) (iters : List (Nat × Nat)) : Pool :=
  let p := match p.writer, p.wslot with
    | some r, some i =>
      if rooms.contains r || iters.contains p.wIter then { p.setState i 3 with wslot := none, writer := none } else p
    | _, _ => p
  (List.range p.nread).foldl (fun q r =>
    match q.holder? r with
    | some h => if rooms.contains h || iters.contains (tget (0, 0) q.hIter r) then { q with held := tset none q.held r none } else q
    | none => q) p

/-- Place of a journal record of a queue entry before another of its iteration: by queue, L, V, S, M, C, then from the head
(R350). -/
def recBefore (a b : BitVec 256) : Bool :=
  let q (x : BitVec 256) : Nat := (x.extractLsb' 64 3).toNat
  if q a = q b then decide ((b.extractLsb' 96 32 - a.extractLsb' 96 32).toNat < 2 ^ 31) else decide (q a < q b)
/-- A record joins those of its iteration's entries at its place (R350). -/
def insertRecord (a : BitVec 256) : List (BitVec 256) → List (BitVec 256)
  | [] => [a]
  | b :: l => if recBefore a b then a :: b :: l else b :: insertRecord a l

/-- An entry of a killed room has come to its end: one of L, V and S that had issued is finished, one of C and M finished or stopped
at a block's end (R349). -/
def Room.entryEnded (x : Room) (now : Nat) (e : Eng) (n : Entry) : Bool :=
  n.pushWait || n.fault.isSome || x.halts e n || n.done now || ((e = .c || e = .m) && n.more.isNone && n.msgs = [])
/-- The engines of a killed room have come to their end. When K may be put off no longer, only those of S and C, which may still store,
are waited for (R380; DESIGN CHOICE, log entry 97). -/
def State.enginesEnded (s : State) (late : Bool) (r : Nat) : Bool :=
  let x := s.room r
  allEng.all fun e => (late && e ≠ .s && e ≠ .c) || (x.queue e).q.all (x.entryEnded s.tick e)
/-- K has come: what is left of an L, V or M entry goes no further. -/
def State.cutEngines (s : State) (r : Nat) : State :=
  let cut (x : Room) (e : Eng) : Room := x.modQueue e fun q => { q with q := q.q.filter (x.entryEnded s.tick e) }
  s.modRoom r fun x => [Eng.l, .v, .m].foldl cut x
/-- The accumulators of the nests that a kill has stopped are undefined (R349). -/
def State.loseAccumulators (s : State) (r : Nat) : State :=
  let free (i : Nat) : W32 := Config.killedAccumulator (16384 * s.fresh + i)
  let lose (x : Room) (n : Entry) : Room :=
    match n.nest with
    | some t => if n.issued.isSome ∧ !n.pushWait then { x with z := tmod {} x.z t.acc fun a => { a with el := tofn 0 16384 free } } else x
    | none => x
  (s.modRoom r fun x => x.qm.q.foldl lose x).bump

/-- All stores of the rooms of a kill have been applied: their buffered ones too. -/
def storesApplied (s : State) (rooms : List Nat) : Bool :=
  !rooms.any s.buffers && decide (storesUnderWay s rooms = []) && !storesHeld s rooms
/-- A kill that has reached no K yet, with the last tick that K may be: 64 ticks after the last store has been applied (R380). -/
def killWaits (k : KillReq) (s : State) : KillReq :=
  { k with till := if storesApplied s k.rooms then some (k.till.getD (s.tick + 62)) else none }
/-- K may be put off no longer. -/
def killLate (k : KillReq) (now : Nat) : Bool := match k.till with | some t => decide (t ≤ now) | none => false

/-- At K, before any decision of the tick, the kill's effect reaches the pool controllers (R54, R61); it waits until the rooms'
engines have ended and every store of theirs, their buffered ones too, has been applied (R336), within the bound of R380. Their keys
pass then (R293).
The journal gets a record of each entry that a fault holds since the kill (R350). The rooms are free from K + 1 (R349), and the
CBUs follow in the tick. -/
def execKillPoolEffect (k : KillReq) (s : State) : Res :=
  .next <|
  let later (s : State) : State := s.schedule (s.tick + 1) (.killPoolEffect (killWaits k s))
  if !k.rooms.all (s.enginesEnded (killLate k s.tick)) then later s
  else if k.rooms.any s.buffers then later (k.rooms.foldl State.drainRoom s)
  else if storesUnderWay s k.rooms ≠ [] ∨ storesHeld s k.rooms then later s
  else
    let s := k.rooms.foldl State.cutEngines (k.rooms.foldl State.loseAccumulators (k.rooms.foldl State.passRoom s))
    let s := (List.range 4).foldl (fun s w =>
      s.modWing w fun x => { x with pools := x.pools.map fun p => p.kill k.rooms k.iters }) s
    let s := k.rooms.foldl (fun s r =>
      let l := entryRecords s r k.cause k.kroom (BitVec.ofNat 64 k.tick)
      s.modRoom r fun x => { x with dying := x.dying.map fun d =>
        (some s.tick, l.foldl (fun m a => insertRecord a m) d.2.dropLast ++ d.2.drop (d.2.length - 1)) }) s
    s.schedule s.tick (.killCbuEffect k)

/-! ## The registration port (R50, R51) -/

/-- Fields of a descriptor (R49). -/
def descNslot (d : BitVec 512) : Nat := (d.extractLsb' 0 8).toNat
def descNread (d : BitVec 512) : Nat := (d.extractLsb' 8 8).toNat
def descHome (d : BitVec 512) : Nat := (d.extractLsb' 16 2).toNat
def descBase (d : BitVec 512) : W64 := d.extractLsb' 64 64
def descStride (d : BitVec 512) : W64 := d.extractLsb' 128 64
def descSize (d : BitVec 512) : Nat := (d.extractLsb' 192 32).toNat

/-- Reserved fields of PCMD. -/
def pcmdReserved (v : W64) : Bool := decide (getField v 0 6 ≠ 0) || decide (getField v 58 6 ≠ 0)
/-- The descriptor's address in PCMD. -/
def pcmdDpa (v : W64) : Nat := getField v 6 46 * 64

/-- The descriptor as a part of memory: in a page that is sealed, where its lines stand (R359). -/
def descPart (s : State) (dpa : Nat) : Part :=
  { pos := 0, va := 0, place := if rangeOf dpa = .tier then .tier else .hbm, key := s.movedPa dpa, w := 64, data := 0, ms := false,
    watch := false, cmp := false, heat := false }
/-- Whether the descriptor's bytes can be read (REASON 9). -/
def descReadable (s : State) (dpa : Nat) : Bool :=
  (match rangeOf dpa with
   | .hbm => true
   | .tier => (tierEntry s dpa).getLsbD 0 && !s.lost .tier dpa
   | .repl | .port | .nothing => false) && !s.poisoned (s.movedPa dpa) 64
/-- The descriptor at an address. -/
def descAt (s : State) (dpa : Nat) : BitVec 512 := BitVec.ofNat 512 (s.read (s.movedPa dpa) 64)

/-- The first REASON for which a register command is refused; 0 for none (R51). -/
def regReason (s : State) (w : Nat) (v : W64) : Nat :=
  let dpa := pcmdDpa v
  let d := descAt s dpa
  if !descReadable s dpa then 9
  else if descNslot d < 2 ∨ 64 < descNslot d then 1
  else if descNslot d - 2 < descNread d then 2
  else if getField (descBase d) 0 7 ≠ 0 ∨ getField (descStride d) 0 7 ≠ 0 then 3
  else if descSize d = 0 ∨ 2 ^ 29 < descSize d ∨ (descStride d).toNat < descSize d then 4
  else if descHome d ≠ w then 5
  else if 1024 ≤ (s.wing w).pools.length then 6
  else if (s.poolHome dpa).isSome then 7
  else if pcmdReserved v ∨ d.extractLsb' 18 46 ≠ 0 ∨ d.extractLsb' 224 288 ≠ 0 then 8
  else 0

/-- The lowest index that no pool of a wing has: R51 does not say which index a registration gets (DESIGN CHOICE, log entry
64). -/
def freePoolIndex (l : List Pool) : Nat := ((List.range 1024).find? fun i => !l.any fun p => p.idx = i).getD 0

/-- A registered pool in its first state (R51). -/
def newPool (d : BitVec 512) (dpa idx tenant : Nat) : Pool :=
  { dpa := dpa, idx := idx, tenant := tenant, nslot := descNslot d, nread := descNread d, base := descBase d,
    stride := descStride d, size := descSize d }

/-- PRES of a command that is refused with `reason`, or done with 0. -/
def presResult (pres : W64) (reason : Nat) : W64 :=
  if reason = 0 then setField pres 0 8 0 else setField pres 0 8 (2 + 4 * reason)

/-- The tick by which a PCMD command completes, 64 ticks after its write (R50); none for a command that is ignored, since another
one is under way. -/
def pcmdBy (s : State) (w : Nat) (v : W64) : Option Nat :=
  let x := s.wing w
  if getField x.pres 0 2 ≠ 1 then some (s.tick + 64) else if x.pcmd = v then x.pcmdBy else none
/-- Runs a registration command of tenant 0 in the first of tenant 0's slots at the wing's controller (R245), or at the end of the
64 ticks of R50 if none comes in them (DEDUCED, log entry 64). From its write on STATUS is busy. -/
def State.whenPort (s : State) (w : Nat) (v : W64) (i : Instr) (f : State → Nat → State) : State :=
  match pcmdBy s w v with
  | none => s
  | some by_ =>
    if s.mayServe (calUnit 4 w) 0 s.tick || decide (by_ ≤ s.tick) then f (s.modWing w fun x => { x with pcmd := v }) by_
    else (s.modWing w fun x => { x with pcmd := v, pcmdBy := some by_, pres := setField x.pres 0 8 1 }).schedule
      (min by_ (s.serveTick (calUnit 4 w) 0 s.tick)) i
/-- The tick at which a controller completes a command that it has carried out. -/
def State.pcmdTick (s : State) (by_ : Nat) : Nat := min by_ s.boundedTick
/-- A PCMD command has been carried out: STATUS stays busy until it completes. -/
def pcmdBusy (s : State) (w by_ : Nat) (res : W64) : State :=
  ((s.modWing w fun x => { x with pcmdRes := res, pcmdBy := none, pres := setField x.pres 0 8 1 }).schedule (s.pcmdTick by_)
    (.poolCommandDone w)).bump

/-- Carries out OP 1 of PCMD: reads the descriptor, whose granules the bridge obtains (R295, R299), and registers the pool, or
refuses (R51). -/
def poolRegister (w : Nat) (v : W64) (s : State) (by_ : Nat) : State :=
  let s := s.holdTier (pcmdDpa v)
  let s := if descReadable s (pcmdDpa v) then s.ownParts [descPart s (pcmdDpa v)] else s
  let x := s.wing w
  let reason := regReason s w v
  let dpa := pcmdDpa v
  let idx := freePoolIndex x.pools
  let res := presResult x.pres reason
  if reason = 0 then
    let p := newPool (descAt s dpa) dpa idx (getField v 52 4)
    pcmdBusy (s.modWing w fun x => { x with pools := x.pools ++ [p] }) w by_ (setField res 16 12 (1024 * w + idx))
  else pcmdBusy s w by_ res
/-- OP 1 of PCMD. Ignored while STATUS is busy. The descriptor is read, and the pool appears, in the tick in which the controller
serves the command: R50 does not say which of the command's 64 (DESIGN CHOICE, log entry 64). -/
def execPoolRegister (wing : Nat) (v : W64) (s : State) : Res :=
  .next (s.whenPort wing v (.poolRegister wing v) (poolRegister wing v))

/-- Carries out OP 2 of PCMD: removes a pool, or refuses with REASON 8 or 7 (R51). -/
def poolUnregister (w : Nat) (v : W64) (s : State) (by_ : Nat) : State :=
  let dpa := pcmdDpa v
  let reason := if pcmdReserved v then 8 else if (s.pool? w dpa).isSome then 0 else 7
  let s := if reason = 0 then s.modWing w fun x => { x with pools := x.pools.filter fun p => p.dpa ≠ dpa } else s
  pcmdBusy s w by_ (presResult (s.wing w).pres reason)
/-- OP 2 of PCMD. Ignored while STATUS is busy. The pool disappears in the tick in which the controller serves the command (DESIGN
CHOICE, log entry 64). -/
def execPoolUnregister (wing : Nat) (v : W64) (s : State) : Res :=
  .next (s.whenPort wing v (.poolUnregister wing v) (poolUnregister wing v))

/-- The command completes: PRES shows its result (R50). -/
def execPoolCommandDone (wing : Nat) (s : State) : Res :=
  .next (s.modWing wing fun x => if getField x.pres 0 2 = 1 then { x with pres := x.pcmdRes } else x)

/-! ## The six pool instructions (R53, R57, R86) -/

/-- Where a room keeps the decision tick of its last pool request, in `lastDue`. -/
def poolKey : Nat := 10
/-- Sends a pool request. The descriptor's home decides after 1 or 4 ticks (R10, R53); while an earlier request of the room would be
decided later than that, the lane waits, as requests are decided in the order of their dispatch (R85; DEDUCED, log entry 63). The
wing of a pool that is not registered is the requester's own (DESIGN CHOICE, log entry 22). -/
def sendPool (op : PoolOp) (rd : Reg) (xs2 : W64) (s : State) (l : Loc) : State :=
  let x := s.me
  let dpa := l.key
  let own := wingOf s.turn
  let w := (s.poolHome dpa).getD own
  let q : PoolReq := { room := s.turn, iter := x.iter, tenant := x.tenant, wing := w, op := op, dpa := dpa, xs2 := xs2, hz := x.horizon,
                       rd := rd, id := s.seq, lane := x.pc, word := x.curWord, sent := s.tick }
  let due := s.tick + if w = own then 1 else 4
  if due < tget 0 x.lastDue poolKey then s.wait
  else ((s.modMe fun x => { x with lastDue := tset 0 x.lastDue poolKey due }).schedule due (.poolDecision q)).deferX rd

/-- `pr.acq` and `pr.rel` leave only once every earlier control-core load has been performed (R312). -/
def poolWaits (op : PoolOp) (x : Room) : Bool :=
  match op with
  | .acq | .rel => x.loadPending
  | .commit => x.vhzPend
  | .open | .drop | .stat => false

/-- A pool instruction: xs1 names the descriptor (R53). `pw.commit` does not dispatch while PEND is 1 (R288). -/
def poolLane (op : PoolOp) (xd xs1 xs2 : Reg) (s : State) : State :=
  s.whenTo [xd] [xs1, xs2] fun x => if poolWaits op x then (s.drainRoom s.turn).wait else s.whenSlot (s.withLoc 64 (x.getX xs1) fun s l =>
    sendPool op xd (x.getX xs2) s l)

/-- `pw.open` (R55). -/
def execPwOpen (xd xs1 : Reg) (s : State) : Res := .next (poolLane .open xd xs1 0 s)
/-- `pw.commit` (R55). -/
def execPwCommit (xd xs1 xs2 : Reg) (s : State) : Res := .next (poolLane .commit xd xs1 xs2 s)
/-- `pw.drop` (R55). -/
def execPwDrop (xs1 : Reg) (s : State) : Res := .next (poolLane .drop 0 xs1 0 s)
/-- `pr.acq` (R55). -/
def execPrAcq (xd xs1 xs2 : Reg) (s : State) : Res := .next (poolLane .acq xd xs1 xs2 s)
/-- `pr.rel` (R55). -/
def execPrRel (xs1 xs2 : Reg) (s : State) : Res := .next (poolLane .rel 0 xs1 xs2 s)
/-- `p.stat` (R56). -/
def execPStat (xd xs1 xs2 : Reg) (s : State) : Res := .next (poolLane .stat xd xs1 xs2 s)

end Sys2Proof.Machine
end

