-- ==== Sys2Proof/Machine/Control.lean ====
section
/-! DEFINITION. The control core's own device instructions (R77 to R93): tokens, `efence`, the control queue, the bit
network, time, the end of an iteration, and the answers that return to x registers. -/

namespace Sys2Proof.Machine

/-! ## Answers (R9, R77, R58, R319, R328) -/

/-- BARREC after an arrival at the barrier with a key, unless its answer reports an over-arrival (R319). -/
def barRecord (old : W64) (key : Option Nat) (v : W64) : W64 :=
  match key with
  | some k => if v.getLsbD 63 then old else BitVec.ofNat 47 (k / 32) ++ 1#1 ++ v.extractLsb' 0 16
  | none => old

/-- What an answer leaves in its room: the register, BARREC, and the exception of a refused request. -/
def Room.takeAnswer (x : Room) (o : Out) (a : Answer) : Room :=
  let rd : Reg := BitVec.ofNat 5 (o.regs.headD 0)
  let x := if a.write then x.setX rd a.value else x
  let x := { x with barrec := barRecord x.barrec a.bar a.value }
  let x : Room := match a.misuse with
    | some c => { x with misuse := x.misuse ++ [⟨c, a.va, a.lane, a.word, 0⟩] }
    | none => x
  x.answered a.id

/-- A deferred answer is written into its register (R77). An answer that nobody awaits any more is dropped. After a `cb.pull`
the next lane dispatches in this tick, or, when the pull was held, in the next (R224). -/
def State.takeDeferred (s : State) (room : Nat) (a : Answer) : State :=
  s.modRoom room fun x =>
    match x.outs.find? fun o => o.id = a.id with
    | some o =>
      let y := x.takeAnswer o a
      match x.hold with
      | .answer id => if id ≠ a.id then y else if a.misuse.isNone then y.retire s.tick else y.holdOn .none
      | .cbPull id _ => if id ≠ a.id then y else y.retire (if a.held then s.tick else s.tick - 1)
      | _ => y
    | none => x
/-- The target counter of a window, as the hall holds it (R332); of another package's window the spec bounds it nowhere. -/
def targetCount (s : State) (tenant : Nat) (h : W64) : W64 :=
  if s.farHandle h then Config.remoteCount h.toNat s.fresh
  else match s.window? tenant h with | some w => w.target | none => 0
/-- The word of `heat.rd` (R376). -/
def heatWord (s : State) (page : Option Nat) (bit : Bool) : W64 :=
  BitVec.ofNat 64 ((match page with | some p => s.heatValue p | none => 2 ^ 17) + (if bit then 2 ^ 16 else 0))
/-- The nibble of a sector (R366). -/
def sectorNibble (s : State) (tenant mdx sec : Nat) : Nat :=
  let d := sectorDesc s tenant mdx sec
  if recordBad s tenant mdx ∨ descPoison d then 15 else if descRaw d then 8 else min 8 (descNch d)
/-- The word of `cmp.stat` (R377). -/
def cmpWord (s : State) (tenant mdx : Nat) : W64 :=
  BitVec.ofNat 64 ((List.range 16).foldl (fun a i => a + 16 ^ i * sectorNibble s tenant mdx i) 0)
/-- Whether a tenant may read an element of another (R351). -/
def mayRead (tenant owner : Nat) : Bool := tenant = 0 || tenant = owner
/-- The word of a pool, by its package number, that a tenant reads (R351). -/
def poolWord (s : State) (tenant u sel : Nat) : W64 :=
  match (s.wing (u / 1024)).pools.find? fun p => p.idx = u % 1024 with
  | some p => if u < 4096 ∧ mayRead tenant p.tenant then p.statWord s.tick sel else 0
  | none => 0
/-- What a unit reads for an answer in its decision tick. -/
def askedValue (s : State) (room : Nat) : Ask → W64
  | .target h => targetCount s (s.room room).tenant h
  | .heat page bit => heatWord s page bit
  | .sectors tenant mdx => cmpWord s tenant mdx
  | .pool tenant u sel => poolWord s tenant u sel
/-- A request that waits at its unit: a pool controller reads out in a slot of the tenant, under the table in force (R245, R246). -/
def askWaits (s : State) : Ask → Option Nat
  | .pool tenant u _ =>
    let c := calUnit 4 (u / 1024)
    if u < 4096 ∧ s.mayServe c tenant s.tick = false then some (s.serveTick c tenant s.tick) else none
  | .target _ | .heat _ _ | .sectors _ _ => none
/-- A deferred answer returns to its room (R77). A request that a unit has yet to decide first reaches it, and the unit, in its slot,
reads the value and sends the answer (R332, R351, R376, R377). -/
def execDeferredAnswer (room : Nat) (a : Answer) (s : State) : Res :=
  .next (match a.ask with
    | some q =>
      (match askWaits s q with
       | some t => s.schedule t (.deferredAnswer room a)
       | none => (s.schedule s.openTick (.deferredAnswer room { a with value := askedValue s room q, ask := none })).bump)
    | none => s.takeDeferred room a)

/-! ## Tokens (R79, R80) -/

/-- The X to C token is pushed, or the lane holds. -/
def Room.tsigPushes (x : Room) : Bool := decide (x.tokenCount tokXC < 31)
/-- The C to X token can be popped. -/
def Room.twaitPops (x : Room) : Bool := decide (1 ≤ x.tokens tokCX)
/-- `tsig` (R79). -/
def execTsig (s : State) : Res :=
  .next (if s.me.tsigPushes then s.modMe fun x => x.release.retire s.tick else s.holdOn .tsig)
/-- `twait` (R79). -/
def execTwait (s : State) : Res :=
  .next (if s.me.twaitPops then s.modMe fun x => (x.popToken tokCX).retire s.tick else s.holdOn .twait)
/-- A held `tsig` pushes once the counter is below 31 (R79). -/
def execTsigPush (room : Nat) (s : State) : Res :=
  .next (s.modRoom room fun x =>
    if x.hold = .tsig ∧ x.tsigPushes then x.release.retire s.tick else x)
/-- A held `twait` pops once the counter is at least 1 (R79). -/
def execTwaitPop (room : Nat) (s : State) : Res :=
  .next (s.modRoom room fun x =>
    if x.hold = .twait ∧ x.twaitPops then (x.popToken tokCX).retire s.tick else x)

/-! ## efence (R81) -/

/-- The last entry of a queue, which an `efence` that names the queue waits for. -/
def Room.lastOf (x : Room) (m : Reg) (i : Nat) (e : Eng) : Option Nat :=
  if m.getLsbD i then ((x.queue e).q.getLast?).map (·.qpos) else none
/-- An entry that an `efence` waits for is still in its queue. -/
def Queue.holds (q : Queue) (p : Option Nat) : Bool := match p with | some p => q.q.any fun n => n.qpos = p | none => false
/-- Every entry that an `efence` waits for has retired. -/
def Room.efenceDone (x : Room) : Bool :=
  match x.hold with
  | .efence l v s m c => !(x.ql.holds l || x.qv.holds v || x.qs.holds s || x.qm.holds m || x.qc.holds c)
  | _ => false
/-- `efence m` (R81): the mask bits 0 to 4 name L, V, S, M, C. -/
def execEfence (m : Reg) (s : State) : Res :=
  .next (s.modMe fun x =>
    let x := x.holdOn (.efence (x.lastOf m 0 .l) (x.lastOf m 1 .v) (x.lastOf m 2 .s) (x.lastOf m 3 .m) (x.lastOf m 4 .c))
    if x.efenceDone then x.retire s.tick else x)
/-- An `efence` releases once the entries have retired (R81). -/
def execEfenceRelease (room : Nat) (s : State) : Res :=
  .next (s.modRoom room fun x => if x.efenceDone then x.retire s.tick else x)

/-! ## The control queue (R83, R84) -/

/-- The oldest value, if it was pushed before this tick (R83). -/
def Room.cqOldest (x : Room) (now : Nat) : Option W64 :=
  match x.cq with | (v, t) :: _ => if t < now then some v else none | [] => none
/-- `cq.pop` (R83). -/
def execCqPop (xd : Reg) (s : State) : Res :=
  .next (s.whenTo [xd] [] fun x =>
    match x.cqOldest s.tick with
    | some v => s.modMe fun x => (({ x with cq := x.cq.drop 1 }).setX xd v).retire s.tick
    | none => s.holdOn (.cqPop xd))
/-- A held `cq.pop` takes the oldest value (R83). -/
def execCqPopTake (room : Nat) (s : State) : Res :=
  .next (s.modRoom room fun x =>
    match x.hold, x.cqOldest s.tick with
    | .cqPop xd, some v => (({ x with cq := x.cq.drop 1 }).setX xd v).retire s.tick
    | _, _ => x)
/-- `cq.try` (R83, R84). -/
def execCqTry (xd : Reg) (s : State) : Res :=
  .next (s.whenTo [xd] [] fun x =>
    match x.cqOldest s.tick with
    | some v => s.modMe fun x => (({ x with cq := x.cq.drop 1, cqTry := true }).setX xd v).retire s.tick
    | none => s.modMe fun x => (({ x with cqTry := false }).setX xd 0).retire s.tick)

/-! ## The bit network (R87, R88) -/

/-- Entry j of pattern p. -/
def Room.pattern (x : Room) (p j : Nat) : Nat := (tget 127#7 (tget [] x.bnet p) j).toNat
/-- The 64 destination bits (R88). -/
def bnetBits (pat : Nat → Nat) (src : BitVec 128) : W64 :=
  BitVec.ofNat 64 ((List.range 64).foldl (fun a j => if pat j ≠ 127 ∧ src.getLsbD (pat j) then a + 2 ^ j else a) 0)
/-- `bnet`: the result can be read by a lane dispatched two ticks later; the lane between waits only if it reads it (R88). -/
def execBnet (p : BitVec 3) (xd xs1 xs2 : Reg) (s : State) : Res :=
  .next (s.whenTo [xd] [xs1, xs2] fun x =>
    let v := bnetBits (x.pattern p.toNat) (x.getX xs2 ++ x.getX xs1)
    s.modMe fun x => { (x.setX xd v).retire s.tick with late := some (xd.toNat, s.tick + 2) })
/-- `bnet.ld`: one control-core load of 64 bytes, translated as the address of any device instruction is (R352); dispatch holds
until the pattern has been written (R87). -/
def execBnetLd (xs1 xs2 : Reg) (s : State) : Res :=
  .next (s.whenRegs [xs1, xs2] fun x =>
    let va := x.getX xs1
    let n := getField (x.getX xs2) 0 3
    let c : Ctx := { s.devCtx with repl := true }
    let s := s.needTier c va
    match coreLoc s .load va 64 c with
    | .error c => s.rvExc c va
    | .ok l =>
      if l.place = .port then s.exc 5 va
      else if x.atomOn (lineOf l.key) then s.wait
      else
        let s := s.fillTlb l
        let p := partOf { n := 0, va := va, w := 64 } l 0
        match (if x.loadPending || s.atomOnWay s.turn (lineOf p.key) then none else coreHit s s.turn p) with
        | some v => s.modMe fun x => ({ x with bnet := tset [] x.bnet n (patternOf v) }).retire s.tick
        | none =>
          let (s, ids) := sendLoad s s.turn .core (.bnet n) c.satp [p]
          s.modMe fun x => (x.await (ids.headD 0) [] false true).holdOn (.answer (ids.headD 0)))

/-! ## Time (R89, R90) -/

/-- `cal.now` (R89). -/
def execCalNow (xd : Reg) (s : State) : Res := .next (s.whenTo [xd] [] fun _ => s.doneX xd (BitVec.ofNat 64 s.tick))
/-- The tick at which a `cal.wait` dispatched at d releases (R90). -/
def calTarget (v : W64) (d : Nat) : Nat :=
  if v.getLsbD 63 then
    (let want := 64 * getField v 0 6
     let base := (d + 1) / 4096 * 4096 + want
     if d + 1 ≤ base then base else base + 4096)
  else max v.toNat (d + 1)
/-- `cal.wait` (R90). -/
def execCalWait (xs1 : Reg) (s : State) : Res :=
  .next (s.whenRegs [xs1] fun x =>
    let next := calTarget (x.getX xs1) s.tick
    if next = s.tick + 1 then s.done else s.holdOn (.calWait next))
/-- A `cal.wait` releases: the next lane dispatches at its tick (R90). -/
def execCalWaitRelease (room : Nat) (s : State) : Res :=
  .next (s.modRoom room fun x =>
    match x.hold with
    | .calWait next => if next ≤ s.tick then x.retire (s.tick - 1) else x
    | _ => x)

/-! ## Jobs (R91 to R93, R375) -/

/-- The word of `job.self` (R92). -/
def selfWord (r : Nat) (u : Run) : W64 :=
  BitVec.ofNat 16 u.selfOrd ++ 0#1 ++ BitVec.ofNat 3 u.prio ++ BitVec.ofNat 4 u.owner ++ BitVec.ofNat 8 r ++ BitVec.ofNat 32 u.selfJob
/-- `job.self`: a deferred answer (R92). -/
def execJobSelf (xd : Reg) (s : State) : Res :=
  .next (s.whenTo [xd] [] fun x => s.whenSlot
    (let v := match x.run with | some u => selfWord s.turn u | none => 0
     (s.schedule (s.tick + 2) (.deferredAnswer s.turn (valueAnswer s.seq v x.pc x.curWord))).deferX xd))
/-- Whether a handle names an incomplete job of a tenant. -/
def State.ownJob (s : State) (tenant h : Nat) : Bool :=
  match s.job? h with | some j => decide (j.record.tenant = tenant) | none => false
/-- `job.wait` (R93). -/
def execJobWait (xs1 : Reg) (s : State) : Res :=
  .next (s.whenRegs [xs1] fun x =>
    let h := getField (x.getX xs1) 0 32
    if s.ownJob x.tenant h then s.holdOn (.jobWait h) else s.done)
/-- A `job.wait` releases within 64 ticks of the job's completion (R93). -/
def execJobWaitRelease (room : Nat) (s : State) : Res :=
  .next (match (s.room room).hold with
    | .jobWait h => if (s.job? h).isSome then s
        else (s.modRoom room fun x => x.retire (s.boundedTick - 1)).bump
    | _ => s)

/-- `iter.end` and `wt.end`: no dispatch while PEND is 1 (R288); then the lane holds until the iteration is reported. -/
def endLane (s : State) : State := if s.me.vhzPend then (s.drainRoom s.turn).wait else s.holdOn .iterEnd
/-- `iter.end` (R47, R91). -/
def execIterEnd (s : State) : Res := .next (endLane s)
/-- `wt.end` (R375). -/
def execWtEnd (s : State) : Res := .next (endLane s)

end Sys2Proof.Machine
end

