-- ==== Sys2Proof/Machine/Atomics.lean ====
section
/-! DEFINITION. Atomics: `amo.cas128` (R277 to R282), the memory-side atomics (R290, R327, R328) and the A extension
(R329), with the agents that perform them: the MSAU, the scratchpad ports, the bridge and the root complex. -/

namespace Sys2Proof.Machine

/-! ## What an atomic computes -/

/-- New value of a memory-side atomic (R327); none when nothing is written. -/
def msNew (op : MsOp) (old operand expect : Nat) : Option Nat :=
  let a := BitVec.ofNat 64 old
  let b := BitVec.ofNat 64 operand
  match op with
  | .cas => if a = BitVec.ofNat 64 expect then some b.toNat else none
  | .add => some (a + b).toNat
  | .fadd => some (Fp.add32 (BitVec.ofNat 32 old) (BitVec.ofNat 32 operand)).1.toNat
  | .min => some (if b.slt a then b else a).toNat
  | .max => some (if a.slt b then b else a).toNat
  | .and => some (a &&& b).toNat
  | .or => some (a ||| b).toNat
  | .xor => some (a ^^^ b).toNat
  | .swap => some b.toNat

/-- New value of an AMO of the A extension, of n bits. -/
def amoNew (n : Nat) (op : AmoOp) (old operand : Nat) : Nat :=
  let a := BitVec.ofNat n old
  let b := BitVec.ofNat n operand
  (match op with
   | .swap => b
   | .add => a + b
   | .xor => a ^^^ b
   | .and => a &&& b
   | .or => a ||| b
   | .min => if b.slt a then b else a
   | .max => if a.slt b then b else a
   | .minu => if b.ult a then b else a
   | .maxu => if a.ult b then b else a).toNat

/-- Bytes of an atomic's operand. -/
def atomWidth (f : AtomFn) : Nat :=
  match f with
  | .ms .fadd => 4
  | .ms _ => 8
  | .cas128 => 16
  | .amo _ d | .lr d | .sc d => if d then 8 else 4

/-- What an atomic writes, given the old value and whether its room's reservation stands; none when it writes nothing. -/
def atomNew (a : AtomMsg) (old : Nat) (reserved : Bool) : Option Nat :=
  match a.fn with
  | .ms op => msNew op old a.operand a.expect
  | .cas128 => if old = a.expect then some a.operand else none
  | .amo op d => some (amoNew (if d then 64 else 32) op old a.operand)
  | .lr _ => none
  | .sc _ => if reserved then some a.operand else none

/-- The value that its answer writes. -/
def atomValue (f : AtomFn) (old : Nat) (reserved : Bool) : W64 :=
  match f with
  | .ms _ | .cas128 => BitVec.ofNat 64 old
  | .amo _ d | .lr d => if d then BitVec.ofNat 64 old else (BitVec.ofNat 32 old).signExtend 64
  | .sc _ => if reserved then 0 else 1

/-! ## Answers -/

/-- Tick at which an answer reaches the room: that of a fourth attempt at once, so that its SC comes in time (R329). -/
def atomDue (s : State) (a : AtomMsg) : Nat :=
  if a.part.place = .scratch a.room then s.tick else if s.lastTry a.fn a.room then s.tick + 1 else s.cohTick

/-- The answer of an atomic that has been performed: its visibility time, then the old value (R279, R288, R327). -/
def atomAnswer (s : State) (a : AtomMsg) (old : Nat) (reserved : Bool) (vt : Nat) : State :=
  let due := atomDue s a
  let s := sendAnswer (keyPerformed s a.room a.id vt) (homeAgent s a.part) due (.vtAnswer a.room .core a.id vt)
  (match a.fn with
   | .cas128 => s.schedule due (.cas128Answer a.room a (BitVec.ofNat 128 old) none 0)
   | f => s.schedule due (.deferredAnswer a.room (valueAnswer a.id (atomValue f old reserved) a.lane a.word))).bump

/-- The answer of an atomic that failed: a device fault of the device atomics; for the A extension HOSTLOST, an RV page fault
after a re-walk that fails, and an RV access fault for POISON and for a PCIe refusal (R280, R328, R329, R359). Nothing has been
written. -/
def atomFault (s : State) (a : AtomMsg) (code outc : Nat) : State :=
  let due := atomDue s a
  let s := sendAnswer (keyPerformed s a.room a.id 0) (homeAgent s a.part) due (.vtAnswer a.room .core a.id 0)
  let cause := match a.fn with
    | .ms _ | .cas128 => 48 + code
    | .lr _ => if code = 5 then 53 else if code ≤ 1 then 13 else 5
    | .amo _ _ | .sc _ => if code = 5 then 53 else if code ≤ 1 then 15 else 7
  (match a.fn with
   | .cas128 => s.schedule due (.cas128Answer a.room a 0 (some code) outc)
   | _ => s.schedule due (.deferredAnswer a.room
      { id := a.id, value := 0, write := false, misuse := some cause, va := a.part.va, lane := a.lane, word := a.word,
        bar := none })).bump

/-! ## Performing -/

/-- An atomic as the store that it makes (R267): an SC is a store of the control core. -/
def atomStore (s : State) (a : AtomMsg) (new : Nat) : MemMsg :=
  { room := a.room, tenant := a.tenant, who := match a.fn with | .sc _ => .core | _ => .atom, depth := a.depth, inc := a.inc, id := a.id, issued := s.tick,
    store := true, satp := a.satp, dest := .none, parts := [{ a.part with data := new }] }

/-- Whether a room's reservation stands on a line (R329). -/
def State.reserved (s : State) (room line : Nat) : Bool :=
  match (s.room room).resv with | some v => v.line = line && decide (s.tick ≤ v.till) | none => false

/-- Performs an atomic at its agent in one step: reads, computes and writes, with the visibility time of a store. An LR also sees what
its room's partition has stored on the way to the line, as any load of the room does (R307). The answer of a compare that fails
writes nothing and carries the tick of the compare as its visibility time, which HZ then covers (DESIGN CHOICE, log entry 88). -/
def performAtomic (s : State) (a : AtomMsg) : State :=
  let p := a.part
  if s.lost p.place p.key then atomFault s a 5 (if p.place = .hostN then 2 else 0)
  else
    let sc : Bool := match a.fn with | .sc _ => true | _ => false
    let lr : Bool := match a.fn with | .lr _ => true | _ => false
    if !sc && s.poisoned p.key p.w then
      atomFault (if lr then s.modRoom a.room fun x => { x with resv := none } else s) a 4 0
    else
      let old := if lr then s.seen a.room a.id p else homeValue s p
      let line := lineOf p.key
      let ok := s.reserved a.room line
      let resv := match a.fn with
        | .lr _ => some { line := line, till := s.tick + 256 }
        | .sc _ => none
        | _ => (s.room a.room).resv
      let fails (x : Room) : Nat := if sc then (if ok then 0 else x.scFails + 1) else x.scFails
      let s := s.modRoom a.room fun x => { x with resv := resv, scFails := fails x }
      match atomNew a old ok with
      | none => atomAnswer (if p.heat then s.noteMiss (orderKey (.msauAtomic a)) p else s) a old ok s.tick
      | some v =>
        let r := applyStore s (atomStore s a v)
        atomAnswer (r.s.patchOwn a.room [{ p with data := v }]) a old ok r.vt

/-- An MSAU performs an atomic where its page now lies; one whose page has moved to the bridge's memory goes there (R359). -/
def msauPerforms (s : State) (a : AtomMsg) : State :=
  match movedPart s a.tenant a.satp true a.part with
  | .error f => atomFault s a f 0
  | .ok p =>
    let a := { a with part := p }
    match p.place with
    | .hbm => if p.cmp then atomFault s a 1 0 else performAtomic s a
    | .tier | .hostC | .hostN => s.schedule s.tick (.bridgeAtomic a)
    | _ => atomFault s a 1 0

/-- An atomic reaches the MSAU of its line, or a scratchpad port, which performs it at once. An MSAU performs it as its one
request of a tick, in a slot of the tenant (R245, R289, R290), and after the host's copy of its granule has been written
back (R297). -/
def execMsauAtomic (a : AtomMsg) (s : State) : Res :=
  .next <|
  if s.stale a.room a.inc then s.dropStale a.room a.inc
  else if a.part.place ≠ .hbm then performAtomic s a
  else
    let u := channel a.part.key
    if s.msauCan u (.msauAtomic a) then msauPerforms (s.msauTake u (.msauAtomic a)) a else s.msauHold u (.msauAtomic a)

/-- The bridge, or the tier directory, performs an atomic while it holds E or M on the granule (R281, R299); on a
non-coherent mapping it sends a PCIe AtomicOp (R282). -/
def execBridgeAtomic (a : AtomMsg) (s : State) : Res :=
  .next <|
  if s.stale a.room a.inc then s.dropStale a.room a.inc
  else if s.lost a.part.place a.part.key then atomFault s a 5 (if a.part.place = .hostN then 2 else 0)
  else if a.part.place = .hostN then
    let ok : Bool := match a.fn with | .cas128 => Config.atomicOpSupported s.fresh | _ => true
    (s.schedule s.openTick (.pcieAtomicCompletion a ok)).bump
  else
    let g := granuleOf a.part.key
    if s.atomBehind a then s.schedule (s.tick + 1) (.bridgeAtomic a)
    else if (tget {} s.grans g).st ≠ 0 ∧ !(s.waiting.any fun w => decide (w.id < a.id) && decide (w.room = a.room) &&
        decide (w.who = .core) && (needed w).any fun h => h / 2 = g / 2) then performAtomic s a
    else { s with waitAtom := s.waitAtom ++ [a] }.reask

/-- Whether a room still waits for an atomic. -/
def State.awaits (s : State) (a : AtomMsg) : Bool := (s.room a.room).outs.any fun o => o.id = a.id

/-- The code of a PCIe refusal: PERMISSION, and for the A extension what makes an RV access fault of it (R280, R329). -/
def refusalCode (a : AtomMsg) : Nat := match a.fn with | .ms _ | .cas128 => 1 | _ => 4
/-- What an AtomicOp has done whose completion the link has lost: the root complex may have performed it (R280); a free value says
whether (DESIGN CHOICE, log entry 96). -/
def atomLost (s : State) (a : AtomMsg) : State :=
  match (if Config.lostAtomicPerformed s.fresh then atomNew a (homeValue s a.part) false else none) with
  | some v => (applyStore s.bump (atomStore s a v)).s
  | none => s.bump
/-- A PCIe completion: the root complex has performed the operation, whether or not its room still waits for the answer, or has
refused it (R61, R280, R282). -/
def execPcieAtomicCompletion (a : AtomMsg) (ok : Bool) (s : State) : Res :=
  .next (
    if ok then performAtomic (if s.lost a.part.place a.part.key then atomLost s a else s) a
    else if s.awaits a then atomFault s a (refusalCode a) 0 else s)
/-- No completion comes in time: HOSTLOST with its outcome unknown (R280). -/
def execPcieCompletionTimeout (a : AtomMsg) (s : State) : Res :=
  .next (if s.awaits a then atomFault s a 5 2 else s)

/-- The old 16 bytes return and dispatch resumes (R279); a fault is taken at the lane (R280). -/
def execCas128Answer (room : Nat) (a : AtomMsg) (old : BitVec 128) (fault : Option Nat) (outc : Nat) (s : State) : Res :=
  .next (s.modRoom room fun x =>
    if x.hold = .answer a.id then
      (match fault with
       | none => (((x.answered a.id).setX a.rd (old.extractLsb' 0 64)).setX (a.rd + 1) (old.extractLsb' 64 64)).retire s.tick
       | some c => { (x.answered a.id) with
            hold := .none, misuse := ⟨48 + c, a.part.va, x.pc, a.word, outc⟩ :: x.misuse })
    else x.answered a.id)

/-- A reservation ends 256 ticks after its LR (R329). -/
def execReservationExpiry (room : Nat) (s : State) : Res :=
  .next (s.modRoom room fun x =>
    match x.resv with
    | some v => if v.till < s.tick then { x with resv := none } else x
    | none => x)

/-! ## Sending -/

/-- Tick at which an atomic reaches its agent by the coherence class: that of a fourth attempt at once (R329). -/
def agentTick (s : State) (fn : AtomFn) : Nat := if s.lastTry fn s.turn then s.tick + 1 else s.cohTick
/-- Tick at which an atomic reaches a scratchpad port: an LR or SC within the bound that the guarantee of R329 needs. -/
def portTick (s : State) (fn : AtomFn) : Nat := match fn with | .lr _ | .sc _ => s.cohTick | _ => s.openTick
/-- Sends an atomic of the acting room's lane to its agent. -/
def sendAtom (s : State) (a : AtomMsg) : State :=
  let r := s.turn
  match a.part.place with
  | .scratch q => if q = r then s.schedule (s.tick + 1) (.msauAtomic a) else s.send r .core (portTick s a.fn) (.msauAtomic a)
  | .attic _ | .shadow _ | .port | .repl => s.send r .core (portTick s a.fn) (.msauAtomic a)
  | .hbm => s.send r (.msau (channel a.part.key)) (max (agentTick s a.fn) (behindOwn s r true [a.part.key] true)) (.msauAtomic a)
  | .hostC | .tier => s.send r .coh (max (agentTick s a.fn) (behindOwn s r true [a.part.key] false)) (.bridgeAtomic a)
  | .hostN => s.send r .core s.openTick (.bridgeAtomic a)

/-- The message of an atomic of the acting lane. -/
def atomMsg (s : State) (fn : AtomFn) (l : Loc) (va : W64) (operand expect : Nat) (rd : Reg) : AtomMsg :=
  let x := s.me
  { room := s.turn, tenant := x.tenant, depth := x.depth, inc := s.incOf s.turn, id := s.seq, fn := fn,
    part := partOf { n := 0, va := va, w := atomWidth fn } l 0, operand := operand, expect := expect, rd := rd,
    satp := (match fn with | .ms _ | .cas128 => x.csr.satp | _ => (coreCtx s.turn x false).satp), lane := x.pc,
    word := x.curWord }

/-- The stores that the room has buffered are drained before an atomic to one of their lines, which follows them to their home
(R95, R327). -/
def State.drainFor (s : State) (r line : Nat) : State :=
  ((s.wing (wingOf r)).keys.filter fun k => k.holder = some r &&
      k.buffered.any fun m => m.room = r && m.parts.any fun p => lineOf p.key = line).foldl
    (fun s k => drainKey s (wingOf r) k.slot) s
/-- An atomic is one of the holder's stores into the region that holds its line, for which a pass waits (R293). -/
def State.countKeyed (s : State) (room id : Nat) (p : Part) : State :=
  if (s.wing (wingOf room)).keys = [] then s else
  match regionOf s room p with
  | some slot => s.modRegion (wingOf room) slot fun k => if k.holder = some room then { k with unperf := k.unperf ++ [id] } else k
  | none => s

/-- The horizon has been reached and every earlier control-core load performed (R279). -/
def State.settled (s : State) : Bool := !s.me.loadPending && !s.me.vhzPend && decide (s.me.horizon ≤ s.tick)

/-- Sends an atomic that waits for nothing more; `hold`: dispatch waits for the answer, as it does for an
RV exception that is to come (R95, R329). -/
def launchAtom (s : State) (fn : AtomFn) (l : Loc) (va : W64) (operand expect : Nat) (rd : Reg) (o : Out) (hold store : Bool) :
    State :=
  let want := if store then keysWanted s s.turn [partOf { n := 0, va := va, w := atomWidth fn } l 0] else []
  if want ≠ [] then (s.askKeys s.turn want).wait
  else
    let s := (s.fillTlb l).drainFor s.turn (lineOf l.key)
    let a := atomMsg s fn l va operand expect rd
    let s := if store then s.countKeyed s.turn a.id a.part else s
    let precise : Bool := match fn with
      | .lr _ | .amo _ _ => s.lost a.part.place a.part.key || s.poisoned a.part.key a.part.w
      | .sc _ => s.lost a.part.place a.part.key
      | .ms _ | .cas128 => false
    let s := (sendAtom s a).nextId
    s.modMe fun x =>
      let o : Out := { o with id := a.id }
      let sent : List OutStore := if store then [{ id := a.id, bound := none }] else []
      let x := { x with outs := x.outs ++ [o], stores := x.stores ++ sent }
      if hold || precise then x.holdOn (.answer a.id) else x.retire s.tick

/-! ## amo.cas128 -/

/-- The pair of registers from an even one. -/
def Room.getPair (x : Room) (r : Reg) : Nat := (x.getX (r + 1) ++ x.getX r).toNat

/-- Where a device atomic goes, or its exception: ALIGN, then the device windows (cause 7), then translation (R280, R328).
Pages marked CMP and the port range raise PERMISSION (R364). -/
def atomLoc (s : State) (w : Nat) (host : Bool) (va : W64) : Except Nat Loc :=
  if va.toNat % w ≠ 0 then .error 50
  else if (window s s.devCtx .atomic va).isSome then .error 7
  else match place s s.devCtx .atomic va with
    | .error f => .error (48 + f)
    | .ok l =>
      match l.place with
      | .hbm => if l.cmp then .error 49 else .ok l
      | .tier => if l.cmp then .error 49 else if s.lost l.place l.key then .error 53 else .ok l
      | .hostC | .hostN => if !host then .error 49 else if s.lost l.place l.key then .error 53 else .ok l
      | .port => .error (if w = 8 then 49 else 50)
      | _ => .error 49

/-- The exception of an `amo.cas128` at its lane: the outcome of a HOSTLOST on a non-coherent mapping is unknown (R280). -/
def casExc (s : State) (code : Nat) (va : W64) : State :=
  let far : Bool := match place s s.devCtx .atomic va with | .ok l => l.place = .hostN | .error _ => false
  if code = 53 ∧ far = true then s.trap { int := false, code := 53, tval := va, lane := some s.me.pc, outc := 2 }
  else s.rvExc code va

/-- `amo.cas128` (R277): the request leaves once the room's horizon has been reached. -/
def execAmoCas128 (xd xs1 xs2 : Reg) (s : State) : Res :=
  .next (s.whenRegs [xs1, xs2, xs2 + 1, xd, xd + 1] fun x =>
    let va := x.getX xs1
    let s := s.needTier s.devCtx va
    match atomLoc s 16 true va with
    | .error c => casExc s c va
    | .ok l =>
      if !s.settled then (s.drainRoom s.turn).wait
      else launchAtom s .cas128 l va (x.getPair xs2) (x.getPair xd) xd
        { id := 0, regs := [xd.toNat, (xd + 1).toNat], deferred := false, load := true } true true)

/-! ## Memory-side atomics -/

/-- A memory-side atomic: its answer is deferred (R327). -/
def msLane (op : MsOp) (xd xs1 xs2 : Reg) (s : State) : State :=
  s.whenTo [xd] ([xs1, xs2] ++ if op = .cas then [xd] else []) fun x => s.whenSlot
    (let va := x.getX xs1
     let s := s.needTier s.devCtx va
     match atomLoc s (atomWidth (.ms op)) false va with
     | .error c => s.rvExc c va
     | .ok l => launchAtom s (.ms op) l va (x.getX xs2).toNat (x.getX xd).toNat xd
        { id := 0, regs := [xd.toNat], deferred := true } false true)

/-- `amo.cas.ms` (R327). -/
def execAmoCasMs (xd xs1 xs2 : Reg) (s : State) : Res := .next (msLane .cas xd xs1 xs2 s)
/-- `amo.add.ms` (R327). -/
def execAmoAddMs (xd xs1 xs2 : Reg) (s : State) : Res := .next (msLane .add xd xs1 xs2 s)
/-- `amo.fadd.ms` (R327). -/
def execAmoFaddMs (xd xs1 xs2 : Reg) (s : State) : Res := .next (msLane .fadd xd xs1 xs2 s)
/-- `amo.min.ms` (R327). -/
def execAmoMinMs (xd xs1 xs2 : Reg) (s : State) : Res := .next (msLane .min xd xs1 xs2 s)
/-- `amo.max.ms` (R327). -/
def execAmoMaxMs (xd xs1 xs2 : Reg) (s : State) : Res := .next (msLane .max xd xs1 xs2 s)
/-- `amo.and.ms` (R327). -/
def execAmoAndMs (xd xs1 xs2 : Reg) (s : State) : Res := .next (msLane .and xd xs1 xs2 s)
/-- `amo.or.ms` (R327). -/
def execAmoOrMs (xd xs1 xs2 : Reg) (s : State) : Res := .next (msLane .or xd xs1 xs2 s)
/-- `amo.xor.ms` (R327). -/
def execAmoXorMs (xd xs1 xs2 : Reg) (s : State) : Res := .next (msLane .xor xd xs1 xs2 s)
/-- `amo.swap.ms` (R327). -/
def execAmoSwapMs (xd xs1 xs2 : Reg) (s : State) : Res := .next (msLane .swap xd xs1 xs2 s)

/-! ## The A extension -/

/-- A page fault or access fault of an A-extension instruction for the places that it may not name (R305, R329, R364): the
replicated range, compressed pages, port registers, and host non-coherent memory but for `amoswap` and `amoadd`. -/
def aPlaceFault (w : Want) (fn : AtomFn) (l : Loc) : Option Nat :=
  let bus : Bool := match fn with | .amo .swap _ | .amo .add _ => true | _ => false
  match l.place with
  | .repl => some 49
  | .port => some (rvCause w true true 1)
  | .hostN => if bus then none else some 7
  | _ => if l.cmp then some 7 else none

/-- An LR, SC or AMO (R329). With rl the request waits as R279 gives it; with aq dispatch waits for the answer. -/
def aLane (w : Want) (fn : AtomFn) (aq rl : Bool) (rd rs1 rs2 : Reg) (store : Bool) (s : State) : State :=
  s.whenTo [rd] [rs1, rs2] fun x =>
    let va := x.getX rs1
    let c := coreCtx s.turn x false
    let s := s.needTier c va
    let repl : Bool := match place s { c with repl := true } .load va with | .ok l => l.place = .repl | .error _ => false
    match (if repl && va.toNat % atomWidth fn = 0 then .error 49 else coreLoc s w va (atomWidth fn)) with
    | .error c => s.rvExc c va
    | .ok l =>
      match aPlaceFault w fn l with
      | some c => s.rvExc c va
      | none =>
        if rl && !s.settled then (s.drainRoom s.turn).wait
        else if x.atomOn (lineOf l.key) || s.cohFull s.turn then s.wait
        else launchAtom s fn l va (x.getX rs2).toNat 0 rd
          { id := 0, regs := [rd.toNat], deferred := false, load := true, line := some (lineOf l.key) } aq store

/-- `lr` (R329). -/
def execLr (dbl aq rl : Bool) (rd rs1 : Reg) (s : State) : Res := .next (aLane .load (.lr dbl) aq rl rd rs1 0 false s)
/-- `sc` (R329). -/
def execSc (dbl aq rl : Bool) (rd rs1 rs2 : Reg) (s : State) : Res :=
  .next (aLane .store (.sc dbl) aq rl rd rs1 rs2 true s)
/-- An AMO of the A extension (R329). -/
def execAExtensionAmo (op : AmoOp) (dbl aq rl : Bool) (rd rs1 rs2 : Reg) (s : State) : Res :=
  .next (aLane .atomic (.amo op dbl) aq rl rd rs1 rs2 true s)

end Sys2Proof.Machine
end

