-- ==== Sys2Proof/Machine/Sync.lean ====
section
/-! DEFINITION. Barriers (R317 to R322), the visibility fence (R323), write keys (R291 to R293, R324), monitored waits
(R325, R326), windows (R330 to R333) and replicated reductions (R305, R306). -/

namespace Sys2Proof.Machine

/-! ## Barrier objects (R317, R318) -/

def barNpart (o : BitVec 256) : BitVec 16 := o.extractLsb' 0 16
def barArrived (o : BitVec 256) : BitVec 16 := o.extractLsb' 16 16
def barPhase (o : BitVec 256) : BitVec 16 := o.extractLsb' 32 16
def barOvf (o : BitVec 256) : Bool := o.getLsbD 63
def barPend (o : BitVec 256) : Nat := (o.extractLsb' 64 40).toNat
def barExpb (o : BitVec 256) : Nat := (o.extractLsb' 128 40).toNat
/-- The object with other bits in place of bits lo to lo + n - 1. -/
def barSet (o : BitVec 256) (lo n v : Nat) : BitVec 256 :=
  (o &&& ~~~(BitVec.ofNat 256 ((2 ^ n - 1) * 2 ^ lo))) ||| BitVec.ofNat 256 (v % 2 ^ n * 2 ^ lo)
/-- A 40-bit count at bit lo, saturating: OVF records that it did. -/
def barSat (o : BitVec 256) (lo v : Nat) : BitVec 256 :=
  if v < 2 ^ 40 then barSet o lo 40 v else barSet (barSet o lo 40 (2 ^ 40 - 1)) 63 1 1
/-- The object that `bar.init` leaves. -/
def barInited (o : BitVec 256) (n : BitVec 16) : BitVec 256 :=
  BitVec.ofNat 256 ((if n = 0 then 1 else n.toNat) + 2 ^ 32 * (barPhase o + 1).toNat)

def State.barObj (s : State) (key : Nat) : BitVec 256 := BitVec.ofNat 256 (s.read key 32)
def State.putBar (s : State) (key : Nat) (o : BitVec 256) : State := s.write key 32 o.toNat

/-- BARREC of a room matches an object whose phase has passed (R321, R322). -/
def barPassed (x : Room) (key : Nat) (o : BitVec 256) : Bool :=
  x.barrec.getLsbD 16 && decide (getField x.barrec 17 47 = key / 32) && decide (x.barrec.extractLsb' 0 16 ≠ barPhase o)
/-- The word of `bar.try`. -/
def tryWord (o : BitVec 256) (passed : Bool) : W64 :=
  0#30 ++ BitVec.ofBool (barOvf o) ++ BitVec.ofBool passed ++ barArrived o ++ barPhase o

/-- A barrier object as a part of memory; its key follows. -/
def barPart : Part :=
  { pos := 0, va := 0, place := .hbm, key := 0, w := 32, data := 0, ms := true, watch := false, cmp := false, heat := true }
/-- Where a barrier request is applied while its page is sealed: MOVED, the room walks again, and the request goes where the walk
leads; to the destination of the page where it leads to no object of HBM4E (R359; DESIGN CHOICE, log entry 85). -/
def barMoved (s : State) (b : BarReq) : Nat :=
  match movedPart s (s.room b.room).tenant b.satp false { barPart with key := b.key, va := b.va } with
  | .ok p => if p.place = .hbm ∧ !p.cmp then p.key else s.movedPa b.key
  | .error _ => s.movedPa b.key
/-- The MSAU applies a barrier request (R318). BARREC names the object by its translated address, which the request carries
(R321, R322); the object itself may have been moved since (R359). -/
def applyBarrier (b : BarReq) (s : State) : State :=
  if s.stale b.room b.inc then s.dropStale b.room b.inc
  else
    let key := barMoved s b
    let s := { s with barObjs := tset false s.barObjs key true }
    let s := if b.heat then s.noteMiss (10 + 8 * b.room) { barPart with key := key } else s
    let o := s.barObj key
    let reply (s : State) (v : W64) (bar : Option Nat) : State :=
      (s.schedule s.cohTick (.deferredAnswer b.room { valueAnswer b.id v b.lane b.word with bar := bar })).bump
    match b.op with
    | .init n => releaseWaits (s.putBar key (barInited o n)) key
    | .expect e => checkBarrier (s.putBar key (barSat o 128 (barExpb o + e.toNat))) key
    | .arrive =>
      if barArrived o = barNpart o then reply s (1#1 ++ 0#47 ++ barPhase o) (some b.key)
      else checkBarrier (reply (s.putBar key (barSet o 16 16 (barArrived o + 1).toNat)) (0#48 ++ barPhase o) (some b.key)) key
    | .wait =>
      let x := s.room b.room
      if x.hold ≠ .barWait b.id then s
      else if barPassed x b.key o then (s.schedule s.cohTick (.barWaitRelease b.room b.id)).bump
      else { s with barHeld := s.barHeld ++ [{ key := key, room := b.room, id := b.id }] }
    | .try => reply s (tryWord o (barPassed (s.room b.room) b.key o)) none
/-- A barrier request reaches the MSAU, which applies it as its one request of a tick (R289, R318, R320). -/
def execBarrierRequest (b : BarReq) (s : State) : Res :=
  .next (let u := channel b.key
         let i : Instr := .barrierRequest b
         if s.msauCan u i then applyBarrier b (s.msauTake u i) else s.msauHold u i)

/-- The barrier is credited with 128 bytes (R220, R318). -/
def creditBarrier (key : Nat) (s : State) : State :=
  let key := s.movedPa key
  let s := { s with barObjs := tset false s.barObjs key true }
  let o := s.barObj key
  checkBarrier (s.putBar key (barSat o 64 (barPend o + 128))) key
/-- A line that a `c.pf` asked for is there: its credit reaches the MSAU of the barrier (R220, R318), which applies it as its one
request of a tick (R289) and drops one of a dead incarnation (R301). -/
def execCpfCredit (c : CreditReq) (s : State) : Res :=
  .next (let u := channel c.key
         let i : Instr := .cpfCredit c
         if s.stale c.room c.inc then s.dropStale c.room c.inc
         else if s.msauCan u i then creditBarrier c.key (s.msauTake u i) else s.msauHold u i)

/-- A held `bar.wait` is released (R321). -/
def execBarWaitRelease (room id : Nat) (s : State) : Res :=
  .next (s.modRoom room fun x => if x.hold = .barWait id then x.retire (s.tick - 1) else x)

/-! ## Barrier lanes (R317, R319 to R322) -/

/-- Sends a barrier request of the acting lane to the object at `va` under the next number. -/
def sendBar (s : State) (op : BarOp) (va : W64) (l : Loc) : State :=
  let x := s.me
  let b : BarReq := { room := s.turn, op := op, key := l.key, inc := s.incOf s.turn, id := s.seq, lane := x.pc, word := x.curWord,
                      heat := l.heat, va := va, satp := x.csr.satp }
  s.send s.turn (.msau (channel l.key)) (max s.cohTick (behindOwn s s.turn true [l.key] true)) (.barrierRequest b)

/-- Runs the rest of a barrier lane with its object, or takes the fault of R317; in the range of the device windows the RV access
fault of a load or a store (R192). -/
def State.withBar (s : State) (w : Want) (va : W64) (f : State → Loc → State) : State :=
  if inWindows va ∧ va.toNat % 32 = 0 then s.exc (match w with | .load => 5 | _ => 7) va
  else
    let s := s.needTier s.devCtx va
    match barrierKey s s.devCtx va with
    | .error c => s.devExc c va
    | .ok l => f (s.fillTlb l) l

/-- `bar.init` (R318). -/
def execBarInit (xs1 xs2 : Reg) (s : State) : Res :=
  .next (s.whenRegs [xs1, xs2] fun x => s.withBar .store (x.getX xs1) fun s l =>
    (sendBar s (.init ((x.getX xs2).extractLsb' 0 16)) (x.getX xs1) l).nextId.done)
/-- `bar.expect` (R318). -/
def execBarExpect (xs1 xs2 : Reg) (s : State) : Res :=
  .next (s.whenRegs [xs1, xs2] fun x => s.withBar .store (x.getX xs1) fun s l =>
    (sendBar s (.expect ((x.getX xs2).extractLsb' 0 40)) (x.getX xs1) l).nextId.done)
/-- `bar.arrive`: a deferred answer (R318, R319). -/
def execBarArrive (xd xs1 : Reg) (s : State) : Res :=
  .next (s.whenTo [xd] [xs1] fun x => s.whenSlot (s.withBar .store (x.getX xs1) fun s l =>
    let o : Out := { id := s.seq, regs := [xd.toNat], deferred := true, arrive := true }
    ((sendBar s .arrive (x.getX xs1) l).modMe fun x => ({ x with outs := x.outs ++ [o] }).retire s.tick).nextId))
/-- `bar.try`: a deferred answer (R322). -/
def execBarTry (xd xs1 : Reg) (s : State) : Res :=
  .next (s.whenTo [xd] [xs1] fun x => s.whenSlot (s.withBar .load (x.getX xs1) fun s l =>
    (sendBar s .try (x.getX xs1) l).deferX xd))
/-- `bar.wait`: after every answer of a `bar.arrive` it sends its request and holds dispatch (R321). -/
def execBarWait (xs1 : Reg) (s : State) : Res :=
  .next (s.whenRegs [xs1] fun x =>
    if x.outs.any (·.arrive) then s.wait
    else s.withBar .load (x.getX xs1) fun s l =>
      ((sendBar s .wait (x.getX xs1) l).holdOn (.barWait s.seq)).nextId)

/-! ## fence.v (R323) -/

/-- Passes every key that a room holds and another room waits for. -/
def passWanted (s : State) (r : Nat) : State :=
  ((s.wing (wingOf r)).keys.filter fun k => k.holder = some r && k.queue ≠ [] && k.passing.isNone).foldl
    (fun s k => passKey s (wingOf r) k.slot) s
/-- PEND is 0 and the global tick has reached HZ. -/
def Room.visible (x : Room) (now : Nat) : Bool := !x.vhzPend && decide (x.horizon ≤ now)
/-- `fence.v` (R323). -/
def execFenceV (s : State) : Res :=
  .next (
    let s := (passWanted s s.turn).drainRoom s.turn
    if s.me.visible s.tick then s.done else s.holdOn .fenceV)
/-- What a waiting `fence.v` does for its room: stores that an entry has buffered since are drained (R288); once every store
is visible the next lane dispatches at once (R323). -/
def execFenceVRelease (room : Nat) (s : State) : Res :=
  .next (
    let s := if (s.room room).hold = .fenceV then s.drainRoom room else s
    s.modRoom room fun x => if x.hold = .fenceV ∧ x.visible s.tick then x.retire (s.tick - 1) else x)

/-! ## Write keys -/

/-- REASON of a command on the key table; 0 for none (R291). -/
def keyReason (l : List Key) (base : W64) (ctl : W64) (register : Bool) : Nat :=
  let slot := getField ctl 0 6
  let lsz := getField ctl 6 5
  let a := base.toNat
  if lsz < 12 ∨ 29 < lsz then 1
  else if a % 2 ^ lsz ≠ 0 then 2
  else if register ∧ (l.any fun k => k.slot = slot || (decide (a < k.base + 2 ^ k.lsz) && decide (k.base < a + 2 ^ lsz))) then 3
  else if !register ∧ !(l.any fun k => k.slot = slot) then 3
  else if !register ∧ (l.any fun k => k.slot = slot && (k.holder.isSome || k.queue ≠ [])) then 4
  else if ctl.getLsbD 11 ∨ getField ctl 30 2 ≠ 0 ∨ getField ctl 38 26 ≠ 0 then 5
  else 0

/-- The result of a command stands in KEYCTL within 64 ticks (R291). -/
def keyBusy (s : State) (room reason : Nat) : State :=
  let res (x : Room) : W64 := setField (setField x.keyctl 32 2 (if reason = 0 then 0 else 2)) 34 4 reason
  ((s.modRoom room fun x => { x with keyRes := res x }).schedule s.boundedTick (.keyCommandDone room)).bump
/-- Registers a key region (R291). -/
def execKeyRegister (room : Nat) (base ctl : W64) (s : State) : Res :=
  .next (
    let w := wingOf room
    let reason := keyReason (s.wing w).keys base ctl true
    let k : Key := { slot := getField ctl 0 6, base := base.toNat, lsz := getField ctl 6 5,
                     keyq := if getField ctl 12 16 = 0 then 65536 else getField ctl 12 16 }
    let s := if reason = 0 then s.modWing w fun x => { x with keys := x.keys ++ [k] } else s
    keyBusy s room reason)
/-- Unregisters a key region (R291). -/
def execKeyUnregister (room : Nat) (base ctl : W64) (s : State) : Res :=
  .next (
    let w := wingOf room
    let reason := keyReason (s.wing w).keys base ctl false
    let s := if reason = 0 then s.modWing w fun x => { x with keys := x.keys.filter fun k => k.slot ≠ getField ctl 0 6 } else s
    keyBusy s room reason)
/-- A key command completes (R291). -/
def execKeyCommandDone (room : Nat) (s : State) : Res :=
  .next (s.modRoom room fun x =>
    { x with keyctl := setField (setField x.keyctl 32 2 (getField x.keyRes 32 2)) 34 4 (getField x.keyRes 34 4) })

/-- The region of a room's wing that holds an address of `key.get` or `key.pass`. -/
def State.keyOf (s : State) (l : Loc) : Option Key :=
  if keyed (partOf { n := 0, va := 0, w := 1 } l 0) then s.keyAt (wingOf s.turn) l.key else none
/-- Runs the rest of a key lane with the region of its address; an address in the device windows, which is not translated,
lies in none (R192, R324). -/
def State.withKey (s : State) (va : W64) (f : State → Option Key → State) : State :=
  if inWindows va then f s none else s.withLoc 1 va fun s l => f s (s.keyOf l)
/-- `key.get` (R324). -/
def execKeyGet (xs1 : Reg) (s : State) : Res :=
  .next (s.whenRegs [xs1] fun x => s.withKey (x.getX xs1) fun s k =>
    match k with
    | none => s.done
    | some k =>
      if k.holder = some s.turn ∧ k.passing.isNone then s.done
      else
        let s := s.askKeys s.turn [k.slot]
        if k.holder.isNone ∧ k.queue = [] then s.done else s.holdOn (.keyGet (wingOf s.turn) k.slot))
/-- A held `key.get` releases when the room holds the key (R324). -/
def execKeyGetGrant (room : Nat) (s : State) : Res :=
  .next (match (s.room room).hold with
    | .keyGet w slot =>
      if (s.wing w).keys.any fun k => k.slot = slot && decide (k.holder = some room) && k.passing.isNone then
        s.modRoom room fun x => x.retire s.tick
      else s
    | _ => s)
/-- `key.pass` (R324). -/
def execKeyPass (xs1 : Reg) (s : State) : Res :=
  .next (s.whenRegs [xs1] fun x => s.withKey (x.getX xs1) fun s k =>
    match k with
    | none => s.done
    | some k =>
      if k.holder = some s.turn ∧ k.passing.isNone then
        (let s := passKey s (wingOf s.turn) k.slot
         if s.keyDrained (wingOf s.turn) k.slot s.turn then s.done else s.holdOn (.keyPass (wingOf s.turn) k.slot))
      else s.done)

/-- The region with a slot. -/
def State.key? (s : State) (w slot : Nat) : Option Key := (s.wing w).keys.find? fun k => k.slot = slot
def State.modKey (s : State) (w slot : Nat) (f : Key → Key) : State :=
  s.modWing w fun x => { x with keys := x.keys.map fun k => if k.slot = slot then f k else k }
/-- The holder's quantum has ended while another room waits (R293). -/
def Key.expired (k : Key) (now : Nat) : Bool :=
  k.holder.isSome && k.passing.isNone && k.queue ≠ [] && decide (k.since + k.keyq ≤ now)
/-- The end of KEYQ passes the key (R293). -/
def execKeyQuantumExpiry (wing slot : Nat) (s : State) : Res :=
  .next (match s.key? wing slot with
    | some k => if k.expired s.tick then passKey s wing slot else s
    | none => s)
/-- A pass has reached K: every drained store has been performed and its visibility time has come (R293). -/
def Key.handsOver (k : Key) (now : Nat) : Bool :=
  match k.passing with | some p => k.unperf = [] && decide (max (p + 1) k.maxVt ≤ now) | none => false
/-- The next waiting room becomes the holder at K; with none the region is free (R293, R324). -/
def execKeyHandover (wing slot : Nat) (s : State) : Res :=
  .next (match s.key? wing slot with
    | some k =>
      if k.handsOver s.tick then
        s.modKey wing slot fun k =>
          { k with holder := k.queue.head?, queue := k.queue.drop 1, since := s.tick, passing := none, maxVt := 0 }
      else s
    | none => s)

/-! ## Monitored waits (R325, R326) -/

/-- Disarms a room's monitor. -/
def State.disarm (s : State) (r : Nat) : State :=
  match (s.room r).mon with
  | some m => { s.modRoom r fun x => { x with mon := none, monWoke := false } with
                mons := tmod [] s.mons m.line fun l => l.filter (· ≠ r) }
  | none => s.modRoom r fun x => { x with monWoke := false }
/-- A line's home, and its channel there (R283): the lease directory of its channel, the MSAU of it for a line marked MS, the
bridge and the tier directory with the line's CXL port, for a line of a compressed page the compression engine at its record's
channel (R364), and the scratchpad or the attic slice that holds it (DESIGN CHOICE, log entry 68). -/
def monHome (s : State) (line : Nat) (leased : Bool) : Nat × Nat :=
  let key := line * 128
  if 2 ^ 52 ≤ key ∧ key < 2 ^ 53 then (2, hostPortOf key)
  else if 2 ^ 54 ≤ key then (6, recordChannel s (keyTenant key) (keyMdx key))
  else if 2 ^ 53 + 2 ^ 32 ≤ key then (5, key / 2 ^ 24)
  else if 2 ^ 53 ≤ key then (4, key / 2 ^ 22)
  else if rangeOf key = .tier then (3, getField (tierEntry s key) 1 2)
  else (if leased then 0 else 1, channel key)
/-- Monitors that a line's home holds on its channel. -/
def monsOf (s : State) (line : Nat) (leased : Bool) : Nat :=
  let at_ (l r : Nat) : Bool := match (s.room r).mon with
    | some m => decide (monHome s l m.leased = monHome s line leased) | none => false
  s.mons.foldl (fun n e => n + (e.2.filter (at_ e.1)).length) 0
/-- `mon.arm` (R325). A non-coherent mapping has no home that could hold a monitor. -/
def execMonArm (xs1 : Reg) (s : State) : Res :=
  .next (s.whenRegs [xs1] fun x => s.withLoc 1 (x.getX xs1) fun s l =>
    let s := s.disarm s.turn
    let line := lineOf l.key
    let home := l.place ≠ .hostN && decide (monsOf s line (!l.ms) < 16)
    let s := if home then { s with mons := tmod [] s.mons line (· ++ [s.turn]) } else s
    let m : Mon := { line := line, va := some (x.getX xs1), home := home, leased := !l.ms }
    (s.modMe fun x => { x with mon := some m }).done)
/-- Whether a room holds a copy of a line, in its core cache or its attic partition. -/
def State.holdsCopy (s : State) (r line : Nat) : Bool :=
  (s.copy? (coreHolder r) line).isSome || (s.copy? (s.partition r) line).isSome
/-- A `mon.wait` returns with a cause: the next lane dispatches at tick t. -/
def monReturn (s : State) (r : Nat) (rd : Reg) (cause t : Nat) : State :=
  (s.disarm r).modRoom r fun x => (x.setX rd (BitVec.ofNat 64 cause)).retire (t - 1)
/-- Whether an address lies in the armed line; a restored monitor holds the physical line only. -/
def monOn (s : State) (m : Mon) (va : W64) : Bool :=
  match m.va with
  | some a => decide (a.toNat / 128 = va.toNat / 128)
  | none => match place s s.devCtx .load va with | .ok l => decide (lineOf l.key = m.line) | .error _ => false
/-- `mon.wait` (R326). -/
def execMonWait (xd xs1 : Reg) (s : State) : Res :=
  .next (s.whenTo [xd] [xs1] fun x =>
    let next := s.tick + 1
    match x.mon with
    | none => monReturn s s.turn xd 4 next
    | some m =>
      if !monOn s m (x.getX xs1) then monReturn s s.turn xd 4 next
      else if x.monWoke then monReturn s s.turn xd 0 next
      else if m.leased ∧ !s.holdsCopy s.turn m.line then monReturn s s.turn xd 1 next
      else s.holdOn (.monWait xd s.tick))
/-- A change wake reaches a room (R326): cause 0. -/
def execMonChangeWake (room line : Nat) (s : State) : Res :=
  .next (
    let x := s.room room
    match x.mon with
    | some m =>
      if m.line = line then
        (match x.hold with
         | .monWait rd _ => monReturn s room rd 0 s.tick
         | _ => s.modRoom room fun x => { x with monWoke := true })
      else s
    | none => s)
/-- A waiting room's copy of its armed line had ended by the end of the last tick: cause 1 (R326). -/
def monLeaseOver (s : State) (r : Nat) : Bool :=
  let x := s.room r
  match x.hold, x.mon with
  | .monWait _ _, some m => m.ended
  | _, _ => false
/-- At a tick's end the rooms that wait without a copy of their armed line are noted: they are released in the next one (R326). -/
def State.noteOver (s : State) : State :=
  let f (e : Nat × Room) : Nat × Room := match e.2.hold, e.2.mon with
    | .monWait _ _, some m =>
      if m.leased && !s.holdsCopy e.1 m.line then (e.1, { e.2 with mon := some { m with ended := true } }) else e
    | _, _ => e
  { s with rooms := s.rooms.map f }
/-- The lease of a copy has ended (R284). -/
def State.copyOver (s : State) (holder line : Nat) : Bool :=
  let c := tget {} s.copies (copyKey holder line)
  decide (c.bytes ≠ []) && decide (c.lend < s.tick)
/-- A lease ends: the holder invalidates its copy, and waits on the line return with cause 1 (R284, R326). -/
def execLeaseExpiry (holder line : Nat) (s : State) : Res :=
  .next (
    let s := if s.copyOver holder line then { s with copies := tset {} s.copies (copyKey holder line) {} } else s
    (s.rooms.map (·.1)).foldl (fun s r =>
      let x := s.room r
      match x.hold, x.mon with
      | .monWait rd _, some m => if m.line = line ∧ monLeaseOver s r then monReturn s r rd 1 s.tick else s
      | _, _ => s) s)
/-- `mon.wait` times out after 4,096 ticks: cause 2 (R326). -/
def execMonTimeout (room : Nat) (s : State) : Res :=
  .next (match (s.room room).hold with
    | .monWait rd since => if since + 4096 ≤ s.tick then monReturn s room rd 2 s.tick else s
    | _ => s)
/-- The home held no monitor: cause 3, after 256 ticks (R326). -/
def execMonOtherWake (room : Nat) (s : State) : Res :=
  .next (
    let x := s.room room
    match x.hold, x.mon with
    | .monWait rd since, some m => if !m.home ∧ since + 256 ≤ s.tick then monReturn s room rd 3 s.tick else s
    | _, _ => s)

/-! ## Windows (R330 to R333) -/

/-- The 64 KiB pages of a range with their places, translated with write permission; none where one fails. -/
def winPages (s : State) (c : Ctx) (base : Nat) (size : Nat) : Option (List (Part × Loc)) :=
  let n := (base + size - 1) / 65536 - base / 65536 + 1
  (List.range n).mapM fun i =>
    let lo := max base ((base / 65536 + i) * 65536)
    let hi := min (base + size - 1) ((base / 65536 + i) * 65536 + 65535)
    match place s c .store (BitVec.ofNat 64 lo), place s c .store (BitVec.ofNat 64 hi) with
    | .ok l, .ok _ =>
      if l.place = .port then none
      else
        let p := partOf { n := i, va := BitVec.ofNat 64 lo, w := 1 } l 0
        some ({ p with key := l.key - lo % 65536 }, l)
    | _, _ => none

/-- The rules on the operands of `win.open` (R330). -/
def winOperands (base size : W64) : Bool :=
  let n := getField size 0 40
  decide (base.toNat % 128 = 0) && decide (n % 128 = 0) && decide (128 ≤ n) && decide (n ≤ 2 ^ 39) &&
    decide (getField size 41 23 = 0) && decide (base.toNat + n ≤ 2 ^ 64)

/-- `win.open` (R330). -/
def execWinOpen (xd xs1 xs2 : Reg) (s : State) : Res :=
  .next (s.whenTo [xd] [xs1, xs2] fun x => s.whenSlot
    (let base := x.getX xs1
     let size := x.getX xs2
     let n := getField size 0 40
     let s := if winOperands base size then s.needAll s.devCtx (pageVas base.toNat n) else s
     let pages := if winOperands base size then winPages s s.devCtx base.toNat n else none
     let l := pages.getD []
     let s := fillAll s l
     let r : WinReq := { room := s.turn, tenant := x.tenant, pages := l.map (·.1), base := base, size := n,
                         sys := size.getLsbD 40, ok := pages.isSome, rd := xd, id := s.seq }
     (s.send s.turn .data s.openTick (.winOpenDecision r)).deferX xd))
/-- The lowest window-table entry that is not in use. -/
def State.freeWindow (s : State) : Option Nat := (List.range 4096).find? fun i => !(tget {} s.hall.windows i).open_
/-- The handle of a window (R330). -/
def winHandle (s : State) (i gen : Nat) : W64 :=
  0#16 ++ BitVec.ofNat 16 gen ++ 0#6 ++ BitVec.ofNat 14 s.pkgNum ++ BitVec.ofNat 12 i
/-- The hall opens a window, or refuses (R330). -/
def execWinOpenDecision (r : WinReq) (s : State) : Res :=
  .next (
    let reply (s : State) (v : W64) : State :=
      (s.schedule s.openTick (.deferredAnswer r.room (valueAnswer r.id v 0 0))).bump
    match (if r.ok then s.freeWindow else none) with
    | none => reply s (-1)
    | some i =>
      let gen := ((tget {} s.hall.windows i).gen + 1) % 2 ^ 16
      let w : Window := { open_ := true, tenant := r.tenant, base := r.base, size := r.size, sys := r.sys, pages := r.pages,
                          gen := gen, target := 0 }
      reply (s.modHall fun h => { h with windows := tset {} h.windows i w }) (winHandle s i gen))
/-- `win.close` (R333). -/
def execWinClose (xs1 : Reg) (s : State) : Res :=
  .next (s.whenRegs [xs1] fun x => (s.send s.turn .data s.openTick (.winCloseDecision x.tenant (x.getX xs1))).done)
/-- The hall closes a window (R333). -/
def execWinCloseDecision (tenant : Nat) (handle : W64) (s : State) : Res :=
  .next (match s.window? tenant handle with
    | some w => s.modHall fun h =>
        { h with windows := tset {} h.windows (handleIndex handle) { w with open_ := false, pages := [] } }
    | none => s)
/-- The origin counter that `win.cnt` reads (R332). -/
def winCounter (x : Room) (h : W64) (sel : Nat) : W64 :=
  match sel with
  | 0 | 2 => (match x.origin? h with | some o => o.count | none => 0)
  | _ => 0
/-- Frees an origin-counter slot, once no put to the handle is unfinished (R332). -/
def Room.freeOrigin (x : Room) (h : W64) : Room :=
  { x.modOrigin h fun o => { o with free := true } with
    origins := (x.modOrigin h fun o => { o with free := true }).origins.filter fun o => !(o.free && o.open_ = 0) }
/-- `win.cnt`: a deferred answer (R332). The target counter is read as the hall holds it when the request arrives there. -/
def execWinCnt (xd xs1 xs2 : Reg) (s : State) : Res :=
  .next (s.whenTo [xd] [xs1, xs2] fun x => s.whenSlot
    (let h := x.getX xs1
     let sel := getField (x.getX xs2) 0 2
     let v := winCounter x h sel
     let s := if sel = 2 then s.modMe fun x => x.freeOrigin h else s
     let a := { valueAnswer s.seq v x.pc x.curWord with ask := if sel = 1 then some (.target h) else none }
     (s.send s.turn .data s.openTick (.deferredAnswer s.turn a)).deferX xd))

/-! ## Replicated reductions (R305, R306) -/

/-- The table that serves the package's replicated loads. -/
def State.replicas (s : State) : Tbl (Option Replica) := if Config.nuldoSwitch then s.hall.replSwitch else s.hall.replHall
/-- The replica set of an address. -/
def State.replica? (s : State) (pa : Nat) : Option Replica :=
  s.replicas.findSome? fun e => match e.2 with
    | some r => if r.base ≤ pa ∧ pa < r.base + r.size then some r else none
    | none => none
/-- Bytes of an element of a replica set. -/
def Replica.width (r : Replica) : Nat := if r.type = 2 then 8 else 4
/-- The element that one replica holds; none when it does not answer. -/
def replicaElem (s : State) (w : Nat) (pkg addr : Nat) : Option Nat :=
  if pkg = s.pkgNum then (if s.poisoned addr w then none else some (s.read addr w))
  else ((List.range w).mapM fun i => Config.remoteReplica pkg (addr + i) s.fresh).map leNat
/-- The combination of two elements of a type. -/
def replicaSum (type a b : Nat) : Nat :=
  match type with
  | 0 => (Fp.add32 (BitVec.ofNat 32 a) (BitVec.ofNat 32 b)).1.toNat
  | 1 => (a + b) % 2 ^ 32
  | _ => (a + b) % 2 ^ 64
/-- The element that a load reads, or its fault: PERMISSION, or POISON for a replica that does not answer. -/
def replicaValue (s : State) (p : Part) : Except Nat Nat :=
  match s.replica? p.key with
  | none => .error 1
  | some r =>
    if r.width ≠ p.w then .error 1
    else match r.list.mapM fun q => replicaElem s p.w q.1 (q.2 + (p.key - r.base)) with
      | some (v :: l) => .ok (l.foldl (replicaSum r.type) v)
      | _ => .error 4
/-- A load of the replicated range is served by the switch or the hall (R306). -/
def execReplicaLoad (m : MemMsg) (s : State) : Res :=
  .next (
    if s.stale m.room m.inc then s.dropStale m.room m.inc
    else
      let vals := m.parts.map fun p => (p, replicaValue s p)
      match vals.find? fun v => match v.2 with | .error _ => true | .ok _ => false with
      | some (p, .error c) => deliverFault s.bump m c p.va
      | _ => deliver s.bump m (vals.map fun v => (v.1.pos, match v.2 with | .ok n => n | .error _ => 0)))

end Sys2Proof.Machine
end

