-- ==== Sys2Proof/Machine/Bridge.lean ====
section
/-! DEFINITION. The host bridge (R294 to R302): snoops, accesses of hosts to device memory, links going down and up, lost
links, the tier table, and incarnations. -/

namespace Sys2Proof.Machine

/-- A host snoop of a granule arrives (R295). A granule that the bridge does not hold is answered at once. A snoop of a dead
incarnation of its port is dropped (R301). -/
def execHostSnoop (g : BridgeMsg) (s : State) : Res :=
  .next (if s.stale (s.portAgent g.granule) g.inc then s.dropStale (s.portAgent g.granule) g.inc
    else if (tget {} s.grans g.granule).st = 0 ∨ s.snoops.contains g.granule then s
    else { s with snoops := s.snoops ++ [g.granule] })

/-- Every lease on the line of a granule has ended, and no fourth attempt at an SC is under way there. -/
def State.leasesOver (s : State) (granule : Nat) : Bool :=
  decide (tget 0 s.lend (granule / 2) < s.tick) && !s.fourthTry (granule / 2)
/-- The snoop is answered once every lease on the line has ended: the half becomes I, and reservations on the line end with
the loss of E (R295, R329); while a room makes its fourth attempt there, the answer waits for its SC. The other half keeps its state.
A message that waits for the line asks for the half again, and the software directory may mark it (R296). -/
def execSnoopAnswer (granule : Nat) (s : State) : Res :=
  .next (
    if s.snoops.contains granule ∧ s.leasesOver granule then
      ((loseReservations { s with snoops := s.snoops.filter (· ≠ granule), grans := tset {} s.grans granule {} }
        (granule / 2)).remark granule).reask
    else s)

/-- Whether a physical page is marked MS or ZF, by the leaves that the TLBs hold: a host's access bears no leaf of its own. -/
def msPage (s : State) (key : Nat) : Bool :=
  s.tlb.any fun t => (pteMs t.pte || pteZf t.pte) && !pteCmp t.pte && decide (pteCoh t.pte = 0) &&
    decide (ptePn t.pte / 2 ^ (13 * t.level) = key / 2 ^ 16 / 2 ^ (13 * t.level))
/-- The pieces of a host access, one for each 64-byte granule: key and bytes. -/
def hostPieces (key : Nat) (bytes : List Byte) : List (Nat × List Byte) :=
  (List.range (granuleOf (key + bytes.length - 1) - granuleOf key + 1)).map fun i =>
    let lo := max key (64 * (granuleOf key + i))
    (lo, (bytes.drop (lo - key)).take (64 * (granuleOf key + i + 1) - lo))
/-- A host writes a granule's bytes: a store of the bridge, on lines marked MS at their MSAU (R289, R297). -/
def hostWrite (h : HostAcc) (s : State) (piece : Nat × List Byte) : State :=
  let p : Part := { pos := 0, va := 0, place := .hbm, key := piece.1, w := piece.2.length, data := leNat piece.2,
                    ms := msPage s piece.1, watch := false, cmp := false, heat := false }
  (joinHome s { room := 256 + h.port, tenant := 0, who := .host, depth := 0, inc := h.inc, id := s.seq, issued := s.tick,
                store := true, satp := 0, dest := .none, parts := [p] }).nextId
/-- A host reads or writes device memory over CXL.mem (R297): a read with caching intent sets the host-held bits. -/
def execHostCxlMemAccess (h : HostAcc) (s : State) : Res :=
  .next (
    let n := h.bytes.length
    if s.stale (256 + h.port) h.inc then s.dropStale (256 + h.port) h.inc
    else if n = 0 ∨ rangeOf h.key ≠ .hbm ∨ rangeOf (h.key + n - 1) ≠ .hbm then s
    else if h.store then (hostPieces h.key h.bytes).foldl (hostWrite h) s
    else if h.cache then
      let gs := (List.range (granuleOf (h.key + n - 1) - granuleOf h.key + 1)).map (granuleOf h.key + ·)
      { s with hostHeld := gs.foldl (fun t g => tset false t g true) s.hostHeld,
               heldBy := gs.foldl (fun t g => tset 0 t g h.port) s.heldBy }
    else s)

/-! ## Links (R300) -/

/-- Whether a line of host memory or of the second tier is reached through a port. -/
def lineOfPort (s : State) (port line : Nat) : Bool :=
  let key := line * 128
  if 2 ^ 53 ≤ key then false
  else if 2 ^ 52 ≤ key then hostPortOf key = port
  else rangeOf key = .tier && decide (getField (tierEntry s key) 1 2 = port)

/-- The 256-byte orphan entry of a line (R300). -/
def orphanEntry (s : State) (port line : Nat) : Nat :=
  let lo := tget {} s.grans (2 * line)
  let hi := tget {} s.grans (2 * line + 1)
  let half (g : Gran) (i : Nat) : Nat := if g.st = 0 then 0 else s.read (line * 128 + 64 * i) 64
  let pa := if 2 ^ 52 ≤ line * 128 then line * 128 - 2 ^ 52 else line * 128
  let tenant := if lo.st = 2 ∧ (hi.st ≠ 2 ∨ hi.order < lo.order) then lo.tenant else hi.tenant
  half lo 0 + 2 ^ 512 * half hi 1 +
    2 ^ 1024 * (pa + (if lo.st = 2 then 1 else 0) + (if hi.st = 2 then 2 else 0)) +
    2 ^ 1088 * (tenant % 16 + 16 * port) + 2 ^ 1152 * s.tick

/-- Writes the orphan entry of a line and its record of the fault log. -/
def writeOrphan (port : Nat) (s : State) (line : Nat) : State :=
  let i := s.hall.orphcnt
  let e := orphanEntry s port line
  let s := s.write (s.hall.orphbase.toNat + 256 * i) 256 e
  let s := s.logAdd (logRec 3 none port (BitVec.ofNat 64 s.tick) (BitVec.ofNat 64 (e / 2 ^ 1024)) (BitVec.ofNat 64 i))
  s.modHall fun h => { h with orphcnt := min 262144 (i + 1) }

/-- A port's link goes down (R300): LOST, the orphan entries, the invalidation, and HOSTLOST for the accesses that have
not been performed. -/
def execLinkDown (port : Nat) (s : State) : Res :=
  .next (
    let s := s.modHall fun h =>
      { h with linkUp := h.linkUp &&& ~~~(1#4 <<< port), linkLost := h.linkLost ||| (1#4 <<< port) }
    let lines := ((s.grans.filter fun e => lineOfPort s port (e.1 / 2)).map fun e => (e.1 / 2, e.2.st)).eraseDups
    let dirty := ((lines.filter fun p => p.2 = 2).map (·.1)).eraseDups
    let s := dirty.foldl (writeOrphan port) s
    let gone (line : Nat) : Bool := lineOfPort s port line
    let s := { s with grans := s.grans.filter fun e => !gone (e.1 / 2),
                      copies := s.copies.filter fun e => !gone (e.1 % 2 ^ 52),
                      snoops := s.snoops.filter fun g => !gone (g / 2) }
    let s := (lines.map (·.1)).eraseDups.foldl loseReservations s
    retryAtomics (retryWaiting s))

/-- A port's link trains: UP is set (R302). -/
def execLinkUp (port : Nat) (s : State) : Res :=
  .next (s.modHall fun h => { h with linkUp := h.linkUp ||| (1#4 <<< port) })

/-- A write of 1 to LOST bits of LINKSTAT clears those whose port is up (R300, R302). -/
def execLostClear (bits : BitVec 4) (s : State) : Res :=
  .next (s.modHall fun h => { h with linkLost := h.linkLost &&& ~~~(bits &&& h.linkUp) })

/-- RELOAD: the bridge drops the tier entries it holds (R299, R302). -/
def execReload (s : State) : Res := .next (s.modHall fun h => { h with tierHeld := [] })

/-- The leases that an agent held count as ended (R301): its core cache and its partition hold none of them any more, and a
line's lease lasts as long as another copy's. -/
def State.endLeases (s : State) (r : Nat) : State :=
  let mine (h : Nat) : Bool := h = coreHolder r || h = s.partition r
  let lines := ((s.copies.filter fun e => mine (e.1 / 2 ^ 52)).map fun e => e.1 % 2 ^ 52).eraseDups
  let rest := s.copies.filter fun e => !mine (e.1 / 2 ^ 52)
  let till (l : Nat) : Nat := rest.foldl (fun n e => if e.1 % 2 ^ 52 = l then max n e.2.lend else n) 0
  { s with copies := rest, lend := lines.foldl (fun t l => tset 0 t l (till l)) s.lend }
/-- The requests of a room that a home has queued are discarded, and no job waits for the room's stores, whose messages are
dropped (R236, R301). -/
def State.dropRequests (s : State) (r : Nat) : State :=
  { s with waiting := s.waiting.filter fun m => !(m.room = r && match m.who with | .core | .eng _ | .atom => true | _ => false),
           waitAtom := s.waitAtom.filter fun a => a.room ≠ r,
           msauQ := s.msauQ.map fun q => (q.1, q.2.filter fun i => msauRoom i ≠ some r),
           hall := { s.hall with jobs := s.hall.jobs.map fun j => { j with late := j.late.filter (·.1 ≠ r) } } }
/-- The copies that the host of a dead port held count as ended (R301). -/
def State.endHostCopies (s : State) (agent : Nat) : State :=
  ((s.hostHeld.filter fun e => e.2 && s.holderAgent e.1 = agent).map (·.1)).foldl (fun s g => hostCopyEnds g [] s) s
/-- SCRUB adds 1 to an agent's incarnation (R301). Of a room, the leases and the queued requests count as ended, and its keys pass
as by a kill: its buffered stores go to their homes under the new incarnation, and its messages on their way are dropped there
(R293). Of a port, the wakes on their way from it are lost, and its monitors with them (R326), and the copies that its host holds
count as ended. What the bridge still waits for from a port or a service core it asks for again. -/
def execScrub (agent : Nat) (s : State) : Res :=
  .next (
    let s := s.modHall fun h => { h with inc := tmod 0 h.inc agent fun v => (v + 1) % 2 ^ 16 }
    if agent < 256 then
      let now := s.incOf agent
      let renew (k : Key) : Key :=
        if k.holder = some agent then
          { k with unperf := [], draining := [], buffered := k.buffered.map fun m => { m with inc := now } } else k
      let s := s.modWing (wingOf agent) fun x => { x with keys := x.keys.map renew }
      ((s.passRoom agent).leaveKeys agent).endLeases agent |>.dropRequests agent
    else if agent < 260 then
      let gone (l : Nat) : Bool := lineOfPort s (agent - 256) l
      let lost (i : Instr) : Bool := match i with | .monChangeWake _ l => gone l | _ => false
      let unarm (e : Nat × Room) : Nat × Room := match e.2.mon with
        | some m => if gone m.line then (e.1, { e.2 with mon := some { m with home := false } }) else e
        | none => e
      let s := { s with agenda := s.agenda.filter fun a => !lost a.2, mons := s.mons.filter fun e => !gone e.1,
                        rooms := s.rooms.map unarm }
      (s.endHostCopies agent).reask
    else if 272 ≤ agent then s.reask
    else s)

end Sys2Proof.Machine
end

