-- ==== Sys2Proof/Machine/Cbu.lean ====
section
/-! DEFINITION. The conflict-batching unit of a wing (R223 to R230, R251 to R260, R373, R374): its five instructions, its
decisions, the reading of records, and the forming and releasing of batches. -/

namespace Sys2Proof.Machine

/-! ## Records and batches (R223, R251, R254) -/

/-- The record in 16 bytes. -/
def cbRecord (pos : Nat) (b : BitVec 128) : CRec :=
  { pos := pos, bodies := (List.range 4).map fun i => (b.extractLsb' (24 * i) 24).toNat, payload := b.extractLsb' 96 32 }
/-- The bodies of a record that are not static. -/
def CRec.board (c : CRec) : List Nat := c.bodies.filter fun b => decide (b < 0xFFFF00)
def meets (a b : List Nat) : Bool := a.any b.contains

/-- One pass over the window: what stays pending, the forming batch, and whether a record joined (R254). -/
def cbScan (ordered : Bool) : (window before forming : List CRec) → (joined : Bool) → List CRec × List CRec × Bool
  | [], before, forming, joined => (before, forming, joined)
  | c :: r, before, forming, joined =>
    if 64 ≤ forming.length then (before ++ c :: r, forming, joined)
    else if meets c.board (forming.flatMap (·.board)) || (ordered && before.any fun d => meets c.board d.board) then
      cbScan ordered r (before ++ [c]) forming joined
    else cbScan ordered r before (forming ++ [c]) true

/-- Members of a closed batch in increasing stream position (R255). -/
def insertRec (c : CRec) : List CRec → List CRec
  | [] => [c]
  | d :: l => if c.pos < d.pos then c :: d :: l else d :: insertRec c l
def sortRecs (l : List CRec) : List CRec := l.foldr insertRec []

/-- A pass begins (R254): also while the reading is halted at a fault, as R253 and R254 say, so that the tick of a replay can
decide in which batch a record is, against the list of R256 (DEDUCED, log entry 61). -/
def Cbu.passDue (c : Cbu) (now : Nat) : Bool :=
  decide (c.passAt ≤ now) && (decide (c.window.length = 256) || decide (c.cursor = c.count) || c.halt.isSome) &&
    (c.window ≠ [] || c.forming ≠ [])
/-- The stream after a pass at tick t. -/
def Cbu.pass (c : Cbu) (t : Nat) : Cbu :=
  let (w, f, joined) := cbScan c.ordered c.window [] c.forming false
  if 64 ≤ f.length ∨ !joined then
    { c with window := w, forming := [], closed := c.closed ++ [sortRecs f], passAt := t + 1 }
  else { c with window := w, forming := f, passAt := t + 1 }
/-- A formation pass over the window (R254). -/
def execCbuPass (wing : Nat) (s : State) : Res :=
  .next (s.modWing wing fun x =>
    { x with cbu := x.cbu.map fun c => if c.passDue s.tick then c.pass s.tick else c })

/-! ## Reading records (R252, R253) -/

/-- The CBU asks for its next record now, or takes the one that has come. -/
def Cbu.reads (c : Cbu) (now : Nat) : Bool :=
  c.got.isSome || (c.halt.isNone && c.asked.isNone && decide (c.cursor < c.count) && decide (c.window.length < 256) &&
    decide (max c.hz c.readAt ≤ now))
/-- The place of the record at the cursor, or the fault that stops the reading: ALIGN in the port range, which takes accesses of 8
bytes only (R402). A record in the device windows is read there as the opening room's engines would read it, and an offset past its
SCRATCH stops the reading with code 6 (DESIGN CHOICE, log entry 95). -/
def cbFetch (s : State) (c : Cbu) : Except FaultInfo (Loc × Part) :=
  let va := c.base + BitVec.ofNat 64 (16 * c.cursor)
  let fail (f : Nat) : Except FaultInfo (Loc × Part) :=
    .error { code := f, va := va, cursor := BitVec.ofNat 64 c.cursor, detail := 0 }
  match locate s { engCtx c.room c.satp c.mode with ten := some c.tenant } .load va with
  | .error f => fail f
  | .ok l => if l.place = .port then fail 2 else .ok (l, partOf { n := 0, va := va, w := 16 } l 0)
/-- The CBU takes the record that has come into its window, or asks the home of the next one, which reads it as any load: at
its destination while its page migrates, with the host's granules; it stops at a record that cannot be read (R252, R253). -/
def execCbuRecordRead (wing : Nat) (s : State) : Res :=
  .next (match (s.wing wing).cbu with
    | some c =>
      let put (s : State) (c : Cbu) : State := s.modWing wing fun x => { x with cbu := some c }
      match c.got with
      | some b =>
        (put s { c with got := none, window := c.window ++ [cbRecord c.cursor b], cursor := c.cursor + 1, readAt := s.openTick }).bump
      | none =>
        if c.reads s.tick then
          let s := s.needTier { engCtx c.room c.satp c.mode with ten := some c.tenant } (c.base + BitVec.ofNat 64 (16 * c.cursor))
          (match cbFetch s c with
           | .error f => put s { c with halt := some f, recorded := false }
           | .ok (l, p) =>
             let m : MemMsg := { room := c.room, tenant := c.tenant, who := .host, depth := 0, inc := tget 0 s.hall.inc c.room, id := s.seq,
                                 issued := s.tick, store := false, satp := c.satp, dest := .cbu wing, parts := [p], lane := 0 }
             ((put ((s.fillTlb l).fillTier l) { c with asked := some s.seq }).schedule s.cohTick (.loadAtHome m)).nextId.bump)
        else s
    | none => s)

/-! ## Pulls and releases (R226) -/

/-- The word of a pull. -/
def pullWord (payload : W32) (code cur : Nat) : W64 := 0#8 ++ BitVec.ofNat 16 cur ++ 0#6 ++ BitVec.ofNat 2 code ++ payload
/-- The decision on a pull of a room of a tenant: the stream after it, and the word, or none when it is held. -/
def pullDecide (cb : Option Cbu) (r : CbuReq) : Option Cbu × Option W64 :=
  let room := r.room
  match cb with
  | none => (none, some (pullWord 0 2 0))
  | some c =>
    if c.tenant ≠ r.tenant then (some c, some (pullWord 0 2 0))
    else
      let q := room % 64
      match c.members.find? fun m => m.holder.isNone with
      | some m =>
        let take (n : CMem) : CMem := if n.pos = m.pos then { n with holder := some room, iter := r.iter } else n
        (some { c with members := c.members.map take }, some (pullWord m.payload 0 c.cur))
      | none =>
        if c.ended then (some c, some (pullWord 0 2 c.cur))
        else if !c.endSeen.getLsbD q || c.members.any fun m => m.holder = some room && !m.done then
          (some { c with endSeen := c.endSeen ||| (1#64 <<< q) }, some (pullWord 0 1 c.cur))
        else (some c, none)

/-- The answer of a CBU request, a tick after its decision (R224). -/
def cbAnswer (s : State) (r : CbuReq) (v : W64) : State :=
  s.schedule (s.tick + 1) (.deferredAnswer r.room (valueAnswer r.id v r.lane r.word))
/-- A refused request: all ones, and the CBU_MISUSE trap (R230). -/
def cbRefuse (s : State) (r : CbuReq) (write : Bool) : State :=
  s.schedule (s.tick + 1) (.deferredAnswer r.room
    { id := r.id, value := -1, write := write, misuse := some 59, va := 0#32 ++ r.word, lane := r.lane, word := r.word, bar := none })

/-- Decides a pull, or holds it; `held`: it has been held before. -/
def cbPullNow (s : State) (w : Nat) (r : CbuReq) (held : Bool) : State :=
  let (cb, v) := pullDecide (s.wing w).cbu r
  let s := s.modWing w fun x => { x with cbu := cb }
  match v with
  | some v => s.schedule (s.tick + 1) (.deferredAnswer r.room { valueAnswer r.id v r.lane r.word with held := held })
  | none => s.modWing w fun x => { x with cbuHeld := x.cbuHeld ++ [r] }
/-- Held requests in increasing room number. -/
def insertReq (r : CbuReq) : List CbuReq → List CbuReq
  | [] => [r]
  | q :: l => if r.room < q.room then r :: q :: l else q :: insertReq r l
/-- Decides every held request, in increasing room number. -/
def cbDecideHeld (s : State) (w : Nat) : State :=
  let l := (s.wing w).cbuHeld.foldr insertReq []
  l.foldl (fun s r => cbPullNow s w r true) (s.modWing w fun x => { x with cbuHeld := [] })

/-- Every retirement of the current batch has counted. -/
def Cbu.retired (c : Cbu) : Bool := c.members.all (·.counted)
/-- No record is left to batch (R259). -/
def Cbu.ends (c : Cbu) : Bool :=
  !c.ended && decide (c.cursor = c.count) && c.window = [] && c.forming = [] && c.closed = [] && c.retired
/-- A closed batch can become current, or the stream ends (R226, R255, R259). -/
def Cbu.releases (c : Cbu) : Bool := c.retired && (c.closed ≠ [] || c.ends)
/-- The next batch becomes current and the held pulls are decided; with no record left the stream ends (R226, R259). -/
def execBatchRelease (wing : Nat) (s : State) : Res :=
  .next (match (s.wing wing).cbu with
    | some c =>
      if c.retired ∧ c.closed ≠ [] then
        (let mem (r : CRec) : CMem := { pos := r.pos, payload := r.payload, holder := none, done := false, counted := false }
         let c := { c with cur := c.cur + 1, members := (c.closed.headD []).map mem, closed := c.closed.drop 1, endSeen := 0 }
         cbDecideHeld (s.modWing wing fun x => { x with cbu := some c }) wing)
      else if c.ends then cbDecideHeld (s.modWing wing fun x => { x with cbu := some { c with ended := true } }) wing
      else s
    | none => s)

/-! ## Decisions (R224 to R230, R373) -/

/-- Whether the operands of a `cb.open` are refused (R230). -/
def openMisuse (xs1 xs2 : W64) : Bool :=
  decide (xs1.toNat % 16 ≠ 0) || decide (getField xs2 0 32 = 0) || decide (getField xs2 33 31 ≠ 0)
/-- A stream as `cb.open` binds it (R225, R251). -/
def openCbu (r : CbuReq) (now : Nat) : Cbu :=
  { room := r.room, tenant := r.tenant, base := r.xs1, satp := r.satp, mode := r.mode, count := getField r.xs2 0 32,
    ordered := r.xs2.getLsbD 32, hz := r.hz, endSeen := -1, passAt := now + 1, readAt := now }
/-- The member that a `cb.done` names (R227, R230). Of several that the room holds with one payload, it is the one of lowest
stream position (DESIGN CHOICE, log entry 62). -/
def doneMember (c : Cbu) (r : CbuReq) : Option CMem :=
  if c.tenant ≠ r.tenant ∨ getField r.xs1 32 2 ≠ 0 then none
  else c.members.find? fun m => m.holder = some r.room && !m.done && decide (m.payload = r.xs1.extractLsb' 0 32)
/-- The word of `cb.stat` (R373). -/
def cbStatWord (x : Wing) (tenant sel : Nat) : W64 :=
  match x.cbu with
  | none => 0
  | some c =>
    if c.tenant ≠ tenant then 0
    else match sel with
      | 0 => 0#5 ++ BitVec.ofBool c.halt.isSome ++ BitVec.ofBool c.ordered ++ 1#1 ++ BitVec.ofBool c.ended ++
          BitVec.ofNat 7 (c.members.filter (·.counted)).length ++ BitVec.ofNat 7 c.members.length ++
          BitVec.ofNat 9 c.window.length ++ BitVec.ofNat 32 c.cursor
      | 1 => 0#41 ++ BitVec.ofNat 7 c.forming.length ++ BitVec.ofNat 16 c.cur
      | 2 => c.endSeen
      | _ => BitVec.ofNat 64 (x.cbuHeld.foldl (fun a r => a + 2 ^ (r.room % 64)) 0)

/-- A request without a register has been decided. -/
def cbFree (s : State) (r : CbuReq) : State := s.modRoom r.room fun x => x.answered r.id

/-- The CBU of the room's wing decides a request in its decision tick (R224), also one for a member that moved to the room from
another wing with its area (R345). -/
def execCbuDecision (r : CbuReq) (s : State) : Res :=
  .next (
    let w := wingOf r.room
    match r.op with
    | .pull => cbPullNow s w r false
    | .stat => cbAnswer s r (cbStatWord (s.wing w) r.tenant (getField r.xs1 0 2))
    | .open =>
      if openMisuse r.xs1 r.xs2 then cbRefuse s r true
      else if (s.wing w).cbu.isSome then cbAnswer s r 1
      else cbAnswer (s.modWing w fun x => { x with cbu := some (openCbu r s.tick) }) r 0
    | .close =>
      (match (s.wing w).cbu with
       | some c =>
         if c.tenant = r.tenant then
           cbFree (cbDecideHeld (s.modWing w fun x =>
             { x with cbu := none, faults := x.faults.filter fun f => f.src ≠ .cbu w }) w) r
         else cbFree s r
       | none => cbFree s r)
    | .done =>
      (match (s.wing w).cbu with
       | none => cbRefuse s r false
       | some c =>
         match doneMember c r with
         | none => cbRefuse s r false
         | some m =>
           let at_ := max s.tick r.hz
           let f (n : CMem) : CMem :=
             if n.pos = m.pos then { n with done := true, counted := decide (r.hz ≤ s.tick), at_ := at_ } else n
           let s := cbFree (s.modWing w fun x => { x with cbu := some { c with members := c.members.map f } }) r
           if r.hz ≤ s.tick then s else s.schedule at_ (.cbDoneCount w m.pos)))

/-- A retirement counts (R227). -/
def execCbDoneCount (wing pos : Nat) (s : State) : Res :=
  .next (s.modWing wing fun x =>
    let f (n : CMem) : CMem := if n.pos = pos ∧ n.done ∧ n.at_ ≤ s.tick then { n with counted := true } else n
    { x with cbu := x.cbu.map fun c => { c with members := c.members.map f } })

/-- A withdrawal arrives: the held pull is removed, and the lane no longer holds (R224). -/
def execCbPullWithdraw (room : Nat) (s : State) : Res :=
  .next (
    let w := wingOf room
    let mine (r : CbuReq) : Bool := r.room = room && r.op = .pull
    match (s.wing w).cbuHeld.find? mine with
    | some r =>
      let s := s.modWing w fun x => { x with cbuHeld := x.cbuHeld.filter fun q => !mine q }
      s.modRoom room fun x => { x.answered r.id with
        hold := match x.hold with | .cbPull _ _ => .none | h => h }
    | none => s)

/-- At K a kill's effect reaches the CBUs before any other decision of the tick (R374). A room that a discarded parked iteration left
counts only while it runs nothing else. -/
def execKillCbuEffect (k : KillReq) (s : State) : Res :=
  .next (
    let s := { s with agenda := s.agenda.filter fun a => match a.2 with
      | .cbuDecision r => !k.rooms.contains r.room
      | _ => true }
    (List.range 4).foldl (fun s w =>
      let idle (r : Nat) : Bool := (s.room r).run.isNone
      let mine := (k.rooms ++ k.parked.filter idle).filter fun r => wingOf r = w
      let ours (m : CMem) : Bool := !m.done && m.holder.isSome && k.iters.contains m.iter
      if mine = [] ∧ ((s.wing w).cbu.all fun c => !c.members.any ours) then s
      else
        let qs := mine.map (· % 64)
        let back (m : CMem) : CMem := if ours m then { m with holder := none } else m
        let f (c : Cbu) : Cbu :=
          { c with members := c.members.map back, endSeen := qs.foldl (fun b q => b &&& ~~~(1#64 <<< q)) c.endSeen }
        let keep (x : Wing) : Wing := { x with cbu := x.cbu.map f, cbuHeld := x.cbuHeld.filter fun r => !mine.contains r.room }
        cbDecideHeld (s.modWing w keep) w) s)

/-! ## Lanes (R224 to R229, R373) -/

/-- Sends a CBU request of the acting lane, which is decided a tick after its dispatch (R224). -/
def sendCb (s : State) (op : CbuOp) (xs1 xs2 : W64) (rd : Reg) : State :=
  let x := s.me
  let r : CbuReq :=
    { room := s.turn, iter := x.iter, tenant := x.tenant, op := op, xs1 := xs1, xs2 := xs2, hz := x.horizon, satp := x.csr.satp, mode := x.mode,
      rd := rd, id := s.seq, lane := x.pc, word := x.curWord }
  s.schedule (s.tick + 1) (.cbuDecision r)
/-- Runs the rest of a lane that carries the horizon: not while PEND is 1 (R288). -/
def State.whenBound (s : State) (f : State) : State := if s.me.vhzPend then (s.drainRoom s.turn).wait else f
/-- A CBU request without a register: its Out stays until the decision. -/
def State.sentCb (s : State) : State :=
  (s.modMe fun x => (x.await s.seq [] false).retire s.tick).nextId

/-- `cb.open` (R225). -/
def execCbOpen (xd xs1 xs2 : Reg) (s : State) : Res :=
  .next (s.whenTo [xd] [xs1, xs2] fun x => s.whenBound (s.whenSlot
    ((sendCb s .open (x.getX xs1) (x.getX xs2) xd).deferX xd)))
/-- `cb.pull`: dispatch holds until its answer has been written (R224, R226). -/
def execCbPull (xd : Reg) (s : State) : Res :=
  .next (s.whenTo [xd] [] fun _ => s.whenSlot
    (((sendCb s .pull 0 0 xd).modMe fun x => (x.await s.seq [xd.toNat] true).holdOn (.cbPull s.seq false)).nextId))
/-- `cb.done` (R227). -/
def execCbDone (xs1 : Reg) (s : State) : Res :=
  .next (s.whenRegs [xs1] fun x => s.whenBound (sendCb s .done (x.getX xs1) 0 0).sentCb)
/-- `cb.close` (R229). -/
def execCbClose (s : State) : Res := .next (sendCb s .close 0 0 0).sentCb
/-- `cb.stat` (R373). -/
def execCbStat (xd xs1 : Reg) (s : State) : Res :=
  .next (s.whenTo [xd] [xs1] fun x => s.whenSlot ((sendCb s .stat (x.getX xs1) 0 xd).deferX xd))

end Sys2Proof.Machine
end

