-- ==== Sys2Proof/Machine/Units.lean ====
section
/-! DEFINITION. Memory services and the wing's configuration: migration (R358, R359), zero-fill (R367, R368), heat and
compression readout (R366, R376, R377), the configuration block (R198), `attic.set` (R203, R384), and castling (R199,
R200, R221, R222). -/

namespace Sys2Proof.Machine

/-! ## Moving and clearing ranges -/

/-- The range reads as zeros, and its poison is gone. -/
def State.zeroRange (s : State) (key n : Nat) : State :=
  { s with mem := s.mem.erase key n, poison := tdrop s.poison (key / 128) ((key + n) / 128) }

/-- Copies bytes and poison marks of a page to another. -/
def copyPage (s : State) (src dst : Nat) : State :=
  let bytes := s.mem.filter fun e => decide (src ≤ e.1) && decide (e.1 < src + 65536)
  let marks := s.poison.filter fun e => decide (src / 128 ≤ e.1) && decide (e.1 < src / 128 + 512)
  let s := s.zeroRange dst 65536
  { s with mem := bytes.foldr (fun e m => m.set (dst + (e.1 - src)) e.2) s.mem,
           poison := marks.foldr (fun e t => tset false t (dst / 128 + (e.1 - src / 128)) e.2) s.poison }

/-! ## Migration (R358, R359) -/

/-- MIGCMD with OP 1: refused while a migration is not idle, outside HBM4E, or onto the same page. At the seal tick every
line goes to its destination, which takes the larger lease end; watched lines, those of an entry on its way to the table too, and
barrier objects go with it (R266). -/
def execMigrationSeal (s : State) : Res :=
  .next (
    let h := s.hall
    let src := h.migsrc.toNat
    let dst := h.migdst.toNat
    if h.migStat = 1 ∨ h.migStat = 2 then s
    else if rangeOf src ≠ .hbm ∨ rangeOf dst ≠ .hbm ∨ src = dst then s.modHall fun h => { h with migStat := 3 }
    else
      let s := copyPage s src dst
      let line (l : Nat) : Nat := if l / 512 = src / 65536 then dst / 128 + l % 512 else l
      let lend := (List.range 512).foldl (fun t i =>
        tset 0 t (dst / 128 + i) (max (tget 0 t (dst / 128 + i)) (tget 0 t (src / 128 + i)))) s.lend
      let objs := (s.barObjs.filter fun e => e.1 / 65536 = src / 65536).foldl
        (fun t e => tset false t (dst + e.1 % 65536) true) s.barObjs
      let watch := s.hall.watch.map fun e => (e.1, e.2.map fun w => { w with lines := w.lines.map line })
      let held (b : BarHeld) : BarHeld := if b.key / 65536 = src / 65536 then { b with key := dst + b.key % 65536 } else b
      let arms (a : Nat × Instr) : Nat × Instr :=
        match a.2 with | .watchArmInstall r => (a.1, .watchArmInstall { r with lines := r.lines.map line }) | _ => a
      let s := { s with lend := lend, barObjs := objs, barHeld := s.barHeld.map held, agenda := s.agenda.map arms }
      let s := s.modHall fun h => { h with watch := watch, migStat := 1, migSeal := s.tick, migPages := (src, dst) }
      (s.schedule s.openTick .migrationCopied).bump)
/-- Every line has been copied (R359). -/
def execMigrationCopied (s : State) : Res :=
  .next (s.modHall fun h => if h.migStat = 1 then { h with migStat := 2 } else h)
/-- MIGCMD with OP 2: accepted only in state 2 (R358). -/
def execMigrationRelease (s : State) : Res :=
  .next (s.modHall fun h => if h.migStat = 2 then { h with migStat := 0 } else h)

/-! ## Zero-fill (R367, R368) -/

/-- ZFCMD with GO: refused outside HBM4E, for no page, or while a fill is under way, which goes on. At the mark tick every line
reads as zeros, and the marking is a store of zeros toward the leases. -/
def execZeroFillMark (s : State) : Res :=
  .next (
    let h := s.hall
    let base := h.zfbase.toNat
    let n := h.zfsize.toNat * 65536
    if h.zfOn ∨ n = 0 ∨ rangeOf base ≠ .hbm ∨ rangeOf (base + n - 1) ≠ .hbm then s.modHall fun h => { h with zfStat := 2 }
    else
      let vt := (s.lend.filter fun e => decide (base / 128 ≤ e.1) && decide (e.1 < (base + n) / 128)).foldl
        (fun a e => max a (e.2 + 1)) s.tick
      let s := s.zeroRange base n
      let s := s.modHall fun h => { h with zfStat := 1, zfOn := true, zfMark := s.tick, zfVt := vt }
      (s.schedule (max s.openTick vt) .zeroFillDone).bump)
/-- Every line has been filled and every visibility time has passed (R368). -/
def execZeroFillDone (s : State) : Res :=
  .next (s.modHall fun h => if h.zfOn ∧ h.zfVt ≤ s.tick then { h with zfStat := 0, zfOn := false } else h)

/-! ## Heat and compression readout -/

/-- A deferred answer that a unit gives in its own time. -/
def State.answerLater (s : State) (rd : Reg) (v : W64) : State :=
  let x := s.me
  (s.send s.turn .data s.openTick (.deferredAnswer s.turn (valueAnswer s.seq v x.pc x.curWord))).deferX rd

/-- The same, for a request that the unit decides in its own time (R376, R377). -/
def State.askLater (s : State) (rd : Reg) (q : Ask) : State :=
  let x := s.me
  (s.send s.turn .data s.openTick (.deferredAnswer s.turn { valueAnswer s.seq 0 x.pc x.curWord with ask := some q })).deferX rd

/-- The page whose heat is counted: in HBM4E or the second tier (R376). -/
def heatPage (l : Loc) : Option Nat := match l.place with | .hbm | .tier => some (l.key / 65536) | _ => none
/-- `heat.rd` (R376). -/
def execHeatRd (xd xs1 : Reg) (s : State) : Res :=
  .next (s.whenTo [xd] [xs1] fun x => s.whenSlot
    (let va := x.getX xs1
     if inWindows va then s.answerLater xd (BitVec.ofNat 64 (2 ^ 17))
     else s.withLoc 1 va (fun s l => s.askLater xd (.heat (heatPage l) l.heat)) { s.devCtx with repl := true }))

/-- `cmp.stat` (R377). -/
def execCmpStat (xd xs1 : Reg) (s : State) : Res :=
  .next (s.whenTo [xd] [xs1] fun x => s.whenSlot (s.withLoc 1 (x.getX xs1) fun s l =>
    if l.cmp then s.askLater xd (.sectors x.tenant l.mdx) else s.devExc 1 (x.getX xs1)))

/-! ## The wing configuration block (R198) -/

/-- Rooms of a wing that run an iteration. -/
def State.wingRuns (s : State) (w : Nat) (p : Nat → Bool) : Bool :=
  s.rooms.any fun e => decide (wingOf e.1 = w) && e.2.run.isSome && p e.1
/-- An accepted write: BUSY until its work is done. -/
def State.cfgAccept (s : State) (w : Nat) (f : Wing → Wing) : State :=
  ((s.modWing w fun x => { f x with cfgBusy := true, cfgRef := false }).schedule s.openTick (.configChangeDone w)).bump
def State.cfgRefuse (s : State) (w : Nat) : State := s.modWing w fun x => { x with cfgRef := true }
/-- A stair's cellar halves and attic portion read as zeros; a pending swap is cancelled (R198, R222). -/
def State.newOwner (s : State) (stair : Nat) : State :=
  let s := (s.zeroRange (cellarKey stair 0 0) (2 ^ 29)).zeroRange (atticKey stair 0) (2 ^ 24)
  s.modStair stair fun x => { x with swap := none }
/-- Writes back and invalidates the wing's attic: no copy is left in its partitions. -/
def State.flushAttic (s : State) (w : Nat) : State :=
  { s with copies := s.copies.filter fun e =>
      !(decide (16 * w ≤ e.1 / 2 ^ 52) && decide (e.1 / 2 ^ 52 < 16 * w + 16)) }
/-- A write to STAIROWN (R198). -/
def execStairownWrite (wing : Nat) (v : W64) (s : State) : Res :=
  .next (
    let x := s.wing wing
    let changed := (List.range 16).filter fun i => getField x.stairown (4 * i) 4 ≠ getField v (4 * i) 4
    if x.cfgBusy then s
    else if s.wingRuns wing fun r => changed.contains (r % 16) then s.cfgRefuse wing
    else changed.foldl (fun s i => s.newOwner (16 * wing + i)) (s.cfgAccept wing fun x => { x with stairown := v }))
/-- A write to ATTICCTL (R198). -/
def execAtticctlWrite (wing : Nat) (v : W64) (s : State) : Res :=
  .next (
    if (s.wing wing).cfgBusy then s
    else if s.wingRuns wing fun _ => true then s.cfgRefuse wing
    else (s.cfgAccept wing fun x => { x with atticctl := v &&& 1#64 }).flushAttic wing)
/-- A write to ATTICPART (R198). -/
def execAtticpartWrite (wing : Nat) (v : W64) (s : State) : Res :=
  .next (
    if (s.wing wing).cfgBusy then s
    else if s.wingRuns wing fun _ => true then s.cfgRefuse wing
    else (s.cfgAccept wing fun x => { x with atticpart := v }).flushAttic wing)
/-- The work of an accepted write is done (R198). -/
def execConfigChangeDone (wing : Nat) (s : State) : Res :=
  .next (s.modWing wing fun x => { x with cfgBusy := false })

/-! ## attic.set (R203, R384) -/

/-- Runs a privileged lane; in U mode it is illegal (R71). -/
def State.privileged (s : State) (f : Room → State) : State := if s.me.mode = .u then s.illegal else f s.me

/-- `attic.set` (R384). -/
def execAtticSet (xs1 xs2 : Reg) (s : State) : Res :=
  .next (s.privileged fun _ => s.whenRegs [xs1, xs2] fun x =>
    let stair := 16 * wingOf s.turn + getField (x.getX xs1) 0 4
    let v := getField (x.getX xs2) 0 5
    let owner := getField (s.wing (wingOf s.turn)).stairown (4 * (stair % 16)) 4
    if v % 4 ≠ 0 ∨ 16 < v then s.illegalOp
    else if x.tenant ≠ 0 ∧ x.tenant ≠ owner then s.devExc 1 0
    else
      let s' := s.modStair stair fun t => { t with changes := t.changes ++ [(v, s.openTick, s.turn)] }
      (s'.holdOn (.attic stair)).bump)

/-- The partition that caches in a stair's slice, and its rooms. -/
def State.slicePart (s : State) (stair : Nat) : Nat := s.partition (64 * (stair / 16) + stair % 16)
def State.sliceRooms (s : State) (stair : Nat) : List Nat :=
  allRooms.filter fun r => wingOf r = stair / 16 ∧ s.partition r = s.slicePart stair
/-- The partition has dirty lines: stores of its rooms that their holders buffer; and lines on their way back: stores that have left
the buffers and have not been answered. -/
def State.sliceDirty (s : State) (stair : Nat) : Bool :=
  (s.wing (stair / 16)).keys.any fun k => !k.buffered.isEmpty &&
    (match k.holder with | some r => (s.sliceRooms stair).contains r | none => false)
def State.sliceDrains (s : State) (stair : Nat) : Bool :=
  (s.wing (stair / 16)).keys.any fun k => k.draining.any fun p => (s.sliceRooms stair).contains p.2
/-- Something is to be done for a slice's oldest change: its change tick has come, no configuration change of the wing is in progress,
and, where the cache loses ways, there are dirty lines to be written back or every one has been (R203). -/
def State.atticDue (s : State) (stair : Nat) : Bool :=
  match (s.stair stair).changes with
  | (v, t, _) :: _ => decide (t ≤ s.tick) && !(s.wing (stair / 16)).cfgBusy &&
      (decide ((s.stair stair).waypart ≤ v) || s.sliceDirty stair || !s.sliceDrains stair)
  | [] => false
/-- The dirty lines of ways that the cache gives up are written back: the buffered stores of the partition's rooms go to their
homes (R203). -/
def State.cleanWays (s : State) (stair : Nat) : State := (s.sliceRooms stair).foldl State.drainRoom s
/-- The ways that the cache gives up are invalidated (R203). -/
def State.loseWays (s : State) (stair v : Nat) : State :=
  let h := s.slicePart stair
  let gone (e : Nat × Copy) : Bool :=
    decide (e.1 / 2 ^ 52 = h) && decide (v ≤ e.2.way) && decide (s.sliceOf h (e.1 % 2 ^ 52) = stair)
  { s with copies := s.copies.filter fun e => !gone e }
/-- A WAYPART change takes effect: ways given up are lost to the cache, bytes that only one of the portions has read as zeros,
and the lane is released (R203). Before that, a cache that loses ways writes back its dirty lines, those too that come meanwhile. -/
def execAtticChangeTick (stair : Nat) (s : State) : Res :=
  .next (
    if s.atticDue stair then
      let t := s.stair stair
      match t.changes with
      | (v, _, r) :: l =>
        if v < t.waypart ∧ s.sliceDirty stair = true then s.cleanWays stair else
        let a := (16 - t.waypart) * 2 ^ 20
        let b := (16 - v) * 2 ^ 20
        let s := (s.loseWays stair v).zeroRange (atticKey stair (min a b)) (max a b - min a b)
        let s := s.modStair stair fun t => { t with waypart := v, changes := l }
        s.modRoom r fun x => if x.hold = .attic stair then x.retire s.tick else x
      | [] => s
    else s)

/-! ## Castling (R200, R221, R222) -/

/-- Posts a castling outcome to a room (R45, R182). The outcome of a pending swap waits in the buffer also where 4 posts wait there
already, for which R45 gives no outcome; none is posted to a room that runs no iteration, or whose iteration a kill ends (DESIGN
CHOICE, log entry 70). -/
def State.post (s : State) (r : Nat) (v : W64) : State :=
  s.modRoom r fun x => if x.run.isSome && x.dying.isNone then { x with posts := x.posts ++ [(v, s.tick)] } else x

/-- `cel.swap` (R221): PERMISSION for a tenant that does not own the stair; a wait while four posts are buffered. -/
def execCelSwap (xs1 : Reg) (s : State) : Res :=
  .next (s.whenRegs [xs1] fun x =>
    let owner := getField (s.wing (wingOf s.turn)).stairown (4 * (s.turn % 16)) 4
    if owner ≠ x.tenant then s.devExc 1 0
    else if 4 ≤ x.posts.length then s.wait
    else (s.schedule (s.tick + 1) (.celSwapRequest s.turn (x.getX xs1))).done)
/-- The request at the stair, a tick after its dispatch (R221). Where both refusals apply, T too near and a swap pending, it posts 2
(DESIGN CHOICE, log entry 70). -/
def execCelSwapRequest (room : Nat) (t : W64) (s : State) : Res :=
  .next (
    let st := stairOf room
    if t.toNat < s.tick - 1 + 64 then s.post room 2
    else if (s.stair st).swap.isSome || (s.stair st).swapAt = some s.tick then s.post room 3
    else s.modStair st fun x => { x with swap := some (t.toNat, room) })

/-- A C entry that has sent shadow bytes has some to come: a position from its cursor on lies in the shadow window. -/
def shadowAhead (n : Entry) : Bool :=
  ((List.range (recP n.lay2.get)).drop n.cursor).any fun m =>
    let a := (recAddr n.lay2.get m n.xa).toNat
    decide (0xFFC0000300000000 ≤ a) && decide (a < 0xFFC0000310000000)
/-- Shadow writes of a stair are on their way: a C entry of its rooms has sent some and not its last, held by a fault or not,
or a message carries some (R200). -/
def State.shadowBusy (s : State) (stair : Nat) : Bool :=
  ((roomsOfStair stair).any fun r => (s.room r).qc.q.any fun n =>
    n.shadowing && n.mask = 1 && !n.pushWait && shadowAhead n.settle) ||
  s.agenda.any fun a => match a.2 with
    | .storeAtHome m => m.parts.any fun p => p.place = .shadow stair
    | _ => false
/-- The tick of a pending swap has come. -/
def State.swapDue (s : State) (stair : Nat) : Bool :=
  match (s.stair stair).swap with | some (t, _) => decide (t ≤ s.tick) | none => false
/-- At T the halves exchange, or SWAPMISS is posted (R222). -/
def execCastling (stair : Nat) (s : State) : Res :=
  .next (
    match (s.stair stair).swap with
    | some (t, r) =>
      if t ≤ s.tick then
        let miss := s.shadowBusy stair
        let s := s.modStair stair fun x => { x with swap := none, swapAt := some s.tick, act := if miss then x.act else 1 - x.act }
        s.post r (if miss then 1 else 0)
      else s
    | none => s)

end Sys2Proof.Machine
end

