-- ==== Sys2Proof/Machine/Jobs.lean ====
section
/-! DEFINITION. Jobs: launch records and pushes (R231 to R234, R249, R250, R371), events and admission (R235 to R237), the
work walker (R238 to R242), the start and the end of iterations (R46, R47, R240, R350, R400), completion (R243), kills
(R336, R349, R380) and pre-emption requests (R347). -/

namespace Sys2Proof

/-! ## Nests (R231, R238) -/

def LaunchRec.levels (b : LaunchRec) : List Nat := (List.range 6).filter fun j => b.kind j ≠ 0
/-- Product of the extents of the levels of a kind; 1 for none. -/
def LaunchRec.span (b : LaunchRec) (k : Nat) : Nat := (b.levels.filter fun j => b.kind j = k).foldl (fun n j => n * b.ext j) 1
/-- Iterations of a gang in one wing, wings of a gang, and gangs. -/
def LaunchRec.perWing (b : LaunchRec) : Nat := b.span 2
def LaunchRec.wings (b : LaunchRec) : Nat := b.span 3
def LaunchRec.gangs (b : LaunchRec) : Nat := b.span 1
def LaunchRec.total (b : LaunchRec) : Nat := b.gangs * b.wings * b.perWing
/-- The index of level j in an iteration's position. -/
def LaunchRec.index (b : LaunchRec) (ord j : Nat) : Nat :=
  ord / ((b.levels.filter (j < ·)).foldl (fun n i => n * b.ext i) 1) % b.ext j
/-- The rank of an iteration among the combinations of the levels of a kind. -/
def LaunchRec.rank (b : LaunchRec) (k ord : Nat) : Nat :=
  (b.levels.filter fun j => b.kind j = k).foldl (fun n j => n * b.ext j + b.index ord j) 0
/-- The position of the iteration with ranks t, w and q among the time, wings and rooms combinations. -/
def LaunchRec.ordOf (b : LaunchRec) (t w q : Nat) : Nat :=
  let part (k rank : Nat) (j : Nat) : Nat :=
    rank / ((b.levels.filter fun i => b.kind i = k && decide (j < i)).foldl (fun n i => n * b.ext i) 1) % b.ext j
  b.levels.foldl (fun n j => n * b.ext j +
    (match b.kind j with | 1 => part 1 t j | 2 => part 2 q j | _ => part 3 w j)) 0

/-- Whether a record is of another tenant than the pusher. -/
def PushReq.crosses (p : PushReq) : Bool := match p.image with | some b => decide (b.tenant ≠ p.src) | none => false

end Sys2Proof

namespace Sys2Proof.Machine

/-- Whether a wing's attic mode meets ATTIC. -/
def State.atticMeets (s : State) (w attic : Nat) : Bool :=
  attic = 0 || (attic = 1 && !(s.wing w).atticctl.getLsbD 0) || (attic = 2 && (s.wing w).atticctl.getLsbD 0)

/-! ## Checks of a push (R232) -/

/-- Reserved fields of a record. -/
def recReserved (b : LaunchRec) : Bool :=
  ((List.range 6).any fun j => b.extractLsb' (709 + 8 * j) 3 ≠ 0 || decide (5 < b.reg j)) || b.extractLsb' 752 16 ≠ 0 ||
    b.extractLsb' 838 2 ≠ 0 || b.extractLsb' 843 5 ≠ 0 || b.extractLsb' 853 3 ≠ 0 || b.extractLsb' 858 6 ≠ 0 ||
    b.extractLsb' 875 21 ≠ 0 || b.extractLsb' 960 64 ≠ 0 || b.slip &&& ~~~qslipMask ≠ 0 || decide (b.attic = 3) ||
    decide (b.cls = 3)
/-- Two present levels name the same register, or a present level has extent 0. -/
def badLevels (b : LaunchRec) : Bool :=
  b.levels.any fun j => decide (b.ext j = 0) || b.levels.any fun i => decide (i < j) && decide (b.reg i = b.reg j)
/-- Rooms of a wing that a record allows and that are in service. -/
def State.allowed (s : State) (b : LaunchRec) (w : Nat) : List Nat :=
  ((List.range 64).map (64 * w + ·)).filter fun r => b.rooms.getLsbD r && s.inService r
/-- One gang can be held. -/
def State.holdable (s : State) (b : LaunchRec) : Bool :=
  decide (b.perWing ≤ 64) && decide (b.wings ≤ 4) &&
    decide (b.wings ≤ ((List.range 4).filter fun w =>
      decide (b.perWing ≤ (s.allowed b w).length) && s.atticMeets w b.attic).length)
/-- The first REASON of R232, 1 to 8, that applies to a record and a queue; 0 for none. -/
def pushReason (s : State) (b : LaunchRec) (queue : Nat) : Nat :=
  if b.entry.toNat % 4 ≠ 0 ∨ !canonicalVa b.entry then 1
  else if recReserved b then 2
  else if (List.range 4).all fun w => s.allowed b w = [] then 3
  else if badLevels b then 4
  else if !s.holdable b then 5
  else if 24 < b.vregs ∨ 1024 < b.wrows ∨ 0x400000 < b.scratch then 6
  else if b.parent ≠ 0 ∧ !s.ownJob b.tenant b.parent then 7
  else if 16 ≤ (tget [] s.hall.queues (64 * b.tenant + queue)).length then 8
  else 0

/-- The next handle: 0 and the handles of incomplete jobs are skipped (R234). -/
def State.newHandle (s : State) : Nat :=
  let n := s.hall.jobs.length + 2
  let at_ (i : Nat) : Nat := (s.hall.nextHandle + i) % 2 ^ 32
  ((List.range n).map at_ |>.find? fun h => h ≠ 0 && (s.job? h).isNone).getD 0
/-- An accepted push: the job gets its handle and its record enters the queue. -/
def State.enqueueJob (s : State) (b : LaunchRec) (queue : Nat) : State × Nat :=
  let h := s.newHandle
  let q : Queued := { handle := h, record := b, entered := s.tick }
  let j : Job := { handle := h, record := b }
  (s.modHall fun x => { x with nextHandle := (h + 1) % 2 ^ 32, jobs := x.jobs ++ [j],
                               queues := tmod [] x.queues (64 * b.tenant + queue) (· ++ [q]) }, h)

/-- The hall reads a record once (R231), at the home of its line: the bridge obtains what it lacks (R295), and the request to a page
that has been sealed goes where it stands now (R359). -/
def readRecord (s : State) (q : PushReq) : State × Option LaunchRec :=
  match movedPart s q.src q.satp false q.part with
  | .error _ => (s, none)
  | .ok p =>
    let ok : Bool := match p.place with | .repl | .port => false | _ => true
    let s := if ok then poisonRead (s.ownParts [p]) [p] else s
    (s, if ok && (partFault s p).isNone then some (BitVec.ofNat 1024 (homeValue s p)) else none)
/-- A push with the record that the hall has read for it. -/
def readPush (s : State) (q : PushReq) : State × PushReq := let (s, b) := readRecord s q; (s, { q with image := b })

/-- The result of a push: LRES of the port, or the answer of the `launch` (R233, R371). -/
def pushAnswer (s : State) (p : PushReq) (reason handle : Nat) : State :=
  match p.room with
  | some r =>
    let v := if reason = 0 then BitVec.ofNat 64 handle else BitVec.ofNat 64 (2 ^ 63 + reason)
    (s.schedule s.openTick (.deferredAnswer r (valueAnswer p.id v 0 0))).bump
  | none =>
    let old := tget 0 s.hall.lres p.src
    let v := if reason = 0 then setField (setField old 0 16 0) 16 32 handle else setField (setField old 0 16 0) 0 16 (2 + 256 * reason)
    s.modHall fun h => { h with lres := tset 0 h.lres p.src v }

/-- The reserved bits of the queue word of a `launch`. -/
def pushQueue (p : PushReq) : Nat := getField p.queue 0 6
/-- A push into a queue of the record's tenant, by the checks of R232. -/
def pushNow (s : State) (p : PushReq) : State :=
  match p.image with
  | none => pushAnswer s p 1 0
  | some b =>
    let reason := if p.queue.toNat / 64 ≠ 0 then 2 else pushReason s b (pushQueue p)
    if reason ≠ 0 then pushAnswer s p reason 0
    else
      let (s, h) := s.enqueueJob b (pushQueue p)
      pushAnswer s p 0 h

/-- Fields of a filter entry (R249). -/
def filtMatches (e : BitVec 128) (src dst queue : Nat) : Bool :=
  e.getLsbD 15 && decide ((e.extractLsb' 0 4).toNat = src) && decide ((e.extractLsb' 4 4).toNat = dst) &&
    (e.getLsbD 14 || decide ((e.extractLsb' 8 6).toNat = queue))
/-- The lowest filter entry that covers a push. -/
def State.filter? (s : State) (src dst queue : Nat) : Option (Nat × BitVec 128) :=
  s.hall.filt.find? fun e => filtMatches e.2 src dst queue

/-- The scheduling processor decides a cross-tenant push (R250). -/
def execCrossTenantPush (p : PushReq) (s : State) : Res :=
  .next (match p.image with
    | none => pushAnswer s p 1 0
    | some b =>
      if p.src = 0 ∨ p.queue.toNat / 64 ≠ 0 ∨ pushReason s b (pushQueue p) ≠ 0 then pushNow s p
      else match s.filter? p.src b.tenant (pushQueue p) with
        | none => pushAnswer s p 9 0
        | some (i, e) =>
          let n := tget 0 s.hall.filtCnt i
          if !e.getLsbD (16 + b.cls) ∨ (e.extractLsb' 32 16).toNat ≤ n then pushAnswer s p 9 0
          else pushNow (s.modHall fun h => { h with filtCnt := tset 0 h.filtCnt i (n + 1) }) p)

/-- A write to LCMD (R233): ignored while busy; the hall reads the record and the push completes within 64 ticks. -/
def execLaunchPush (tenant : Nat) (v : W64) (s : State) : Res :=
  .next (
    if getField (tget 0 s.hall.lres tenant) 0 2 = 1 then s
    else
      let key := getField v 7 45 * 128
      let place : Place := match rangeOf key with | .hbm => .hbm | .tier => .tier | .repl => .repl | .port | .nothing => .port
      let part : Part := { pos := 0, va := 0, place := place, key := key, w := 128, data := 0, ms := false, watch := false,
                           cmp := false, heat := false }
      let (s, p) := readPush s { src := tenant, room := none, part := part, image := none,
                                 queue := BitVec.ofNat 64 (getField v 52 6), id := 0 }
      let s := s.modHall fun h => { h with lres := tset 0 h.lres tenant (setField (tget 0 h.lres tenant) 0 2 1) }
      (s.schedule s.boundedTick (if p.crosses then .crossTenantPush p else .launchPushDone tenant p)).bump)
/-- A push through a port completes (R233). -/
def execLaunchPushDone (_tenant : Nat) (p : PushReq) (s : State) : Res := .next (pushNow s p)

/-- The hall receives the request of a `launch` (R371): it reads the record, and decides the push, or passes a cross-tenant
one to the scheduling processor. -/
def execDeviceLaunchPush (p : PushReq) (s : State) : Res :=
  .next (
    let (s, p) := readPush s p
    if p.crosses then (s.schedule s.openTick (.crossTenantPush p)).bump else pushNow s p)

/-- `launch` (R371): the request leaves once the room's horizon has been reached. -/
def execLaunch (xd xs1 xs2 : Reg) (s : State) : Res :=
  .next (s.whenTo [xd] [xs1, xs2] fun x => s.whenSlot (s.withLoc 128 (x.getX xs1) fun s l =>
    if l.place = .port then s.devExc 2 (x.getX xs1)
    else if !s.settled then (s.drainRoom s.turn).wait
    else
      let p : PushReq := { src := x.tenant, room := some s.turn, part := partOf { n := 0, va := x.getX xs1, w := 128 } l 0,
                           image := none, queue := x.getX xs2, id := s.seq, satp := x.csr.satp }
      (s.send s.turn .data s.openTick (.deviceLaunchPush p)).deferX xd))

/-! ## Events (R233, R235) -/

/-- EVSET: sets events of the tenant. -/
def execEvset (tenant : Nat) (bits : W64) (s : State) : Res :=
  .next (s.modHall fun h => { h with events := tmod 0 h.events tenant (· ||| bits) })
/-- EVCLR: clears events of the tenant. -/
def execEvclr (tenant : Nat) (bits : W64) (s : State) : Res :=
  .next (s.modHall fun h => { h with events := tmod 0 h.events tenant (· &&& ~~~bits) })

/-! ## Admission (R236, R237) -/

/-- AGELIMIT of a tenant; 0 acts as 1. -/
def State.ageLimit (s : State) (tenant : Nat) : Nat := max 1 (getField (tget 8 s.hall.lcfg tenant) 0 8)
/-- Whether the head of a queue is eligible at slot boundary t. -/
def headEligible (events : W64) (t : Nat) (q : List Queued) : Bool :=
  match q with | h :: _ => decide (h.entered < t) && decide (h.record.waits &&& ~~~events = 0) | [] => false
/-- A queue at slot boundary t: the boundary from which its head counts as eligible. -/
def noteEligible (events : W64) (t : Nat) (q : List Queued) : List Queued :=
  match q with
  | h :: r => { h with since := if headEligible events t q then some (h.since.getD t) else none } :: r
  | [] => []
/-- The effective priority of a head (R237). -/
def effPriority (age t : Nat) (h : Queued) : Nat :=
  match h.since with
  | some b => min 7 (h.record.prio + (t / 4096 - b / 4096) / age)
  | none => h.record.prio
/-- The queue of a tenant that is admitted from at slot boundary t, with its effective priority. The first choice at a level
follows R237's pseudocode, where rr is 0 and queue 0 not above it; its prose says the lowest eligible queue (DEDUCED, log entry
67). -/
def chooseQueue (s : State) (tenant t : Nat) : Option (Nat × Nat × Queued) :=
  let events := tget 0 s.hall.events tenant
  let c := (List.range 64).filterMap fun i =>
    let q := tget [] s.hall.queues (64 * tenant + i)
    if headEligible events t q then q.head?.map fun h => (i, effPriority (s.ageLimit tenant) t h, h) else none
  let p := c.foldl (fun m e => max m e.2.1) 0
  let top := c.filter fun e => e.2.1 = p
  match top.find? fun e => decide (tget 0 s.hall.rr (8 * tenant + p) < e.1) with
  | some e => some e
  | none => top.head?
/-- Admits at most one record of a tenant (R237). -/
def admitTenant (t : Nat) (s : State) (tenant : Nat) : State :=
  let events := tget 0 s.hall.events tenant
  let s := s.modHall fun h => { h with queues := (List.range 64).foldl (fun qs i =>
    tmod [] qs (64 * tenant + i) (noteEligible events t)) h.queues }
  match chooseQueue s tenant t with
  | none => s
  | some (i, p, q) =>
    let s := s.modHall fun h =>
      { h with rr := tset 0 h.rr (8 * tenant + p) i, events := tmod 0 h.events tenant (· &&& ~~~q.record.waits),
               queues := tmod [] h.queues (64 * tenant + i) fun l => l.drop 1 }
    s.modJob q.handle fun j => { j with order := t + 1 }
/-- At a slot boundary the hall admits at most one record for each tenant (R237). -/
def execAdmission (s : State) : Res :=
  .next (if s.tick % 64 = 0 then (List.range 16).foldl (admitTenant s.tick) s else s)

/-! ## The walker (R238, R239, R242) -/

/-- Rooms that run an iteration of a job. -/
def State.jobRooms (s : State) (h : Nat) : List Nat :=
  s.rooms.filterMap fun e => match e.2.run with | some u => if u.job = h then some e.1 else none | none => none
/-- Rooms that run a gang of a job. -/
def State.gangRooms (s : State) (h gang : Nat) : List Nat :=
  (s.jobRooms h).filter fun r => match (s.room r).run with | some u => decide (u.gang = gang) | none => false
/-- The parked gang that resumes next: all its members are parked or have ended. -/
def State.resumable (s : State) (j : Job) : Option Parked :=
  match j.parked with | p :: _ => if s.gangRooms j.handle p.gang = [] then some p else none | [] => none
/-- A watch entry has a trigger that may start: not throttled (R270, R273). -/
def State.triggered (s : State) (i : Nat) : Bool :=
  match tget none s.hall.watch i with
  | some e => decide (e.state = 1) && e.pend.isSome && decide (e.started < entryRate e.image)
  | none => false
/-- A job has a gang that can be started. -/
def State.hasGang (s : State) (j : Job) : Bool :=
  decide (0 < j.order) &&
    (if j.parked ≠ [] then (s.resumable j).isSome
     else match j.watch with
      | some i => !j.closing && s.triggered i
      | none => !j.closing && decide (j.next < j.record.gangs))
/-- A free room (R242). -/
def State.freeRoom (s : State) (r : Nat) : Bool :=
  let x := s.room r
  s.inService r && x.run.isNone && x.claim.isNone && x.dying.isNone && decide (x.freeFrom ≤ s.tick)
/-- Whether job a is chosen before job b for a room whose last tenant served is `last` (R242). -/
def jobBefore (last : Nat) (a b : Job) : Bool :=
  if a.record.prio ≠ b.record.prio then decide (b.record.prio < a.record.prio)
  else if a.order ≠ b.order then decide (a.order < b.order)
  else decide ((a.record.tenant + 15 - last) % 16 < (b.record.tenant + 15 - last) % 16)
/-- The job whose next gang claims a room. In an open slot the tenants take turns from the unit's rotation pointer on, which is 0 at
reset, so tenant 1 comes first and tenant 0 last (R245; DESIGN CHOICE, log entry 75). -/
def State.claimant (s : State) (r : Nat) : Option Job :=
  let u := calUnit 0 r
  let c := s.hall.jobs.filter fun j =>
    s.hasGang j && j.record.rooms.getLsbD r && s.mayServe u j.record.tenant s.tick
  c.foldl (fun b j => match b with | none => some j | some k => if jobBefore (tget 0 s.hall.rot u) j k then some j else some k) none
/-- The next room that the walker claims, with the job. -/
def State.nextClaim (s : State) : Option (Nat × Job) :=
  if s.hall.jobs.any s.hasGang then
    allRooms.findSome? fun r => if s.freeRoom r then (s.claimant r).map fun j => (r, j) else none
  else none
/-- The walker claims a free room for the next gang of the chosen job (R242). The room's rotation pointer moves with the claim, also
where the claim lapses before the gang starts (R245; DESIGN CHOICE, log entry 94). -/
def execRoomClaim (s : State) : Res :=
  .next (match s.nextClaim with
    | some (r, j) => (s.modRoom r fun x => { x with claim := some j.handle }).modHall fun h =>
        { h with rot := tset 0 h.rot (calUnit 0 r) j.record.tenant }
    | none => s)
/-- Claims whose tenant may not start work in the slot that ends lapse (R242). -/
def State.lapseClaims (s : State) : State :=
  { s with rooms := s.rooms.map fun (r, x) =>
      match x.claim with
      | some h => (match s.job? h with
        | some j => if s.mayServe (calUnit 0 r) j.record.tenant s.tick then (r, x) else (r, { x with claim := none })
        | none => (r, { x with claim := none }))
      | none => (r, x) }

/-- A job claims a room on which its tenant may start work in this tick (R242, R245). -/
def State.claims (s : State) (h r : Nat) : Bool :=
  (s.room r).claim = some h &&
    (match s.job? h with | some j => s.mayServe (calUnit 0 r) j.record.tenant s.tick | none => false)
/-- The rooms on which groups of iterations run: for each group the lowest-numbered wing not yet taken that holds enough of
the claimed rooms, and in it the lowest-numbered rooms (R239). -/
def placeGroups (s : State) (j : Job) : (groups : List (List Nat)) → (wings : List Nat) → Option (List (Nat × Nat))
  | [], _ => some []
  | g :: l, wings =>
    let mine (w : Nat) : List Nat := ((List.range 64).map (64 * w + ·)).filter fun r => s.claims j.handle r
    match wings.find? fun w => decide (g.length ≤ (mine w).length) && s.atticMeets w j.record.attic with
    | none => none
    | some w => (placeGroups s j l (wings.filter (· ≠ w))).map fun t => g.zip (mine w) ++ t
/-- The iterations of a gang, grouped by the rank of their wings indices. -/
def gangGroups (b : LaunchRec) (gang : Nat) : List (List Nat) :=
  (List.range b.wings).map fun w => (List.range b.perWing).map fun q => b.ordOf gang w q
/-- The members of a parked gang in the same groups. -/
def parkedGroups (b : LaunchRec) (p : Parked) : List (List Nat) :=
  ((List.range b.wings).map fun w => (p.members.map (·.1)).filter fun o => b.rank 3 o = w).filter (· ≠ [])

/-! ## The start of an iteration (R46, R240, R334, R400) -/

/-- The RV CSRs at the start of an iteration (R400). -/
def startCsrs (s : State) (tenant : Nat) : Csrs :=
  { satp := tget 0 s.hall.tsatp tenant, mstatus := 0x2000#64, mtvec := s.hall.trapvec, mie := 0x40000#64, mcounteren := 7,
    scounteren := 7 }

/-- The room state that later iterations of a job find: all 0 at the first one (R46, R87, R114, R195, R197); of a thread also the
key registers (R264). -/
def Room.jobState (x : Room) (first thread : Bool) : Room :=
  if first then
    let x := if thread then { x with keybase := 0, keyctl := 0, keyRes := 0 } else x
    { x with x := [], f := [], v := [], k := [], z := [], w := [], lay := [], nestS := [], recS := [], nestA := [], recA := [],
             gather := [], bnet := [], scales := [], vflags := 0, vflNew := 0, bankfmt := 0, bconf := 0, faultrec := 0,
             qseq0 := 0, qseq1 := 0, qseq2 := 0 }
  else x

/-- A room at the start of an iteration, before the preloads. Of the control queue's state a later thread keeps TRY (R264). -/
def startRoom (s : State) (x : Room) (u : Run) (pc slip : W64) (mode : Mode) : Room :=
  let first := decide (x.lastJob ≠ some u.job)
  let x := x.jobState first u.thread.isSome
  let next : Nat := s.tick + 1
  let csrs : Csrs := startCsrs s u.tenant
  let at_ : W64 := laneTarget pc
  { x with
    run := some u, lastJob := some u.job, claim := none, mode := mode, pc := at_, line := none, nextDispatch := next,
    hold := .none, outs := [], late := none, misuse := [], csr := csrs, qslip := slip,
    qwmark := 0, cqTry := x.cqTry && u.thread.isSome && !first, hz := 0, stores := [], barrec := 0, disp := 0, ql := {}, qv := {}, qs := {}, qm := {}, qc := {},
    tok := [], tokS := [], rel := [], iq := [], oq := [], cq := [], cqRes := 0, posts := [], mon := none, monWoke := false, resv := none,
    scFails := 0, origins := [], pre := false, mHeld := false, mSoon := false, mLast := 0, dying := none }

/-- The ranges of at most 128 bytes, each in one line, of n bytes from an address: offset and length. -/
def lineRanges (base n : Nat) : List (Nat × Nat) :=
  (List.range ((base + n + 127) / 128 - base / 128)).map fun i =>
    let lo := max base ((base / 128 + i) * 128)
    (lo - base, min (base + n) ((base / 128 + i) * 128 + 128) - lo)
/-- The part of a range of an image whose 64 KiB pages are given from that of `base`. -/
def imagePart (pages : List Part) (base : W64) (off len data : Nat) : Option Part :=
  let va := base + BitVec.ofNat 64 off
  (pages[va.toNat / 65536 - base.toNat / 65536]?).map fun p =>
    { p with va := va, key := p.key + va.toNat % 65536, w := len, data := data }
/-- The granule, or the sector, of a part is poisoned (R391). -/
def State.poisonPart (s : State) (p : Part) : State :=
  if p.cmp then
    let k := p.key
    let d := sectorDesc s (keyTenant k) (keyMdx k) (keySector k)
    s.write (descAddr s (keyTenant k) (keyMdx k) (keySector k)) 64 (d ||| 0x20#512).toNat
  else { s with poison := tset false s.poison (p.key / 128) true }
/-- The bytes of a room's lazily saved scratchpad are stored into its image, and the tag is cleared (R346). Poisoned bytes leave
their granule of the image poisoned: no lane is there to fault, and they are never copied without one (R391; DESIGN CHOICE, log
entry 91). -/
def writeTag (s : State) (r : Nat) : State :=
  match (s.room r).tag with
  | none => s
  | some t =>
    let l := (lineRanges t.base.toNat t.size).filterMap fun p =>
      (imagePart t.pages t.base p.1 p.2 (s.read (scratchKey r p.1) p.2)).map fun q =>
        (s.homeOf q, s.poisoned (scratchKey r p.1) p.2)
    let parts := l.map (·.1)
    let s := s.ownParts parts
    let s := (applyStore s { storeMsg s r .core 0 parts with depth := 0 }).s
    let s := (l.filter (·.2)).foldl (fun s p => s.poisonPart p.1) s
    s.modRoom r fun x => { x with tag := none }

/-- An iteration starts on a room. The scratchpad keeps its bytes; at the first thread of an entry on the room they are 0, as all
other state of the room (R264). -/
def startOn (s : State) (r : Nat) (u : Run) (pc slip : W64) (mode : Mode) : State :=
  let first := decide ((s.room r).lastJob ≠ some u.job)
  let s := if (s.room r).tag.isSome ∧ first = true then writeTag s r else s
  let s := if u.thread.isSome && first then s.zeroRange (scratchKey r 0) (2 ^ 22) else s
  (s.disarm r).modRoom r fun x => startRoom s x u pc slip mode

/-- The iteration of a job with position `ord` (R240). -/
def jobRun (j : Job) (ord gang : Nat) : Run :=
  { job := j.handle, ord := ord, gang := gang, tenant := j.record.tenant, prio := j.record.prio, vregs := j.record.vregs,
    wrows := j.record.wrows, scratch := j.record.scratch, thread := none, depth := 0 }
/-- Preloads of an iteration: ARGS and the indices (R11, R240). -/
def preload (b : LaunchRec) (ord : Nat) (x : Room) : Room :=
  b.levels.foldl (fun x j => x.setX (BitVec.ofNat 5 (10 + b.reg j)) (BitVec.ofNat 64 (b.index ord j))) (x.setX 16 b.args)
/-- An iteration starts in S mode for tenant 0, in U mode otherwise (R334). -/
def startMode (tenant : Nat) : Mode := if tenant = 0 then .s else .u

/-- Frees the claims of a job. -/
def State.freeClaims (s : State) (h : Nat) : State :=
  { s with rooms := s.rooms.map fun (r, x) => if x.claim = some h then (r, { x with claim := none }) else (r, x) }

/-- The placement of a job's next gang on claimed rooms; none while they do not satisfy R239. -/
def State.gangPlace (s : State) (h : Nat) : Option (Job × List (Nat × Nat)) :=
  match s.job? h with
  | some j => if s.hasGang j ∧ j.parked = [] ∧ j.watch.isNone then (placeGroups s j (gangGroups j.record j.next) (List.range 4)).map fun p => (j, p)
              else none
  | none => none
/-- The walker starts a gang: its iterations start together (R238, R239). -/
def execGangStart (job : Nat) (s : State) : Res :=
  .next (match s.gangPlace job with
    | some (j, l) =>
      let s := s.freeClaims job
      let s := l.foldl (fun s (o, r) =>
        (startOn s r (jobRun j o j.next) j.record.entry j.record.slip (startMode j.record.tenant)).modRoom r
          (preload j.record o)) s
      s.modJob job fun j => { j with next := j.next + 1 }
    | none => s)

/-- The placement of a job's parked gang. -/
def State.resumePlace (s : State) (h : Nat) : Option (Job × Parked × List (Nat × Nat)) :=
  match s.job? h with
  | some j => (match s.resumable j with
    | some p => (placeGroups s j (parkedGroups j.record p) (List.range 4)).map fun l => (j, p, l)
    | none => none)
  | none => none
/-- A parked gang resumes: each room starts in M mode at RESUME with its area in a0 (R347). -/
def execGangResume (job : Nat) (s : State) : Res :=
  .next (match s.resumePlace job with
    | some (j, p, l) =>
      let s := s.freeClaims job
      let s := l.foldl (fun s (o, r) =>
        match p.members.find? fun m => m.1 = o with
        | some (_, area, resume) =>
          let u : Run := { jobRun j o p.gang with thread := j.watch, depth := p.depth }
          let s := startOn s r u resume j.record.slip .m
          s.modRoom r fun x => (preload j.record o x).setX 10 area
        | none => s) s
      s.modJob job fun j => { j with parked := j.parked.drop 1 }
    | none => s)

/-! ## The end of an iteration (R47, R91, R349, R350) -/

/-- Journal records that a room still has to add. -/
def endRecords (s : State) (r : Nat) : List (BitVec 256) :=
  let x := s.room r
  match x.dying, x.run with
  | some (_, l), _ => l
  | none, some u => [journalRec u.selfJob r u.owner 0 0 0 0 255 (BitVec.ofNat 64 u.selfOrd) (BitVec.ofNat 64 s.tick) 0]
  | none, none => []
/-- The iteration of a room can be reported: by `iter.end`, once every queue is empty and every answer written; after a
kill, once K has been reached. The journal must have a place for its records (R350). The refusal of a `cb.done` still under way,
which has no xd, is not waited for (DESIGN CHOICE, log entry 74). -/
def State.reports (s : State) (r : Nat) : Bool :=
  let x := s.room r
  match x.run with
  | none => false
  | some u =>
    (match x.dying with
     | some (some k, _) => decide (k ≤ s.tick)
     | some (none, _) => false
     | none => x.hold = .iterEnd && decide (x.deferred = 0) && x.misuse = [] && (allEng.all fun e => (x.queue e).q = [])) &&
    decide (s.journalLen u.owner + (endRecords s r).length ≤ 1024)
/-- The room after a report: it is free from the next tick (R242). -/
def freedRoom (x : Room) (job now : Nat) : Room :=
  { x with run := none, freeFrom := now + 1, late := none, lastJob := some job, hold := .none, outs := [], misuse := [], iq := [], oq := [], cq := [], cqRes := 0,
           posts := [], tok := [], tokS := [], ql := {}, qv := {}, qs := {}, qm := {}, qc := {}, stores := [], origins := [],
           pre := false, mHeld := false, resv := none, dying := none }
/-- What an iteration that is reported leaves of its stores: its end horizon, also of the entries that a kill has cut, and the
numbers of those that have no bound (R93, R236). -/
def endStores (x : Room) : Nat × List Nat :=
  let left := allEng.flatMap fun e => (x.queue e).q
  (left.foldl (fun a n => n.sent.foldl (fun a o => match o.bound with | some b => max a b | none => a) (max a n.vt)) x.horizon, ((x.stores ++ left.flatMap (·.sent)).filter (·.bound.isNone)).map (·.id))
/-- An iteration is reported ended (R47, R91, R350): while a store has no bound, its keyed stores drain; then the journal
record, the end horizon, the keys passed (R293), and the room is free. -/
def execIterEndReport (room : Nat) (s : State) : Res :=
  .next (
    let x := s.room room
    match x.run with
    | none => s
    | some u =>
      if !s.reports room then s
      else if x.dying.isNone ∧ x.vhzPend then s.drainRoom room
      else
        let s := s.journalAdd u.owner (endRecords s room)
        let s := ((s.passRoom room).leaveKeys room).disarm room
        let (hz, late) := endStores x
        let s := s.modJob u.job fun j =>
          { j with ended := j.ended + 1, endHz := max j.endHz hz, late := j.late ++ late.map fun id => (room, id) }
        s.modRoom room fun x => freedRoom x u.job s.tick)

/-! ## Completion (R235, R243) -/

/-- A job is complete: its iterations have ended, its children are complete, its stores are visible, and the journal has a
place for the records it still owes. -/
def State.completes (s : State) (j : Job) : Bool :=
  let finished := if j.closing then s.jobRooms j.handle = [] && j.parked = []
    else j.watch.isNone && decide (0 < j.order) && decide (j.record.total ≤ j.ended)
  finished && !(s.hall.jobs.any fun k => k.record.parent = j.handle) && decide (j.endHz ≤ s.tick) && j.recs = [] && j.late = []
/-- The journal has a place for the next records that a job still owes: of a parked iteration, or of a job never admitted (R350,
R380). -/
def State.owes (s : State) (j : Job) : Bool :=
  match j.recs with | l :: _ => decide (s.journalLen j.record.tenant + l.length ≤ 1024) | [] => false
/-- A job completes: its signal events are set and its handle names no incomplete job any more (R235, R243). Before that, the
records that it owes are added. -/
def execJobComplete (job : Nat) (s : State) : Res :=
  .next (match s.job? job with
    | some j =>
      if s.owes j then (s.journalAdd j.record.tenant (j.recs.headD [])).modJob job fun j => { j with recs := j.recs.drop 1 }
      else if s.completes j then
        (s.modHall fun h => { h with jobs := h.jobs.filter fun k => k.handle ≠ job,
                                     events := tmod 0 h.events j.record.tenant (· ||| j.record.signals) }).freeClaims job
      else s
    | none => s)

/-! ## job.kill (R336, R380) -/

/-- A job and every incomplete descendant. -/
def descendants (s : State) : Nat → List Nat → List Nat
  | 0, l => l
  | n + 1, l =>
    descendants s n (s.hall.jobs.foldl (fun l j =>
      if j.record.parent ≠ 0 ∧ l.contains j.record.parent ∧ !l.contains j.handle then l ++ [j.handle] else l) l)
/-- The area of a parked iteration. -/
def State.areaOf (s : State) (job : Nat) (area : W64) : Area :=
  (s.areas.find? fun a => a.area = area && a.own = job).getD { area := area, job := job, own := job, room := 255 }
/-- Journal records of a parked iteration that a kill discards: those of its area's entries, then its own (R349, R350). -/
def parkedRecords (s : State) (h tenant kroom : Nat) (m : Nat × W64 × W64) : List (BitVec 256) :=
  let a := s.areaOf h m.2.1
  let t := BitVec.ofNat 64 s.tick
  (a.left.map fun (e, qpos, code, word) =>
    journalRec h a.room tenant 1 1 1 code kroom (BitVec.ofNat 32 qpos ++ 0#29 ++ BitVec.ofNat 3 e) t (0#32 ++ word)) ++
    [journalRec h a.room tenant 0 1 1 0 kroom (BitVec.ofNat 64 m.1) t 0]
/-- The hall's side of a kill of one job: its queued record goes, its parked gangs are discarded, and no gang starts. The
job of a watch entry stays open (R271). -/
def killJob (kroom : Nat) (s : State) (h : Nat) : State :=
  match s.job? h with
  | none => s
  | some j =>
    let t := BitVec.ofNat 64 s.tick
    let one (ord : W64) : BitVec 256 := journalRec h 255 j.record.tenant 0 1 1 0 kroom ord t 0
    let recs := (if j.order = 0 ∧ j.watch.isNone ∧ !j.closing then [[one (-1)]] else []) ++
      j.parked.flatMap fun p => p.members.map (parkedRecords s h j.record.tenant kroom)
    let strip (e : Nat × List Queued) : Option (Nat × List Queued) :=
      let l := e.2.filter fun q => q.handle ≠ h
      if l = [] then none else some (e.1, l)
    let s := s.modHall fun x => { x with queues := x.queues.filterMap strip }
    let areas : List W64 := j.parked.flatMap fun p => p.members.map fun m => m.2.1
    let gone (f : FRec) : Bool := match f.area with | some a => areas.contains a && decide (f.tenant = j.record.tenant) | none => false
    let s := (List.range 4).foldl (fun s w => s.modWing w fun x => { x with faults := x.faults.filter fun f => !gone f }) s
    let s := s.freeClaims h
    s.modJob h fun j => { j with failed := true, closing := j.closing || j.watch.isNone, parked := [], recs := j.recs ++ recs }
/-- The kills of a tick end their rooms once its lanes have dispatched: lanes dispatched up to d keep their effect (R336). -/
def State.endKilled (s : State) : State :=
  s.ending.foldl (fun s k => endRooms s k.rooms k.parked 1 k.kroom 0) { s with ending := [] }
/-- `job.kill` (R336, R380): the rooms end with the tick. -/
def execJobKill (xs1 : Reg) (s : State) : Res :=
  .next (s.privileged fun _ => s.whenRegs [xs1] fun x =>
    let h := getField (x.getX xs1) 0 32
    match s.job? h with
    | some j =>
      if x.tenant ≠ 0 ∧ j.record.tenant ≠ x.tenant then s.done
      else
        let l := descendants s s.hall.jobs.length [h]
        let rooms := l.flatMap s.jobRooms
        let parked := l.flatMap fun h => match s.job? h with
          | some j => j.parked.flatMap fun p => p.members.map fun m => ((s.areaOf h m.2.1).room, h, m.1)
          | none => []
        let s := l.foldl (killJob s.turn) s.done
        { s with ending := s.ending ++ [{ rooms := rooms, parked := parked, kroom := s.turn }] }
    | none => s.done)

/-! ## Pre-emption requests (R347) -/

/-- PRCMD with GO: interrupt 18 becomes pending on every room of the named room's gang. -/
def execPreemptRequest (room : Nat) (s : State) : Res :=
  .next (match (s.room room).run with
    | none => s
    | some u =>
      let l := s.gangRooms u.job u.gang
      let s := l.foldl (fun s r => s.modRoom r fun x => { x with pre := true }) s
      ((s.modHall fun h => { h with prBusy := true }).schedule s.openTick .preemptDeliveryDone).bump)
/-- The delivery ends (R347). -/
def execPreemptDeliveryDone (s : State) : Res := .next (s.modHall fun h => { h with prBusy := false })

end Sys2Proof.Machine
end

