-- ==== Sys2Proof/Machine/Watch.lean ====
section
/-! DEFINITION. The package watch table (R261 to R276, R375): arming and disarming of entries, the start of triggered
threads, and the calendar period of an entry. Compares stand with the homes (Mem.lean). -/

namespace Sys2Proof.Machine

/-! ## Reading an image -/

/-- Control-core stores of the acting room have reached their homes: a lane that reads an image waits for them. -/
def State.whenStored (s : State) (f : State) : State :=
  if coreStoresUnderWay s s.turn then s.wait else f
/-- The parts of n bytes at an address, in pieces of `step` bytes that lie in one page; or the fault of the first piece. -/
def imageParts (s : State) (c : Ctx) (w : Want) (step : Nat) (va : W64) (n : Nat) : Except (Nat × W64) (List (Part × Loc)) :=
  ((List.range ((n + step - 1) / step)).mapM fun i =>
    let a := va + BitVec.ofNat 64 (step * i)
    match locateNow s c w a with
    | .error f => Except.error (f, a)
    | .ok l => if l.place = .port ∧ step ≠ 8 then .error (2, a) else .ok (partOf { n := i, va := a, w := step } l 0, l)
      : Except (Nat × W64) (List (Part × Loc)))
/-- The value of an image as its room reads it, or the fault of its reading. -/
def imageValue (s : State) (room : Nat) (parts : List Part) : Except (Nat × W64) Nat :=
  match parts.findSome? fun p => (partFault s p).map fun c => (c, p.va) with
  | some f => .error f
  | none => .ok (parts.foldr (fun p a => s.seen room s.seq p + 256 ^ p.w * a) 0)
/-- Runs the rest of a lane with an image of n bytes at an aligned address, or takes the fault at the lane (R266): in the range of
the device windows the RV access fault (R192), and for poisoned bytes or a lost link the device exception (DESIGN CHOICE, log
entry 90). -/
def State.withImage (s : State) (align step n : Nat) (va : W64) (f : State → Nat → State) : State :=
  if va.toNat % align ≠ 0 then s.devExc 2 va
  else if inWindows va then s.exc 5 va
  else
    let s := s.needTier s.devCtx va
    match imageParts s s.devCtx .load step va n with
    | .error (c, a) => s.devExc c a
    | .ok l =>
      let s := fillAll s l
      let parts := l.map (·.1)
      s.whenStored
        (let s := (s.ownParts parts).readMisses s.turn parts
         match imageValue s s.turn parts with
         | .error (c, a) => (s.poisonAt s.devCtx a).devExc c a
         | .ok v => f s v)

/-! ## Arming (R262, R265, R266) -/

def entryLast (b : BitVec 1024) : W64 := b.extractLsb' 64 64
/-- The fields of an image by themselves (R266). -/
def entryFieldsOk (s : State) (b : BitVec 1024) : Bool :=
  let first := entryFirst b
  let last := entryLast b
  let h := entryHandler b
  decide (first.toNat % 128 = 0) && decide (last.toNat % 128 = 0) && decide (first.toNat ≤ last.toNat) &&
    decide ((last.toNat - first.toNat) / 128 + 1 ≤ 65536) && decide (h.toNat % 4 = 0) && canonicalVa h &&
    (allRooms.any fun r => (entryRooms b).getLsbD r && s.inService r) && decide (entryRate b ≠ 0) &&
    decide (b.extractLsb' 516 4 = 0) && decide (b.extractLsb' 536 488 = 0)
/-- The physical lines of a range, in virtual order; none if a page is not mapped valid, readable, with WATCH, in HBM4E
(R266). -/
def watchLines (s : State) (c : Ctx) (b : BitVec 1024) : Option (List Nat × List Loc) :=
  let first := (entryFirst b).toNat
  let last := (entryLast b).toNat
  let page (i : Nat) : Option (List Nat × Loc) :=
    let lo := max first ((first / 65536 + i) * 65536)
    let hi := min last ((first / 65536 + i) * 65536 + 65535)
    match locateNow s c .load (BitVec.ofNat 64 lo) with
    | .ok l => if l.place = .hbm ∧ l.watch ∧ !l.cmp then
        some ((List.range ((hi - lo) / 128 + 1)).map (lineOf l.key + ·), l) else none
    | .error _ => none
  let l : Option (List (List Nat × Loc)) := (List.range (last / 65536 - first / 65536 + 1)).mapM page
  l.map fun l => (l.flatMap (·.1), l.map (·.2))
/-- What the job of an entry takes from the arming iteration: tenant, priority, slip depths and resource declaration; its
ARGS, lanes and rooms are the image's (R262). -/
def entryRecord (j : LaunchRec) (b : BitVec 1024) : LaunchRec :=
  0#64 ++ 0#32 ++ j.extractLsb' 896 32 ++ j.extractLsb' 864 32 ++ 0#8 ++ j.extractLsb' 848 8 ++ j.extractLsb' 840 8 ++
    0#4 ++ j.extractLsb' 832 4 ++ j.extractLsb' 768 64 ++ 0#256 ++ 0#64 ++ 0#64 ++ entryRooms b ++ entryArg b ++ entryHandler b
/-- The job that the acting room's iteration belongs to. -/
def State.myRecord (s : State) : LaunchRec :=
  match s.me.run with
  | some u => (match s.job? u.job with | some j => j.record | none => 0)
  | none => 0
/-- `wt.arm`: reads the image, translates its range, and sends the request; a deferred answer (R262, R266). -/
def execWtArm (xd xs1 : Reg) (s : State) : Res :=
  .next (s.whenTo [xd] [xs1] fun x => s.whenSlot
    (s.withImage 64 64 128 (x.getX xs1) fun s v =>
      let b := BitVec.ofNat 1024 v
      let s := if entryFieldsOk s b then
          s.needAll s.devCtx (pageVas (entryFirst b).toNat ((entryLast b).toNat + 1 - (entryFirst b).toNat)) else s
      let lines := if entryFieldsOk s b then watchLines s s.devCtx b else none
      let s := ((lines.map (·.2)).getD []).foldl State.fillTlb s
      let r : ArmReq := { room := s.turn, tenant := x.tenant, image := b, lines := (lines.map (·.1)).getD [], ok := lines.isSome,
                          record := entryRecord s.myRecord b, id := s.seq }
      (s.send s.turn .data s.openTick (.watchArmInstall r)).deferX xd))
/-- The lowest free entry. -/
def State.freeEntry (s : State) : Option Nat := (List.range 1024).find? fun i => (tget none s.hall.watch i).isNone
/-- The table installs an entry with its job, or refuses (R262, R266, R276). The answer is written in this tick, so the
entry acts on every store compared in it. -/
def execWatchArmInstall (r : ArmReq) (s : State) : Res :=
  .next (match (if r.ok then s.freeEntry else none) with
    | none => s.schedule s.tick (.deferredAnswer r.room (valueAnswer r.id (-1) 0 0))
    | some i =>
      let h := s.newHandle
      let e : WEntry := { state := 1, tenant := r.tenant, wing := wingOf r.room, room := r.room, image := r.image,
                          lines := r.lines, job := h }
      let j : Job := { handle := h, record := r.record, watch := some i, order := s.tick + 1 }
      let s := s.modHall fun x => { x with nextHandle := (h + 1) % 2 ^ 32, jobs := x.jobs ++ [j],
                                           watch := tset none x.watch i (some e) }
      s.schedule s.tick (.deferredAnswer r.room (valueAnswer r.id (BitVec.ofNat 64 i) 0 0)))

/-! ## Disarming (R262, R275) -/

/-- `wt.off` (R262). -/
def execWtOff (xs1 : Reg) (s : State) : Res :=
  .next (s.whenRegs [xs1] fun x =>
    (s.send s.turn .data s.openTick (.watchOffDecision x.tenant (getField (x.getX xs1) 0 10))).done)
/-- The table frees the entry, armed or disabled, after the tick's compares; its job completes once its last thread has
ended (R262, R275). An entry that is free or another tenant's is left alone. -/
def execWatchOffDecision (tenant entry : Nat) (s : State) : Res :=
  .next (match tget none s.hall.watch entry with
    | some e =>
      if e.tenant = tenant then
        (s.modHall fun h => { h with watch := tset none h.watch entry none, disarmed := if e.runaway.isSome then h.disarmed ++ [(entry, e)] else h.disarmed }).modJob e.job fun j => { j with closing := true }
      else s
    | none => s)

/-! ## Threads (R264, R270 to R272) -/

/-- The room that a trigger of an entry has claimed, and on which its tenant may start work in this tick: the lowest of them
(R245, R270, R271). -/
def State.claimed (s : State) (h : Nat) : Option Nat :=
  allRooms.find? fun r => s.claims h r
/-- Preloads of a thread (R240, R264). -/
def threadPreload (e : WEntry) (t : Trig) (x : Room) : Room :=
  (((x.setX 16 (entryArg e.image)).setX 10 (entryArg e.image)).setX 11 t.line).setX 12 (BitVec.ofNat 64 t.count)
/-- A pending trigger starts on the room claimed for it; its stores carry its depth + 1 (R264, R270, R272, R273). -/
def execTriggerStart (entry : Nat) (s : State) : Res :=
  .next (match tget none s.hall.watch entry with
    | none => s
    | some e =>
      match e.pend, s.claimed e.job, s.job? e.job with
      | some t, some r, some j =>
        if s.triggered entry ∧ j.parked = [] then
          let u : Run := { jobRun j j.next j.next with thread := some entry, depth := t.depth + 1 }
          let s := s.freeClaims e.job
          let s := startOn s r u (entryHandler e.image) j.record.slip (startMode j.record.tenant)
          let s := s.modRoom r fun x => (threadPreload e t x).holdOn (.thread t.vt t.wait)
          let e' : WEntry := { e with pend := e.fresh.head?, fresh := e.fresh.drop 1, started := e.started + 1, total := (e.total + 1) % 2 ^ 32 }
          (s.modHall fun h => { h with watch := tset none h.watch entry (some e') }).modJob e.job fun j =>
            { j with next := j.next + 1 }
        else s
      | _, _, _ => s)
/-- Every store counted into a thread's trigger is visible (R270). -/
def Room.threadDue (x : Room) (now : Nat) : Bool :=
  match x.hold with | .thread vt wait => wait = [] && decide (vt ≤ now) && decide (x.nextDispatch ≤ now) | _ => false
/-- A thread's first lane may dispatch from this tick on (R270). -/
def execThreadStart (room : Nat) (s : State) : Res :=
  .next (s.modRoom room fun x => if x.threadDue s.tick then { x with hold := .none, nextDispatch := s.tick } else x)

/-! ## The calendar period (R273, R274) -/

/-- An entry at a period boundary: RUNAWAY after two over-rate periods, and STARTED is 0 again. -/
def WEntry.period (now : Nat) (e : WEntry) : WEntry :=
  let excess := e.state = 1 && e.pend.isSome && decide (entryRate e.image ≤ e.started)
  if excess && e.overRate then
    { e with state := 2, pend := none, fresh := [], ranAt := some now, started := 0, overRate := excess,
             runaway := some (true, 0, 0) }
  else { e with started := 0, overRate := excess }

/-! ## Status words (R276) -/

/-- The two status words of an entry. -/
def WEntry.status (e : WEntry) (word : Nat) : W64 :=
  if word = 0 then
    let t := e.pend.getD { count := 0, depth := 0, line := 0, vt := 0 }
    let thr := e.pend.isSome && decide (entryRate e.image ≤ e.started)
    let t := e.fresh.foldl Trig.join t
    BitVec.ofNat 32 t.count ++ BitVec.ofNat 16 e.started ++ 0#7 ++ BitVec.ofNat 4 t.depth ++ BitVec.ofBool e.overRate ++
      BitVec.ofBool thr ++ BitVec.ofBool e.pend.isSome ++ BitVec.ofNat 2 e.state
  else BitVec.ofNat 32 e.total ++ BitVec.ofNat 32 e.silent

end Sys2Proof.Machine
end

