-- ==== Sys2Proof/Machine/Context.lean ====
section
/-! DEFINITION. The save area (R342 to R348, R378): what each doubleword of it holds, `q.save` with parking, `q.load`, and
`replay` (R379). -/

namespace Sys2Proof.Machine

/-! ## Doublewords of the area (R342, R343) -/

/-- Two words as a doubleword. -/
def pair32 (lo hi : W32) : W64 := hi ++ lo
/-- Words 2i and 2i + 1 of a table. -/
def pairOf (t : Tbl W32) (i : Nat) : W64 := pair32 (tget 0 t (2 * i)) (tget 0 t (2 * i + 1))
/-- First image and depth of each queue. -/
def imageBase : Eng → Nat | .l => 0 | .v => 64 | .s => 128 | .m => 192 | .c => 208
/-- The queue of an image and its place in it. -/
def imageOf (i : Nat) : Eng × Nat :=
  if i < 64 then (.l, i) else if i < 128 then (.v, i - 64) else if i < 192 then (.s, i - 128)
  else if i < 208 then (.m, i - 192) else (.c, i - 208)

/-- The `m.go` whose captured set the area holds as the active set: the first that has captured one. -/
def Room.headGo (x : Room) : Option (Entry × NestRun) :=
  x.qm.q.findSome? fun n => if n.pushWait then none else n.nest.map fun t => (n, t)
/-- Whether an entry was cut with a cursor. -/
def Room.cut? (_x : Room) (e : Eng) (n : Entry) : Bool :=
  match e with
  | .m => !n.pushWait && (n.nest.isSome || n.issued.isSome)
  | .c => n.issued.isSome && !n.pushWait
  | .l | .v | .s => false
/-- Byte 4 of an image: valid, cut, held, finished, and whether its tokens have been popped. -/
def entryFlags (x : Room) (e : Eng) (n : Entry) : Nat :=
  1 + (if x.cut? e n then 2 else 0) + (if n.fault.isSome then 4 else 0) + (if n.pushWait then 8 else 0) +
    (if n.popped then 16 else 0)
/-- 1 + the place in the L queue of the `l.lay` whose record an entry waits for; 0 for none. -/
def depPlace (x : Room) (l : LayRef) : Nat :=
  match l with
  | .dep _ p => (match x.ql.q.findIdx? fun n => n.qpos = p with | some i => i + 1 | none => 0)
  | .none | .known _ => 0
/-- The cursor of an image (R340). -/
def cursorWord (x : Room) (r : Nat) (e : Eng) (n : Entry) : W64 :=
  let bytes (n : Entry) : W64 := BitVec.ofNat 64 (n.cursor * destWidth r n)
  match e with
  | .m => (match n.nest with | some t => BitVec.ofNat 64 (t.tile % 2 ^ 48 + 2 ^ 48 * t.block) | none => BitVec.ofNat 64 n.cursor)
  | .c =>
    (match n.fault, n.iqId, n.instr with
     | some f, _, _ => if f.code = 10 then f.cursor else bytes n
     | none, some (q, _), .cStrm _ _ _ _ _ =>
       (match (tget {} x.iq q).stream with | some st => BitVec.ofNat 64 st.arrived | none => 0)
     | _, _, _ => bytes n.settle)
  | .l | .v | .s => 0
/-- Doubleword j of an entry's image. -/
def entryWord (x : Room) (r : Nat) (e : Eng) (n : Entry) (j : Nat) : W64 :=
  match j with
  | 0 => BitVec.ofNat 64 (n.word.toNat + 2 ^ 32 * entryFlags x e n + 2 ^ 40 * depPlace x n.lay + 2 ^ 48 * depPlace x n.lay2)
  | 1 => n.xa
  | 2 => n.xb
  | 3 => n.bankfmt
  | 4 => cursorWord x r e n
  | 5 => (match n.nest with | some t => BitVec.ofNat 64 t.pushed | none => n.mask)
  | 6 => n.mask2
  | 7 => BitVec.ofNat 64 (n.flags + (match n.instr with
      | .cMcast _ _ _ _ _ => 2 ^ 16 * (tget 0 n.got 2 % 2 ^ 16) + 2 ^ 32 * tget 0 n.got 1 | _ => 0))
  | _ => if 8 ≤ j then n.lay.get.extractLsb' (64 * (j - 8)) 64 else 0

/-- A captured nest as the area holds it: register 10 less what its `m.go` added. -/
def Room.activeSet (x : Room) : Tbl W64 × Tbl LayRec :=
  match x.headGo with
  | some (n, t) => (tmod 0 t.regs 10 (· - (n.xa + n.xb)), t.recs)
  | none => (x.nestA, x.recA)
/-- Accumulator n's MM1, NM1 and whether an `m.go` has used it (R209). -/
def accDims (a : Acc) : W64 :=
  match a.mn with | some (m, n) => BitVec.ofNat 64 ((m - 1) + 256 * (n - 1) + 65536) | none => 0
/-- First row of a window's storage, in the order of the windows. -/
def winRow0 (lens : Nat → Nat) (n : Nat) : Nat := (List.range n).foldl (fun a i => a + 2 * lens i) 0
/-- Words 2i and 2i + 1 of a row. -/
def rowPair (l : List W32) (i : Nat) : W64 := pair32 (l.getD (2 * i) 0) (l.getD (2 * i + 1) 0)
/-- A row of window storage. The rows of a window beyond its FD front and BD back elements, and BAGG while BD is 0, hold
nothing that the window can still read, and read as 0 in an area and under `st.rd` (DESIGN CHOICE, log entry 60). -/
def windowRow (x : Room) (row : Nat) : List W32 :=
  let lens (i : Nat) : Nat := (tget ({} : Win) x.w i).len
  match (List.range 16).find? fun n => winRow0 lens n ≤ row && decide (row < winRow0 lens n + 2 * lens n) with
  | some n =>
    let w := tget ({} : Win) x.w n
    let o := row - winRow0 lens n
    if o < w.len then w.front.getD o [] else w.back.getD (o - w.len) []
  | none => []
/-- Elements that an iq holds, from the oldest; after them, the element that a cut `c.copy` is forming. -/
def Room.iqElems (x : Room) (q : Nat) : List Tile :=
  ((tget ({} : Iq) x.iq q).els.filterMap fun e => e.el.map (·.1)) ++
    (x.qc.q.filterMap fun n => match n.instr, n.iqId with
      | .cCopy _ _ _ _ _, some (p, _) => if p = q ∧ n.settle.cursor ≠ 0 then some (cElem n) else none | _, _ => none)
/-- Elements that an oq holds; before them, the one that an S entry held by a fault has popped. The area has room for 4: beside 4
elements in the oq, the youngest is left out (DESIGN CHOICE, log entry 40). -/
def Room.oqElems (x : Room) (q : Nat) : List Tile :=
  (x.qs.q.filterMap fun n => if n.fault.isSome ∧ n.elems.any (·.1 = 8 + q) then some (n.popped? (8 + q)) else none) ++
    (tget ({} : Oq) x.oq q).els.filterMap fun e => e.map (·.1)
def Room.iqHeld (x : Room) (q : Nat) : Nat := ((tget ({} : Iq) x.iq q).els.filterMap (·.el)).length

/-- The 16 counters of 5 bits (R343). -/
def tokenBits (x : Room) : BitVec 80 :=
  BitVec.ofNat 80 ((List.range 16).foldl (fun a k => a + 32 ^ k * (x.tokenCount k % 32)) 0)
/-- Doubleword 19: elements held and streams bound. -/
def heldWord (x : Room) : W64 :=
  BitVec.ofNat 64 ((List.range 8).foldl (fun a q => a + 8 ^ q * (x.iqHeld q % 8) +
      (if (tget ({} : Iq) x.iq q).stream.isSome then 2 ^ (40 + q) else 0)) 0 +
    (List.range 4).foldl (fun a q => a + 8 ^ (8 + q) * ((x.oqElems q).length % 8)) 0)
/-- Doubleword 29: the resume cursor of the head `m.go`. -/
def goCursor (x : Room) : W64 :=
  match x.headGo with
  | some (_, t) => BitVec.ofNat 64 (t.tile % 2 ^ 48 + 2 ^ 48 * t.block + 2 ^ 62 + (if 2 ≤ t.stage then 2 ^ 63 else 0))
  | none => 0

/-- The physical address of a line: memory of the host is kept at 2^52 and above. -/
def physOf (line : Nat) : W64 :=
  BitVec.ofNat 64 (if 2 ^ 52 ≤ 128 * line ∧ 128 * line < 2 ^ 53 then 128 * line - 2 ^ 52 else 128 * line)
/-- Doubleword i of the header (R343); 0 for what `q.save` does not write. -/
def headerWord (x : Room) (i : Nat) : W64 :=
  let u := x.run.getD { job := 0, ord := 0, gang := 0, tenant := 0, prio := 0, vregs := 0, wrows := 0, scratch := 0, thread := none, depth := 0 }
  if i = 0 then BitVec.ofNat 64 (1 + 2 ^ 16 * u.vregs + 2 ^ 32 * u.scratch)
  else if i = 3 then BitVec.ofNat 64 (u.selfJob + 2 ^ 32 * u.owner)
  else if i = 4 then BitVec.ofNat 64 u.selfOrd
  else if i = 5 then x.cut.1
  else if i = 6 then x.cut.2.1
  else if i = 7 then x.cut.2.2
  else if i = 8 then x.qslip
  else if i = 9 then x.qwmark
  else if i = 10 then x.vflags ||| x.vflNew
  else if i = 11 then x.bankfmt
  else if i = 12 then x.bconf
  else if i = 13 then x.barrec
  else if i = 14 then BitVec.ofNat 63 x.horizon |>.setWidth 64
  else if i = 15 then (match x.mon with | some m => physOf m.line | none => 0)
  else if i = 16 then (tokenBits x).extractLsb' 0 64
  else if i = 17 then ((tokenBits x).extractLsb' 64 16).setWidth 64
  else if i = 18 then BitVec.ofNat 64 (x.ql.q.length + 2 ^ 8 * x.qv.q.length + 2 ^ 16 * x.qs.q.length + 2 ^ 24 * x.qm.q.length +
    2 ^ 32 * x.qc.q.length)
  else if i = 19 then heldWord x
  else if i < 28 then
    (match (tget ({} : Iq) x.iq (i - 20)).stream with | some st => BitVec.ofNat 64 (st.total - st.popped) | none => 0)
  else if i = 28 then BitVec.ofNat 64 ((List.range 4).foldl (fun a n => a + 4 ^ n * (tget ({} : Acc) x.z n).mode) 0)
  else if i = 29 then goCursor x
  else if i = 30 then x.faultrec
  else if i = 31 then BitVec.ofNat 64 x.cq.length
  else if i < 48 then ((x.cq[i - 32]?).map (·.1)).getD 0
  else if i = 48 then BitVec.ofNat 64 x.posts.length
  else if i < 53 then
    (match x.posts[i - 49]? with | some (v, t) => BitVec.ofNat 64 (v.toNat % 4 + 4 * t) | none => 0)
  else if 64 ≤ i ∧ i < 192 then
    (match x.origins[(i - 64) / 2]? with | some o => if i % 2 = 0 then o.handle else o.count | none => 0)
  else 0

/-- Doubleword at an offset of the page of masks, layouts, nest registers, gather list and patterns (R342). -/
def stateWord (x : Room) (o : Nat) : W64 :=
  let (regsA, recsA) := x.activeSet
  let rc (t : Tbl LayRec) (n : Nat) : W64 := (tget 0 t n).extractLsb' (8 * (o % 64)) 64
  if o < 0x400 then maskRow (x.getK (o / 128)) (o % 128 / 8)
  else if o < 0x800 then rc x.lay ((o - 0x400) / 64)
  else if o < 0x900 then tget 0 x.nestS ((o - 0x800) / 8)
  else if o < 0xA00 then tget 0 regsA ((o - 0x900) / 8)
  else if o < 0xC00 then rowPair x.gather ((o - 0xA00) / 8)
  else if o < 0xE00 then BitVec.ofNat 64 ((List.range 8).foldl (fun a j =>
    a + 256 ^ j * (tget 127#7 (tget [] x.bnet ((o - 0xC00) / 64)) (o % 64 + j)).toNat) 0)
  else if o < 0xEC0 then rc x.recS (8 + (o - 0xE00) / 64)
  else if o < 0xF80 then rc recsA (8 + (o - 0xEC0) / 64)
  else if o < 0xFA0 then accDims (tget {} x.z ((o - 0xF80) / 8))
  else 0

/-- The doubleword that `q.save` would write at an offset of the area, a multiple of 8 (R342, R351). -/
def saveWord (x : Room) (r : Nat) (off : Nat) : W64 :=
  if off < 0x1000 then headerWord x (off / 8)
  else if off < 0x9000 then
    let (e, i) := imageOf ((off - 0x1000) / 128)
    match (x.queue e).q[i]? with | some n => entryWord x r e n (off % 128 / 8) | none => 0
  else if off < 0xA000 then stateWord x (off - 0x9000)
  else if off < 0xC000 then
    let w := tget ({} : Win) x.w ((off - 0xA000) / 512)
    let o := off % 512
    if o = 0 then w.stat x.freeRows
    else if 64 ≤ o ∧ o < 320 then rowPair w.bagg ((o - 64) / 8)
    else 0
  else if off < 0x24000 then
    let v := (off - 0xC000) / 4096
    if v < x.vregs then pairOf (tget [] x.v v) (off % 4096 / 8) else 0
  else if off < 0x54000 then
    let q := (off - 0x24000) / 16384
    let e := (off - 0x24000) % 16384 / 4096
    pairOf (if q < 8 then (x.iqElems q).getD e [] else (x.oqElems (q - 8)).getD e []) (off % 4096 / 8)
  else if off < 0x64000 then pairOf x.scales ((off - 0x54000) / 8)
  else if off < 0xA4000 then pairOf (tget ({} : Acc) x.z ((off - 0x64000) / 65536)).el ((off - 0x64000) % 65536 / 8)
  else if off < 0xE4000 then rowPair (windowRow x ((off - 0xA4000) / 256)) (off % 256 / 8)
  else 0

/-! ## q.save (R344, R346, R378) -/

/-- Bytes of a save area. -/
def areaSize : Nat := 0xE4000
/-- The 64 KiB pages of a range, each with the key of its first byte; or the fault of the first address that fails. -/
def rangePages (s : State) (c : Ctx) (w : Want) (base : W64) (n : Nat) : Except (Nat × W64) (List (Part × Loc)) :=
  let count := (base.toNat + n - 1) / 65536 - base.toNat / 65536 + 1
  let page (i : Nat) : Except (Nat × W64) (Part × Loc) :=
    let lo := max base.toNat ((base.toNat / 65536 + i) * 65536)
    let hi := min (base.toNat + n - 1) ((base.toNat / 65536 + i) * 65536 + 65535)
    let a := BitVec.ofNat 64 lo
    match locateNow s c w a, locateNow s c w (BitVec.ofNat 64 hi) with
    | .error f, _ => .error (f, a)
    | _, .error f => .error (f, BitVec.ofNat 64 hi)
    | .ok l, .ok _ =>
      if l.place = .port then .error (2, a)
      else
        let p := partOf { n := i, va := a, w := 1 } l 0
        .ok ({ p with key := l.key - lo % 65536 }, l)
  if n = 0 then .ok [] else (List.range count).mapM page

/-- A doubleword of an image. -/
def imageWord (s : State) (room : Nat) (pages : List Part) (base : W64) (off : Nat) : W64 :=
  match imagePart pages base off 8 0 with
  | some p => BitVec.ofNat 64 (s.seen room s.seq (s.homeOf p))
  | none => 0
/-- The parts of n bytes of an image, a line each. -/
def imageLines (s : State) (pages : List Part) (base : W64) (n : Nat) : List Part :=
  (lineRanges base.toNat n).filterMap fun p => (imagePart pages base p.1 p.2 0).map s.homeOf
/-- The fault of reading n bytes of an image (R125). -/
def imageFault (s : State) (pages : List Part) (base : W64) (n : Nat) : Option (Nat × W64) :=
  (imageLines s pages base n).findSome? fun q => (partFault s q).map fun c => (c, q.va)
/-- A room's control core reads n bytes of an image: the bridge obtains what it lacks, and the misses count (R295, R361). -/
def State.readImage (s : State) (room : Nat) (pages : List Part) (base : W64) (n : Nat) : State :=
  let l := imageLines s pages base n
  (s.ownParts l).readMisses room l

/-- `q.save` at dispatch: the checks of R378, then the engines stop and the room's keys are passed. -/
def execQSave (xs1 : Reg) (s : State) : Res :=
  .next (s.privileged fun _ => s.whenRegs [xs1] fun x =>
    let area := x.getX xs1
    if area.toNat % 4096 ≠ 0 then s.devExc 2 area
    else if inWindows area then s.exc 7 area
    else
    let s := s.needAll s.devCtx (pageVas area.toNat areaSize)
    match rangePages s s.devCtx .store area areaSize with
      | .error (c, a) => s.devExc c a
      | .ok l =>
        let s := fillAll s l
        let pages := l.map (·.1)
        s.whenStored
          (let s := s.readImage s.turn pages area 128
           match imageFault s pages area 128 with
           | some (c, a) => (s.poisonAt s.devCtx a).devExc c a
           | none =>
             let base := imageWord s s.turn pages area 8
             if inWindows base then s.exc 7 base else
             let s := s.needAll s.devCtx (pageVas base.toNat x.scratch)
             match rangePages s s.devCtx .store base x.scratch with
             | .error (c, a) => s.devExc c a
             | .ok sp => ((fillAll s sp).passRoom s.turn).holdOn (.qSave area pages (sp.map (·.1)) base false)))

/-- An entry has stopped where `q.save` leaves it: not issued, finished, or cut (R344). -/
def entryStopped (x : Room) (e : Eng) (n : Entry) : Bool :=
  n.issued.isNone || n.pushWait ||
  (match e with
   | .l | .v | .s => false
   | .c => n.blockEnd x && n.msgs = []
   | .m => n.more.isSome &&
       (match n.nest, n.instr with
        | some t, _ => t.stage = 0 || t.stage = 2 ||
            (t.stage = 3 && decide (t.tgt ≠ 0) && decide (4 ≤ (tget ({} : Oq) x.oq (t.tgt - 1)).els.length))
        | none, .mRetOq _ g _ _ _ => decide (n.minFin ≠ 0) && decide (4 ≤ (tget ({} : Oq) x.oq (g.toNat - 1)).els.length)
        | none, _ => false))
/-- Everything that `q.save` waits for has come: deferred answers, stopped engines, PEND 0 (R344). An entry whose work is done
behind one that has stopped has nothing left to wait for. -/
def Room.saveReady (x : Room) (now : Nat) : Bool :=
  decide (x.deferred = 0) &&
    (allEng.all fun e => (x.queue e).q.all fun n => (entryStopped x e n || n.done now) && n.sent = []) && !x.vhzPend
/-- The entries of S, C and M whose work is done behind one that has stopped finish, each with its pushes pending (R344). One of
L is executed again after the load instead, behind the entry that it followed (DEDUCED, log entry 69). -/
def finishBlocked (s : State) (r : Nat) : State :=
  [Eng.v, .s, .m, .c].foldl (fun s e => (((s.room r).queue e).q.filter fun n => !n.pushWait && n.done s.tick).foldl
    (fun s n => finishEntry s r e n) s) s
/-- Ranges of the area that `q.save` writes: all but header doublewords 1, 2, 256 to 511, and the v registers that the
iteration does not use. -/
def savedRanges (vregs : Nat) : List (Nat × Nat) :=
  let lines (lo hi : Nat) : List (Nat × Nat) := (List.range ((hi - lo) / 128)).map fun i => (lo + 128 * i, 128)
  [(0, 8), (24, 104)] ++ lines 128 0x800 ++ lines 0x1000 (0xC000 + 4096 * vregs) ++ lines 0x24000 areaSize
/-- The bytes of a range as a number. -/
def savedData (x : Room) (r off len : Nat) : Nat :=
  (List.range (len / 8)).foldr (fun i a => (saveWord x r (off + 8 * i)).toNat + 2 ^ 64 * a) 0
/-- The room with its queues, data queues, control queue, tokens and posts empty (R344). -/
def emptied (x : Room) : Room :=
  let e (q : Queue) : Queue := { q with q := [] }
  { x with ql := e x.ql, qv := e x.qv, qs := e x.qs, qm := e x.qm, qc := e x.qc, iq := [], oq := [], cq := [], cqRes := 0,
           tok := [], tokS := [], posts := [] }
/-- The context is written as stores of the room, one message for every 4 KiB, and the scratchpad is tagged (R344, R346). -/
def writeArea (s : State) (r : Nat) (area : W64) (pages sp : List Part) (base : W64) : State :=
  let s := finishBlocked s r
  let x := s.room r
  let parts := (savedRanges x.vregs).filterMap fun p => imagePart pages area p.1 p.2 (savedData x r p.1 p.2)
  let groups := (parts.map fun p => p.va.toNat / 4096).eraseDups
  let s := groups.foldl (fun s g =>
    let (s, outs) := sendStore s r .core x.csr.satp (parts.filter fun p => p.va.toNat / 4096 = g)
    s.modRoom r fun y => { y with stores := y.stores ++ outs.map (·.1) }) s
  let (job, own) := match x.run with | some u => (u.selfJob, u.job) | none => (0, 0)
  let mark (f : FRec) : FRec := if f.room = r ∧ f.area.isNone then { f with area := some area } else f
  let s := (s.modWing (wingOf r) fun w => { w with faults := w.faults.map mark }).leaveKeys r
  let t : SpTag := { area := area, job := job, base := base, pages := sp, size := x.scratch }
  let h : Hold := .qSave area pages sp base true
  let gos := (x.qm.q.filter fun n => !n.pushWait).filterMap (·.nest)
  let held (e : Eng) (n : Entry) : Bool := n.issued.isNone || n.fault.isSome || (decide (e = .l) && !n.pushWait)
  let left := allEng.flatMap fun e => ((x.queue e).q.filter (held e)).map fun n =>
    (e.num, n.qpos, (match n.fault with | some f => f.code | none => 0), n.word)
  let ar : Area := { area := area, job := job, own := own, room := r, mon := x.mon,
                     gos := gos, left := left }
  let s := s.modRoom r fun y => { emptied y with tag := some t, hold := h }
  { s with areas := ar :: s.areas.filter fun a => !(a.area = area && a.job = job) }

/-- Whether mcause or scause holds interrupt 18 (R347). -/
def Room.parks (x : Room) : Bool :=
  let c : W64 := { int := true, code := 18, tval := 0 : Trap }.cause
  x.csr.mcause = c || x.csr.scause = c
/-- The walker holds the iteration with its area and RESUME; the room is free from the next tick (R347). Its job keeps the horizon of
its stores, should it be killed before it resumes (R236). -/
def parkRoom (s : State) (r : Nat) (area resume : W64) : State :=
  match (s.room r).run with
  | none => s
  | some u =>
    let m := (u.ord, area, resume)
    let join (j : Job) : Job :=
      if j.parked.any fun p => p.gang = u.gang then
        { j with parked := j.parked.map fun p => if p.gang = u.gang then { p with members := p.members ++ [m] } else p }
      else { j with parked := j.parked ++ [{ gang := u.gang, members := [m], depth := u.depth }] }
    let (hz, late) := endStores (s.room r)
    let s := s.modJob u.job fun j => { join j with endHz := max j.endHz hz, late := j.late ++ late.map fun id => (r, id) }
    (s.disarm r).modRoom r fun x => freedRoom x u.job s.tick
/-- The horizon covers the stores of entries that stopped. -/
def Room.coverCut (x : Room) : Room :=
  { x with hz := allEng.foldl (fun a e => (x.queue e).q.foldl (fun a n => max a n.vt) a) x.hz }
/-- What a room that executes `q.save` does next: writes its area, or completes (R344). -/
def State.saveDue (s : State) (r : Nat) : Bool :=
  let x := s.room r
  match x.hold with
  | .qSave _ _ _ _ written => if written then x.stores = [] else x.saveReady s.tick || s.holdsKey r
  | _ => false
/-- The last byte of a save area has been accepted: dispatch resumes, or the iteration is parked (R344, R347). Before that,
once the engines have stopped, the area is written. -/
def execQSaveDone (room : Nat) (s : State) : Res :=
  .next (
    let x := s.room room
    match x.hold with
    | .qSave area pages sp base written =>
      if !s.saveDue room then s
      else if !written ∧ s.holdsKey room then s.passRoom room
      else if !written then writeArea (s.modRoom room Room.coverCut) room area pages sp base
      else if x.parks then parkRoom s room area (imageWord s room pages area 16)
      else s.modRoom room fun x => x.retire s.tick
    | _ => s)

/-! ## q.load (R345, R346, R378) -/

/-- The address of the first doubleword of a header that fails its check (R345). -/
def headerFault (w : Nat → W64) (vregs : Nat) (area : W64) : Option W64 :=
  let d0 := w 0
  let bad (i : Nat) : Bool :=
    if i = 0 then decide (getField d0 0 16 ≠ 1) || decide (getField d0 21 11 ≠ 0) || decide (vregs < getField d0 16 5)
    else if i = 3 then decide (getField (w 24) 36 28 ≠ 0)
    else decide (w (8 * i) ≠ 0)
  (([0, 3] ++ (List.range 11).map (53 + ·) ++ (List.range 64).map (192 + ·)).find? bad).map fun i => area + BitVec.ofNat 64 (8 * i)

/-- A word of an image. -/
def word32 (w : Nat → W64) (off : Nat) : W32 := if off % 8 = 0 then (w off).setWidth 32 else (w (off - 4)).extractLsb' 32 32
/-- n words of an image. -/
def words32 (w : Nat → W64) (off n : Nat) : List W32 := (List.range n).map fun i => word32 w (off + 4 * i)
/-- A register's worth of words. -/
def tileAt (w : Nat → W64) (off : Nat) : Tile := tofList 0 0 (words32 w off 1024)
/-- A layout record. -/
def recAt (w : Nat → W64) (off : Nat) : LayRec :=
  BitVec.ofNat 512 ((List.range 8).foldr (fun i a => (w (off + 8 * i)).toNat + 2 ^ 64 * a) 0)

/-- The registers of R342 from an image. -/
def loadRegs (w : Nat → W64) (x : Room) : Room :=
  let st (o : Nat) : W64 := w (0x9000 + o)
  let lens (i : Nat) : Nat := getField (w (0xA000 + 512 * i)) 10 10
  let row (i : Nat) : List W32 := words32 w (0xA4000 + 256 * i) 64
  let win (n : Nat) : Win :=
    let d := w (0xA000 + 512 * n)
    let r0 := winRow0 lens n
    { op := getField d 20 4, len := lens n, front := (List.range (getField d 24 10)).map fun i => row (r0 + i),
      back := (List.range (getField d 34 10)).map fun i => row (r0 + lens n + i),
      bagg := if getField d 34 10 = 0 then [] else words32 w (0xA000 + 512 * n + 64) 64 }
  let acc (n : Nat) : Acc :=
    let d := st (0xF80 + 8 * n)
    { el := tofList 0 0 (words32 w (0x64000 + 65536 * n) 16384), mode := getField (w (8 * 28)) (2 * n) 2,
      mn := if d.getLsbD 16 then some (getField d 0 8 + 1, getField d 8 8 + 1) else none }
  let pat (p : Nat) : Tbl (BitVec 7) :=
    patternOf ((List.range 8).foldr (fun i a => (st (0xC00 + 64 * p + 8 * i)).toNat + 2 ^ 64 * a) 0)
  let recs (o : Nat) : Tbl LayRec := tofn 0 11 fun n => if 8 ≤ n then recAt w (0x9000 + o + 64 * (n - 8)) else 0
  let mask (n : Nat) : Mask := if n = 0 then [] else tofn 0 16 fun i => st (128 * n + 8 * i)
  let vs : Tbl Tile := (List.range (getField (w 0) 16 5)).foldl (fun t r => tset [] t r (tileAt w (0xC000 + 4096 * r))) x.v
  let ks : Tbl Mask := tofn [] 8 mask
  let lays : Tbl LayRec := tofn 0 16 fun n => recAt w (0x9400 + 64 * n)
  let shadow : Tbl W64 := tofn 0 32 fun n => st (0x800 + 8 * n)
  let active : Tbl W64 := tofn 0 32 fun n => st (0x900 + 8 * n)
  let ws : Tbl Win := tofn {} 16 win
  let zs : Tbl Acc := tofn {} 4 acc
  let bn : Tbl (Tbl (BitVec 7)) := tofn [] 8 pat
  let sc : Tbl W32 := tofList 0 0 (words32 w 0x54000 16384)
  let ga : List W32 := words32 w 0x9A00 128
  { x with v := vs, k := ks, lay := lays, nestS := shadow, recS := recs 0xE00, nestA := active, recA := recs 0xEC0, gather := ga,
           bnet := bn, z := zs, w := ws, scales := sc }

/-- The header's registers, tokens, control queue, posts and counters (R343); reserved bits of a register stay 0 (R8). -/
def loadHeader (w : Nat → W64) (now : Nat) (x : Room) : Room :=
  let h (i : Nat) : W64 := w (8 * i)
  let toks : BitVec 80 := (h 17).extractLsb' 0 16 ++ h 16
  let tok : Tbl Nat := tofn 0 16 fun k => (toks.extractLsb' (5 * k) 5).toNat
  let cq : List (W64 × Nat) := (List.range (min 16 (h 31).toNat)).map fun i => (h (32 + i), now)
  let posts : List (W64 × Nat) := (List.range (min 4 (h 48).toNat)).map fun i =>
    (BitVec.ofNat 64 (getField (h (49 + i)) 0 2), getField (h (49 + i)) 2 62)
  let origins : List Origin := (List.range 64).filterMap fun i =>
    let a := h (64 + 2 * i)
    let c := h (65 + 2 * i)
    if a = 0 ∧ c = 0 then none else some { handle := a, count := c, open_ := 0, free := false }
  let disp := getField (h 7) 32 32
  let csr : Csrs := { x.csr with minstretOff := x.csr.minstretOff + BitVec.ofNat 64 x.disp - BitVec.ofNat 64 disp }
  let job := getField (h 3) 0 32
  let ord := (h 4).toNat
  let run : Option Run := x.run.map fun u => { u with ident := some (job, ord, getField (h 3) 32 4) }
  { x with qslip := h 8 &&& qslipMask, qwmark := h 9 &&& (qwmarkMask ||| qlpMask), vflags := h 10 &&& vflagsMask,
           bankfmt := bankfmtNew x.bankfmt (h 11), bconf := h 12, barrec := h 13, hz := (h 14).toNat % 2 ^ 63,
           tok := tok, tokS := [], faultrec := h 30 &&& 0x1FFFFFFFFFFFFFFF#64, cq := cq, cqRes := 0, posts := posts ++ x.posts, origins := origins,
           disp := disp, csr := csr, run := run }

/-- An entry of no effect, for an image whose lane word is not assigned. -/
def nopOf : Eng → Instr | .l => .lNop 0 | .v => .vNop 0 | .s => .sNop 0 | .m => .mNop 0 | .c => .cNop 0
/-- The fault that a record of a source holds, of the wing's buffer or of those that wait for a place in it. -/
def recordedFault (faults : List FRec) (r : Nat) (src : FaultSrc) : Option FaultInfo :=
  (faults.find? fun f => f.src = src && f.room = r && f.area.isNone).map fun f =>
    { code := (f.bits.extractLsb' 0 4).toNat, va := f.bits.extractLsb' 64 64, cursor := f.bits.extractLsb' 128 64,
      detail := f.bits.extractLsb' 192 64 }
/-- The nest of the head `m.go`: the active set, at the cursor of the header (R343, R345). -/
def loadNest (w : Nat → W64) (x : Room) (gather : List W32) (xa xb cur pushed : W64) : NestRun :=
  let v := (w (8 * 29)).getLsbD 62
  let c := if v then w (8 * 29) else cur
  { regs := tmod 0 x.nestA 10 (· + xa + xb), recs := x.recA, gather := gather, tile := getField c 0 48, block := getField c 48 11,
    stage := if v && (w (8 * 29)).getLsbD 63 then 2 else 0, pushed := pushed.toNat }
/-- The nest of an `m.go` behind it: what it had captured, at its own cursor (log entry 40). -/
def loadNest2 (cur pushed : W64) (t : NestRun) : NestRun :=
  { t with tile := getField cur 0 48, block := getField cur 48 11, stage := if 2 ≤ t.stage then 2 else 0, stalled := false,
           steps := [], pushed := pushed.toNat }
/-- What else a load needs: the fault records in the buffer, those that wait for a place, and what the `m.go` in flight had
captured (log entry 40). -/
structure LoadAux where
  faults : List FRec
  owed   : List FRec
  gos    : List NestRun
/-- The cursor of a C entry from its bytes done. -/
def loadCursor (r : Nat) (n : Entry) (bytes : Nat) : Nat :=
  let at_ (b : Nat) : Nat := 128 * b
  match (List.range (bytes / 128 + 1)).find? fun b => at_ b * destWidth r { n with cursor := at_ b } = bytes with
  | some b => at_ b
  | none => bytes
/-- Entry i of a queue from its image; `pos` is its position, `lbase` that of the L queue's head, `go` the number of cut `m.go`
before it. -/
def loadEntry (r : Nat) (w : Nat → W64) (aux : LoadAux) (x : Room) (e : Eng) (pos lbase go : Nat) (i : Nat) : Entry :=
  let d (j : Nat) : W64 := w (0x1000 + 128 * (imageBase e + i) + 8 * j)
  let word : W32 := (d 0).setWidth 32
  let flag (b : Nat) : Bool := (d 0).getLsbD (32 + b)
  let instr := (decodeEng e word).getD (nopOf e)
  let l := (laneOf instr).getD { eng := e, sync := 0 }
  let ref (n : Option Nat) (at_ : Nat) (known : Nat → LayRec) : LayRef :=
    match n with
    | none => .none
    | some n => if getField (d 0) at_ 8 ≠ 0 then .dep n (lbase + getField (d 0) at_ 8 - 1) else .known (known n)
  let lay := ref l.lay 40 fun _ => recAt w (0x1000 + 128 * (imageBase e + i) + 64)
  let lay2 := ref l.lay2 48 fun n => tget 0 x.lay n
  let kept := if flag 2 then recordedFault aux.faults r (.entry r e) else none
  let fault := if flag 2 then kept.or (recordedFault aux.owed r (.entry r e)) else none
  let partialFault : Bool := match fault with | some f => f.code = 10 | none => false
  let cur : Nat := match e, instr with
    | .m, .mRetOq _ _ _ _ _ => (d 4).toNat
    | _, _ => 0
  let nest := match instr with
    | .mGo _ _ _ =>
      if !flag 1 then none
      else if go = 0 then
        some (loadNest w x (match aux.gos with | t :: _ => t.gather | [] => x.gather) (d 1) (d 2) (d 4) (d 5))
      else aux.gos[go]?.map (loadNest2 (d 4) (d 5))
    | _ => none
  let mask := match instr with | .cPut _ _ _ _ _ => 0 | _ => if nest.isSome then 0 else d 5
  let noted : Tbl Nat := match instr with
    | .cMcast _ _ _ _ _ => tset 0 (tset 0 [] 1 (getField (d 7) 32 32)) 2 (getField (d 7) 16 16)
    | _ => []
  let n : Entry :=
  { instr := instr, word := word, xa := d 1, xb := d 2, bankfmt := d 3, satp := x.csr.satp, mode := startMode x.tenant,
    lay := lay, lay2 := lay2, qpos := pos + i, iqId := none, elems := [], popped := flag 4, issued := none, more := none,
    minFin := 0, msgs := [], sent := [], vt := 0, got := noted, cursor := cur, mask := mask, mask2 := d 6, fault := fault,
    recorded := kept.isSome, effs := [], nest := nest, flags := getField (d 7) 0 16,
    pushWait := flag 3, unassigned := (decodeEng e word).isNone }
  match e, instr with
  | .c, .cStrm _ _ _ _ _ => n
  | .c, .cMcast _ _ _ _ _ =>
    if partialFault || (d 5 = 0 && d 6 = 0) then n else { n with cursor := loadCursor r n (d 4).toNat }
  | .c, _ => if partialFault then n else { n with cursor := loadCursor r n (d 4).toNat }
  | _, _ => n

/-- The queue of an engine from its images, with its counts (R341, R343). -/
def loadQueue (r : Nat) (w : Nat → W64) (aux : LoadAux) (x : Room) (e : Eng) : Queue :=
  let h (i : Nat) : W64 := w (8 * i)
  let count (f : Eng) : Nat := match f with
    | .l => getField (h 5) 0 32 | .v => getField (h 5) 32 32 | .s => getField (h 6) 0 32 | .m => getField (h 6) 32 32
    | .c => getField (h 7) 0 32
  let n := min e.depth (match e with
    | .l => getField (h 18) 0 7 | .v => getField (h 18) 8 7 | .s => getField (h 18) 16 7 | .m => getField (h 18) 24 5
    | .c => getField (h 18) 32 6)
  let isGo (i : Nat) : Bool :=
    let d := w (0x1000 + 128 * (imageBase e + i))
    d.getLsbD 33 && (match decodeEng e (d.setWidth 32) with | some (.mGo _ _ _) => true | _ => false)
  let l := (List.range n).map fun i =>
    loadEntry r w aux x e (count e) (count .l) ((List.range i).filter isGo).length i
  let lays := l.foldl (fun t m => match laneOf m.instr with
    | some v => (match v.layd with | some k => tset 0 t k (1 + m.qpos) | none => t) | none => t) ([] : Tbl Nat)
  { q := l, disp := (count e + n) % 2 ^ 32, ret := count e, layBy := if e = .l then lays else [] }

/-- An entry that fills or binds an iq takes its position in it, where its element is being written if the entry has popped its
operands; a cut `c.strm` binds its stream again. One that has finished has its element among those held. -/
def rebind (w : Nat → W64) (x : Room) (e : Eng) (n : Entry) : Room :=
  match (if n.pushWait then none else laneOf n.instr) with
  | none => x
  | some l =>
    match l.fill, l.bind with
    | some q, _ =>
      let i := tget ({} : Iq) x.iq q
      let pieces := match n.instr with
        | .cCopy _ _ _ _ _ => if n.cursor ≠ 0 then [(16, tileAt w (0x24000 + 16384 * q + 4096 * (i.els.filterMap (·.el)).length))] else []
        | _ => []
      let y := x.reserveIq q
      let y := if n.popped then { y with iq := tmod {} y.iq q fun j => j.begin i.nextId } else y
      y.setEntry e { n with iqId := some (q, i.nextId), elems := pieces }
    | none, some q =>
      let i := tget ({} : Iq) x.iq q
      let y := x.setEntry e { n with iqId := some (q, i.nextId) }
      if n.mask ≠ 0 then
        let arrived := (w (0x1000 + 128 * (imageBase .c + (x.qc.q.takeWhile fun m => m.qpos ≠ n.qpos).length) + 32)).toNat
        let total := getField n.xb 0 32
        let left := (w (8 * (20 + q))).toNat
        let st : Stream := { total := total, pos := i.nextId, arrived := arrived, popped := total - left, lrec := n.lay.get, off := n.xa,
                             satp := n.satp, mode := n.mode, fault := none, recorded := false }
        { y with iq := tmod {} y.iq q fun i => { i with stream := some st } }
      else y
    | none, none => x
/-- The data queues from their images: elements held; the last ones of a bound iq are its stream's. -/
def loadData (w : Nat → W64) (now : Nat) (x : Room) : Room :=
  let d := w (8 * 19)
  let iq (q : Nat) : Iq :=
    let held := min 4 (getField d (3 * q) 3)
    let bound := d.getLsbD (40 + q)
    let left := (w (8 * (20 + q))).toNat
    let own := match x.qc.q.zipIdx.find? fun p => match p.1.instr with
        | .cStrm _ r _ _ _ => decide (r.toNat = 24 + q) && decide (p.1.mask ≠ 0) | _ => false with
      | some p => (w (0x1000 + 128 * (imageBase .c + p.2) + 32)).toNat - (getField p.1.xb 0 32 - left)
      | none => left
    let strm (i : Nat) : Bool := bound && decide (held ≤ i + own)
    let els : List IqEl := (List.range held).map fun i =>
      { id := i, strm := strm i, el := some (tileAt w (0x24000 + 16384 * q + 4096 * i), now) }
    let st : Option Stream := if bound then
        some { total := left, pos := held, arrived := left, popped := 0, lrec := 0, off := 0, satp := 0, mode := .u, fault := none,
               recorded := false } else none
    { els := els, nextId := held, stream := st }
  let oq (q : Nat) : Oq :=
    { els := (List.range (min 4 (getField d (24 + 3 * q) 3))).map fun i =>
        some (tileAt w (0x54000 - 65536 + 16384 * q + 4096 * i), now) }
  let iqs : Tbl Iq := tofn {} 8 iq
  let oqs : Tbl Oq := tofn {} 4 oq
  { x with iq := iqs, oq := oqs }
/-- An S entry held by a fault takes back the oq element that it had popped. -/
def repop (x : Room) (n : Entry) : Room :=
  match laneOf n.instr with
  | some l =>
    match l.oqSrc with
    | some q =>
      if n.popped then
        (match (tget ({} : Oq) x.oq q).els with
         | some (t, _) :: r => ({ x with oq := tset {} x.oq q { els := r } }).setEntry .s { n with elems := [(8 + q, t)] }
         | _ => x)
      else x
    | none => x
  | none => x
/-- The room with everything that the area holds (R345). -/
def loadRoom (now : Nat) (r : Nat) (w : Nat → W64) (aux : LoadAux) (x : Room) : Room :=
  let x := loadRegs w (loadHeader w now x)
  let q (e : Eng) : Queue := loadQueue r w aux x e
  let x : Room := { x with ql := q .l, qv := q .v, qs := q .s, qm := q .m, qc := q .c }
  let x := loadData w now x
  let x := x.ql.q.foldl (fun x n => rebind w x .l n) x
  let x := x.qc.q.foldl (fun x n => rebind w x .c n) x
  let x := x.qs.q.foldl repop x
  let x := { x with cqRes := (x.ql.q ++ x.qv.q).foldl (fun a n =>
    if n.popped && !n.pushWait then a + (match laneOf n.instr with | some l => l.cq | none => 0) else a) 0 }
  (List.range 8).foldl (fun x q =>
    let kept := recordedFault aux.faults r (.stream r q)
    match kept.or (recordedFault aux.owed r (.stream r q)) with
    | some f => { x with iq := tmod {} x.iq q fun i =>
        { i with stream := i.stream.map fun st => { st with fault := some f, recorded := kept.isSome } } }
    | none => x) x

/-- Fault records of an area's entries, and CBU members held under its room, move to the loading room (R345). No fault is
dropped: a record for which the other wing's buffer has no place is answered with, and waits with its source for one (R340). -/
def moveArea (s : State) (area : W64) (job from_ r : Nat) : State × List FRec :=
  let a := wingOf from_
  let b := wingOf r
  let mine (f : FRec) : Bool := f.room = from_ && f.area = some area
  let recs := (s.wing a).faults.filter mine
  let src (q : FaultSrc) : FaultSrc := match q with
    | .entry _ e => .entry r e | .stream _ q => .stream r q | .cbu w => .cbu w | .watch i t x q => .watch i t x q
  let name (f : FRec) (slot : Nat) : FRec :=
    { f with room := r, src := src f.src, area := none, slot := slot,
             bits := f.bits.extractLsb' 30 226 ++ BitVec.ofNat 10 slot ++ f.bits.extractLsb' 16 4 ++ BitVec.ofNat 8 r ++ f.bits.extractLsb' 0 8 }
  let held (m : CMem) : CMem := if m.holder = some from_ ∧ m.iter.1 = job ∧ !m.done then { m with holder := some r } else m
  let s := s.modWing a fun w => { w with cbu := w.cbu.map fun c => { c with members := c.members.map held } }
  if a = b then (s.modWing a fun w => { w with faults := w.faults.map fun f => if mine f then name f f.slot else f }, [])
  else
    let s := s.modWing a fun w => { w with faults := w.faults.filter fun f => !mine f }
    recs.foldl (fun (p : State × List FRec) f => match freeSlot (p.1.wing b).faults with
      | some slot => (p.1.modWing b fun w => { w with faults := w.faults ++ [name f slot] }, p.2)
      | none => (p.1, p.2 ++ [name f 0])) (s, [])

/-- Reads the scratchpad image (R346). -/
def loadScratch (s : State) (r : Nat) (sp : List Part) (base : W64) (size : Nat) : State :=
  writeParts s ((lineRanges base.toNat size).filterMap fun p => (imagePart sp base p.1 p.2 0).map fun q =>
    plainPart (scratchKey r p.1) p.2 (s.seen r s.seq (s.homeOf q)))

/-- Arms the monitor on the physical line of a restored context (R325, R343): the line that its room monitored, or, of an
area with another address in it, that of the address. -/
def restoreMonitor (s : State) (r : Nat) (pa : W64) (was : Option Mon) : State :=
  let s := s.disarm r
  if pa = 0 then s
  else
    let other : Nat := lineOf pa.toNat
    let (line, leased) := match was with
      | some m => if physOf m.line = pa then (m.line, m.leased) else (other, decide (128 * other < 2 ^ 53))
      | none => (other, decide (128 * other < 2 ^ 53))
    let home := decide (monsOf s line leased < 16)
    let m : Mon := { line := line, va := none, home := home, leased := leased }
    let s := if home then { s with mons := tmod [] s.mons line (· ++ [r]) } else s
    s.modRoom r fun x => { x with mon := some m }

/-- The load of a checked area, and the lane holds until it is complete (R345, R346). -/
def loadArea (s : State) (r : Nat) (area : W64) (pages sp : List Part) (copy : Bool) : State :=
  let w (off : Nat) : W64 := imageWord s r pages area off
  let job := getField (w 24) 0 32
  let size := min 0x400000 (getField (w 0) 32 32)
  let pa := w 120
  let s := if copy then loadScratch (writeTag s r) r sp (w 8) size else s.modRoom r fun x => { x with tag := none }
  let known := s.areas.find? fun a => a.area = area && a.job = job
  let (s, owed) := match known with
    | some a =>
      let (t, owed) := moveArea s area a.own a.room r
      ({ t with areas := s.areas.filter fun b => !(b.area = area && b.job = job) }, owed)
    | none => (s, [])
  let gos := match known with | some a => a.gos | none => []
  let aux : LoadAux := { faults := (s.wing (wingOf r)).faults, owed := owed, gos := gos }
  let s := s.modRoom r fun x => loadRoom s.tick r w aux x
  let s := (restoreMonitor s r pa (known.bind (·.mon))).modRoom r fun x => x.holdOn .qLoad
  (s.schedule s.openTick (.qLoadDone r)).bump

/-- `q.load`: waits until every queue of the room is empty, checks, and loads (R345, R378). -/
def execQLoad (xs1 : Reg) (s : State) : Res :=
  .next (s.privileged fun _ => s.whenRegs [xs1] fun x =>
    let area := x.getX xs1
    if area.toNat % 4096 ≠ 0 then s.devExc 2 area
    else if inWindows area then s.exc 5 area
    else if !allEng.all fun e => (x.queue e).q = [] then s.wait
    else
    let s := s.needAll s.devCtx (pageVas area.toNat areaSize)
    match rangePages s s.devCtx .load area areaSize with
      | .error (c, a) => s.devExc c a
      | .ok l =>
        let s := fillAll s l
        let pages := l.map (·.1)
        s.whenStored
          (let s := s.readImage s.turn pages area areaSize
           match imageFault s pages area areaSize with
           | some (c, a) => (s.poisonAt s.devCtx a).devExc c a
           | none =>
            let w (off : Nat) : W64 := imageWord s s.turn pages area off
            match headerFault w x.vregs area with
            | some a => s.devExc 13 a
            | none =>
              let tagged : Bool := match x.tag with | some t => decide (t.area = area) && decide (t.job = getField (w 24) 0 32) | none => false
              if tagged then loadArea s s.turn area pages [] false
              else
                let size := min 0x400000 (getField (w 0) 32 32)
                if inWindows (w 8) then s.exc 5 (w 8) else
                let s := s.needAll s.devCtx (pageVas (w 8).toNat size)
                match rangePages s s.devCtx .load (w 8) size with
                | .error (c, a) => s.devExc c a
                | .ok sp =>
                  let s := (fillAll s sp).readImage s.turn (sp.map (·.1)) (w 8) size
                  match imageFault s (sp.map (·.1)) (w 8) size with
                  | some (c, a) => (s.poisonAt s.devCtx a).devExc c a
                  | none => loadArea s s.turn area pages (sp.map (·.1)) true))

/-- The load of a save area completes (R345). -/
def execQLoadDone (room : Nat) (s : State) : Res :=
  .next (s.modRoom room fun x => if x.hold = .qLoad then x.retire s.tick else x)

/-! ## replay (R379) -/

/-- `replay`: the request goes to the wing's fault buffer; the lane completes at d + 1. -/
def execReplay (xs1 : Reg) (s : State) : Res :=
  .next (s.privileged fun _ => s.whenRegs [xs1] fun x =>
    let q : ReplayReq := { room := s.turn, tenant := x.tenant, xs1 := x.getX xs1 }
    (s.send s.turn .data s.openTick (.replayDecision q)).done)
def FRec.repl (f : FRec) : Bool := f.bits.getLsbD 19
/-- The record that a replay names. -/
def replayRecord (s : State) (q : ReplayReq) : Option FRec :=
  let l := (s.wing (wingOf q.room)).faults
  let own (f : FRec) : Bool := f.repl && (f.tenant = q.tenant || q.tenant = 0)
  if q.xs1.getLsbD 63 then l.find? fun f => f.room = q.room && decide (f.tenant = q.tenant) && f.repl
  else l.find? fun f => f.slot = getField q.xs1 0 10 && own f
/-- The source of a replayed record continues. An entry that was loaded behind others than those it was saved behind has another
position in its queue than the record says (R170, R345). -/
def resumeSource (s : State) (f : FRec) : State :=
  let pos := (f.bits.extractLsb' 32 32).toNat
  match f.src with
  | .entry r e =>
    let held := ((s.room r).queue e).q.filter fun n => n.fault.isSome && n.recorded
    let at_ := match held with
      | n :: _ => if held.any fun n => n.qpos = pos then pos else n.qpos
      | [] => pos
    if f.area.isSome then s else modEntry s r e (fun n => n.qpos = at_ && n.fault.isSome && n.recorded) fun n =>
      { n with fault := none, recorded := false }
  | .stream r q =>
    if f.area.isSome then s else
    let g (i : Iq) : Iq := { i with stream := i.stream.map fun st => { st with fault := none, recorded := false } }
    s.modRoom r fun x => { x with iq := tmod {} x.iq q g }
  | .cbu w => s.modWing w fun x => { x with cbu := x.cbu.map fun c => { c with halt := none, recorded := false } }
  | .watch _ _ _ _ => s
/-- The fault buffer decides a replay: the record is removed and its source continues from its cursor (R379). -/
def execReplayDecision (r : ReplayReq) (s : State) : Res :=
  .next (match replayRecord s r with
    | some f =>
      let w := wingOf r.room
      resumeSource (s.modWing w fun x => { x with faults := x.faults.filter fun g => g.slot ≠ f.slot }) f
    | none => s)

end Sys2Proof.Machine
end

