-- ==== Sys2Proof/Machine/System.lean ====
section
/-! DEFINITION. Privileged instructions of the memory and the scheduler (R381 to R383), and the readouts `st.rd`, `log.rd`
and `life.rd` (R351, R385 to R387). -/

namespace Sys2Proof.Machine

/-! ## tlb.inv (R381) -/

/-- Whether `tlb.inv` names a TLB entry. -/
def tlbNamed (target scope asid : Nat) (va : W64) (t : Tlb) : Bool :=
  decide (t.tenant = target) &&
  (match scope with
   | 0 => tlbHit { t with pte := t.pte ||| 64#64 } target 0 va
   | 1 => decide (t.asid = asid) && !pteG t.pte
   | _ => true)
/-- An access of a tenant, sent before the message number `cut`, has not been performed; a `q.save` under way has still to write its
area, whose pages it has translated. -/
def accessBefore (s : State) (tenant cut : Nat) : Bool :=
  let old (m : MemMsg) : Bool := decide (m.tenant = tenant) && decide (m.id < cut)
  let oldAtom (a : AtomMsg) : Bool := decide (a.tenant = tenant) && decide (a.id < cut)
  let on (i : Instr) : Bool := match i with
    | .loadAtHome m | .storeAtHome m | .msauRequest m | .replicaLoad m => old m
    | .putAccept m _ => m.store && old m
    | .msauAtomic a | .bridgeAtomic a | .pcieAtomicCompletion a _ => oldAtom a
    | .barrierRequest b => decide ((s.room b.room).tenant = tenant) && decide (b.id < cut)
    | .cpfCredit c => decide (c.tenant = tenant) && decide (c.id < cut)
    | .deviceLaunchPush p => decide (p.src = tenant) && decide (p.id < cut)
    | _ => false
  (s.agenda.any fun e => on e.2) || (s.msauQ.any fun q => q.2.any on) ||
  s.waiting.any old || s.waitAtom.any oldAtom ||
  (s.rooms.any fun e => decide (e.2.tenant = tenant) && (match e.2.hold with | .qSave _ _ _ _ _ => true | _ => false)) ||
  (List.range 4).any fun w => (s.wing w).keys.any fun k => k.buffered.any old
/-- Sends the buffered stores of a tenant to their homes. -/
def drainTenant (s : State) (tenant : Nat) : State :=
  (List.range 4).foldl (fun s w =>
    ((s.wing w).keys.filter fun k => k.buffered.any fun m => m.tenant = tenant).foldl (fun s k => drainKey s w k.slot) s) s
/-- Reserved bits of xs2 and SCOPE 3. -/
def tlbReserved (v : W64) : Bool :=
  decide (getField v 0 2 = 3) || decide (getField v 2 14 ≠ 0) || decide (getField v 32 24 ≠ 0) || decide (getField v 60 4 ≠ 0)
/-- The tenant whose entries a `tlb.inv` names. -/
def tlbTarget (tenant : Nat) (v : W64) : Nat := if tenant = 0 then getField v 56 4 else tenant
/-- `tlb.inv` (R381). -/
def execTlbInv (xs1 xs2 : Reg) (s : State) : Res :=
  .next (s.privileged fun _ => s.whenRegs [xs1, xs2] fun x =>
    let v := x.getX xs2
    if tlbReserved v then s.illegalOp
    else
      let target := tlbTarget x.tenant v
      let named := tlbNamed target (getField v 0 2) (getField v 16 16) (x.getX xs1)
      let s := drainTenant { s with tlb := s.tlb.filter fun t => !named t } target
      ((s.holdOn (.tlbInv s.seq target)).schedule s.openTick (.tlbInvDone s.turn)).bump)
/-- Dispatch resumes once every access that used a dropped entry has been performed (R381). -/
def execTlbInvDone (room : Nat) (s : State) : Res :=
  .next (
    let x := s.room room
    match x.hold with
    | .tlbInv cut target =>
      if accessBefore s target cut then s.schedule (s.tick + 1) (.tlbInvDone room)
      else s.modRoom room fun x => x.retire s.tick
    | _ => s)

/-! ## filt.set and cal.set (R382, R383) -/

/-- Runs a lane that only tenant 0 may execute (R71). -/
def State.hypervisor (s : State) (f : Room → State) : State :=
  s.privileged fun x => if x.tenant ≠ 0 then s.illegal else f x
/-- `filt.set` (R382). -/
def execFiltSet (xs1 xs2 : Reg) (s : State) : Res :=
  .next (s.hypervisor fun _ => s.whenRegs [xs1, xs2] fun x => s.withImage 16 16 16 (x.getX xs1) fun s v =>
    let b := BitVec.ofNat 128 v
    if b.extractLsb' 19 13 ≠ 0 ∨ b.extractLsb' 48 80 ≠ 0 then s.illegalOp
    else s.send s.turn .data s.openTick (.filtSetApplied s.turn (getField (x.getX xs2) 0 8) b) |>.holdOn .filtSet)
/-- The scheduling processor applies a filter entry; its count is 0 (R250, R382). -/
def execFiltSetApplied (room idx : Nat) (image : BitVec 128) (s : State) : Res :=
  .next ((s.modHall fun h => { h with filt := tset 0 h.filt idx image, filtCnt := tset 0 h.filtCnt idx 0 }).modRoom room fun x =>
    if x.hold = .filtSet then x.retire s.tick else x)

/-- Units of a class (R244). -/
def unitCount (cls : Nat) : Nat :=
  match cls with | 0 => 256 | 1 => 16 | 2 => 64 | 3 => 15 | 4 => 4 | 5 => 256 | _ => 0
/-- The unit that a selector names. -/
def unitOf (v : W64) : Option Nat :=
  if getField v 4 12 ≠ 0 ∨ getField v 24 40 ≠ 0 ∨ unitCount (getField v 0 4) ≤ getField v 16 8 then none
  else some (calUnit (getField v 0 4) (getField v 16 8))
/-- A reserved bit of a table image. -/
def tableReserved (b : BitVec 512) : Bool := (List.range 64).any fun i => b.extractLsb' (8 * i + 5) 3 ≠ 0
/-- `cal.set` (R383). -/
def execCalSet (xs1 xs2 : Reg) (s : State) : Res :=
  .next (s.hypervisor fun _ => s.whenRegs [xs1, xs2] fun x =>
    match unitOf (x.getX xs2) with
    | none => s.illegalOp
    | some u => s.withImage 64 64 64 (x.getX xs1) fun s v =>
      let b := BitVec.ofNat 512 v
      if tableReserved b then s.illegalOp
      else s.send s.turn .data s.openTick (.calSetStored s.turn u b) |>.holdOn .calSet)
/-- The unit has stored a table, which takes effect at the next period boundary (R246, R383). -/
def execCalSetStored (room unit : Nat) (image : BitVec 512) (s : State) : Res :=
  .next ((s.modHall fun h => { h with calNew := tset none h.calNew unit (some image) }).modRoom room fun x =>
    if x.hold = .calSet then x.retire s.tick else x)

/-! ## The state space (R351) -/


/-- Two words of a slot of a key table. -/
def keyWord (k : Key) (word : Nat) : W64 :=
  if word = 0 then BitVec.ofNat 64 k.base
  else
    let holder : Nat := match k.holder with | some r => r | none => Config.noHolder.toNat
    BitVec.ofNat 64 (k.slot + 2 ^ 6 * k.lsz + 2 ^ 12 * (k.keyq % 65536) + 2 ^ 56 * holder)
/-- A record of the window as its 16 bytes. -/
def recWords (c : CRec) : BitVec 128 :=
  c.payload ++ BitVec.ofNat 96 (c.bodies.foldr (fun b a => b % 2 ^ 24 + 2 ^ 24 * a) 0)
/-- A word of a CBU. -/
def cbuWord (c : Option Cbu) (tenant off : Nat) : W64 :=
  match c with
  | none => if 0x400 ≤ off ∧ off < 0x500 ∧ tenant = 0 then 0xFFFFFF else 0
  | some c =>
    if !mayRead tenant c.tenant then 0
    else if off = 0 then BitVec.ofNat 64 (c.cursor % 2 ^ 32 + 2 ^ 32 * c.members.length + 2 ^ 40 * (c.cur % 2 ^ 16))
    else if 0x100 ≤ off ∧ off < 0x300 then
      (match c.window[(off - 0x100) / 2]? with
       | some r => (recWords r).extractLsb' (64 * (off % 2)) 64 | none => 0)
    else if 0x400 ≤ off ∧ off < 0x500 then
      (match (c.forming.flatMap (·.board)).eraseDups[off - 0x400]? with | some b => BitVec.ofNat 64 b | none => 0xFFFFFF)
    else 0
/-- A word of a window-table entry. -/
def windowWord (s : State) (i off : Nat) : W64 :=
  let w := tget {} s.hall.windows i
  if !w.open_ then 0
  else match off with
    | 0 => w.base
    | 1 => BitVec.ofNat 64 (w.size + if w.sys then 2 ^ 40 else 0)
    | 2 => w.target
    | 3 => winHandle s i w.gen
    | _ => 0
/-- The doubleword at a state address, as a tenant reads it (R351, R385). Every word of a watch entry that `wt.off` has freed reads 0,
its image's too (DESIGN CHOICE, log entry 92). -/
def stateRead (s : State) (tenant : Nat) (a : W64) : W64 :=
  let u := getField a 40 16
  let off := getField a 0 40
  match getField a 56 8 with
  | 0 =>
    let x := s.room u
    if 256 ≤ u ∨ off % 8 ≠ 0 ∨ areaSize ≤ off ∨ !(mayRead tenant x.tenant && (x.run.isSome || tenant = 0)) then 0
    else saveWord x u off
  | 1 => poolWord s tenant u off
  | 2 => (match (s.wing u).keys.find? fun k => k.slot = off / 2 with | some k => if u < 4 then keyWord k (off % 2) else 0 | none => 0)
  | 3 =>
    if getField a 44 4 ≠ 0 ∨ unitCount (u % 16) ≤ u / 256 ∨ 8 ≤ off then 0
    else (tget calOpen s.hall.cal (calUnit (u % 16) (u / 256))).extractLsb' (64 * off) 64
  | 4 =>
    (match tget none s.hall.watch u with
     | some e => if !mayRead tenant e.tenant then 0
                 else if off < 2 then e.status off
                 else if off < 18 then e.image.extractLsb' (64 * (off - 2)) 64 else 0
     | none => 0)
  | 5 => if u < 4 then cbuWord (s.wing u).cbu tenant off else 0
  | 6 => if mayRead tenant (tget {} s.hall.windows u).tenant then windowWord s u off else 0
  | 7 =>
    (match (s.wing u).faults.find? fun f => f.slot = off / 4 with
     | some f => if u < 4 ∧ mayRead tenant f.tenant then f.bits.extractLsb' (64 * (off % 4)) 64 else 0
     | none => 0)
  | 8 =>
    (match tget [] s.hall.journal u with
     | r :: _ => if mayRead tenant u ∧ off < 4 then r.extractLsb' (64 * off) 64 else 0
     | [] => 0)
  | _ => 0
/-- Reading doubleword 3 of a journal removes its oldest record; no other read changes anything (R351). -/
def stateTake (s : State) (tenant : Nat) (a : W64) : State :=
  let u := getField a 40 16
  if getField a 56 8 = 8 ∧ getField a 0 40 = 3 ∧ mayRead tenant u then
    s.modHall fun h => { h with journal := tmod [] h.journal u fun l => l.drop 1 }
  else s
/-- What a controller reads out in its own time: a word of a pool (R245). -/
def readAsk (tenant : Nat) (a : W64) : Option Ask :=
  if getField a 56 8 = 1 then some (.pool tenant (getField a 40 16) (getField a 0 40)) else none
/-- `st.rd` (R385). -/
def execStRd (xd xs1 : Reg) (s : State) : Res :=
  .next (s.privileged fun _ => s.whenTo [xd] [xs1] fun x => s.whenSlot
    (let a := x.getX xs1
     match readAsk x.tenant a with
     | some q => s.askLater xd q
     | none => (stateTake s x.tenant a).answerLater xd (stateRead s x.tenant a)))

/-! ## log.rd and life.rd (R386, R387) -/

/-- The tenant that a fault-log record names. -/
def logTenant (b : BitVec 256) : Option Nat := if b.getLsbD 12 then some (b.extractLsb' 8 4).toNat else none
/-- The answer of `log.rd`. -/
def logWord (s : State) (tenant : Nat) (a : W64) : W64 :=
  let h := s.hall
  let oldest := h.logNext - h.logs.length
  if a.getLsbD 63 then BitVec.ofNat 32 h.logNext ++ BitVec.ofNat 32 oldest
  else
    let n := getField a 0 32
    if n < oldest then 0
    else match h.logs[n - oldest]? with
      | some b => if tenant = 0 ∨ logTenant b = some tenant then b.extractLsb' (64 * getField a 32 2) 64 else 0
      | none => 0
/-- `log.rd` (R386). -/
def execLogRd (xd xs1 : Reg) (s : State) : Res :=
  .next (s.privileged fun _ => s.whenTo [xd] [xs1] fun x => s.whenSlot
    (s.answerLater xd (logWord s x.tenant (x.getX xs1))))

/-- A wing none of whose rooms is in service. -/
def wingOut (s : State) (w : Nat) : Bool := (List.range 64).all fun i => !s.inService (64 * w + i)
/-- `life.rd` (R387). -/
def execLifeRd (xd xs1 : Reg) (s : State) : Res :=
  .next (s.privileged fun _ => s.whenTo [xd] [xs1] fun x => s.whenSlot
    (let w := getField (x.getX xs1) 0 2
     s.answerLater xd (if wingOut s w then 0 else (s.wing w).powered ++ (s.wing w).hours)))

end Sys2Proof.Machine
end

