-- ==== Sys2Proof/Machine/Reliability.lean ====
section
/-! DEFINITION. Throttling and the period boundary (R246, R250, R273, R360, R390), errors (R391), fatal loss and restart
(R392 to R394), ageing (R395), bring-up (R396) and the mailbox (R397, R398). -/

namespace Sys2Proof.Machine

/-! ## Throttle levels (R390) -/

/-- The tenant whose level rises on a stair: the other tenant than the owner with the largest metered energy, the lower ID on
a tie; the owner if no other drew energy. -/
def heatSource (stair owner now : Nat) : Nat :=
  let others := (List.range 16).filter fun t => t ≠ owner && decide (0 < Config.meteredEnergy stair t now)
  match others with
  | [] => owner
  | t :: l => l.foldl (fun b c => if Config.meteredEnergy stair b now < Config.meteredEnergy stair c now then c else b) t
/-- The level of a tenant on a stair after a boundary. While package power has exceeded 2,650 W and not yet fallen below
2,550 W, no level falls. -/
def levelAfter (stair owner tenant old now : Nat) (high : Bool) : Nat :=
  let temp := Config.bankTemperature stair now
  let n :=
    if 95 ≤ temp then (if tenant = heatSource stair owner now then min 8 (old + 1) else old)
    else if temp < 90 ∧ !high then old - 1 else old
  let n := if 105 ≤ temp then 8 else n
  if 2650 < Config.packagePower now then min 8 (n + 1) else n
/-- The owner of a package stair (R198). -/
def State.owner (s : State) (stair : Nat) : Nat := getField (s.wing (stair / 16)).stairown (4 * (stair % 16)) 4
/-- A change of level is logged (R390, R395). -/
def setLevel (s : State) (stair tenant : Nat) (high : Bool) : State :=
  let old := tget 0 (s.stair stair).level tenant
  let o := s.owner stair
  let n := levelAfter stair o tenant old s.tick high
  if n = old then s
  else
    (s.modStair stair fun x => { x with level := tset 0 x.level tenant n }).logAdd
      (logRec 6 (some tenant) stair (BitVec.ofNat 64 s.tick) (BitVec.ofNat 64 (n + 16 * o)) 0)
/-- The levels of every stair and tenant at a boundary. -/
def throttle (s : State) : State :=
  let w := Config.packagePower s.tick
  let high : Bool := decide (2650 < w) || (s.hall.powerHigh && decide (2550 ≤ w))
  let s := s.modHall fun h => { h with powerHigh := high }
  (List.range 64).foldl (fun s i => (List.range 16).foldl (fun s t => setLevel s i t high) s) s

/-! ## The period boundary -/

/-- Tables written by `cal.set` take effect (R246). -/
def newTables (h : Hall) : Hall :=
  { h with cal := h.calNew.foldl (fun t e => match e.2 with | some b => tset calOpen t e.1 b | none => t) h.cal, calNew := [] }
/-- A write to HEATCFG takes effect; a change clears every count and reloads every down-counter (R360). -/
def newHeat (s : State) : State :=
  match s.hall.heatNew with
  | none => s
  | some (a, d) =>
    let s := if a ≠ s.hall.heatS ∨ d ≠ s.hall.heatD then { s with heat := [], down := [] } else s
    s.modHall fun h => { h with heatS := a, heatD := d, heatNew := none }
/-- Every watch entry ends its period (R273, R274). -/
def newPeriod (now : Nat) (h : Hall) : Hall :=
  { h with filtCnt := [], watch := h.watch.map fun e => (e.1, e.2.map (WEntry.period now)) }
/-- At a multiple of 4,096 ticks: new tables, the counts of the period, HEATCFG, and the throttle (R246, R250, R273, R360,
R390). -/
def execCalendarPeriodBoundary (s : State) : Res :=
  .next (if s.tick % 4096 = 0 then throttle (newHeat (s.modHall fun h => newPeriod s.tick (newTables h))) else s)

/-! ## Errors (R391) -/

end Sys2Proof.Machine

namespace Sys2Proof

/-- The code of a part (R395). -/
def PartCode.num (p : PartCode) : Nat := p.kind % 16 + 16 * (p.wing % 4) + 64 * (p.idx % 64)
/-- Rooms that the loss of a part maps out (R392). -/
def PartCode.rooms (p : PartCode) : List Nat :=
  match p.kind with
  | 0 => [64 * p.wing + p.idx]
  | 1 | 2 | 3 => Machine.roomsOfStair (16 * p.wing + p.idx)
  | 4 => (List.range 16).map fun i => 64 * p.wing + 16 * p.idx + i
  | 5 | 6 | 7 => (List.range 64).map fun i => 64 * p.wing + i
  | _ => []
/-- Stairs that it maps out. -/
def PartCode.stairs (p : PartCode) : List Nat :=
  match p.kind with
  | 1 | 2 | 3 => [16 * p.wing + p.idx]
  | 5 | 6 | 7 => (List.range 16).map fun i => 16 * p.wing + i
  | _ => []
/-- A part without which the package stays out of service. -/
def PartCode.fatal (p : PartCode) : Bool := 8 ≤ p.kind

end Sys2Proof

namespace Sys2Proof.Machine

/-- A correctable error is corrected in place and counted; the first of a part in every 2^32 ticks is logged (R391). -/
def execEccCorrected (part : PartCode) (s : State) : Res :=
  .next (
    let (n, last) := tget (0, 0) s.errCount part.num
    let span := 1 + s.tick / 2 ^ 32
    let s := { s with errCount := tset (0, 0) s.errCount part.num (n + 1, span) }
    if last = span then s
    else s.logAdd (logRec 2 none part.num (BitVec.ofNat 64 s.tick) (BitVec.ofNat 64 (n + 1)) 0))

/-- The part that holds a memory key; none outside the package. -/
def partOfKey (key : Nat) : Option PartCode :=
  if 2 ^ 54 ≤ key then none
  else if 2 ^ 53 + 2 ^ 40 ≤ key then
    (let st := (key - (2 ^ 53 + 2 ^ 40)) / 2 ^ 29
     some { kind := 2, wing := st / 16, idx := st % 16 })
  else if 2 ^ 53 + 2 ^ 32 ≤ key then
    (let st := (key - (2 ^ 53 + 2 ^ 32)) / 2 ^ 24
     some { kind := 1, wing := st / 16, idx := st % 16 })
  else if 2 ^ 53 ≤ key then
    (let r := (key - 2 ^ 53) / 2 ^ 22
     some { kind := 0, wing := r / 64, idx := r % 64 })
  else if 2 ^ 52 ≤ key then none
  else match rangeOf key with
    | .hbm =>
      let k := Config.channelOf (key / 65536) % 256 / 32
      some { kind := 8, wing := k / 2, idx := k }
    | _ => none

/-- Where the errors of a part are counted: of a scratchpad, for each bank (R392). -/
def errUnit (p : PartCode) (key : Nat) : Nat := p.num + if p.kind = 0 then 4096 * ((key - 2 ^ 53) % 2 ^ 22 / 2 ^ 18) else 0

/-- The record of a lost iteration in the fault log, under its job's identity (R345, R393, R395). -/
def lostRecord (s : State) (r : Nat) (u : Run) : BitVec 256 :=
  logRec 5 (some u.owner) r (BitVec.ofNat 64 s.tick) (BitVec.ofNat 64 u.selfJob) (BitVec.ofNat 64 u.selfOrd)

/-- Ticks of 900 ms (R2, R393). -/
def restartBound : Nat := 630000000
/-- A part fails at tick F, with a number of errors: no lane dispatches from F + 1, a type-1 record and a type-5 record for every
running iteration are written, a notice goes out on every Nuldolink port, and the warm restart follows within 900 ms (R393). A
part that fails before the restart is mapped out by it too. -/
def partFails (part : PartCode) (errors : Nat) (s : State) : State :=
  let s := s.logAdd (logRec 1 none part.num (BitVec.ofNat 64 s.tick) (BitVec.ofNat 64 errors) 0)
  if s.detect.isSome then s.schedule (s.tick + restartBound) (.warmRestart part)
  else
    let s := s.rooms.foldl (fun s e => match e.2.run with
      | some u => s.logAdd (lostRecord s e.1 u) | none => s) { s with detect := some s.tick }
    let sent : List (Nat × Nat) := (List.range 12).map fun p => (p, s.tick)
    let s := s.modHall fun h => { h with notices := h.notices ++ sent }
    (s.schedule (s.tick + 1 + Config.openDelay s.fresh % restartBound) (.warmRestart part)).bump
/-- The part has failed, and waits for the restart. -/
def State.failing (s : State) (p : PartCode) : Bool :=
  s.agenda.any fun e => match e.2 with | .warmRestart q => decide (q = p) | _ => false
/-- The failure of a part: its built-in link check (R392, R393). -/
def execPartFailure (part : PartCode) (s : State) : Res :=
  .next (partFails part (tget [] s.errSeen part.num).length s)

/-- An uncorrectable error (R391): a granule is poisoned, and the 16th distinct address of a part within 2^20 ticks is its
failure (R392); an error in room state loses the iteration; one in the hall is fatal. -/
def execPoisonMark (site : ErrSite) (s : State) : Res :=
  .next (match site with
    | .granule key =>
      let g := key / 128
      let s := { s with poison := tset false s.poison g true }
      match partOfKey key with
      | none => s
      | some p =>
        let old := (tget [] s.errSeen (errUnit p key)).filter fun e => decide (s.tick < e.2 + 2 ^ 20) && e.1 ≠ g
        let new := old ++ [(g, s.tick)]
        let s := { s with errSeen := tset [] s.errSeen (errUnit p key) new }
        if 16 ≤ new.length ∧ !s.failing p then partFails p new.length s else s
    | .room r =>
      match (s.room r).run with
      | some u => if (s.room r).dying.isNone then endRooms (s.logAdd (lostRecord s r u)) [r] [] 2 255 0 else s
      | none => s
    | .hall => partFails { kind := 9, wing := 0, idx := 0 } 1 s)

/-- The background scrub reads every granule of HBM4E and the cellar once a day, and corrects what can be corrected: no value
changes (R391). Errors that it meets are events of their own. -/
def execBackgroundScrub (s : State) : Res := .next s

/-! ## Ageing (R387, R395) -/

/-- Ticks of an hour at 700 MHz (R2). -/
def hourTicks : Nat := 2520000000000
/-- The hours that a wing has been powered as of a tick that is not later than this one, saturating. -/
def State.poweredHours (s : State) (wing asOf : Nat) : W32 :=
  BitVec.ofNat 32 (min 0xFFFFFFFF (((s.wing wing).worn + min asOf s.tick) / hourTicks))
/-- A wing's prediction, as of the tick in which its ageing monitor was read; the first time that HOURS falls below 1,000 is logged. -/
def State.lifeStep (s : State) (wing : Nat) (hours : W32) (asOf : Nat) : State :=
  let powered := s.poweredHours wing asOf
  let near := !(s.wing wing).nearEnd && decide (hours.toNat < 1000)
  let s := s.modWing wing fun x => { x with hours := hours, powered := powered, nearEnd := x.nearEnd || near }
  if near then s.logAdd (logRec 8 none wing (BitVec.ofNat 64 s.tick) (BitVec.ofNat 64 hours.toNat) 0) else s
/-- A recomputation of a prediction (R387). -/
def execLifeRecompute (wing : Nat) (hours : W32) (asOf : Nat) (s : State) : Res := .next (s.lifeStep wing hours asOf)
/-- Every prediction is recomputed now: as the package starts again, and where bring-up passes a multiple of 2^32 ticks (R387). -/
def State.lifeNow (s : State) : State :=
  (List.range 4).foldl (fun s w => (s.lifeStep w (Config.lifeHours w s.fresh) s.tick).bump) s

/-! ## Fatal loss and restart (R392 to R394) -/

/-- A key whose bytes a restart leaves: outside the rooms, the attic and the cellar (R393). -/
def survives (key : Nat) : Bool := decide (key < 2 ^ 53) || decide (2 ^ 54 ≤ key)
/-- A key whose bytes stand in host memory: of the hosts and of the second tier. -/
def hostBytes (key : Nat) : Bool :=
  (decide (2 ^ 52 ≤ key) && decide (key < 2 ^ 53)) || rangeOf key = .tier || decide (2 ^ 60 ≤ key)
/-- The state of a package that starts again: what is in non-volatile storage or outside the package stays. -/
def restarted (s : State) (boot : Nat) (keep : Nat → Bool) : State :=
  let h := s.hall
  let hall : Hall := { logs := h.logs, logNext := h.logNext, replSwitch := h.replSwitch, tierMap := h.tierMap, notices := h.notices }
  let wing (x : Wing) : Wing := { hours := x.hours, powered := x.powered, worn := x.worn, nearEnd := x.nearEnd }
  let wings : Tbl Wing := tofn {} 4 fun w => wing (s.wing w)
  { State.reset with
    boot := boot, outOfService := s.outOfService, mappedRooms := s.mappedRooms, mappedStairs := s.mappedStairs,
    errCount := s.errCount, pkgNum := s.pkgNum, firmware := s.firmware, fresh := s.fresh, seq := s.seq, wings := wings,
    mem := s.mem.filter fun e => keep e.1, poison := s.poison.filter fun e => keep (128 * e.1), hall := hall }
/-- The journal records of the iterations lost at a tick (R394). -/
def lostJournal (f : Nat) (s : State) (b : BitVec 256) : State :=
  if b.extractLsb' 0 8 = 5 ∧ b.extractLsb' 64 64 = BitVec.ofNat 64 f then
    let t := (b.extractLsb' 8 4).toNat
    s.journalAdd t [journalRec (b.extractLsb' 128 32).toNat (b.extractLsb' 16 16).toNat t 0 1 2 0 255 (b.extractLsb' 192 64)
      (BitVec.ofNat 64 f) 0]
  else s
/-- A part is mapped out; without some parts the package stays out of service (R392). -/
def mapOut (s : State) (part : PartCode) : State :=
  { s with mappedRooms := s.mappedRooms ++ part.rooms.filter fun r => !s.mappedRooms.contains r,
           mappedStairs := s.mappedStairs ++ part.stairs.filter fun r => !s.mappedStairs.contains r,
           outOfService := s.outOfService || part.fatal }
/-- The package restarts warm from step 2, without HBM4E training, with every failed part mapped out (R393, R394). HBM4E keeps its
contents. -/
def execWarmRestart (part : PartCode) (s : State) : Res :=
  .next (
    let f := s.detect.getD s.tick
    let others := s.agenda.filterMap fun e => match e.2 with | .warmRestart p => some p | _ => none
    let s1 := { restarted s 2 survives with tick := s.tick, warm := true }
    let s1 := (part :: others).foldl mapOut s1
    (if s.detect.isSome then s.hall.logs.foldl (lostJournal f) s1 else s1).lifeNow)

/-! ## Bring-up (R396) -/

/-- A boot event in the fault log. -/
def State.bootEvent (s : State) (result : Nat) : State :=
  s.logAdd (logRec 7 none 0 (BitVec.ofNat 64 s.tick) (BitVec.ofNat 64 Config.firmwareVersion) (BitVec.ofNat 64 result))
/-- A table of the firmware, with its reserved bits 0. -/
def firmTable (u : Nat) : BitVec 512 :=
  Config.firmwareTable u &&& BitVec.ofNat 512 ((List.range 64).foldl (fun a i => a + 31 * 256 ^ i) 0)
/-- The calendar units of the package (R244). -/
def calUnits : List Nat := (List.range 6).flatMap fun c => (List.range (unitCount c)).map (calUnit c)
/-- The result of the check of the firmware image in step 2: 0 accepted, 1 signature, 2 rollback (R395, R396). -/
def firmwareResult : Nat :=
  if Config.imageKeyHash ≠ Config.fuseKeyHash ∨ Config.imageVerifies = false then 1
  else if Config.firmwareVersion < Config.fuseRollback then 2 else 0
/-- The action of a step of bring-up: the state after it, at the next step, or stopped in it. A warm restart trains no stack, which
takes no time of its own here, and identifies every one (R1, R393). -/
def bootAction (s : State) : State :=
  match s.boot with
  | 1 => { s with boot := 2 }
  | 2 =>
    if firmwareResult = 0 then { (s.bootEvent 0) with boot := 3, firmware := Config.firmwareVersion }
    else { (s.bootEvent firmwareResult) with bootStop := true }
  | 3 =>
    (match Config.badStack with
      | none => { s with boot := 4, warm := false }
      | some k => { (s.bootEvent (3 + 256 * (k % 8))) with bootStop := true })
  | 4 =>
    let up : BitVec 4 := (List.range 4).foldl (fun b p => if Config.portTrained p then b ||| (1#4 <<< p) else b) 0
    { (s.modHall fun h => { h with linkUp := up }) with boot := 5 }
  | _ => { (s.modHall fun h => { h with cal := calUnits.foldl (fun t u => tset calOpen t u (firmTable u)) h.cal }) with boot := 6 }
/-- What a package answers while no room runs: the management interface, a reset, and what happens to its parts and links. -/
def answersInBoot (i : Instr) : Bool :=
  match i with
  | .mbReadState | .mbReadLog | .mbSetPackage | .mbWriteReplica | .mbAttest | .mbReadIdentity | .mbCommandDone | .reset
  | .eccCorrected _ | .poisonMark _ | .partFailure _ | .warmRestart _ | .linkDown _ | .linkUp _ => true
  | .registerWrite (.port pa _ _) => (match portReg (pa - portBase) with | .mbcmd | .mbarg _ => true | _ => false)
  | _ => false
/-- The first thing that it answers, at its tick. -/
def State.bootItem (s : State) : Option (Nat × Instr) := s.agenda.find? fun e => answersInBoot e.2
/-- Bring-up goes on: its step is done, and the next one begins, unless something is answered before; in a step in which it has
stopped it stays (R396). -/
def bootNext (s : State) : State :=
  let done := s.openTick
  let t : State := match s.bootItem with
    | some (t, _) => if s.bootStop ∨ t ≤ done then { s with tick := max (s.tick + 1) t }.bump else { (bootAction s).bump with tick := done }
    | none => if s.bootStop then { s with tick := s.tick + 1 } else { (bootAction s).bump with tick := done }
  let epoch (n : Nat) : Nat := n / 2 ^ 32
  if epoch t.tick = epoch s.tick then t else t.lifeNow
/-- Reset: bring-up begins at step 1, whatever the package was doing, and runs step by step (R396). What is in non-volatile
storage or outside the package stays; what the ageing monitors have seen goes on (R387). -/
def execReset (s : State) : Res :=
  .next (
    let worn (x : Wing) : Wing := { x with worn := x.worn + s.tick }
    let wings : Tbl Wing := tofn {} 4 fun w => worn (s.wing w)
    let counts := s.errCount.map fun e => (e.1, (e.2.1, 0))
    (restarted { s with wings := wings, errCount := counts } 1 hostBytes).lifeNow)

/-! ## The mailbox (R398) -/

/-- An argument and a result. -/
def State.mbArg (s : State) (i : Nat) : W64 := tget 0 s.hall.mbarg i
def State.mbPut (s : State) (l : List W64) : State :=
  s.modHall fun h => { h with mbres := (l.zipIdx).foldl (fun t p => tset 0 t p.2 p.1) h.mbres }
/-- The command under way completes with a status, REASON or 0: within 10 ms, an attestation within 100 ms (R398). -/
def State.mbEnd (s : State) (reason : Nat) : State :=
  let v : W64 := if reason = 0 then 0 else BitVec.ofNat 64 (2 + 256 * reason)
  let bound := if s.hall.mbop = 5 then 70000000 else 7000000
  ((s.modHall fun h => { h with mbNext := v }).schedule (s.tick + 1 + Config.openDelay s.fresh % bound) .mbCommandDone).bump
/-- OP 1: reads a state address as tenant 0. -/
def execMbReadState (s : State) : Res :=
  .next (((stateTake s 0 (s.mbArg 0)).mbPut [stateRead s 0 (s.mbArg 0)]).mbEnd 0)
/-- OP 2: reads the fault log. -/
def execMbReadLog (s : State) : Res := .next ((s.mbPut [logWord s 0 (s.mbArg 0)]).mbEnd 0)
/-- OP 3: sets the package number. -/
def execMbSetPackage (s : State) : Res :=
  .next (
    if s.boot < 6 then s.mbEnd 3
    else if 16384 ≤ (s.mbArg 0).toNat then s.mbEnd 2
    else { s with pkgNum := (s.mbArg 0).toNat }.mbEnd 0)
/-- The replica entry of the arguments; none for a bad one (R305). -/
def mbReplica (s : State) : Option Replica :=
  let base := (s.mbArg 1).toNat
  let size := (s.mbArg 2).toNat
  let d := s.mbArg 3
  let n := getField d 4 6 + 1
  if getField d 0 2 = 3 ∨ getField d 2 2 ≠ 0 ∨ getField d 10 54 ≠ 0 ∨ base % 2 ^ 21 ≠ 0 ∨ size % 2 ^ 21 ≠ 0 ∨
      base < 0xE000000000000 ∨ 0xF000000000000 < base + size then none
  else some { base := base, size := size, type := getField d 0 2,
              list := (List.range n).map fun i => ((s.mbArg (4 + 2 * i)).toNat, (s.mbArg (5 + 2 * i)).toNat) }
/-- OP 4: writes an entry of the switch's table or of the hall's. -/
def execMbWriteReplica (s : State) : Res :=
  .next (
    let a := s.mbArg 0
    let i := getField a 0 10
    if s.boot < 6 then s.mbEnd 3
    else if getField a 11 53 ≠ 0 then s.mbEnd 2
    else match mbReplica s with
      | none => s.mbEnd 2
      | some r =>
        if a.getLsbD 10 then
          (if 64 ≤ i then s.mbEnd 2 else (s.modHall fun h => { h with replHall := tset none h.replHall i (some r) }).mbEnd 0)
        else if Config.nuldoSwitch then (s.modHall fun h => { h with replSwitch := tset none h.replSwitch i (some r) }).mbEnd 0
        else s.mbEnd 2)
/-- The doublewords of a digest. -/
def digestWords (d : BitVec 512) : List W64 := (List.range 8).map fun i => d.extractLsb' (64 * i) 64
/-- The mapped-out set as bits: 256 rooms, then 64 stairs. -/
def State.mappedWords (s : State) : List W64 :=
  let bits (l : List Nat) (k : Nat) : W64 := BitVec.ofNat 64 ((List.range 64).foldl (fun a i => if l.contains (64 * k + i) then a + 2 ^ i else a) 0)
  ((List.range 4).map (bits s.mappedRooms)) ++ [bits s.mappedStairs 0]
/-- The doublewords of every calendar table, of the message filter and of STAIROWN of every wing, of which a report holds the
digests. -/
def State.calWords (s : State) : List W64 := calUnits.flatMap fun u => digestWords (tget calOpen s.hall.cal u)
def State.filtWords (s : State) : List W64 :=
  s.hall.filt.flatMap fun e => [BitVec.ofNat 64 e.1, e.2.extractLsb' 0 64, e.2.extractLsb' 64 64]
def State.ownWords (s : State) : List W64 := (List.range 4).map fun w => (s.wing w).stairown
/-- What an attestation report holds, in 43 doublewords: the nonce, the digest of the running firmware and its version, the mapped-out
set, the digests of the calendar tables, of the message filter and of STAIROWN, and the report's tick (R397). One digest for each of
the three fits the 1,024 bytes of R398 (DESIGN CHOICE, log entry 48). -/
def State.attested (s : State) : List W64 :=
  ((List.range 4).map s.mbArg) ++ digestWords Config.firmwareDigest ++ [BitVec.ofNat 64 s.firmware] ++ s.mappedWords ++
    digestWords (Config.sha512 s.calWords) ++ digestWords (Config.sha512 s.filtWords) ++ digestWords (Config.sha512 s.ownWords) ++
    [BitVec.ofNat 64 s.tick]
/-- The 128 doublewords of a report with its contents: they stand together, from a doubleword of Config on. -/
def reportWords (l : List W64) : List W64 :=
  let at_ := Config.reportStart % (129 - l.length)
  (List.range 128).map fun i => if at_ ≤ i ∧ i < at_ + l.length then l.getD (i - at_) 0 else Config.reportRest i
/-- The report's 128 doublewords and the 64 of its signature. -/
def State.report (s : State) : List W64 :=
  let l := reportWords s.attested
  l ++ (List.range 64).map (Config.signatureWord l s.fresh)
/-- OP 5: the report over the nonce and its signature (R397). -/
def execMbAttest (s : State) : Res := .next ((s.mbPut s.report).mbEnd 0)
/-- OP 6: the identity key. -/
def execMbReadIdentity (s : State) : Res := .next ((s.mbPut ((List.range 65).map Config.identityKey)).mbEnd 0)
/-- A command completes; an unknown OP is refused with REASON 1 (R398). -/
def execMbCommandDone (s : State) : Res :=
  .next (s.modHall fun h => { h with mbstat := if (mbStep h.mbop).isSome then h.mbNext else 0x102 })

end Sys2Proof.Machine
end

