-- ==== Sys2Proof/Machine/Dispatch.lean ====
section
/-! DEFINITION. The meaning of every row of the opcode table: one arm per constructor of Instr, each a call of its
meaning. -/

namespace Sys2Proof.Machine

def exec (i : Instr) (s : State) : Host.Outcome State Fault Refusal :=
  match i with
  | .rvScalarInstruction op => Sys2Proof.Machine.execRvScalarInstruction op s
  | .rvFence rd rs1 imm => Sys2Proof.Machine.execRvFence rd rs1 imm s
  | .rvFenceI rd rs1 imm => Sys2Proof.Machine.execRvFenceI rd rs1 imm s
  | .xret m => Sys2Proof.Machine.execXret m s
  | .lr dbl aq rl rd rs1 => Sys2Proof.Machine.execLr dbl aq rl rd rs1 s
  | .sc dbl aq rl rd rs1 rs2 => Sys2Proof.Machine.execSc dbl aq rl rd rs1 rs2 s
  | .aExtensionAmo op dbl aq rl rd rs1 rs2 => Sys2Proof.Machine.execAExtensionAmo op dbl aq rl rd rs1 rs2 s
  | .deferredAnswer room a => Sys2Proof.Machine.execDeferredAnswer room a s
  | .barWaitRelease room id => Sys2Proof.Machine.execBarWaitRelease room id s
  | .cas128Answer room a old fault outc => Sys2Proof.Machine.execCas128Answer room a old fault outc s
  | .poolDecision r => Sys2Proof.Machine.execPoolDecision r s
  | .poolRegister wing v => Sys2Proof.Machine.execPoolRegister wing v s
  | .poolUnregister wing v => Sys2Proof.Machine.execPoolUnregister wing v s
  | .poolCommandDone wing => Sys2Proof.Machine.execPoolCommandDone wing s
  | .killPoolEffect k => Sys2Proof.Machine.execKillPoolEffect k s
  | .loadAtHome m => Sys2Proof.Machine.execLoadAtHome m s
  | .storeAtHome m => Sys2Proof.Machine.execStoreAtHome m s
  | .vtAnswer room who id vt => Sys2Proof.Machine.execVtAnswer room who id vt s
  | .msauRequest m => Sys2Proof.Machine.execMsauRequest m s
  | .msauAtomic a => Sys2Proof.Machine.execMsauAtomic a s
  | .bridgeAtomic a => Sys2Proof.Machine.execBridgeAtomic a s
  | .barrierRequest b => Sys2Proof.Machine.execBarrierRequest b s
  | .cpfCredit c => Sys2Proof.Machine.execCpfCredit c s
  | .monChangeWake room line => Sys2Proof.Machine.execMonChangeWake room line s
  | .keyRegister room base ctl => Sys2Proof.Machine.execKeyRegister room base ctl s
  | .keyUnregister room base ctl => Sys2Proof.Machine.execKeyUnregister room base ctl s
  | .keyCommandDone room => Sys2Proof.Machine.execKeyCommandDone room s
  | .rdownCompletion g data => Sys2Proof.Machine.execRdownCompletion g data s
  | .sharingMiss m g => Sys2Proof.Machine.execSharingMiss m g s
  | .birspArrival g dirty => Sys2Proof.Machine.execBirspArrival g dirty s
  | .pcieAtomicCompletion a ok => Sys2Proof.Machine.execPcieAtomicCompletion a ok s
  | .lostClear bits => Sys2Proof.Machine.execLostClear bits s
  | .scrub agent => Sys2Proof.Machine.execScrub agent s
  | .putAccept m handle => Sys2Proof.Machine.execPutAccept m handle s
  | .winCloseDecision tenant handle => Sys2Proof.Machine.execWinCloseDecision tenant handle s
  | .replicaLoad m => Sys2Proof.Machine.execReplicaLoad m s
  | .celSwapRequest room t => Sys2Proof.Machine.execCelSwapRequest room t s
  | .launchPush tenant v => Sys2Proof.Machine.execLaunchPush tenant v s
  | .launchPushDone tenant p => Sys2Proof.Machine.execLaunchPushDone tenant p s
  | .crossTenantPush p => Sys2Proof.Machine.execCrossTenantPush p s
  | .evset tenant bits => Sys2Proof.Machine.execEvset tenant bits s
  | .evclr tenant bits => Sys2Proof.Machine.execEvclr tenant bits s
  | .preemptRequest room => Sys2Proof.Machine.execPreemptRequest room s
  | .cbuDecision r => Sys2Proof.Machine.execCbuDecision r s
  | .cbPullWithdraw room => Sys2Proof.Machine.execCbPullWithdraw room s
  | .cbDoneCount wing pos => Sys2Proof.Machine.execCbDoneCount wing pos s
  | .killCbuEffect k => Sys2Proof.Machine.execKillCbuEffect k s
  | .stairownWrite wing v => Sys2Proof.Machine.execStairownWrite wing v s
  | .atticctlWrite wing v => Sys2Proof.Machine.execAtticctlWrite wing v s
  | .atticpartWrite wing v => Sys2Proof.Machine.execAtticpartWrite wing v s
  | .configChangeDone wing => Sys2Proof.Machine.execConfigChangeDone wing s
  | .heatcfgWrite f3 rd rs1 => Sys2Proof.Machine.execHeatcfgWrite f3 rd rs1 s
  | .qslipWrite f3 rd rs1 => Sys2Proof.Machine.execQslipWrite f3 rd rs1 s
  | .qwmarkWrite f3 rd rs1 => Sys2Proof.Machine.execQwmarkWrite f3 rd rs1 s
  | .vflagsWrite f3 rd rs1 => Sys2Proof.Machine.execVflagsWrite f3 rd rs1 s
  | .bankfmtWrite f3 rd rs1 => Sys2Proof.Machine.execBankfmtWrite f3 rd rs1 s
  | .satpWrite f3 rd rs1 => Sys2Proof.Machine.execSatpWrite f3 rd rs1 s
  | .registerWrite w => Sys2Proof.Machine.execRegisterWrite w s
  | .warmRestart part => Sys2Proof.Machine.execWarmRestart part s
  | .efence m => Sys2Proof.Machine.execEfence m s
  | .cqPop xd => Sys2Proof.Machine.execCqPop xd s
  | .cqTry xd => Sys2Proof.Machine.execCqTry xd s
  | .pwOpen xd xs1 => Sys2Proof.Machine.execPwOpen xd xs1 s
  | .pwCommit xd xs1 xs2 => Sys2Proof.Machine.execPwCommit xd xs1 xs2 s
  | .pwDrop xs1 => Sys2Proof.Machine.execPwDrop xs1 s
  | .prAcq xd xs1 xs2 => Sys2Proof.Machine.execPrAcq xd xs1 xs2 s
  | .prRel xs1 xs2 => Sys2Proof.Machine.execPrRel xs1 xs2 s
  | .pStat xd xs1 xs2 => Sys2Proof.Machine.execPStat xd xs1 xs2 s
  | .barInit xs1 xs2 => Sys2Proof.Machine.execBarInit xs1 xs2 s
  | .barArrive xd xs1 => Sys2Proof.Machine.execBarArrive xd xs1 s
  | .barExpect xs1 xs2 => Sys2Proof.Machine.execBarExpect xs1 xs2 s
  | .barWait xs1 => Sys2Proof.Machine.execBarWait xs1 s
  | .barTry xd xs1 => Sys2Proof.Machine.execBarTry xd xs1 s
  | .keyGet xs1 => Sys2Proof.Machine.execKeyGet xs1 s
  | .keyPass xs1 => Sys2Proof.Machine.execKeyPass xs1 s
  | .monArm xs1 => Sys2Proof.Machine.execMonArm xs1 s
  | .monWait xd xs1 => Sys2Proof.Machine.execMonWait xd xs1 s
  | .amoCas128 xd xs1 xs2 => Sys2Proof.Machine.execAmoCas128 xd xs1 xs2 s
  | .amoCasMs xd xs1 xs2 => Sys2Proof.Machine.execAmoCasMs xd xs1 xs2 s
  | .amoAddMs xd xs1 xs2 => Sys2Proof.Machine.execAmoAddMs xd xs1 xs2 s
  | .amoFaddMs xd xs1 xs2 => Sys2Proof.Machine.execAmoFaddMs xd xs1 xs2 s
  | .amoMinMs xd xs1 xs2 => Sys2Proof.Machine.execAmoMinMs xd xs1 xs2 s
  | .amoMaxMs xd xs1 xs2 => Sys2Proof.Machine.execAmoMaxMs xd xs1 xs2 s
  | .amoAndMs xd xs1 xs2 => Sys2Proof.Machine.execAmoAndMs xd xs1 xs2 s
  | .amoOrMs xd xs1 xs2 => Sys2Proof.Machine.execAmoOrMs xd xs1 xs2 s
  | .amoXorMs xd xs1 xs2 => Sys2Proof.Machine.execAmoXorMs xd xs1 xs2 s
  | .amoSwapMs xd xs1 xs2 => Sys2Proof.Machine.execAmoSwapMs xd xs1 xs2 s
  | .winOpen xd xs1 xs2 => Sys2Proof.Machine.execWinOpen xd xs1 xs2 s
  | .winClose xs1 => Sys2Proof.Machine.execWinClose xs1 s
  | .winCnt xd xs1 xs2 => Sys2Proof.Machine.execWinCnt xd xs1 xs2 s
  | .bnet p xd xs1 xs2 => Sys2Proof.Machine.execBnet p xd xs1 xs2 s
  | .bnetLd xs1 xs2 => Sys2Proof.Machine.execBnetLd xs1 xs2 s
  | .launch xd xs1 xs2 => Sys2Proof.Machine.execLaunch xd xs1 xs2 s
  | .jobWait xs1 => Sys2Proof.Machine.execJobWait xs1 s
  | .jobSelf xd => Sys2Proof.Machine.execJobSelf xd s
  | .calNow xd => Sys2Proof.Machine.execCalNow xd s
  | .calWait xs1 => Sys2Proof.Machine.execCalWait xs1 s
  | .cbOpen xd xs1 xs2 => Sys2Proof.Machine.execCbOpen xd xs1 xs2 s
  | .cbPull xd => Sys2Proof.Machine.execCbPull xd s
  | .cbDone xs1 => Sys2Proof.Machine.execCbDone xs1 s
  | .cbStat xd xs1 => Sys2Proof.Machine.execCbStat xd xs1 s
  | .wtArm xd xs1 => Sys2Proof.Machine.execWtArm xd xs1 s
  | .wtOff xs1 => Sys2Proof.Machine.execWtOff xs1 s
  | .celSwap xs1 => Sys2Proof.Machine.execCelSwap xs1 s
  | .heatRd xd xs1 => Sys2Proof.Machine.execHeatRd xd xs1 s
  | .cmpStat xd xs1 => Sys2Proof.Machine.execCmpStat xd xs1 s
  | .qSave xs1 => Sys2Proof.Machine.execQSave xs1 s
  | .qLoad xs1 => Sys2Proof.Machine.execQLoad xs1 s
  | .replay xs1 => Sys2Proof.Machine.execReplay xs1 s
  | .jobKill xs1 => Sys2Proof.Machine.execJobKill xs1 s
  | .tlbInv xs1 xs2 => Sys2Proof.Machine.execTlbInv xs1 xs2 s
  | .filtSet xs1 xs2 => Sys2Proof.Machine.execFiltSet xs1 xs2 s
  | .calSet xs1 xs2 => Sys2Proof.Machine.execCalSet xs1 xs2 s
  | .atticSet xs1 xs2 => Sys2Proof.Machine.execAtticSet xs1 xs2 s
  | .stRd xd xs1 => Sys2Proof.Machine.execStRd xd xs1 s
  | .logRd xd xs1 => Sys2Proof.Machine.execLogRd xd xs1 s
  | .lifeRd xd xs1 => Sys2Proof.Machine.execLifeRd xd xs1 s
  | .lNop sy => Sys2Proof.Machine.execLNop sy s
  | .lV sy rd lay xa xb => Sys2Proof.Machine.execLV sy rd lay xa xb s
  | .lVs sy rd lay xa xb => Sys2Proof.Machine.execLVs sy rd lay xa xb s
  | .lBc sy rd lay xa xb => Sys2Proof.Machine.execLBc sy rd lay xa xb s
  | .lEl sy rd lay xa xb => Sys2Proof.Machine.execLEl sy rd lay xa xb s
  | .lGat sy rd lay xa xb => Sys2Proof.Machine.execLGat sy rd lay xa xb s
  | .lQ sy lay xa xb => Sys2Proof.Machine.execLQ sy lay xa xb s
  | .lK sy rd lay xa xb => Sys2Proof.Machine.execLK sy rd lay xa xb s
  | .lPf sy lay xa xb => Sys2Proof.Machine.execLPf sy lay xa xb s
  | .lLay sy rd xa xb => Sys2Proof.Machine.execLLay sy rd xa xb s
  | .sNop sy => Sys2Proof.Machine.execSNop sy s
  | .sV sy rd lay xa xb => Sys2Proof.Machine.execSV sy rd lay xa xb s
  | .sVs sy rd lay xa xb => Sys2Proof.Machine.execSVs sy rd lay xa xb s
  | .sRow sy rd lay xa xb => Sys2Proof.Machine.execSRow sy rd lay xa xb s
  | .sSc sy rd lay xa xb => Sys2Proof.Machine.execSSc sy rd lay xa xb s
  | .sK sy rd lay xa xb => Sys2Proof.Machine.execSK sy rd lay xa xb s
  | .sEl sy rd lay xa xb => Sys2Proof.Machine.execSEl sy rd lay xa xb s
  | .sC24 sy rd lay xa xb => Sys2Proof.Machine.execSC24 sy rd lay xa xb s
  | .mNop sy => Sys2Proof.Machine.execMNop sy s
  | .mSet sy rd xa => Sys2Proof.Machine.execMSet sy rd xa s
  | .mSetx sy rd lay xa xb => Sys2Proof.Machine.execMSetx sy rd lay xa xb s
  | .mGo sy xa xb => Sys2Proof.Machine.execMGo sy xa xb s
  | .mClr sy rd => Sys2Proof.Machine.execMClr sy rd s
  | .mRetScratchpad sy z lay xa xb => Sys2Proof.Machine.execMRetScratchpad sy z lay xa xb s
  | .mRetOq sy tgt z xa xb => Sys2Proof.Machine.execMRetOq sy tgt z xa xb s
  | .mGidx sy rd xa xb => Sys2Proof.Machine.execMGidx sy rd xa xb s
  | .mSc sy lay xa xb => Sys2Proof.Machine.execMSc sy lay xa xb s
  | .cNop sy => Sys2Proof.Machine.execCNop sy s
  | .cCopy sy rd lay xa xb => Sys2Proof.Machine.execCCopy sy rd lay xa xb s
  | .cMcast sy rd lay xa xb => Sys2Proof.Machine.execCMcast sy rd lay xa xb s
  | .cPut sy rd lay xa xb => Sys2Proof.Machine.execCPut sy rd lay xa xb s
  | .cFill sy rd lay xa xb => Sys2Proof.Machine.execCFill sy rd lay xa xb s
  | .cScl sy lay xa xb => Sys2Proof.Machine.execCScl sy lay xa xb s
  | .cStrm sy rd lay xa xb => Sys2Proof.Machine.execCStrm sy rd lay xa xb s
  | .cPf sy lay xa xb => Sys2Proof.Machine.execCPf sy lay xa xb s
  | .vNop sy => Sys2Proof.Machine.execVNop sy s
  | .vAddF sy vd va vb k => Sys2Proof.Machine.execVAddF sy vd va vb k s
  | .vSubF sy vd va vb k => Sys2Proof.Machine.execVSubF sy vd va vb k s
  | .vMulF sy vd va vb k => Sys2Proof.Machine.execVMulF sy vd va vb k s
  | .vFmaF sy vd va vb k => Sys2Proof.Machine.execVFmaF sy vd va vb k s
  | .vFmsF sy vd va vb k => Sys2Proof.Machine.execVFmsF sy vd va vb k s
  | .vMinF sy vd va vb k => Sys2Proof.Machine.execVMinF sy vd va vb k s
  | .vMaxF sy vd va vb k => Sys2Proof.Machine.execVMaxF sy vd va vb k s
  | .vAbsF sy vd va k => Sys2Proof.Machine.execVAbsF sy vd va k s
  | .vNegF sy vd va k => Sys2Proof.Machine.execVNegF sy vd va k s
  | .vDivF sy vd va vb k => Sys2Proof.Machine.execVDivF sy vd va vb k s
  | .vSqrtF sy vd va k => Sys2Proof.Machine.execVSqrtF sy vd va k s
  | .vRsqF sy vd va k => Sys2Proof.Machine.execVRsqF sy vd va k s
  | .vRcpF sy vd va k => Sys2Proof.Machine.execVRcpF sy vd va k s
  | .vExp2F sy vd va k => Sys2Proof.Machine.execVExp2F sy vd va k s
  | .vLog2F sy vd va k => Sys2Proof.Machine.execVLog2F sy vd va k s
  | .vTanhF sy vd va k => Sys2Proof.Machine.execVTanhF sy vd va k s
  | .vSgnjF sy vd va vb k => Sys2Proof.Machine.execVSgnjF sy vd va vb k s
  | .vClsF sy vd va k => Sys2Proof.Machine.execVClsF sy vd va k s
  | .vCmpF sy kd va vb c => Sys2Proof.Machine.execVCmpF sy kd va vb c s
  | .vAddI sy vd va vb k => Sys2Proof.Machine.execVAddI sy vd va vb k s
  | .vSubI sy vd va vb k => Sys2Proof.Machine.execVSubI sy vd va vb k s
  | .vMulI sy vd va vb k => Sys2Proof.Machine.execVMulI sy vd va vb k s
  | .vMulhI sy vd va vb k => Sys2Proof.Machine.execVMulhI sy vd va vb k s
  | .vMulhC sy vd va vb k => Sys2Proof.Machine.execVMulhC sy vd va vb k s
  | .vMinI sy vd va vb k => Sys2Proof.Machine.execVMinI sy vd va vb k s
  | .vMaxI sy vd va vb k => Sys2Proof.Machine.execVMaxI sy vd va vb k s
  | .vMinC sy vd va vb k => Sys2Proof.Machine.execVMinC sy vd va vb k s
  | .vMaxC sy vd va vb k => Sys2Proof.Machine.execVMaxC sy vd va vb k s
  | .vAnd sy vd va vb k => Sys2Proof.Machine.execVAnd sy vd va vb k s
  | .vOr sy vd va vb k => Sys2Proof.Machine.execVOr sy vd va vb k s
  | .vXor sy vd va vb k => Sys2Proof.Machine.execVXor sy vd va vb k s
  | .vNot sy vd va k => Sys2Proof.Machine.execVNot sy vd va k s
  | .vShl sy vd va vb k => Sys2Proof.Machine.execVShl sy vd va vb k s
  | .vShr sy vd va vb k => Sys2Proof.Machine.execVShr sy vd va vb k s
  | .vSra sy vd va vb k => Sys2Proof.Machine.execVSra sy vd va vb k s
  | .vPopc sy vd va k => Sys2Proof.Machine.execVPopc sy vd va k s
  | .vClz sy vd va k => Sys2Proof.Machine.execVClz sy vd va k s
  | .vCmpI sy kd va vb c => Sys2Proof.Machine.execVCmpI sy kd va vb c s
  | .vCmpC sy kd va vb c => Sys2Proof.Machine.execVCmpC sy kd va vb c s
  | .vMov sy vd va k => Sys2Proof.Machine.execVMov sy vd va k s
  | .vMovi sy vd imm => Sys2Proof.Machine.execVMovi sy vd imm s
  | .vBcx sy vd xa xb => Sys2Proof.Machine.execVBcx sy vd xa xb s
  | .vIns sy vd xa xb => Sys2Proof.Machine.execVIns sy vd xa xb s
  | .vExt sy va xa xb => Sys2Proof.Machine.execVExt sy va xa xb s
  | .vSel sy vd va vb k => Sys2Proof.Machine.execVSel sy vd va vb k s
  | .vIota sy vd imm => Sys2Proof.Machine.execVIota sy vd imm s
  | .vPerm sy vd va vb k => Sys2Proof.Machine.execVPerm sy vd va vb k s
  | .vRotr sy vd va n => Sys2Proof.Machine.execVRotr sy vd va n s
  | .vRotc sy vd va n => Sys2Proof.Machine.execVRotc sy vd va n s
  | .vBcr sy vd va n => Sys2Proof.Machine.execVBcr sy vd va n s
  | .vBcc sy vd va n => Sys2Proof.Machine.execVBcc sy vd va n s
  | .vRedrF sy vd va op => Sys2Proof.Machine.execVRedrF sy vd va op s
  | .vRedcF sy vd va op => Sys2Proof.Machine.execVRedcF sy vd va op s
  | .vRedrI sy vd va op => Sys2Proof.Machine.execVRedrI sy vd va op s
  | .vRedcI sy vd va op => Sys2Proof.Machine.execVRedcI sy vd va op s
  | .vScnrF sy vd va => Sys2Proof.Machine.execVScnrF sy vd va s
  | .vTr16 sy vd va => Sys2Proof.Machine.execVTr16 sy vd va s
  | .vCvt sy vd va st dt mode => Sys2Proof.Machine.execVCvt sy vd va st dt mode s
  | .vPack sy vd va n => Sys2Proof.Machine.execVPack sy vd va n s
  | .vUnpk sy vd va n => Sys2Proof.Machine.execVUnpk sy vd va n s
  | .vIsect sy kp va vb => Sys2Proof.Machine.execVIsect sy kp va vb s
  | .vC24 sy vd va vm k => Sys2Proof.Machine.execVC24 sy vd va vm k s
  | .vFnd sy va xa xb c => Sys2Proof.Machine.execVFnd sy va xa xb c s
  | .kAnd sy kd ka kb => Sys2Proof.Machine.execKAnd sy kd ka kb s
  | .kOr sy kd ka kb => Sys2Proof.Machine.execKOr sy kd ka kb s
  | .kXor sy kd ka kb => Sys2Proof.Machine.execKXor sy kd ka kb s
  | .kAndn sy kd ka kb => Sys2Proof.Machine.execKAndn sy kd ka kb s
  | .kNot sy kd ka => Sys2Proof.Machine.execKNot sy kd ka s
  | .kMov sy kd ka => Sys2Proof.Machine.execKMov sy kd ka s
  | .kCnt sy vd ka => Sys2Proof.Machine.execKCnt sy vd ka s
  | .wCfg sy w imm => Sys2Proof.Machine.execWCfg sy w imm s
  | .wLen sy w imm => Sys2Proof.Machine.execWLen sy w imm s
  | .wPush sy w va k => Sys2Proof.Machine.execWPush sy w va k s
  | .wRd sy vd w k => Sys2Proof.Machine.execWRd sy vd w k s
  | .wClr sy w => Sys2Proof.Machine.execWClr sy w s
  | .wStat sy w => Sys2Proof.Machine.execWStat sy w s
  | .deviceLaunchPush p => Sys2Proof.Machine.execDeviceLaunchPush p s
  | .winOpenDecision r => Sys2Proof.Machine.execWinOpenDecision r s
  | .watchArmInstall r => Sys2Proof.Machine.execWatchArmInstall r s
  | .watchOffDecision tenant entry => Sys2Proof.Machine.execWatchOffDecision tenant entry s
  | .replayDecision r => Sys2Proof.Machine.execReplayDecision r s
  | .qLoadDone room => Sys2Proof.Machine.execQLoadDone room s
  | .tlbInvDone room => Sys2Proof.Machine.execTlbInvDone room s
  | .calSetStored room unit image => Sys2Proof.Machine.execCalSetStored room unit image s
  | .filtSetApplied room idx image => Sys2Proof.Machine.execFiltSetApplied room idx image s
  | .fetchLineEntry room => Sys2Proof.Machine.execFetchLineEntry room s
  | .reservationExpiry room => Sys2Proof.Machine.execReservationExpiry room s
  | .trap room => Sys2Proof.Machine.execTrap room s
  | .entryIssue room e => Sys2Proof.Machine.execEntryIssue room e s
  | .entryFinish room e => Sys2Proof.Machine.execEntryFinish room e s
  | .entryDeferredPush room e => Sys2Proof.Machine.execEntryDeferredPush room e s
  | .faultRecordWrite src => Sys2Proof.Machine.execFaultRecordWrite src s
  | .streamElementArrival room q => Sys2Proof.Machine.execStreamElementArrival room q s
  | .cqStairPostDelivery room => Sys2Proof.Machine.execCqStairPostDelivery room s
  | .tsigPush room => Sys2Proof.Machine.execTsigPush room s
  | .twaitPop room => Sys2Proof.Machine.execTwaitPop room s
  | .efenceRelease room => Sys2Proof.Machine.execEfenceRelease room s
  | .cqPopTake room => Sys2Proof.Machine.execCqPopTake room s
  | .calWaitRelease room => Sys2Proof.Machine.execCalWaitRelease room s
  | .jobWaitRelease room => Sys2Proof.Machine.execJobWaitRelease room s
  | .fenceVRelease room => Sys2Proof.Machine.execFenceVRelease room s
  | .keyGetGrant room => Sys2Proof.Machine.execKeyGetGrant room s
  | .qSaveDone room => Sys2Proof.Machine.execQSaveDone room s
  | .leaseExpiry holder line => Sys2Proof.Machine.execLeaseExpiry holder line s
  | .monTimeout room => Sys2Proof.Machine.execMonTimeout room s
  | .monOtherWake room => Sys2Proof.Machine.execMonOtherWake room s
  | .keyQuantumExpiry wing slot => Sys2Proof.Machine.execKeyQuantumExpiry wing slot s
  | .keyHandover wing slot => Sys2Proof.Machine.execKeyHandover wing slot s
  | .hostSnoop g => Sys2Proof.Machine.execHostSnoop g s
  | .snoopAnswer granule => Sys2Proof.Machine.execSnoopAnswer granule s
  | .hostCxlMemAccess h => Sys2Proof.Machine.execHostCxlMemAccess h s
  | .linkDown port => Sys2Proof.Machine.execLinkDown port s
  | .linkUp port => Sys2Proof.Machine.execLinkUp port s
  | .castling stair => Sys2Proof.Machine.execCastling stair s
  | .gangStart job => Sys2Proof.Machine.execGangStart job s
  | .iterEndReport room => Sys2Proof.Machine.execIterEndReport room s
  | .jobComplete job => Sys2Proof.Machine.execJobComplete job s
  | .gangResume job => Sys2Proof.Machine.execGangResume job s
  | .cbuRecordRead wing => Sys2Proof.Machine.execCbuRecordRead wing s
  | .cbuPass wing => Sys2Proof.Machine.execCbuPass wing s
  | .batchRelease wing => Sys2Proof.Machine.execBatchRelease wing s
  | .triggerStart entry => Sys2Proof.Machine.execTriggerStart entry s
  | .threadStart room => Sys2Proof.Machine.execThreadStart room s
  | .atticChangeTick stair => Sys2Proof.Machine.execAtticChangeTick stair s
  | .eccCorrected part => Sys2Proof.Machine.execEccCorrected part s
  | .poisonMark site => Sys2Proof.Machine.execPoisonMark site s
  | .partFailure part => Sys2Proof.Machine.execPartFailure part s
  | .lifeRecompute wing hours asOf => Sys2Proof.Machine.execLifeRecompute wing hours asOf s
  | .pcieCompletionTimeout a => Sys2Proof.Machine.execPcieCompletionTimeout a s
  | .wfi => Sys2Proof.Machine.execWfi s
  | .reload => Sys2Proof.Machine.execReload s
  | .migrationSeal => Sys2Proof.Machine.execMigrationSeal s
  | .migrationRelease => Sys2Proof.Machine.execMigrationRelease s
  | .migrationCopied => Sys2Proof.Machine.execMigrationCopied s
  | .zeroFillMark => Sys2Proof.Machine.execZeroFillMark s
  | .zeroFillDone => Sys2Proof.Machine.execZeroFillDone s
  | .admission => Sys2Proof.Machine.execAdmission s
  | .calendarPeriodBoundary => Sys2Proof.Machine.execCalendarPeriodBoundary s
  | .backgroundScrub => Sys2Proof.Machine.execBackgroundScrub s
  | .reset => Sys2Proof.Machine.execReset s
  | .mbReadState => Sys2Proof.Machine.execMbReadState s
  | .mbReadLog => Sys2Proof.Machine.execMbReadLog s
  | .mbSetPackage => Sys2Proof.Machine.execMbSetPackage s
  | .mbWriteReplica => Sys2Proof.Machine.execMbWriteReplica s
  | .mbAttest => Sys2Proof.Machine.execMbAttest s
  | .mbReadIdentity => Sys2Proof.Machine.execMbReadIdentity s
  | .mbCommandDone => Sys2Proof.Machine.execMbCommandDone s
  | .tsig => Sys2Proof.Machine.execTsig s
  | .twait => Sys2Proof.Machine.execTwait s
  | .fenceV => Sys2Proof.Machine.execFenceV s
  | .iterEnd => Sys2Proof.Machine.execIterEnd s
  | .cbClose => Sys2Proof.Machine.execCbClose s
  | .wtEnd => Sys2Proof.Machine.execWtEnd s
  | .preemptDeliveryDone => Sys2Proof.Machine.execPreemptDeliveryDone s
  | .roomClaim => Sys2Proof.Machine.execRoomClaim s

end Sys2Proof.Machine
end

