-- ==== Sys2Proof/Machine/Sched.lean ====
section
/-! DEFINITION. What a tick still has to do. A tick runs its phases in order; each phase finds the next thing that is due
and does it, and the tick ends when no phase finds anything.

The phases of a tick: castling and completed jobs; the period boundary; what has arrived (the agenda); admission; entries
under way; finishes; issues; deferred pushes and fault records; releases of held lanes; lanes; the ends of things. A thing
done in an earlier phase is seen by the later ones; what a later phase leaves for an earlier one waits for the next tick. -/

namespace Sys2Proof.Machine

/-- Rooms that are not as at reset, in rising order. -/
def State.roomKeys (s : State) : List Nat := s.rooms.map (·.1)
/-- The first room for which something is due. -/
def State.firstRoom (s : State) (f : Nat → Option Res) : Option Res := s.roomKeys.findSome? f
/-- The first queue of a room for which something is due. -/
def State.firstQueue (s : State) (f : Nat → Eng → Option Res) : Option Res :=
  s.firstRoom fun r => allEng.findSome? fun e => f r e
/-- Something due, when a condition holds. -/
def due (c : Bool) (r : Res) : Option Res := if c then some r else none

/-! ## The phases -/

/-- The exchange of a stair's halves, and jobs that are complete (R222, R243). -/
def dueStart (s : State) : Option Res :=
  ((s.stairs.map (·.1)).findSome? fun i => due (s.swapDue i) (execCastling i s)).or
    (s.hall.jobs.findSome? fun j => due (s.owes j || s.completes j) (execJobComplete j.handle s))
/-- A batch that can become current does so at once (R226). -/
def dueRelease (s : State) : Option Res :=
  (List.range 4).findSome? fun w => match (s.wing w).cbu with
    | some c => due c.releases (execBatchRelease w s) | none => none
/-- A message of the data class that crosses a stair bus: an access to an attic portion, or a shadow write (R201, R245). -/
def stairMsg (i : Instr) : Option MemMsg :=
  match i with
  | .loadAtHome m | .storeAtHome m =>
    if crossesStair i && m.room < 256 && m.parts.any fun p => match p.place with | .attic _ | .shadow _ => true | _ => false
    then some m else none
  | _ => none
/-- A message waits at the stair bus for a slot of its tenant, under the table in force, and those of its room and class that come
behind it keep their order, one at a landing (R201, R245, R246). -/
def stairWaits (s : State) (i : Instr) (m : MemMsg) : State :=
  let same (a : Nat × Instr) : Bool := match stairMsg a.2 with | some n => decide (n.room = m.room ∧ n.who = m.who) | none => false
  let l := (s.tick, i) :: s.agenda.filter same
  let first := landing m.room (s.serveTick (calUnit 2 (stairOf m.room)) m.tenant s.tick)
  let (s, next) := l.foldl (fun (a : State × Nat) e => (a.1.schedule (max e.1 a.2) e.2, max e.1 a.2 + 16))
    ({ s with agenda := s.agenda.filter fun a => !same a }, first)
  let c := (dataClass m.who).num
  s.modRoom m.room fun x => { x with lastDue := tset 0 x.lastDue c (max (tget 0 x.lastDue c) (next - 16)) }
/-- The stair bus does not serve the tenant of a message now (R245). -/
def stairShut (s : State) (m : MemMsg) : Bool := !s.mayServe (calUnit 2 (stairOf m.room)) m.tenant s.tick
/-- An item of the agenda is done: a request that reaches an MSAU joins its queue, and data waits for its slot at the stair bus. -/
def doItem (i : Instr) (s : State) : Res :=
  match msauAt i, stairMsg i with
  | some u, _ => .next (s.msauHold u i)
  | none, some m => if stairShut s m then .next (stairWaits s i m) else exec i s
  | none, none => exec i s
/-- The lowest channel of the compressed pages that a store writes. -/
def cmpChannel (s : State) (i : Instr) : Option Nat :=
  let low (m : MemMsg) : Option Nat :=
    ((m.parts.filter (·.cmp)).map fun p => recordChannel s (keyTenant p.key) (keyMdx p.key)).min?
  match i with
  | .storeAtHome m => low m
  | .putAccept m _ => if m.store then low m else none
  | _ => none
/-- The store that takes the turn of a store into compressed pages: of those of the tick, the first with the lowest channel, so
that they allocate in increasing channel number (R363). -/
def lowestStore (s : State) (u : Nat) (e : Nat × Instr) : Nat × Instr :=
  (s.agenda.foldl (fun (a : Nat × (Nat × Instr)) f =>
    match (if f.1 ≤ s.tick then cmpChannel s f.2 else none) with
    | some v => if v < a.1 then (v, f) else a
    | none => a) (u, e)).2
/-- An MSAU performs the next of its requests that passes a test. -/
def msauTakes (s : State) (ok : Instr → Bool) (u : Nat) : Option Res :=
  match s.msauNext u with
  | some p => due (ok p.1) (exec p.1 { s with msauQ := tset [] s.msauQ u p.2 })
  | none => none
/-- The next request that waits at an MSAU, if it can be performed now; the host is asked for what an atomic waits for (R289,
R297). -/
def dueMsau (s : State) : Option Res :=
  ((s.msauQ.map (·.1)).findSome? (msauTakes s fun _ => true)).or (s.msauAsks.map fun g => .next (s.askBirsp g))
/-- Lines that an item of the agenda stores to. -/
def storeLines : Instr → List Nat
  | .storeAtHome m => m.parts.map fun p => lineOf p.key
  | .msauRequest m | .putAccept m _ => if m.store then m.parts.map fun p => lineOf p.key else []
  | .hostCxlMemAccess h =>
    if h.store then (List.range (lineOf (h.key + h.bytes.length) - lineOf h.key + 1)).map (lineOf h.key + ·) else []
  | _ => []
/-- The atomic, or the store of an SC, that its MSAU performs next, and that comes before a store to its line in the order of the
tick (R268). -/
def dueAtomic (s : State) (i : Instr) : Option Res :=
  let l := storeLines i
  let ok (j : Instr) : Bool := match j with
    | .msauAtomic a => l.contains (lineOf a.part.key) && decide (orderKey j < orderKey i) | _ => false
  if s.msauQ = [] then none else ((l.map fun n => channel (128 * n)).eraseDups).findSome? (msauTakes s ok)
/-- The first item of the agenda, if it is due and comes before a place in the order of its tick: the requests of the tick have
joined their MSAU, and an atomic comes before a later store to its line (R268). -/
def dueItem (before : Nat) (s : State) : Option Res :=
  match s.agenda with
  | (t, i) :: _ =>
    let e := match cmpChannel s i with | some u => lowestStore s u (t, i) | none => (t, i)
    let joins := s.agenda.find? fun a => decide (a.1 ≤ s.tick) && (msauAt a.2).isSome
    if t ≤ s.tick ∧ orderKey i < before then
      some (match joins with
        | some a => doItem a.2 { s with agenda := s.agenda.erase a }
        | none => (dueAtomic s e.2).getD (doItem e.2 { s with agenda := s.agenda.erase e }))
    else none
  | [] => none
/-- What arrives in this tick: the MSAUs take their requests once those of the tick have reached them, behind the entries that are
armed in it (R262, R268), and before leases are granted. -/
def dueArrival (s : State) : Option Res := (dueRelease s).or ((dueItem 5500 s).or ((dueMsau s).or (dueItem 10000 s)))
/-- Something that a tick does once: the phase is over with it. -/
def once (c : State → Bool) (f : State → Res) (s : State) : Option Res := due (c s) (f { s with phase := s.phase + 1 })
/-- Interrupt 18 will be taken in this tick: the M engine stops with it (R348). -/
def takes18 (s : State) (r : Nat) : Bool :=
  match trapTaken s r with | some t => t.int && decide (t.code = 18) && !(s.room r).mStops | none => false
def dueM18 (s : State) : Option Res :=
  s.firstRoom fun r => due (takes18 s r) (.next (s.modRoom r fun x => { x with mSoon := true }))
/-- An entry under way takes its next step. -/
def dueAct (s : State) : Option Res :=
  s.firstQueue fun r e => if e = .c ∧ s.cohFull r then none else
    ((s.room r).acting e s.tick).map fun n => exec n.instr { s with act := .entry e, turn := r }
/-- An entry finishes (R16). -/
def dueFinish (s : State) : Option Res := s.firstQueue fun r e => due (finishing s r e).isSome (execEntryFinish r e s)
/-- An entry issues, or faults at the head (R32, R66). -/
def dueIssue (s : State) : Option Res := s.firstQueue fun r e => due (issueOf s r e).isSome (execEntryIssue r e s)
/-- A finished entry pushes (R33). -/
def duePush (s : State) : Option Res := s.firstQueue fun r e => due (deferred s r e).isSome (execEntryDeferredPush r e s)
/-- Sources of fault records: entries, streams, CBUs, watch entries. -/
def faultSources (s : State) : List FaultSrc :=
  (s.roomKeys.flatMap fun r => (allEng.map fun e => FaultSrc.entry r e) ++
    ((s.room r).iq.filter fun q => q.2.stream.isSome).map fun q => FaultSrc.stream r q.1) ++
  (List.range 4).map FaultSrc.cbu ++
  ((s.hall.disarmed.map fun e => (e.1, some e.2)) ++ s.hall.watch).filterMap fun e => match e.2 with
    | some w => w.runaway.map fun u => FaultSrc.watch e.1 u.1 u.2.1 u.2.2 | none => none
/-- The sources of faults to be recorded, in the order of the faults: those of earlier ticks first. -/
def faultOrder (s : State) : List FaultSrc :=
  let waits (x : FaultSrc) : Bool := (unrecorded s x).isSome
  let old := s.hall.faultOrder.filter waits
  old ++ (faultSources s).filter fun x => waits x && !old.contains x
/-- The order of the faults is noted, and then the first of them for which its wing has a place is recorded (R340). -/
def dueRecord (s : State) : Option Res :=
  let l := faultOrder s
  (due (l ≠ s.hall.faultOrder) (.next (s.modHall fun h => { h with faultOrder := l }))).or
    (l.findSome? fun x => due (recordFault s x).isSome (execFaultRecordWrite x s))

/-- The release of a held lane, or the end of a wait of the control core. The withdrawal of a held `cb.pull` arrives at the CBU a tick
after its room sends it (DESIGN CHOICE, log entry 74). -/
def releaseOf (s : State) (r : Nat) : Option Res :=
  let x := s.room r
  if (trapNow s r).isSome ∧ x.deferred ≠ 0 then none
  else match x.hold with
  | .none | .answer _ | .barWait _ | .keyPass _ _ | .iterEnd | .qSave _ _ _ _ _ | .qLoad | .tlbInv _ _ | .filtSet | .calSet
  | .attic _ | .fenceI => none
  | .tsig => due x.tsigPushes (execTsigPush r s)
  | .twait => due x.twaitPops (execTwaitPop r s)
  | .efence _ _ _ _ _ => due x.efenceDone (execEfenceRelease r s)
  | .cqPop _ => due (x.cqOldest s.tick).isSome (execCqPopTake r s)
  | .calWait next => due (decide (next ≤ s.tick)) (execCalWaitRelease r s)
  | .jobWait h => due (s.job? h).isNone (execJobWaitRelease r s)
  | .fenceV => due (x.visible s.tick || s.buffers r) (execFenceVRelease r s)
  | .keyGet w slot =>
    due ((s.wing w).keys.any fun k => k.slot = slot && decide (k.holder = some r) && k.passing.isNone) (execKeyGetGrant r s)
  | .monWait _ since =>
    match x.mon with
    | some m =>
      (due (monLeaseOver s r) (execLeaseExpiry (coreHolder r) m.line s)).or
        ((due (decide (since + 4096 ≤ s.tick)) (execMonTimeout r s)).or
          (due (!m.home && decide (since + 256 ≤ s.tick)) (execMonOtherWake r s)))
    | none => none
  | .cbPull id left =>
    due (!left && (trapDue s r).isSome)
      (.next ((s.modRoom r fun x => { x with hold := .cbPull id true }).schedule (s.tick + 1) (.cbPullWithdraw r)))
  | .wfi => due (wfiEnds s r && (trapTaken s r).isNone) (.next (s.modRoom r fun x => x.retire s.tick))
  | .thread _ _ => due (x.threadDue s.tick) (execThreadStart r s)
def dueHeld (s : State) : Option Res := s.firstRoom (releaseOf s)

/-- An access of a room's control core waits at the bridge for a granule: dispatch is held (R296). -/
def State.atBridge (s : State) (r : Nat) : Bool :=
  (s.waiting.any fun m => m.room = r && m.who = .core) || s.waitAtom.any fun a => a.room = r
/-- The control core of a room may take its next lane. -/
def State.laneDue (s : State) (r : Nat) : Bool :=
  let x := s.room r
  x.hold = .none && decide (x.nextDispatch ≤ s.tick) && s.mayStart r && !s.atBridge r &&
    (match s.detect with | some f => decide (s.tick ≤ f) | none => true)
/-- The lane at the pc of a room (R9, R18 to R20, R65): an empty lane is passed over, a reserved code and a lane that is not
assigned trap, and any other lane has its meaning. -/
def runLane (s : State) (r : Nat) : Res :=
  let s := { s with turn := r, act := .lane }
  let x := s.me
  if x.curCode = 0 then .next (s.modMe fun x => { x with pc := nextPc x.pc })
  else if 7 ≤ x.curCode then .next (s.devExc 12 (0#32 ++ laneWord x.lineBits 0))
  else match decodeLane x.curCode x.curWord with
    | some i => exec i s
    | none => .next (if x.curCode = 1 then s.illegal else s.illegalOp)
/-- A trap at a lane boundary, the entry of a line, or a lane. While a trap waits for deferred answers nothing dispatches. -/
def laneOrTrap (s : State) (r : Nat) : Option Res :=
  if (trapTaken s r).isSome then some (execTrap r s)
  else if (trapNow s r).isSome then none
  else if s.laneDue r then some (if (s.room r).inLine then runLane s r else execFetchLineEntry r s)
  else none
def dueLane (s : State) : Option Res := s.firstRoom (laneOrTrap s)

/-- Elements of streams, posts, keys, snoops, leases, the attic and the CBU. -/
def dueUnits (s : State) : Option Res :=
  (s.firstRoom fun r => ((s.room r).iq.map (·.1)).findSome? fun q =>
    due ((s.room r).streamReady q s.tick) (execStreamElementArrival r q s)).or <|
  (s.firstRoom fun r => due ((s.room r).posts ≠ [] && decide (0 < (s.room r).cqFree)) (execCqStairPostDelivery r s)).or <|
  ((List.range 4).findSome? fun w => (s.wing w).keys.findSome? fun k =>
    (due (k.expired s.tick) (execKeyQuantumExpiry w k.slot s)).or (due (k.handsOver s.tick) (execKeyHandover w k.slot s))).or <|
  (s.snoops.findSome? fun g => due (s.leasesOver g) (execSnoopAnswer g s)).or <|
  (s.firstRoom fun r => due (match (s.room r).resv with | some v => decide (v.till < s.tick) | none => false)
    (execReservationExpiry r s)).or <|
  (s.copies.findSome? fun c => let h := c.1 / 2 ^ 52; let l := c.1 % 2 ^ 52
                              due (s.copyOver h l) (execLeaseExpiry h l s)).or <|
  ((s.stairs.map (·.1)).findSome? fun i => due (s.atticDue i) (execAtticChangeTick i s)).or <|
  (List.range 4).findSome? fun w => match (s.wing w).cbu with
    | some c => (due (c.reads s.tick) (execCbuRecordRead w s)).or (due (c.passDue s.tick) (execCbuPass w s))
    | none => none
/-- The start of a job that holds claimed rooms. -/
def startOf (s : State) (j : Job) : Option Res :=
  (due (s.gangPlace j.handle).isSome (execGangStart j.handle s)).or <|
  (due (s.resumePlace j.handle).isSome (execGangResume j.handle s)).or <|
  match j.watch with
  | some i => due (s.triggered i && (s.claimed j.handle).isSome && j.parked = []) (execTriggerStart i s)
  | none => none
/-- Gangs that start, and claims of the walker (R238, R239, R242). -/
def dueWalker (s : State) : Option Res :=
  (s.hall.jobs.findSome? fun j =>
    if s.rooms.any fun e => e.2.claim = some j.handle then startOf s j else none).or
    (due s.nextClaim.isSome (execRoomClaim s))
/-- Iterations that are reported, and contexts that are saved (R47, R344). -/
def dueEnd (s : State) : Option Res :=
  (due (s.ending ≠ []) (.next s.endKilled)).or <|
  (s.firstRoom fun r =>
    let x := s.room r
    due (s.reports r && (x.dying.isSome || !x.vhzPend || s.buffers r)) (execIterEndReport r s)).or
  (s.firstRoom fun r => due (s.saveDue r) (execQSaveDone r s))

/-! ## The tick -/

/-- The phases in order. Arrivals come before whatever is left of every phase from the third on. -/
def phases : List (State → Option Res) :=
  [ dueStart, once (fun s => decide (s.tick % 4096 = 0)) execCalendarPeriodBoundary, dueArrival,
    fun s => (dueArrival s).or (once (fun s => decide (s.tick % 64 = 0)) execAdmission s),
    fun s => (dueArrival s).or ((dueM18 s).or (dueAct s)),
    fun s => (dueArrival s).or (dueFinish s),
    fun s => (dueArrival s).or ((dueAct s).or (dueIssue s)),
    fun s => (dueArrival s).or ((duePush s).or (dueRecord s)),
    fun s => (dueArrival s).or (dueHeld s),
    fun s => (dueArrival s).or (dueLane s),
    fun s => (dueArrival s).or ((duePush s).or ((dueUnits s).or ((dueItem 30000 s).or ((dueWalker s).or (dueEnd s))))) ]
/-- The phase in which lanes dispatch. -/
def lanePhase : Nat := 9
/-- The first phase, from a number on, that finds something to do. -/
def firstDue (s : State) : List (State → Option Res) → Nat → Option Res
  | [], _ => none
  | f :: l, k => match f { s with phase := k } with
    | some r => some r
    | none => firstDue s l (k + 1)

/-- The ageing predictions of the wings are recomputed in the next tick (R387). -/
def State.recomputeLife (s : State) : State :=
  (List.range 4).foldl (fun s w => (s.schedule (s.tick + 1) (.lifeRecompute w (Config.lifeHours w s.fresh) s.tick)).bump) s
/-- The tick is over: pushes and flags of the tick are seen from the next one on, and claims lapse with their slot (R34, R109,
R242). -/
def nextTick (s : State) : State :=
  let commit (e : Nat × Room) : Nat × Room := (e.1, { e.2.commitTokens.commitFlags with mSoon := false })
  let s : State := State.takeMisses { s with rooms := s.rooms.map commit }
  let s : State := s.modHall fun h => { h with watch := h.watch.map fun e => (e.1, e.2.map WEntry.settle) }
  let s := if (s.tick + 1) % 64 = 0 then s.lapseClaims else s
  let s := if (s.tick + 1) % 2 ^ 32 = 0 then s.recomputeLife else s
  State.noteOver { s with tick := s.tick + 1, phase := 0 }

/-- What the machine does next: the rest of its tick, or the next tick. -/
def runTick (s : State) : Res := (firstDue s (phases.drop s.phase) s.phase).getD (.next (nextTick s))
/-- Bring-up, with the management interface beside it (R396, R398). -/
def runBoot (s : State) : Res :=
  match s.bootItem with
  | some e => if e.1 ≤ s.tick then doItem e.2 { s with agenda := s.agenda.erase e } else .next (bootNext s)
  | none => .next (bootNext s)

/-! ## Placing an instruction -/

/-- The iteration under which `withFetchWord` runs an instruction. -/
def fetchRun : Run :=
  { job := 0, ord := 0, gang := 0, tenant := 0, prio := 0, vregs := 24, wrows := 1024, scratch := 0x400000, thread := none,
    depth := 0 }
/-- The line that holds a word in lane 1, under its engine code. -/
def fetchLine (v : W32) : BitVec 256 := 0#192 ++ v ++ BitVec.ofNat 32 (0xA + 16 * tableCode v)
/-- The package has come up and room 0 runs an iteration at the lane that holds the word. -/
def placeWord (s : State) (v : W32) : State :=
  let s := { s with boot := 6, bootStop := false, outOfService := false, detect := none, agenda := [], phase := lanePhase, act := .lane,
                    turn := 0 }
  let b := fetchLine v
  let x := s.room 0
  let y : Room := { x with run := some fetchRun, pc := 4, line := some (0, b), nextDispatch := s.tick, hold := .none,
                           outs := [], misuse := [], dying := none }
  (s.write 0 32 b.toNat).setRoom 0 y

end Sys2Proof.Machine
end

