-- ==== Sys2Proof/Machine/Step.lean ====
section
/-! DEFINITION. One step of the KH-1: the next thing that its tick has to do. -/

namespace Sys2Proof.Machine

/-- One step. A package that is out of service stays so (R392); during bring-up only the management interface is served
(R396). -/
def step (s : State) : Host.Outcome State Fault Refusal :=
  if s.outOfService then .fault .outOfService
  else if s.boot < 6 then runBoot s
  else runTick s

/-- The state with an instruction where the next lane is fetched. -/
def State.withFetchWord (s : State) (nbits w : Nat) : State := placeWord s (BitVec.ofNat 32 (w % 2 ^ nbits))

end Sys2Proof.Machine
end

