-- ==== Sys2Proof/Safety.lean ====
section
/-! DEFINITION. The terms in which claims about the machine are stated: the invariant that every step keeps, when a lane
comes next, when an entry acts, and what lies outside a room. -/

namespace Sys2Proof.Machine

/-- The canonical form of memory, which every step keeps. -/
def State.Inv (s : State) : Prop := s.mem.wf = true

/-- A run is safe when every state that it reaches keeps the canonical form and no step faults or refuses. -/
def SafeFor (k : Nat) (s : State) : Prop := ∃ t, Sys2Proof.core.run k s = .next t ∧ t.Inv

/-- A lane of the acting room that reads and writes these registers dispatches: none of them waits for an answer, and those
that it reads can be read (R9, R77, R88). -/
def State.Free (s : State) (reads writes : List Reg) : Prop :=
  s.me.pendingAny ((reads ++ writes).map (·.toNat)) = false ∧ s.me.lateAny s.tick (reads.map (·.toNat)) = false

/-- The control core of room r comes next: the package is up, its tick has reached the lanes, nothing arrives, no earlier
room has a lane or a trap, and the room's next lane is due in the line it is in. -/
structure LaneComesNext (s : State) (r : Nat) : Prop where
  up     : s.outOfService = false
  booted : s.boot = 6
  phase  : s.phase = lanePhase
  quiet  : dueArrival s = none
  first  : ∃ before after, s.roomKeys = before ++ r :: after ∧ ∀ q ∈ before, laneOrTrap s q = none
  noTrap : trapNow s r = none
  due    : s.laneDue r = true
  inLine : (s.room r).inLine = true

/-- An entry of an engine of the acting room takes a step. -/
def Acts (s : State) (e : Eng) (n : Entry) : Prop := s.act = .entry e ∧ s.me.acting e s.tick = some n

/-- Every block of the second tier reads as the entry that maps it names it: no access moves its bytes (R299). -/
def State.TierSettled (s : State) : Prop :=
  ∀ b, tierStore (tget 0 s.hall.tierMap b) = tierStore (tierEntry s (0xC000000000000 + 2 ^ 30 * b))

/-- The state outside the rooms. -/
def State.outside (s : State) : State := { s with rooms := [] }

/-- Element p of a tile as a dense list gives it. -/
def elemAt (t : Tile) (p : Nat) : W32 := (elems t).getD p 0
/-- Bit p of a mask (R97). -/
def maskAt (m : Mask) (p : Nat) : Bool := (maskBits m).getD p false

/-- A list holds f p in every element p that a mask governs, 0 in the others, and `fl` collects the flags that the
governed elements raise (R98, R109). -/
def Governed (m : Mask) (f : Nat → W32 × Nat) (l : List W32) (fl : Nat) : Prop :=
  l.length = 1024 ∧ (∀ p, p < 1024 → l.getD p 0 = if maskAt m p then (f p).1 else 0) ∧
    fl = (List.range 1024).foldr (fun p a => (if maskAt m p then (f p).2 else 0) ||| a) 0

end Sys2Proof.Machine
end

