-- ==== Sys2Proof/Certificates/Slice0/Obligations.lean ====
section
/-! DEFINITION. The statements for the provers. -/

open Sys2Proof Sys2Proof.Machine Host

/-! ## The vector engine -/

namespace Sys2Proof.Machine

/-- Source, destination, mask and operation of the one-operand lanes of the vector engine (R112, R113, R146, R147, R149,
R151, R164, R165). -/
def vOne : Instr → Option (Reg × Reg × BitVec 3 × (W32 → W32 × Nat))
  | .vAbsF _ vd va k => some (vd, va, k, fun a => (a &&& 0x7FFFFFFF#32, 0))
  | .vNegF _ vd va k => some (vd, va, k, fun a => (a ^^^ 0x80000000#32, 0))
  | .vSqrtF _ vd va k => some (vd, va, k, Fp.sqrt32)
  | .vRsqF _ vd va k => some (vd, va, k, Fp.rsq32)
  | .vRcpF _ vd va k => some (vd, va, k, Fp.rcp32)
  | .vExp2F _ vd va k => some (vd, va, k, Fp.exp2_32)
  | .vLog2F _ vd va k => some (vd, va, k, Fp.log2_32)
  | .vTanhF _ vd va k => some (vd, va, k, Fp.tanh32)
  | .vClsF _ vd va k => some (vd, va, k, fun a => (BitVec.ofNat 32 (Fp.classOf Fp.fp32 a.toNat), 0))
  | .vNot _ vd va k => some (vd, va, k, fun a => (~~~a, 0))
  | .vPopc _ vd va k => some (vd, va, k, fun a => (BitVec.ofNat 32 (popCount 32 a.toNat), 0))
  | .vClz _ vd va k => some (vd, va, k, fun a => (BitVec.ofNat 32 (leadingZeros 32 a.toNat), 0))
  | .vMov _ vd va k => some (vd, va, k, fun a => (a, 0))
  | .vCvt _ vd va st dt mode => some (vd, va, 0, Fp.convert (fmtTy st.toNat) (fmtTy dt.toNat) mode.toNat)
  | .vUnpk _ vd va n => some (vd, va, 0, fun a => ((a >>> (8 * (n.toNat % 4))) &&& 0xFF#32, 0))
  | _ => none

/-- The two-operand lanes of the vector engine (R110, R144, R147, R149). -/
def vTwo : Instr → Option (Reg × Reg × Reg × BitVec 3 × (W32 → W32 → W32 × Nat))
  | .vAddF _ vd va vb k => some (vd, va, vb, k, Fp.add32)
  | .vSubF _ vd va vb k => some (vd, va, vb, k, Fp.sub32)
  | .vMulF _ vd va vb k => some (vd, va, vb, k, Fp.mul32)
  | .vDivF _ vd va vb k => some (vd, va, vb, k, Fp.div32)
  | .vMinF _ vd va vb k => some (vd, va, vb, k, Fp.min32)
  | .vMaxF _ vd va vb k => some (vd, va, vb, k, Fp.max32)
  | .vSgnjF _ vd va vb k => some (vd, va, vb, k, fun a b => ((a &&& 0x7FFFFFFF#32) ||| (b &&& 0x80000000#32), 0))
  | .vAddI _ vd va vb k => some (vd, va, vb, k, fun a b => (a + b, 0))
  | .vSubI _ vd va vb k => some (vd, va, vb, k, fun a b => (a - b, 0))
  | .vMulI _ vd va vb k => some (vd, va, vb, k, fun a b => (BitVec.ofInt 32 (a.toInt * b.toInt), 0))
  | .vMulhI _ vd va vb k => some (vd, va, vb, k, fun a b => (BitVec.ofInt 32 (a.toInt * b.toInt / 2 ^ 32), 0))
  | .vMulhC _ vd va vb k => some (vd, va, vb, k, fun a b => (BitVec.ofNat 32 (a.toNat * b.toNat / 2 ^ 32), 0))
  | .vMinI _ vd va vb k => some (vd, va, vb, k, fun a b => (BitVec.ofInt 32 (min a.toInt b.toInt), 0))
  | .vMaxI _ vd va vb k => some (vd, va, vb, k, fun a b => (BitVec.ofInt 32 (max a.toInt b.toInt), 0))
  | .vMinC _ vd va vb k => some (vd, va, vb, k, fun a b => (BitVec.ofNat 32 (min a.toNat b.toNat), 0))
  | .vMaxC _ vd va vb k => some (vd, va, vb, k, fun a b => (BitVec.ofNat 32 (max a.toNat b.toNat), 0))
  | .vAnd _ vd va vb k => some (vd, va, vb, k, fun a b => (a &&& b, 0))
  | .vOr _ vd va vb k => some (vd, va, vb, k, fun a b => (a ||| b, 0))
  | .vXor _ vd va vb k => some (vd, va, vb, k, fun a b => (a ^^^ b, 0))
  | .vShl _ vd va vb k => some (vd, va, vb, k, fun a b => (BitVec.ofNat 32 (a.toNat * 2 ^ (b.toNat % 32)), 0))
  | .vShr _ vd va vb k => some (vd, va, vb, k, fun a b => (BitVec.ofNat 32 (a.toNat / 2 ^ (b.toNat % 32)), 0))
  | .vSra _ vd va vb k => some (vd, va, vb, k, fun a b => (BitVec.ofInt 32 (a.toInt / 2 ^ (b.toNat % 32)), 0))
  | _ => none

/-- The lanes that also read their destination: fused multiply-add and subtract, and the packing of a byte (R145, R165). -/
def vThree : Instr → Option (Reg × Reg × Reg × BitVec 3 × (W32 → W32 → W32 → W32 × Nat))
  | .vFmaF _ vd va vb k => some (vd, va, vb, k, Fp.fma32)
  | .vFmsF _ vd va vb k => some (vd, va, vb, k, fms)
  | .vPack _ vd va n => some (vd, va, va, 0, fun a _ d =>
      ((d &&& ~~~(0xFF#32 <<< (8 * (n.toNat % 4)))) ||| ((a &&& 0xFF#32) <<< (8 * (n.toNat % 4))), 0))
  | _ => none

/-- The compares (R148, R150): the truth of each element, and its flags. -/
def vCond : Instr → Option (Reg × Reg × Reg × (W32 → W32 → Bool × Nat))
  | .vCmpF _ kd va vb c => some (kd, va, vb, fpCond c.toNat)
  | .vCmpI _ kd va vb c => some (kd, va, vb, fun a b =>
      (match c.toNat with
       | 0 => decide (a = b) | 1 => decide (a ≠ b) | 2 => decide (a.toInt < b.toInt) | 3 => decide (a.toInt ≤ b.toInt)
       | 4 => decide (b.toInt < a.toInt) | _ => decide (b.toInt ≤ a.toInt), 0))
  | .vCmpC _ kd va vb c => some (kd, va, vb, fun a b =>
      (match c.toNat with
       | 0 => decide (a = b) | 1 => decide (a ≠ b) | 2 => decide (a.toNat < b.toNat) | 3 => decide (a.toNat ≤ b.toNat)
       | 4 => decide (b.toNat < a.toNat) | _ => decide (b.toNat ≤ a.toNat), 0))
  | _ => none

/-- The mask logic (R156): destination, and the word of each row. -/
def kLogic : Instr → Option (Reg × Reg × Reg × (W64 → W64 → W64))
  | .kAnd _ kd ka kb => some (kd, ka, kb, fun a b => a &&& b)
  | .kOr _ kd ka kb => some (kd, ka, kb, fun a b => a ||| b)
  | .kXor _ kd ka kb => some (kd, ka, kb, fun a b => a ^^^ b)
  | .kAndn _ kd ka kb => some (kd, ka, kb, fun a b => a &&& ~~~b)
  | .kNot _ kd ka => some (kd, ka, ka, fun a _ => ~~~a)
  | .kMov _ kd ka => some (kd, ka, ka, fun a _ => a)
  | _ => none

/-- The lanes that write every element of a destination with a value that its row i and column j give (R151, R152, R154 to
R156, R159, R160, R163); `src r i j` reads element (i, j) of source register r, `bit k i j` a mask bit. -/
def vWhole (n : Entry) (src : Reg → Nat → Nat → W32) (bit : BitVec 3 → Nat → Nat → Bool) :
    Instr → Option (Reg × (Nat → Nat → W32))
  | .vMovi _ vd imm => some (vd, fun _ _ => imm.signExtend 32)
  | .vIota _ vd imm => some (vd, fun i j => imm.signExtend 32 + BitVec.ofNat 32 (64 * i + j))
  | .vBcx _ vd _ _ => some (vd, fun i j => n.xa.setWidth 32 + BitVec.ofNat 32 (64 * i + j) * n.xb.setWidth 32)
  | .vSel _ vd va vb k => some (vd, fun i j => if bit k i j then src va i j else src vb i j)
  | .vRotr _ vd va c => some (vd, fun i j => src va i ((j + 64 - c.toNat) % 64))
  | .vRotc _ vd va c => some (vd, fun i j => src va ((i + 16 - c.toNat % 16) % 16) j)
  | .vBcr _ vd va c => some (vd, fun i _ => src va i c.toNat)
  | .vBcc _ vd va c => some (vd, fun _ j => src va (c.toNat % 16) j)
  | .vTr16 _ vd va => some (vd, fun i j => src va (j % 16) (16 * (j / 16) + i))
  | .kCnt _ vd ka => some (vd, fun i _ => BitVec.ofNat 32 ((List.range 64).countP fun j => bit (ka.setWidth 3) i j))
  | _ => none

/-- The reductions and the scan (R111, R161, R162): every element of row i, or of column j, is the value of the tree over
that row or column; element (i, j) of a scan is the prefix sum of the row. -/
def vFold (rows : List (List W32)) : Instr → Option (Reg × (Nat → Nat → W32))
  | .vRedrF _ vd _ op => some (vd, fun i _ => (tree (redOp true op) 6 (rows.getD i [])).1)
  | .vRedcF _ vd _ op => some (vd, fun _ j => (tree (redOp true op) 4 (rows.map fun r => r.getD j 0)).1)
  | .vRedrI _ vd _ op => some (vd, fun i _ =>
      if op = 0 then (rows.getD i []).foldl (· + ·) 0 else (tree (redOp false op) 6 (rows.getD i [])).1)
  | .vRedcI _ vd _ op => some (vd, fun _ j =>
      if op = 0 then (rows.map fun r => r.getD j 0).foldl (· + ·) 0
      else (tree (redOp false op) 4 (rows.map fun r => r.getD j 0)).1)
  | .vScnrF _ vd _ => some (vd, fun i j => (scanRow (rows.getD i [])).1.getD j 0)
  | _ => none
/-- The flags of a reduction or scan: those of its additions, maxima or minima; integer ones raise none. -/
def foldFlags (rows : List (List W32)) : Instr → Nat
  | .vRedrF _ _ _ op => (rows.map (tree (redOp true op) 6)).foldl (fun f r => f ||| r.2) 0
  | .vRedcF _ _ _ op => ((columns 64 rows).map (tree (redOp true op) 4)).foldl (fun f r => f ||| r.2) 0
  | .vScnrF _ _ _ => (rows.map scanRow).foldl (fun f r => f ||| r.2) 0
  | _ => 0
/-- The rows of a source as lists. -/
def srcMatrix (x : Room) (n : Entry) (r : Reg) : List (List W32) :=
  (List.range 16).map fun a => (List.range 64).map fun b => elemAt (srcTile x n r) (64 * a + b)
/-- The source register of a reduction or scan. -/
def foldSrc : Instr → Reg
  | .vRedrF _ _ va _ | .vRedcF _ _ va _ | .vRedrI _ _ va _ | .vRedcI _ _ va _ | .vScnrF _ _ va => va
  | _ => 0

end Sys2Proof.Machine

/-- R98, R143 to R147, R149, R165: an entry of an elementwise lane with one, two or three operands that takes its step computes its
operation on every element that its mask governs, raises only their flags, and finishes its latency later; nothing else changes
but the tick from which V may issue again. Completes, as exec (the form) s = .next (its own effect): vAbsF, vNegF, vSqrtF,
vRsqF, vRcpF, vExp2F, vLog2F, vTanhF, vClsF, vNot, vPopc, vClz, vMov, vCvt, vUnpk, vAddF, vSubF, vMulF, vDivF, vMinF, vMaxF,
vSgnjF, vAddI, vSubI, vMulI, vMulhI, vMulhC, vMinI, vMaxI, vMinC, vMaxC, vAnd, vOr, vXor, vShl, vShr, vSra, vFmaF, vFmsF, vPack.
The model's choices in it: log entries 24, 26, 66. -/
def Obligations.VectorElementwise : Prop :=
  (∀ (i : Instr) (s : State) (n : Entry) (vd va : Reg) (k : BitVec 3) (op : W32 → W32 × Nat),
    vOne i = some (vd, va, k, op) → Acts s .v n →
    ∃ lane l fl, laneOf i = some lane ∧
      Governed (s.me.getK k.toNat) (fun p => op (elemAt (srcTile s.me n va) p)) l fl ∧
      exec i s = .next (vAct lane { effs := [destEff vd (s.me.getK k.toNat) l], flags := fl } n { s with act := .lane })) ∧
  (∀ (i : Instr) (s : State) (n : Entry) (vd va vb : Reg) (k : BitVec 3) (op : W32 → W32 → W32 × Nat),
    vTwo i = some (vd, va, vb, k, op) → Acts s .v n →
    ∃ lane l fl, laneOf i = some lane ∧
      Governed (s.me.getK k.toNat) (fun p => op (elemAt (srcTile s.me n va) p) (elemAt (srcTile s.me n vb) p)) l fl ∧
      exec i s = .next (vAct lane { effs := [destEff vd (s.me.getK k.toNat) l], flags := fl } n { s with act := .lane })) ∧
  (∀ (i : Instr) (s : State) (n : Entry) (vd va vb : Reg) (k : BitVec 3) (op : W32 → W32 → W32 → W32 × Nat),
    vThree i = some (vd, va, vb, k, op) → Acts s .v n →
    ∃ lane l fl, laneOf i = some lane ∧
      Governed (s.me.getK k.toNat) (fun p =>
        op (elemAt (srcTile s.me n va) p) (elemAt (srcTile s.me n vb) p) (elemAt (srcTile s.me n vd) p)) l fl ∧
      exec i s = .next (vAct lane { effs := [destEff vd (s.me.getK k.toNat) l], flags := fl } n { s with act := .lane }))

/-- R148, R150 to R152, R154 to R156, R159, R160, R163: a compare writes every bit of its mask register with the truth of its
element; mask logic writes all 16 rows; the lanes that write every element of their destination write element (i, j) with the
value that the rules give it. Completes, as exec (the form) s = .next (its own effect): vCmpF, vCmpI, vCmpC, kAnd, kOr, kXor,
kAndn, kNot, kMov, vMovi, vIota, vBcx, vSel, vRotr, vRotc, vBcr, vBcc, vTr16, kCnt. The model's choices in it: log entry 26. -/
def Obligations.VectorMasksAndWholeDestinations : Prop :=
  ((∀ (i : Instr) (s : State) (n : Entry) (kd va vb : Reg) (op : W32 → W32 → Bool × Nat),
    vCond i = some (kd, va, vb, op) → Acts s .v n →
    ∃ lane m fl, laneOf i = some lane ∧
      (∀ p, p < 1024 → maskAt m p = (op (elemAt (srcTile s.me n va) p) (elemAt (srcTile s.me n vb) p)).1) ∧
      fl = (List.range 1024).foldr
        (fun p a => (op (elemAt (srcTile s.me n va) p) (elemAt (srcTile s.me n vb) p)).2 ||| a) 0 ∧
      exec i s = .next (vAct lane { effs := [.k kd.toNat m], flags := fl } n { s with act := .lane })) ∧
  (∀ (i : Instr) (s : State) (n : Entry) (kd ka kb : Reg) (op : W64 → W64 → W64),
    kLogic i = some (kd, ka, kb, op) → Acts s .v n →
    ∃ lane m, laneOf i = some lane ∧
      (∀ r, r < 16 → maskRow m r = op (maskRow (s.me.getK ka.toNat) r) (maskRow (s.me.getK kb.toNat) r)) ∧
      exec i s = .next (vAct lane { effs := [.k kd.toNat m] } n { s with act := .lane }))) ∧
  (∀ (i : Instr) (s : State) (n : Entry) (vd : Reg) (f : Nat → Nat → W32),
    vWhole n (fun r a b => elemAt (srcTile s.me n r) (64 * a + b)) (fun k a b => maskAt (s.me.getK k.toNat) (64 * a + b)) i
      = some (vd, f) → i.WellFormed = true → Acts s .v n →
    ∃ lane l, laneOf i = some lane ∧ l.length = 1024 ∧
      (∀ a b, a < 16 → b < 64 → l.getD (64 * a + b) 0 = f a b) ∧
      exec i s = .next (vAct lane { effs := [destEff vd fullMask l] } n { s with act := .lane }))

/-- R111, R161, R162: a reduction writes the value of its tree into every element of the row or column, an integer sum being the sum
modulo 2^32; a scan writes the prefix sums. Completes, as exec (the form) s = .next (its own effect): vRedrF, vRedcF, vRedrI,
vRedcI, vScnrF. The model's choices in it: log entry 26. -/
def Obligations.VectorReductions : Prop :=
  ∀ (i : Instr) (s : State) (n : Entry) (vd : Reg) (f : Nat → Nat → W32),
    vFold (srcMatrix s.me n (foldSrc i)) i = some (vd, f) → Acts s .v n →
    ∃ lane l, laneOf i = some lane ∧ l.length = 1024 ∧
      (∀ a b, a < 16 → b < 64 → l.getD (64 * a + b) 0 = f a b) ∧
      exec i s = .next (vAct lane { effs := [destEff vd fullMask l], flags := foldFlags (srcMatrix s.me n (foldSrc i)) i } n
        { s with act := .lane })


namespace Sys2Proof.Machine

/-- Row a of a source. -/
def rowAt (x : Room) (n : Entry) (r : Reg) (a : Nat) : List W32 := (srcMatrix x n r).getD a []
/-- How many non-padding elements of a row do not exceed the smaller of the last non-padding elements of two rows (R166). -/
def upTo (l a b : List W32) : Nat :=
  l.countP fun v => v ≠ padIdx && decide (v.toNat ≤ min (lastIdx a).toNat (lastIdx b).toNat)

end Sys2Proof.Machine

/-- R129, R144, R152, R153, R155, R166 to R168: `v.nop` only passes tokens; `v.perm` reads va at the index in each governed element
of vb; `v.ins` writes the one element xb[9:0]; `v.ext` pushes element xa[9:0] into the control queue, sign-extended when xb[0]
is 1; `v.isect` marks the non-padding indices of each row that occur in the same row of the other source and pushes four values,
whose bytes say for each row how many indices of va, and of vb, do not exceed the smaller of the two last ones; `v.c24` writes
the two largest magnitudes of each group of four in the governed rows, 0 in the other half, and the nibbles of a row's 16 groups
into columns 0 and 1 of its metadata; `v.fnd` pushes the first match from xb[9:0] on and the number of matches. Completes, as
exec (the form) s = .next (its own effect): vNop, vPerm, vIns, vExt, vIsect, vC24, vFnd. The model's choices in it: log entries
26, 27, 51. -/
def Obligations.VectorMovesAndSparseHelpers : Prop :=
  ∀ (s : State) (n : Entry), Acts s .v n →
    (∀ sy, ∃ lane, laneOf (.vNop sy) = some lane ∧ exec (.vNop sy) s = .next (vAct lane {} n { s with act := .lane })) ∧
    (∀ sy vd va vb k, ∃ lane l, laneOf (.vPerm sy vd va vb k) = some lane ∧
      Governed (s.me.getK k.toNat)
        (fun p => (elemAt (srcTile s.me n va) ((elemAt (srcTile s.me n vb) p).toNat % 1024), 0)) l 0 ∧
      exec (.vPerm sy vd va vb k) s =
        .next (vAct lane { effs := [destEff vd (s.me.getK k.toNat) l] } n { s with act := .lane })) ∧
    (∀ sy vd xa xb, ∃ lane t, laneOf (.vIns sy vd xa xb) = some lane ∧
      elemAt t (getField n.xb 0 10) = n.xa.setWidth 32 ∧
      (∀ p, p < 1024 → maskAt (oneBit (getField n.xb 0 10)) p = decide (p = getField n.xb 0 10)) ∧
      exec (.vIns sy vd xa xb) s =
        .next (vAct lane { effs := [.v vd.toNat (oneBit (getField n.xb 0 10)) t] } n { s with act := .lane })) ∧
    (∀ sy va xa xb, ∃ lane, laneOf (.vExt sy va xa xb) = some lane ∧
      exec (.vExt sy va xa xb) s =
        .next (vAct lane { effs := [.cq [if n.xb.getLsbD 0 then (tget 0 (srcTile s.me n va) (getField n.xa 0 10)).signExtend 64
          else (tget 0 (srcTile s.me n va) (getField n.xa 0 10)).setWidth 64]] } n { s with act := .lane })) ∧
    (∀ sy kp va vb, ∃ lane ma mb l, laneOf (.vIsect sy kp va vb) = some lane ∧ l.length = 4 ∧
      (∀ a, a < 16 →
        (l.getD (a / 8) 0).toNat / 256 ^ (a % 8) % 256 = upTo (rowAt s.me n va a) (rowAt s.me n va a) (rowAt s.me n vb a) ∧
        (l.getD (2 + a / 8) 0).toNat / 256 ^ (a % 8) % 256 = upTo (rowAt s.me n vb a) (rowAt s.me n va a) (rowAt s.me n vb a)) ∧
      (∀ p, p < 1024 → maskAt ma p = (decide (elemAt (srcTile s.me n va) p ≠ padIdx) &&
        (List.range 64).any fun j => elemAt (srcTile s.me n vb) (p / 64 * 64 + j) == elemAt (srcTile s.me n va) p)) ∧
      (∀ p, p < 1024 → maskAt mb p = (decide (elemAt (srcTile s.me n vb) p ≠ padIdx) &&
        (List.range 64).any fun j => elemAt (srcTile s.me n va) (p / 64 * 64 + j) == elemAt (srcTile s.me n vb) p)) ∧
      exec (.vIsect sy kp va vb) s =
        .next (vAct lane { effs := [.k (2 * kp.toNat) ma, .k (2 * kp.toNat + 1) mb, .cq l] } n { s with act := .lane })) ∧
    (∀ sy vd va vm k, ∃ lane l m mm mt, laneOf (.vC24 sy vd va vm k) = some lane ∧ l.length = 1024 ∧
      (∀ a b, a < 16 → b < 64 → maskAt m (64 * a + b) = (maskRow (s.me.getK k.toNat) a).getLsbD 0) ∧
      (∀ a g, a < 16 → g < 16 →
        ((l.drop (64 * a + 2 * g)).take 2 =
          (c24Group ((List.range 4).map fun b => elemAt (srcTile s.me n va) (64 * a + 4 * g + b))).1) ∧
        l.getD (64 * a + 32 + 2 * g) 0 = 0 ∧ l.getD (64 * a + 33 + 2 * g) 0 = 0 ∧
        (elemAt mt (64 * a + g / 8)).toNat / 16 ^ (g % 8) % 16 =
          (c24Group ((List.range 4).map fun b => elemAt (srcTile s.me n va) (64 * a + 4 * g + b))).2) ∧
      (∀ a b, a < 16 → b < 64 → maskAt mm (64 * a + b) = ((maskRow (s.me.getK k.toNat) a).getLsbD 0 && decide (b < 2))) ∧
      exec (.vC24 sy vd va vm k) s =
        .next (vAct lane { effs := [destEff vd m l, .v vm.toNat mm mt] } n { s with act := .lane })) ∧
    (∀ sy va xa xb c, ∃ lane v fl, laneOf (.vFnd sy va xa xb c) = some lane ∧
      fnd c ((List.range 1024).map fun p => elemAt (srcTile s.me n va) p) n.xa n.xb = (v, fl) ∧
      exec (.vFnd sy va xa xb c) s = .next (vAct lane { effs := [.cq [v]], flags := fl } n { s with act := .lane }))

/-- R159, R163: `v.rotr` moves every element n columns, and `v.rotc` n rows, toward higher indices, cyclically, a rotate by 0
copying; `v.tr16` transposes each of the four blocks of 16 × 16, and applied to its own result it gives back the source. Every
source is read at issue. Completes, as exec (the form) s = .next (its own effect): vRotr, vRotc, vTr16. -/
def Obligations.RotatesAndTranspositionMoveElements : Prop :=
  ∀ (s : State) (n : Entry) (sy : BitVec 6) (vd va : Reg), Acts s .v n →
    (∀ c : BitVec 6, ∃ lane l, laneOf (.vRotr sy vd va c) = some lane ∧ l.length = 1024 ∧
      (∀ i j, i < 16 → j < 64 → l.getD (64 * i + (j + c.toNat) % 64) 0 = elemAt (srcTile s.me n va) (64 * i + j)) ∧
      (c = 0 → l = elems (srcTile s.me n va)) ∧
      exec (.vRotr sy vd va c) s = .next (vAct lane { effs := [destEff vd fullMask l] } n { s with act := .lane })) ∧
    (∀ c : BitVec 6, (Instr.vRotc sy vd va c).WellFormed = true → ∃ lane l, laneOf (.vRotc sy vd va c) = some lane ∧ l.length = 1024 ∧
      (∀ i j, i < 16 → j < 64 → l.getD (64 * ((i + c.toNat) % 16) + j) 0 = elemAt (srcTile s.me n va) (64 * i + j)) ∧
      (c = 0 → l = elems (srcTile s.me n va)) ∧
      exec (.vRotc sy vd va c) s = .next (vAct lane { effs := [destEff vd fullMask l] } n { s with act := .lane })) ∧
    (∃ lane l, laneOf (.vTr16 sy vd va) = some lane ∧ l.length = 1024 ∧
      (∀ b i c, b < 4 → i < 16 → c < 16 → l.getD (64 * i + (16 * b + c)) 0 = elemAt (srcTile s.me n va) (64 * c + (16 * b + i))) ∧
      exec (.vTr16 sy vd va) s = .next (vAct lane { effs := [destEff vd fullMask l] } n { s with act := .lane }) ∧
      (∀ (u : State) (m : Entry) (vb : Reg), Acts u .v m → elems (srcTile u.me m vb) = l → ∃ lane, laneOf (.vTr16 sy vd vb) = some lane ∧
        exec (.vTr16 sy vd vb) u =
          .next (vAct lane { effs := [destEff vd fullMask (elems (srcTile s.me n va))] } m { u with act := .lane })))

/-- R169 to R175: `w.cfg`, `w.len` and `w.clr` empty a window, `w.cfg` setting its operator and `w.len` its length; `w.push` pushes
the rows whose bit 0 the mask sets, in order, and keeps V for one tick a row and a quarter tick for each row that a flip moves;
`w.rd` writes the aggregate of the window in every row; `w.stat` pushes its status. Completes, as exec (the form) s = .next (its
own effect): wCfg, wLen, wClr, wPush, wRd, wStat. The model's choices in it: log entries 26, 60, 65. -/
def Obligations.WindowAccumulators : Prop :=
  ∀ (s : State) (n : Entry) (w : Reg), Acts s .v n →
    (∀ sy imm, ∃ lane, laneOf (.wCfg sy w imm) = some lane ∧
      exec (.wCfg sy w imm) s = .next (vAct lane
        { effs := [.w w.toNat { op := imm.toNat, len := (s.me.win w).len }] } n { s with act := .lane })) ∧
    (∀ sy imm, ∃ lane, laneOf (.wLen sy w imm) = some lane ∧
      exec (.wLen sy w imm) s = .next (vAct lane
        { effs := [.w w.toNat { op := (s.me.win w).op, len := imm.toNat }] } n { s with act := .lane })) ∧
    (∀ sy, ∃ lane, laneOf (.wClr sy w) = some lane ∧
      exec (.wClr sy w) s = .next (vAct lane
        { effs := [.w w.toNat { op := (s.me.win w).op, len := (s.me.win w).len }] } n { s with act := .lane })) ∧
    (∀ sy va k, ∃ lane rows v f t, laneOf (.wPush sy w va k) = some lane ∧
      rows = ((List.range 16).filter fun a => (maskRow (s.me.getK k.toNat) a).getLsbD 0).map
        (fun a => (List.range 64).map fun b => elemAt (srcTile s.me n va) (64 * a + b)) ∧
      (s.me.win w).pushAll rows = (v, f, t) ∧
      exec (.wPush sy w va k) s = .next (vAct lane
        { effs := [.w w.toNat v], flags := f, ival := some (max 1 rows.length + t) } n { s with act := .lane })) ∧
    (∀ sy vd k, ∃ lane l, laneOf (.wRd sy vd w k) = some lane ∧ l = (List.replicate 16 (s.me.win w).read.1).flatten ∧
      exec (.wRd sy vd w k) s = .next (vAct lane
        { effs := [destEff vd (s.me.getK k.toNat) l], flags := (s.me.win w).read.2 } n { s with act := .lane })) ∧
    (∀ sy, ∃ lane, laneOf (.wStat sy w) = some lane ∧
      exec (.wStat sy w) s = .next (vAct lane
        { effs := [.cq [(s.me.win w).stat (s.me.rowsLeft (s.me.winsBefore n))]] } n { s with act := .lane }))

/-- R169, R173: a window never holds more rows than its length; pushing keeps the length, and rows that fit are all counted. -/
def Obligations.WindowKeepsItsLength : Prop :=
  ∀ (w : Win) (rows : List (List W32)), 0 < w.len → w.count ≤ w.len →
    (w.pushAll rows).1.count ≤ w.len ∧ (w.pushAll rows).1.len = w.len ∧
    (rows.length ≤ w.len - w.count → (w.pushAll rows).1.count = w.count + rows.length)

/-! ## Engine queues -/

/-- R25 to R27, R40, R41, R65, R115: an engine lane that dispatches becomes the last entry of its queue and the next lane dispatches
a tick later; it waits while its queue holds its slip depth or an x register that it names waits for an answer or cannot be read
yet, and a v register at VREGS or above raises ILLEGAL_OP. The entry holds the values of its operands, of BANKFMT and of satp at
its dispatch, and the position of its lane in its queue. -/
def Obligations.EngineLaneBecomesEntryWithItsOperands : Prop :=
  (∀ (i : Instr) (l : Lane) (s : State), laneOf i = some l → s.act = .lane →
    (s.me.pendingAny [l.xa.toNat, l.xb.toNat] = false → s.me.lateAny s.tick [l.xa.toNat, l.xb.toNat] = false →
      (s.me.queue l.eng).q.length < s.me.slip l.eng →
      l.vregs.all (· < s.me.vregs) = true →
      exec i s = .next (s.modMe fun x => (x.place l (newEntry x i l)).retire s.tick)) ∧
    (l.vregs.all (· < s.me.vregs) = true →
      s.me.pendingAny [l.xa.toNat, l.xb.toNat] = true ∨ s.me.lateAny s.tick [l.xa.toNat, l.xb.toNat] = true ∨
        s.me.slip l.eng ≤ (s.me.queue l.eng).q.length →
      exec i s = .next s.wait) ∧
    (l.vregs.any (s.me.vregs ≤ ·) = true → exec i s = .next s.illegalOp)) ∧
  (∀ (x : Room) (i : Instr) (l : Lane),
    (newEntry x i l).instr = i ∧ (newEntry x i l).xa = x.getX l.xa ∧ (newEntry x i l).xb = x.getX l.xb ∧
    (newEntry x i l).bankfmt = x.bankfmt ∧ (newEntry x i l).satp = x.csr.satp ∧ (newEntry x i l).mode = x.mode ∧
    (newEntry x i l).qpos = (x.queue l.eng).disp ∧ (newEntry x i l).issued = none ∧
    ((x.place l (newEntry x i l)).queue l.eng).q = (x.queue l.eng).q ++ [newEntry x i l] ∧
    ((x.place l (newEntry x i l)).queue l.eng).disp = ((x.queue l.eng).disp + 1) % 2 ^ 32)

/-- R16, R31 to R34, R39, R41 to R45, R66, R109, R288: the entry that is next in its queue issues once its tokens, elements and
places are there, taking them all in that tick; an entry whose head check fails holds its fault and takes nothing. Popping
tokens lowers exactly the counters that the lane names by 1. An entry that finishes makes its effects on the registers, an L
entry those of what it has loaded; its flags join VFLAGS at the end of the tick, and its stores the room's horizon. It leaves
its queue with its pushes when it is at the head and every counter that it pushes to is below 31; otherwise it stays there with
its pushes, and leaves with them once they fit. Completes, as exec (the form) s = .next (its own effect): entryIssue,
entryFinish, entryDeferredPush. The model's choices in it: log entries 11, 26. -/
def Obligations.EntriesIssueAndFinish : Prop :=
  (∀ (s : State) (r : Nat) (e : Eng) (n : Entry), s.mayStart r = true → (s.room r).saving = false →
    (e = .v ∨ e = .m ∨ s.cohFull r = false) → (s.room r).candidate e s.tick = some n →
    (∀ l, laneOf n.instr = some l → headFault s r e n = none → n.popped = false →
      (s.room r).hasTokens n = true → (s.room r).dataReady l s.tick = true →
      exec (.entryIssue r e) s = .next (s.setRoom r (((s.room r).popFor l n s.tick).1.issue e ((s.room r).popFor l n s.tick).2
        s.tick))) ∧
    (∀ f, headFault s r e n = some f →
      exec (.entryIssue r e) s = .next (s.setRoom r ((s.room r).setEntry e { n with fault := some f, recorded := false })))) ∧
  (∀ (x : Room) (l : List Nat), l.Nodup →
    (∀ c ∈ l, (x.popTokens l).tokens c = x.tokens c - 1) ∧ (∀ c, c ∉ l → (x.popTokens l).tokens c = x.tokens c)) ∧
  (∀ (s : State) (r : Nat) (e : Eng) (n : Entry) (effs : List Eff), finishing s r e = some n →
    effs = (if e = .l then lEffs n else n.effs) →
    ∃ t, exec (.entryFinish r e) s = .next t ∧
      (∀ q, q ≠ r → t.room q = s.room q) ∧
      (t.room r).v = (effs.foldl (applyEff s.tick) (s.room r)).v ∧ (t.room r).k = (effs.foldl (applyEff s.tick) (s.room r)).k ∧
      (t.room r).w = (effs.foldl (applyEff s.tick) (s.room r)).w ∧
      (t.room r).lay = (effs.foldl (applyEff s.tick) (s.room r)).lay ∧
      (t.room r).iq = (effs.foldl (applyEff s.tick) (s.room r)).iq ∧ (t.room r).oq = (effs.foldl (applyEff s.tick) (s.room r)).oq ∧
      (t.room r).cq = (effs.foldl (applyEff s.tick) (s.room r)).cq ∧
      (t.room r).vflNew = (s.room r).vflNew ||| (BitVec.ofNat 64 (n.flags % 32) <<< vflShift e) ∧
      (t.room r).stores = (s.room r).stores ++ n.sent ∧ (t.room r).hz = max (s.room r).hz n.vt ∧
      ((((s.room r).queue e).q.head?.map (·.qpos) = some n.qpos ∧ (s.room r).canPush n = true) →
        (t.room r).tokS = ((s.room r).pushTokens n.pushes).tokS ∧
        ((t.room r).queue e).q.map (·.qpos) = (((s.room r).queue e).q.filter fun m => m.qpos ≠ n.qpos).map (·.qpos)) ∧
      (¬ (((s.room r).queue e).q.head?.map (·.qpos) = some n.qpos ∧ (s.room r).canPush n = true) →
        (t.room r).tokS = (s.room r).tokS ∧
        ((t.room r).queue e).q.map (·.qpos) = ((s.room r).queue e).q.map (·.qpos) ∧
        ∀ m ∈ ((t.room r).queue e).q, m.qpos = n.qpos → m.pushWait = true ∧ m.effs = [] ∧ m.sent = [])) ∧
  (∀ (s : State) (r : Nat) (e : Eng) (n : Entry), deferred s r e = some n →
    exec (.entryDeferredPush r e) s = .next (s.modRoom r fun x => x.retireEntry e n) ∧
    ((s.room r).retireEntry e n).tokS = ((s.room r).pushTokens n.pushes).tokS ∧
    (((s.room r).retireEntry e n).queue e).q = ((s.room r).queue e).q.filter fun m => m.qpos ≠ n.qpos) ∧
  (∀ (s : State) (r : Nat) (e : Eng) (n : Entry), n.effs.all (fun f => match f with | .scratch _ => false | _ => true) = true →
    (finishEntry s r e n).mem = s.mem)

/-- R38: k0 reads as all ones, and a write whose destination is k0 leaves it as it was; any other mask register reads as it was
written, and the rest stays. An entry whose one effect is a write of k0 finishes as any other, with its flags, its stores and
its pushes, and leaves every mask register as it was. Completes, as exec (the form) s = .next (its own effect): entryFinish. -/
def Obligations.MaskRegisterZeroStaysAllOnes : Prop :=
  (∀ (x : Room) (p : Nat), p < 1024 → maskAt (x.getK 0) p = true) ∧
  (∀ (now : Nat) (x : Room) (m : Mask), applyEff now x (.k 0 m) = x ∧ ∀ r, r ≠ 0 →
    (applyEff now x (.k r m)).getK r = m ∧ ∀ q, q ≠ r → (applyEff now x (.k r m)).getK q = x.getK q) ∧
  (∀ (s : State) (r : Nat) (e : Eng) (n : Entry) (m : Mask), finishing s r e = some n →
    (if e = .l then lEffs n else n.effs) = [.k 0 m] → ∃ t, exec (.entryFinish r e) s = .next t ∧
      (t.room r).k = (s.room r).k ∧ (t.room r).v = (s.room r).v ∧ t.mem = s.mem ∧
      (t.room r).vflNew = (s.room r).vflNew ||| (BitVec.ofNat 64 (n.flags % 32) <<< vflShift e) ∧
      (t.room r).stores = (s.room r).stores ++ n.sent ∧ (t.room r).hz = max (s.room r).hz n.vt ∧
      ((((s.room r).queue e).q.head?.map (·.qpos) = some n.qpos ∧ (s.room r).canPush n = true) →
        (t.room r).tokS = ((s.room r).pushTokens n.pushes).tokS ∧
        ((t.room r).queue e).q.map (·.qpos) = (((s.room r).queue e).q.filter fun m => m.qpos ≠ n.qpos).map (·.qpos)))

/-- R98, R142: an effect on a v register writes exactly the elements that its mask governs, and no other register. -/
def Obligations.VectorEffectWritesGovernedElements : Prop :=
  ∀ (now : Nat) (x : Room) (r : Nat) (m : Mask) (t : Tile),
    (∀ p, p < 1024 → elemAt (tget [] (applyEff now x (.v r m t)).v r) p =
      if maskAt m p then elemAt t p else elemAt (tget [] x.v r) p) ∧
    (∀ q, q ≠ r → tget [] (applyEff now x (.v r m t)).v q = tget [] x.v q) ∧
    { applyEff now x (.v r m t) with v := x.v } = x

/-- R340: a source with an unrecorded fault writes one record into a free place of its wing's fault buffer, and holds while the
buffer is full. That the place is the lowest free one is the model's choice. Completes, as exec (the form) s = .next (its own
effect): faultRecordWrite. The model's choices in it: log entries 11, 76. -/
def Obligations.FaultRecordIsWritten : Prop :=
  ∀ (s : State) (src : FaultSrc) (u : Unrecorded), unrecorded s src = some u →
    (∀ slot, freeSlot (s.wing u.wing).faults = some slot →
      ∃ f, f.slot = slot ∧ f.tenant = u.tenant ∧ f.src = src ∧
        f.bits = recordBits u.info.code u.tenant u.room u.num u.repl slot u.qpos u.info.va u.info.cursor u.info.detail ∧
        exec (.faultRecordWrite src) s =
          .next (markRecorded (s.modWing u.wing fun w => { w with faults := w.faults ++ [f] }) src)) ∧
    (freeSlot (s.wing u.wing).faults = none → exec (.faultRecordWrite src) s = .next s)

/-! ## Loads and stores -/

namespace Sys2Proof.Machine

/-- The accesses of the load forms without an offset table (R122, R128, R129, R131, R132, R134): number, address and width. -/
def loadForm (n : Entry) : Instr → Option (List Access)
  | .lV _ _ _ _ _ => some (((List.range 1024).filter (· < recP n.lay.get)).map fun m =>
      { n := m, va := recAddr n.lay.get m (n.xa + n.xb), w := fmtWidth (recFmt n.lay.get) })
  | .lVs _ _ _ _ _ => some ((((List.range 1024).filter fun m => n.xb.getLsbD (m / 64)).filter (· < recP n.lay.get)).map fun m =>
      { n := m, va := recAddr n.lay.get m n.xa, w := fmtWidth (recFmt n.lay.get) })
  | .lBc _ _ _ _ _ => some (((List.range 64).filter (· < recP n.lay.get)).map fun m =>
      { n := m, va := recAddr n.lay.get m (n.xa + n.xb), w := fmtWidth (recFmt n.lay.get) })
  | .lEl _ _ _ _ _ => some (([getField n.xb 0 10].filter (· < recP n.lay.get)).map fun m =>
      { n := m, va := recAddr n.lay.get m n.xa, w := fmtWidth (recFmt n.lay.get) })
  | .lQ _ _ _ _ => some [{ n := 0, va := n.xa + n.xb + recBase n.lay.get, w := 8 }]
  | .lK _ _ _ _ _ => some ((List.range 16).map fun i =>
      { n := i, va := n.xa + n.xb + recBase n.lay.get + BitVec.ofNat 64 i * recS n.lay.get 1, w := 8 })
  | .lLay _ _ _ _ => some [{ n := 0, va := n.xa + n.xb, w := 64 }]
  | _ => none

/-- The accesses of the store forms without an offset table, with their data (R122, R136, R137, R139, R140). -/
def storeForm (x : Room) (n : Entry) : Instr → Option (List (Access × Nat))
  | .sV _ r _ _ _ => some (((List.range 1024).filter (· < recP n.lay.get)).map fun m =>
      ({ n := m, va := recAddr n.lay.get m (n.xa + n.xb), w := fmtWidth (recFmt n.lay.get) },
       (laneCode6 (recFmt n.lay.get) (elemAt (storeSrc x n r) m)).toNat))
  | .sVs _ r _ _ _ => some ((((List.range 1024).filter fun m => n.xb.getLsbD (m / 64)).filter (· < recP n.lay.get)).map fun m =>
      ({ n := m, va := recAddr n.lay.get m n.xa, w := fmtWidth (recFmt n.lay.get) },
       (laneCode6 (recFmt n.lay.get) (elemAt (storeSrc x n r) m)).toNat))
  | .sRow _ r _ _ _ => some (((List.range 64).filter (· < recP n.lay.get)).map fun m =>
      ({ n := m, va := recAddr n.lay.get m n.xa, w := fmtWidth (recFmt n.lay.get) },
       (laneCode6 (recFmt n.lay.get) (elemAt (storeSrc x n r) (64 * getField n.xb 0 4 + m))).toNat))
  | .sK _ r _ _ _ => some ((List.range 16).map fun i =>
      ({ n := i, va := n.xa + n.xb + recBase n.lay.get + BitVec.ofNat 64 i * recS n.lay.get 1, w := 8 },
       (maskRow (x.getK r.toNat) i).toNat))
  | .sEl _ r _ _ _ => some (([getField n.xb 0 10].filter (· < recP n.lay.get)).map fun m =>
      ({ n := m, va := recAddr n.lay.get m n.xa, w := fmtWidth (recFmt n.lay.get) },
       (laneCode6 (recFmt n.lay.get) (tget 0 (storeSrc x n r) m)).toNat))
  | .sC24 _ r _ _ _ => some (((List.range 512).filter (· < recP n.lay.get)).map fun m =>
      ({ n := m, va := recAddr n.lay.get m (n.xa + n.xb), w := fmtWidth (recFmt n.lay.get) },
       (laneCode6 (recFmt n.lay.get) (elemAt (storeSrc x n r) (64 * (m / 32) + m % 32))).toNat))
  | _ => none

/-- The accesses of `l.gat` and `s.sc` once their table of 16 offsets has been read (R130, R138). -/
def tableForm (n : Entry) : List Access :=
  (List.range 16).flatMap fun a =>
    if tableOff (tget 0 n.got 1024) a = 0x80000000#32 then []
    else ((List.range 64).filter (· < recP n.lay.get)).map fun b =>
      { n := 64 * a + b, w := fmtWidth (recFmt n.lay.get),
        va := recAddr n.lay.get b (n.xa + (tableOff (tget 0 n.got 1024) a).signExtend 64) }

/-- The accesses of a load entry at a tick, and the ticks that the pass of its table still takes. -/
def loadTakes (n : Entry) (now : Nat) (i : Instr) : Option (List Access × Nat) :=
  match i with
  | .lGat _ _ _ _ _ => if n.cursor = 1 then some (tableForm n, n.minFin - now) else none
  | i => (loadForm n i).map fun l => (l, 0)

/-- The accesses of `s.sc` with their data. -/
def tableStores (x : Room) (n : Entry) (r : Reg) : List (Access × Nat) :=
  (tableForm n).map fun c => (c, (laneCode6 (recFmt n.lay.get) (tget 0 (storeSrc x n r) c.n)).toNat)
/-- The accesses of a store entry with their data at a tick, and the ticks that the pass of its table still takes. -/
def storeTakes (x : Room) (n : Entry) (now : Nat) (i : Instr) : Option (List (Access × Nat) × Nat) :=
  match i with
  | .sSc _ r _ _ _ => if n.cursor = 1 then some (tableStores x n r, n.minFin - now) else none
  | i => (storeForm x n i).map fun l => (l, 0)

/-- The parts whose poison does not matter to a load: those that the room reads in a copy. -/
def nearCopy (s : State) (r : Nat) (e : Eng) (p : Part) : Bool := (nearValue s r e p).isSome && decide (p.place ≠ .scratch r)
/-- The values of the parts that lie near, under their positions, beside those that an entry has. -/
def nearData (s : State) (r : Nat) (e : Eng) (parts : List Part) (got : Tbl Nat) : Tbl Nat :=
  (parts.filterMap fun p => (nearValue s r e p).map fun v => (p.pos, v)).foldl (fun g p => tset 0 g p.1 p.2) got

end Sys2Proof.Machine

/-- R122, R128 to R132, R134, R136 to R140: a load or store entry that takes its step makes exactly the accesses of its form, each
of the width of its record's format, a store with the data of its source, bits above a T6 code being 0 (R101); `l.gat` and
`s.sc` read their table of 16 offsets first, row i then stands at offset g[i], and a row whose offset is 0x80000000 is skipped.
A store entry all of whose addresses have their place, whose keys are held and whose chunks are there, and which waits for no
earlier access of its room, stores its own bytes with its passes, sends the rest to their homes as one store instruction, and
needs no further step. Where some of its homes may refuse it and others not, the former parts leave first and the entry holds
the others; these follow in the same way at a later step (the two steps are the model's choice, log entry 79). Completes, as
exec (the form) s = .next (its own effect): sV, sVs, sRow, sSc, sK, sEl, sC24. The model's choices in it: log entries 11, 12,
51, 71, 77, 79. -/
def Obligations.EntriesMakeTheAccessesOfTheirForm : Prop :=
  (∀ (i : Instr) (s : State) (n : Entry) (accs : List Access), loadForm n i = some accs → Acts s .l n →
    exec i s = .next (loadAccesses .l accs 0 none n { s with act := .lane })) ∧
  ((∀ sy rd lay xa xb (s : State) (n : Entry), Acts s .l n →
    (n.cursor = 1 → exec (.lGat sy rd lay xa xb) s =
      .next (loadAccesses .l (tableForm n) (n.minFin - s.tick) none n { s with act := .lane })) ∧
    (∀ (t : State) (m : Entry), n.cursor ≠ 1 →
      t = loadAccesses .l [{ n := 1024, va := n.xb, w := 64 }] 0 (some s.tick) { n with cursor := 1 } { s with act := .lane } →
      t.me.ql.q.find? (fun e => e.qpos = n.qpos) = some m →
      exec (.lGat sy rd lay xa xb) s = .next (if m.fault.isNone ∧ m.msgs = [] then
        loadAccesses .l (tableForm m) (m.minFin - t.tick) none m t else t))) ∧
  (∀ sy rd lay xa xb (s : State) (n : Entry), Acts s .s n →
    (n.cursor = 1 → exec (.sSc sy rd lay xa xb) s =
      .next (storeAccesses (tableStores s.me n rd) (n.minFin - s.tick) n { s with act := .lane })) ∧
    (∀ (t : State) (m : Entry), n.cursor ≠ 1 →
      t = loadAccesses .s [{ n := 1024, va := n.xb, w := 64 }] 0 (some s.tick) { n with cursor := 1 } { s with act := .lane } →
      t.me.qs.q.find? (fun e => e.qpos = n.qpos) = some m →
      exec (.sSc sy rd lay xa xb) s = .next (if m.fault.isNone ∧ m.msgs = [] then
        storeAccesses (tableStores t.me m rd) (m.minFin - t.tick) m t else t)))) ∧
  (∀ (i : Instr) (s : State) (n : Entry) (accs : List (Access × Nat)), storeForm s.me n i = some accs → Acts s .s n →
    exec i s = .next (storeAccesses accs 0 n { s with act := .lane })) ∧
  (∀ (i : Instr) (s u f v : State) (n : Entry) (accs : List (Access × Nat)) (x tk : Nat) (pl : List (Part × Loc))
      (parts : List Part) (outs : List OutStore) (ids : List Nat),
    Acts s .s n → n.held = [] → storeTakes s.me n s.tick i = some (accs, x) →
    u = State.needAll { s with act := .lane } (entryCtx s.turn .s n) (accs.map (·.1.va)) →
    placeAll u (entryCtx s.turn .s n) .store (fun _ => true) (accs.map (·.1)) = .ok pl →
    parts = (pl.zip accs).map (fun p => { p.1.1 with data := p.2.2 % 256 ^ p.2.1.w }) →
    storeChecks u s.turn n.satp parts = none → f = fillAll u pl → keysWanted f s.turn parts = [] →
    f.storeWaits s.turn (.eng .s) parts = false → f.bufferedTo s.turn parts = [] →
    f.takePasses .s n.qpos (s.tick + x) (ownPasses s.turn parts) = (v, tk) →
    (∀ (w t : State) (mine : List Part), firstParts f s.turn parts = [] →
      mine = parts.filter (fun p => decide (p.place = .scratch s.turn)) →
      w = (if mine = [] then v else (applyStore v (storeMsg v s.turn (.eng .s) n.satp mine)).s) →
      (if parts.filter (fun p => decide (p.place ≠ .scratch s.turn)) = [] then (w, [], [])
        else issueStore w s.turn (.eng .s) n.satp (parts.filter fun p => decide (p.place ≠ .scratch s.turn))
          (decide (mine ≠ []))) = (t, outs, ids) →
      exec i s = .next (t.setEntry .s { n with held := [], sent := n.sent ++ outs, msgs := ids, more := none,
                                               minFin := max n.minFin (s.tick + max 1 (x + tk)) }).bump) ∧
    (∀ (t : State) (l : List Part), l = parts.filter (goesFirst f s.turn) → l ≠ [] → l.length ≠ parts.length →
      issueStore v s.turn (.eng .s) n.satp l = (t, outs, ids) →
      exec i s = .next (t.setEntry .s { n with held := parts.filter fun p => !goesFirst f s.turn p,
                                               sent := n.sent ++ outs, msgs := ids, more := some (s.tick + 1),
                                               minFin := max n.minFin (s.tick + max 1 (x + tk)) }).bump)) ∧
  (∀ (i : Instr) (s v w t : State) (n : Entry) (accs : List (Access × Nat)) (x : Nat) (mine : List Part)
      (outs : List OutStore) (ids : List Nat),
    Acts s .s n → n.held ≠ [] → storeTakes s.me n s.tick i = some (accs, x) → v = { s with act := .lane } →
    keysWanted v s.turn n.held = [] → v.storeWaits s.turn (.eng .s) n.held = false → v.bufferedTo s.turn n.held = [] →
    mine = n.held.filter (fun p => decide (p.place = .scratch s.turn)) →
    w = (if mine = [] then v else (applyStore v (storeMsg v s.turn (.eng .s) n.satp mine)).s) →
    (if n.held.filter (fun p => decide (p.place ≠ .scratch s.turn)) = [] then (w, [], [])
      else issueStore w s.turn (.eng .s) n.satp (n.held.filter fun p => decide (p.place ≠ .scratch s.turn)) true) =
        (t, outs, ids) →
    exec i s = .next (t.setEntry .s { n with held := [], sent := n.sent ++ outs, msgs := ids, more := none,
                                             minFin := max n.minFin (s.tick + max 1 x) }).bump)

/-- R124, R125: the lowest-numbered access that fails faults a load entry, which holds its head with the address that failed and has
read nothing; the entry of a load that fails nothing has the bytes that lie near, with a message under way for the rest, and
needs no further step of its own. Memory is unchanged either way, where the tier's entries name what they named (R299) and no
sector fails its CRC; one that does and that the entry faults on has its POISON set (R364). Completes, as exec (the form) s =
.next (its own effect): lV, lVs, lBc, lEl, lGat, lQ, lK, lLay. The model's choices in it: log entries 13, 41, 51, 71. -/
def Obligations.LoadEntryFaultsOrReads : Prop :=
  ∀ (s : State) (e : Eng) (accs : List Access) (n : Entry),
    (∀ (i : Instr) (u : State) (x : Nat) (pl : List (Part × Loc)), e = .l → Acts s .l n → loadTakes n s.tick i = some (accs, x) →
      u = State.needAll { s with act := .lane } (entryCtx s.turn .l n) (accs.map (·.va)) →
      placeAll u (entryCtx s.turn .l n) .load (nearCopy u s.turn .l) accs = .ok pl →
      ∃ (t : State) (ids : List Nat) (k : Nat), exec i s = .next (t.setEntry .l { n with
          got := nearData (fillAll u pl) s.turn .l (pl.map (·.1)) n.got,
          msgs := ids, more := none, minFin := s.tick + max 1 (x + k) }).bump ∧
        ((pl.all fun p => (nearValue (fillAll u pl) s.turn .l p.1).isSome) = true → ids = [])) ∧
    (s.TierSettled → (∀ t m c, crcBad (s.needAll (entryCtx s.turn e n) (accs.map (·.va))) t m c = false) →
      (loadAccesses e accs 0 none n s).mem = s.mem) ∧
    (∀ (u : State), u = s.needAll (entryCtx s.turn e n) (accs.map (·.va)) →
      (∀ f va, placeAll u (entryCtx s.turn e n) .load (nearCopy u s.turn e) accs = .error (f, va) →
        loadAccesses e accs 0 none n s = (u.poisonAt (entryCtx s.turn e n) va).setEntry e { n with
          cursor := 0, fault := some (accessFault f va), recorded := false, issued := none, more := none, msgs := [], effs := [],
          got := n.heldGot, held := [] }) ∧
      (∀ pl, placeAll u (entryCtx s.turn e n) .load (nearCopy u s.turn e) accs = .ok pl →
        ∃ (t : State) (ids : List Nat) (k : Nat), loadAccesses e accs 0 none n s = (t.setEntry e { n with
            got := nearData (fillAll u pl) s.turn e (pl.map (·.1)) n.got,
            msgs := ids, more := none, minFin := s.tick + max 1 k }).bump ∧
          ((pl.all fun p => (nearValue (fillAll u pl) s.turn e p.1).isSome) = true → ids = [])) ∧
      (∀ a, a ∈ accs → ∀ f, placeOf u (entryCtx s.turn e n) .load a = .error f →
        ∃ g va, placeAll u (entryCtx s.turn e n) .load (nearCopy u s.turn e) accs = .error (g, va)))

/-- R127, R133, R135, R205, R212: the no-operation lanes of L, S, M and C finish a tick after they issue and write nothing; a
prefetch writes no memory, and one whose record is empty or invalid finishes a tick after it issues and does nothing else.
Completes, as exec (the form) s = .next (its own effect): lNop, sNop, mNop, cNop, lPf. -/
def Obligations.NoOperationEntries : Prop :=
  (∀ (s : State) (n : Entry) (e : Eng) (i : Instr), Acts s e n →
    (∃ sy, (e = .l ∧ i = .lNop sy) ∨ (e = .s ∧ i = .sNop sy) ∨ (e = .m ∧ i = .mNop sy) ∨ (e = .c ∧ i = .cNop sy)) →
    exec i s = .next ({ s with act := .lane }.setEntry e { n with more := none, minFin := s.tick + 1 })) ∧
  (∀ (s : State) (n : Entry) sy lay xa xb, Acts s .l n →
    ∃ t, exec (.lPf sy lay xa xb) s = .next t ∧ t.mem = s.mem ∧
      ((recEmpty n.lay.get || recInvalid n.lay.get) = true →
        t = { s with act := .lane }.setEntry .l { n with more := none, minFin := s.tick + 1 }))

/-- R267, R268, R286: a store instruction to plain memory that is performed leaves every byte outside the bytes of its parts as it
was, whatever else it does, and the bytes of its part read back as its data, a silent store to a watched line included. A store
into bytes of a barrier object may also complete a phase of it (R317), and is not meant here. The model's choices in it: log
entry 6. -/
def Obligations.PlainStoresWriteExactlyTheirBytes : Prop :=
  (∀ (s : State) (m : MemMsg) (a : Nat),
    (m.parts.all fun p => !p.cmp && decide (p.place ≠ .port)) = true →
    (∀ k, tget false s.barObjs k = true → ∀ p ∈ m.parts, k + 32 ≤ p.key ∨ p.key + p.w ≤ k) →
    (∀ p ∈ m.parts, a < p.key ∨ p.key + p.w ≤ a) → (applyStore s m).s.mem.get a = s.mem.get a) ∧
  (∀ (s : State) (m : MemMsg) (p : Part), m.parts = [p] → p.cmp = false → p.place ≠ .port →
    (∀ k, tget false s.barObjs k = true → k + 32 ≤ p.key ∨ p.key + p.w ≤ k) → (applyStore s m).fault = none →
    (applyStore s m).s.mem.read p.key p.w = p.data % 256 ^ p.w)

/-! ## The matrix engine -/

/-- R184, R188, R205, R209 to R211: `m.set` writes a shadow register, `m.setx` a shadow binding with its record, `m.gidx` the gather
list, `m.sc` the scales that it reads from the scratchpad, `m.clr` clears an accumulator and its mode in 16 ticks; each does so
as it issues and finishes after its ticks. That `m.sc` waits where earlier retirements have still to write bytes that it reads,
when its passes are taken, and that poisoned bytes fault it (R391), is the model's choice. Completes, as exec (the form) s =
.next (its own effect): mSet, mSetx, mClr, mGidx, mSc. The model's choices in it: log entries 12, 59, 71, 73. -/
def Obligations.MatrixRegisterEntries : Prop :=
  ∀ (s : State) (n : Entry), Acts s .m n →
    (∀ sy rd xa, exec (.mSet sy rd xa) s = .next (({ s with act := .lane }.modMe fun x =>
      { x with nestS := tset 0 x.nestS rd.toNat n.xa }).setEntry .m
        { n with more := none, effs := [], flags := 0, minFin := s.tick + 1 })) ∧
    (∀ sy rd lay xa xb, exec (.mSetx sy rd lay xa xb) s = .next (({ s with act := .lane }.modMe fun x =>
      { x with nestS := tset 0 x.nestS rd.toNat (n.xa + n.xb), recS := tset 0 x.recS rd.toNat n.lay.get }).setEntry .m
        { n with more := none, effs := [], flags := 0, minFin := s.tick + 1 })) ∧
    (∀ sy rd, exec (.mClr sy rd) s = .next (({ s with act := .lane }.modMe fun x =>
      { x with z := tset {} x.z rd.toNat { mn := (tget ({} : Acc) s.me.z rd.toNat).mn } }).setEntry .m
        { n with more := none, effs := [], flags := 0, minFin := s.tick + 16 })) ∧
    (∀ sy rd xa xb, exec (.mGidx sy rd xa xb) s = .next (({ s with act := .lane }.modMe fun x => { x with
      gather := ((elems (tget [] s.me.v rd.toNat)).drop (64 * getField n.xa 0 4)).take (getField n.xb 0 8) }).setEntry .m
        { n with more := none, effs := [], flags := 0, minFin := s.tick + 1 })) ∧
    (∀ sy lay xa xb (offs : List (Nat × Nat)) (u : State) (tk : Nat), offs = ((List.range (recP n.lay.get)).map fun m =>
        (m, (recAddr n.lay.get m n.xa - ownWindow).toNat)) →
      (if n.minFin ≠ 0 then ({ s with act := .lane }, n.minFin - s.tick)
        else State.takePasses { s with act := .lane } .m n.qpos s.tick
          (passesOf (offs ++ offs.map fun (p : Nat × Nat) => (p.1, p.2 + 3)))) = (u, tk) →
      (earlierBytes s.me n (offs.map fun p => (p.2, 4)) = false →
        (∀ p ∈ offs, s.poisoned (scratchKey s.turn p.2) 4 = false) →
        exec (.mSc sy lay xa xb) s = .next ((u.modMe fun x => { x with
          scales := (offs.map fun (p : Nat × Nat) => BitVec.ofNat 32 (s.read (scratchKey s.turn p.2) 4)).zipIdx.foldl
            (fun (tb : Tbl W32) (p : W32 × Nat) => tset 0 tb (getField n.xb 0 14 + p.2) p.1) x.scales }).setEntry .m
            { n with more := none, effs := [], flags := 0, minFin := s.tick + max 1 tk })) ∧
      (∀ p, earlierBytes s.me n (offs.map fun p => (p.2, 4)) = false →
        offs.find? (fun p => s.poisoned (scratchKey s.turn p.2) 4) = some p →
        exec (.mSc sy lay xa xb) s = .next (u.setEntry .m
          (n.faulted { code := 4, va := ownWindow + BitVec.ofNat 64 p.2, cursor := 0, detail := 0 }))) ∧
      (earlierBytes s.me n (offs.map fun p => (p.2, 4)) = true →
        exec (.mSc sy lay xa xb) s = .next (u.setEntry .m { n with more := some (s.tick + 1), minFin := s.tick + tk })))

/-- R180, R194, R196, R209: a retirement into scratchpad converts the accumulator's M × N elements to the record's format in mode
rnes and stores position N i + j at its address, taking its passes; its bytes are applied once no earlier nest has steps ahead
and no earlier retirement has to apply one of the same bytes (log entry 59), and no other byte changes; one into an oq pushes
its elements one after another. Completes, as exec (the form) s = .next (its own effect): mRetScratchpad, mRetOq. The model's
choices in it: log entries 28, 57, 58, 59, 71, 73. -/
def Obligations.MatrixRetirements : Prop :=
  ∀ (s : State) (n : Entry), Acts s .m n →
    (∀ sy z lay xa xb (st : List (Nat × Nat × Nat)) (u : State) (tk : Nat) (waits : Bool),
      st = (accConverted (tget ({} : Acc) s.me.z z.toNat) (recFmt n.lay.get)).1.zipIdx.map (fun p =>
        (scratchKey s.turn (recAddr n.lay.get p.2 (n.xa + n.xb) - ownWindow).toNat, fmtWidth (recFmt n.lay.get), p.1.toNat)) →
      (if n.minFin ≠ 0 then ({ s with act := .lane }, n.minFin - s.tick)
        else State.takePasses { s with act := .lane } .m n.qpos s.tick
          (retirePasses s.turn (accShape (tget ({} : Acc) s.me.z z.toNat)).2 st)) = (u, tk) →
      waits = (readsFirst s.me n || earlierBytes s.me n
        ((List.range (accConverted (tget ({} : Acc) s.me.z z.toNat) (recFmt n.lay.get)).1.length).map fun m =>
          ((recAddr n.lay.get m (n.xa + n.xb) - ownWindow).toNat, fmtWidth (recFmt n.lay.get)))) →
      (waits = false →
        ∃ t, exec (.mRetScratchpad sy z lay xa xb) s = .next t ∧
          t = (writeParts u (st.map fun p => plainPart p.1 p.2.1 p.2.2)).setEntry .m { n with
            more := none, effs := [], flags := (accConverted (tget ({} : Acc) s.me.z z.toNat) (recFmt n.lay.get)).2,
            minFin := s.tick + tk } ∧
          t.mem = st.foldl (fun (m : Memory) (p : Nat × Nat × Nat) => m.write p.1 p.2.1 p.2.2) s.mem ∧
          (∀ a, (∀ p ∈ st, a < p.1 ∨ p.1 + p.2.1 ≤ a) → t.mem.get a = s.mem.get a)) ∧
      (waits = true →
        exec (.mRetScratchpad sy z lay xa xb) s = .next (u.setEntry .m { n with
          more := some (s.tick + 1), flags := (accConverted (tget ({} : Acc) s.me.z z.toNat) (recFmt n.lay.get)).2,
          minFin := s.tick + tk }))) ∧
    (∀ sy tgt z xa xb, n.minFin = 0 → n.cursor = 0 →
      exec (.mRetOq sy tgt z xa xb) s = .next ({ s with act := .lane }.setEntry .m { n with
        minFin := s.tick,
        more := some (s.tick + pushTick (accShape (tget ({} : Acc) s.me.z z.toNat)).1
          (accShape (tget ({} : Acc) s.me.z z.toNat)).2 0) })) ∧
    (∀ sy tgt z xa xb, n.minFin = 0 → n.cursor ≠ 0 → exec (.mRetOq sy tgt z xa xb) s =
      .next ({ s with act := .lane }.setEntry .m { n with minFin := s.tick, more := some (s.tick + 1) })) ∧
    (∀ sy tgt z xa xb, n.minFin ≠ 0 →
      s.me.pushOq (tgt.toNat - 1) (oqElement (accConverted (tget ({} : Acc) s.me.z z.toNat) (getField n.xa 0 3)).1 n.cursor)
        s.tick = none →
      exec (.mRetOq sy tgt z xa xb) s = .next ({ s with act := .lane }.setEntry .m { n with more := some (s.tick + 1) })) ∧
    (∀ sy tgt z xa xb x, n.minFin ≠ 0 →
      s.me.pushOq (tgt.toNat - 1) (oqElement (accConverted (tget ({} : Acc) s.me.z z.toNat) (getField n.xa 0 3)).1 n.cursor)
        s.tick = some x →
      ∃ m, m.cursor = n.cursor + 1 ∧ m.qpos = n.qpos ∧
        ((accShape (tget ({} : Acc) s.me.z z.toNat)).1 * (accShape (tget ({} : Acc) s.me.z z.toNat)).2 ≤ 1024 * (n.cursor + 1) →
          m.more = none ∧ m.minFin = s.tick) ∧
        exec (.mRetOq sy tgt z xa xb) s = .next (({ s with act := .lane }.modMe fun _ => x).setEntry .m m))

/-- R185, R188, R206: an `m.go` captures the shadow set, its records and the gather list as it issues, with xa + xb added to the
offset of CBIND, and takes its first step no earlier than 16 ticks later; the accumulator takes the nest's mode. In the last
tick of the last block of a nest without a retirement that block is added to the accumulator, and the entry has no further step:
it finishes 6 ticks later. Completes, as exec (the form) s = .next (its own effect): mGo. The model's choices in it: log entries
28, 57, 71. -/
def Obligations.MatrixNestCapturesItsSet : Prop :=
  ∀ (s : State) (n : Entry) sy xa xb, Acts s .m n →
    (n.nest = none → exec (.mGo sy xa xb) s = .next ((({ s with act := .lane }.modMe fun x => { x with
        nestA := x.nestS, recA := x.recS,
        z := tmod {} x.z (nestOf s.me n).acc fun a => { a with mode := if (nestOf s.me n).int then 2 else 1 } }).modMe
          fun x => x.fill s.tick s.tick (nestOf s.me n)).setEntry .m
      { n with nest := some { regs := tset 0 s.me.nestS 10 (tget 0 s.me.nestS 10 + n.xa + n.xb), recs := s.me.recS,
                              gather := s.me.gather, tick := s.tick + 16 },
               more := some (s.tick + 1) })) ∧
    (∀ (t : NestRun) (u : State), n.nest = some t → t.stage = 1 → t.ar = false → t.block + 1 = t.blocks →
      t.steps.length = t.blockSteps t.block → t.ticks (min t.k (32 * t.block + 32)) - t.ticks (32 * t.block) ≤ s.tick - t.tick + 1 →
      u = (if s.tick - t.tick = 0 then (match t.ahead with
          | some b => State.modMe { s with act := .lane } fun x => x.fill s.tick s.tick b
          | none => { s with act := .lane }) else { s with act := .lane }) →
      exec (.mGo sy xa xb) s = .next (((u.modMe fun y => { y with mLast := s.tick }).modMe fun y =>
          { y with z := tset {} y.z t.acc (blockAdd y t).1 }).setEntry .m { n with
        flags := n.flags ||| (blockAdd s.me t).2, nest := some { t with steps := [] }, more := none, minFin := s.tick + 6 }))

/-! ## The copy engine -/

namespace Sys2Proof.Machine

/-- The sides of position m of a `c.copy` between records, and of a `c.fill` whose source position is sm (R116). -/
def srcSide (r : Nat) (n : Entry) (m : Nat) : Side := sideOf r n n.lay.get n.xb true m
def dstSide (r : Nat) (n : Entry) (m : Nat) : Side := sideOf r n n.lay2.get n.xa false m
/-- The FP32 value and flags of position m of a `c.scl` (R218). -/
def sclVal (r : Nat) (n : Entry) (m : Nat) : W32 × Nat :=
  Fp.convert (fmtTy (sideOf r n n.lay.get n.xa true m).fmt) .f32 1 (n.source m)

end Sys2Proof.Machine

/-- R181, R212, R214, R217, R218: a C entry whose positions have all been moved and stored ends, and finishes no earlier than the
next tick; before that it reads its next block of at most 128 positions, after checking every side of it, or writes the block
that it has read: a `c.copy` between records moves position m to position m, one into an iq takes the codes of its record, a
`c.fill` takes position m mod Ps of its source, each read once, and a `c.scl` converts to FP32 into scale memory. A block that
is read puts the values that lie near into the entry, with messages under way for the others. Completes, as exec (the form) s =
.next (its own effect): cCopy, cFill, cScl. The model's choices in it: log entries 12, 30, 71, 79. -/
def Obligations.CopyEntriesMoveBlocks : Prop :=
  (∀ (s : State) (k n : Entry) (ms : List Nat), Acts s .c k → n = k.settle →
    ((∀ sy rd lay xa xb, rd.toNat < 16 → recP n.lay.get ≤ n.cursor →
      exec (.cCopy sy rd lay xa xb) s = .next (cClose n [] { s with act := .lane })) ∧
    (∀ sy rd lay xa xb, rd.toNat < 16 → n.cursor < recP n.lay.get → tget 0 n.got 0 = 0 →
      exec (.cCopy sy rd lay xa xb) s = .next (readBlock n ((blockAt n.cursor (recP n.lay.get)).flatMap fun m =>
        [srcSide s.turn n m, dstSide s.turn n m]) { s with act := .lane })) ∧
    (∀ sy rd lay xa xb, rd.toNat < 16 → n.cursor < recP n.lay.get → tget 0 n.got 0 ≠ 0 →
      exec (.cCopy sy rd lay xa xb) s = .next (writeBlock n (n.cursor + (blockAt n.cursor (recP n.lay.get)).length) false
        ((blockAt n.cursor (recP n.lay.get)).map fun m => moveTo s.turn n m m) { s with act := .lane }))) ∧
    ((∀ sy rd lay xa xb q id, 16 ≤ rd.toNat → n.iqId = some (q, id) → min 1024 (recP n.lay.get) ≤ n.cursor →
      exec (.cCopy sy rd lay xa xb) s = .next (cClose n [.iq q id (cElem n)] { s with act := .lane })) ∧
    (∀ sy rd lay xa xb, 16 ≤ rd.toNat → n.cursor < min 1024 (recP n.lay.get) → ms = blockAt n.cursor (min 1024 (recP n.lay.get)) →
      (tget 0 n.got 0 = 0 →
        exec (.cCopy sy rd lay xa xb) s = .next (readBlock n (ms.map (sidePlain n.lay.get n.xb true)) { s with act := .lane })) ∧
      (tget 0 n.got 0 ≠ 0 → ∃ e : Tile,
        (∀ m ∈ ms, tget 0 e m = laneCode6 (recFmt n.lay.get) (n.source m)) ∧ (∀ m, m ∉ ms → tget 0 e m = tget 0 (cElem n) m) ∧
        exec (.cCopy sy rd lay xa xb) s = .next ({ s with act := .lane }.setEntry .c
          (blockDone { n with elems := (16, e) :: n.elems.filter fun p => p.1 ≠ 16 } (n.cursor + ms.length) 0 false [] []
            s.tick))))) ∧
    ((∀ sy rd lay xa xb, recP n.lay2.get ≤ n.cursor →
      exec (.cFill sy rd lay xa xb) s = .next (cClose n [] { s with act := .lane })) ∧
    (∀ sy rd lay xa xb, n.cursor < recP n.lay2.get → ms = blockAt n.cursor (recP n.lay2.get) →
      (tget 0 n.got 0 = 0 → ∃ sides : List Side,
        (∀ m ∈ ms, dstSide s.turn n m ∈ sides ∧ (tget 0 n.got (fillMark + m % recP n.lay.get) = 1 ∨
          srcSide s.turn n (m % recP n.lay.get) ∈ sides)) ∧
        (∀ d ∈ sides, ∃ m ∈ ms, d = dstSide s.turn n m ∨ d = srcSide s.turn n (m % recP n.lay.get)) ∧
        exec (.cFill sy rd lay xa xb) s = .next (readBlock n sides { s with act := .lane })) ∧
      (tget 0 n.got 0 ≠ 0 → exec (.cFill sy rd lay xa xb) s = .next (writeBlock
        { n with got := ms.foldl (fun t m => tset 0 t (fillMark + m % recP n.lay.get) 1) n.got } (n.cursor + ms.length) true
        (ms.map fun m => moveTo s.turn n (m % recP n.lay.get) m) { s with act := .lane })))) ∧
    ((∀ sy lay xa xb, recP n.lay.get ≤ n.cursor →
      exec (.cScl sy lay xa xb) s = .next (cClose n [] { s with act := .lane })) ∧
    (∀ sy lay xa xb, n.cursor < recP n.lay.get → ms = blockAt n.cursor (recP n.lay.get) →
      (tget 0 n.got 0 = 0 → exec (.cScl sy lay xa xb) s =
        .next (readBlock n (ms.map fun m => sideOf s.turn n n.lay.get n.xa true m) { s with act := .lane })) ∧
      (tget 0 n.got 0 ≠ 0 → ∃ tb : Tbl W32,
        (∀ m ∈ ms, tget 0 tb (getField n.xb 0 14 + m) = (sclVal s.turn n m).1) ∧
        (∀ a, (∀ m ∈ ms, a ≠ getField n.xb 0 14 + m) → tget 0 tb a = tget 0 s.me.scales a) ∧
        exec (.cScl sy lay xa xb) s = .next ((State.modMe { s with act := .lane } fun x => { x with scales := tb }).setEntry .c
          (blockDone n (n.cursor + ms.length) (ms.foldl (fun f m => f ||| (sclVal s.turn n m).2) 0) false [] [] s.tick))))) ∧
    (∀ m ∈ blockAt n.cursor (recP n.lay.get), n.cursor ≤ m ∧ m < recP n.lay.get ∧ m < n.cursor + 128)) ∧
  (∀ (s u : State) (n : Entry) (sides : List Side), u = s.needAll (entryCtx s.turn .c n) (sides.map (·.va)) →
    (∀ f va, checkSides u (entryCtx s.turn .c n) sides = .error (f, va) →
      readBlock n sides s = (u.poisonAt (entryCtx s.turn .c n) va).setEntry .c (n.fails f s.tick va)) ∧
    (∀ pl, checkSides u (entryCtx s.turn .c n) sides = .ok pl → ∃ (t : State) (ids : List Nat) (k : Nat),
      readBlock n sides s = (t.setEntry .c { n with
        got := nearData (fillAll u pl) s.turn .c (pl.map (·.1)) (tset 0 n.got 0 1), msgs := n.msgs ++ ids,
        more := some (s.tick + max 1 k) }).bump ∧
      ((pl.all fun p => (nearValue (fillAll u pl) s.turn .c p.1).isSome) = true → ids = [])))

namespace Sys2Proof.Machine

/-- The parts that a `c.mcast` writes of a block: position m for every wing-local room q of its mask, at q's port, in the format of the
bank (R116, R215). -/
def mcastParts (r : Nat) (n : Entry) (ms : List Nat) : List Part :=
  ((List.range 64).filter n.mask.getLsbD).flatMap fun q => ms.map fun m =>
    { pos := m, va := recAddr n.lay2.get m 0, place := .scratch (64 * wingOf r + q),
      key := scratchKey (64 * wingOf r + q) (mcastDest n m).1, w := fmtWidth (mcastDest n m).2,
      data := (sideConv (srcSide r n m).fmt (mcastDest n m).2 (n.source m)).1.toNat % 256 ^ fmtWidth (mcastDest n m).2,
      ms := false, watch := false, cmp := false, heat := false }
/-- The parts that a `c.put` writes of a block into a window of this package (R216). -/
def putParts (w : Window) (n : Entry) (ms : List Nat) : List Part :=
  ms.map fun m => windowPart w m (recAddr n.lay2.get m 0).toNat (fmtWidth (recFmt n.lay2.get))
    ((sideConv (recFmt n.lay.get) (recFmt n.lay2.get) (n.source m)).1.toNat % 256 ^ fmtWidth (recFmt n.lay2.get))
/-- A line of a `c.pf`: asked for, or credited at once where it is held or skipped; none twice (R220). -/
def pfAsk (r b : Nat) (satp : W64) (a : Tbl Nat × State) (l : Nat × Option Part) : Tbl Nat × State :=
  if tget 0 a.1 (16 + l.1) ≠ 0 then a
  else (tset 0 a.1 (16 + l.1) 1, match l.2 with
    | some p => if (hitValue a.2 (a.2.partition r) { p with w := 1 }).isSome then
        a.2.sendCredit r b
      else (sendLoad a.2 r (.eng .c) (.credit b) satp [p]).1
    | none => a.2.sendCredit r b)

end Sys2Proof.Machine

/-- R215, R216, R219, R220, R331: a `c.mcast` checks its destinations as it issues, delivers each block to the port of every room
that passed, and ends, with MCAST_PARTIAL where a room failed; a `c.put` sends each block to its window, ends by closing its use
of its origin counter once all of its blocks are accepted, and waits until they are; a `c.strm` binds its iq to its record as it
issues and asks for one element after another, which takes its place in the iq once it has arrived; a `c.pf` asks for each line
or credits it at once, and ends after the last. Completes, as exec (the form) s = .next (its own effect): cMcast, cPut, cStrm,
cPf, streamElementArrival. The model's choices in it: log entries 12, 30, 31, 79. -/
def Obligations.CopyEntriesDeliver : Prop :=
  (∀ (s : State) (k n : Entry) (ms : List Nat), Acts s .c k → n = k.settle →
    (∀ sy rd lay xa xb (c : Entry), c = (if n.mask = 0 ∧ n.mask2 = 0 then mcastCheck n { s with act := .lane } else n) →
      ((c.mask = 0 ∨ recP c.lay.get ≤ c.cursor) →
        (c.mask2 = 0 →
          exec (.cMcast sy rd lay xa xb) s = .next (cClose { c with mask := 0 } [] { s with act := .lane })) ∧
        (c.mask2 ≠ 0 → exec (.cMcast sy rd lay xa xb) s = .next ({ s with act := .lane }.setEntry .c
          { (c.faulted { code := 10, va := (match tget 0 c.got 1 with | 0 => 0 | m + 1 => recAddr c.lay2.get m 0),
                         cursor := BitVec.ofNat 64 (tget 0 c.got 2),
                         detail := c.mask2 }) with xa := c.mask2, mask := 0, mask2 := 0, cursor := 0 }))) ∧
      (c.mask ≠ 0 → c.cursor < recP c.lay.get → ms = blockAt c.cursor (recP c.lay.get) →
        (tget 0 c.got 0 = 0 → exec (.cMcast sy rd lay xa xb) s =
          .next (readBlock c (ms.flatMap (mcastSides s.turn c)) { s with act := .lane })) ∧
        (∀ (v t : State) (tk : Nat) (outs : List (OutStore × List Part)), tget 0 c.got 0 ≠ 0 →
          State.takePasses { s with act := .lane } .c c.qpos s.tick (ownPasses s.turn (mcastParts s.turn c ms)) = (v, tk) →
          sendStore v s.turn (.eng .c) c.satp (mcastParts s.turn c ms) = (t, outs) →
          exec (.cMcast sy rd lay xa xb) s = .next (t.setEntry .c (blockDone c (c.cursor + ms.length)
            (ms.foldl (fun f m => f ||| (sideConv (srcSide s.turn c m).fmt (mcastDest c m).2 (c.source m)).2) 0) false
            (outs.map (·.1)) (outs.map (·.1.id)) (s.tick + max 1 tk)))))) ∧
    (∀ sy rd lay xa xb (c : Entry) (u : State) (b : Nat), tget 0 n.got 4 = b + 1 → n.msgs = [] →
      (c, u) = (if n.mask = 0 then
          ({ n with mask := 1 }, State.modMe { s with act := .lane } fun x => x.putBegins n.xa)
        else (n, { s with act := .lane })) →
      exec (.cPut sy rd lay xa xb) s = .next (u.setEntry .c
        { (c.faulted (accessFault (tget 0 n.got 5) (BitVec.ofNat 64 (tget 0 n.got 6)))) with cursor := b })) ∧
    (∀ sy rd lay xa xb (c : Entry) (u : State), tget 0 n.got 4 = 0 →
      (c, u) = (if n.mask = 0 then
          ({ n with mask := 1 }, State.modMe { s with act := .lane } fun x => x.putBegins n.xa)
        else (n, { s with act := .lane })) →
      (recP n.lay.get ≤ n.cursor → n.msgs = [] →
        exec (.cPut sy rd lay xa xb) s = .next (cClose { c with mask := 0 } [] (u.modMe fun x => x.putEnds n.xa))) ∧
      (recP n.lay.get ≤ n.cursor → n.msgs ≠ [] →
        exec (.cPut sy rd lay xa xb) s = .next (u.setEntry .c { c with more := some (s.tick + 1) })) ∧
      (n.cursor < recP n.lay.get → ms = blockAt n.cursor (recP n.lay.get) →
        (tget 0 n.got 0 = 0 → exec (.cPut sy rd lay xa xb) s = .next (readBlock c (ms.flatMap (putSides u c)) u)) ∧
        (∀ (w : Window) (m : MemMsg) (cls : PartClass), tget 0 n.got 0 ≠ 0 → s.farHandle n.xa = false →
          s.window? s.me.tenant n.xa = some w → ((putParts w c ms).map (watchClass u s.turn (putParts w c ms))).eraseDups = [cls] →
          m = { storeMsg u s.turn .put n.xa (putParts w c ms) with who := .put, store := true } →
          ∃ b : Entry, b.msgs = n.msgs ++ [m.id] ∧ b.cursor = n.cursor + ms.length ∧ b.more = some (s.tick + 1) ∧
            b.qpos = n.qpos ∧
            exec (.cPut sy rd lay xa xb) s =
              .next ((((u.schedule u.openTick (.putAccept m n.xa)).bump).nextId).setEntry .c b)))) ∧
    (∀ sy rd lay xa xb q id, k.iqId = some (q, id) →
      (∀ st : Stream, k.mask = 0 → st = ⟨getField k.xb 0 32, id, 0, 0, k.lay.get, k.xa, k.satp, k.mode, false, [], [], 0, none, false⟩ →
        exec (.cStrm sy rd lay xa xb) s = .next (streamAsk k q ((State.modMe { s with act := .lane } fun x =>
          { x with iq := tmod {} x.iq q fun i => { i with stream := some st } }).setEntry .c
            { k with mask := 1, more := some (s.tick + 1) }))) ∧
      (∀ st, k.mask ≠ 0 → (tget {} s.me.iq q).stream = some st → st.arrived ≠ st.total →
        exec (.cStrm sy rd lay xa xb) s = .next (streamAsk k q ({ s with act := .lane }.setEntry .c
          { k with mask := 1, more := some (s.tick + 1) }))) ∧
      (∀ st, k.mask ≠ 0 → (tget {} s.me.iq q).stream = some st → st.arrived = st.total →
        exec (.cStrm sy rd lay xa xb) s = .next ({ s with act := .lane }.setEntry .c
          { k with mask := 0, more := none, minFin := s.tick }))) ∧
    (∀ sy lay xa xb f, tget 0 k.got 1 = 0 → barrierKey { s with act := .lane } (entryCtx s.turn .c k) k.xb = .error f →
      exec (.cPf sy lay xa xb) s = .next ({ s with act := .lane }.setEntry .c (k.fails f s.tick k.xb))) ∧
    (∀ sy lay xa xb b, (tget 0 k.got 1 = b + 1 ∨ (tget 0 k.got 1 = 0 ∧
        ∃ l, barrierKey { s with act := .lane } (entryCtx s.turn .c k) k.xb = .ok l ∧ l.key = b)) →
      (recP k.lay.get ≤ k.cursor → exec (.cPf sy lay xa xb) s = .next (cClose k [] { s with act := .lane })) ∧
      (∀ (seen : Tbl Nat) (t : State) (lines : Nat → List (Nat × Option Part)), k.cursor < recP k.lay.get →
        ms = blockAt k.cursor (recP k.lay.get) →
        lines = pfLines { s with act := .lane } (entryCtx s.turn .c k) k.lay.get k.xa →
        (ms.flatMap lines).foldl (pfAsk s.turn b k.satp) (tset 0 (if tget 0 k.got 1 = 0 then
          ((List.range k.cursor).flatMap lines).foldl (fun t l => tset 0 t (16 + l.1) 1) k.got else k.got) 1 (b + 1),
          { s with act := .lane }) = (seen, t) →
        exec (.cPf sy lay xa xb) s = .next (t.setEntry .c { k with
          cursor := k.cursor + ms.length, got := seen, more := some (s.tick + 1) })))) ∧
  (∀ (s : State) (r q : Nat) (st : Stream), (tget {} (s.room r).iq q).stream = some st →
    (s.room r).streamReady q s.tick = true →
    ∃ i : Iq, i.stream = some { st with sent := false, got := [], arrived := st.arrived + 1 } ∧
      i.els = ((tget {} (s.room r).iq q).els.takeWhile fun e => e.strm || decide (e.id < st.pos)) ++
        ({ id := 0, strm := true,
           el := some (st.got.foldl (fun t p => tset 0 t p.1 (laneCode6 (recFmt st.lrec) p.2)) [], s.tick) } : IqEl) ::
        ((tget {} (s.room r).iq q).els.dropWhile fun e => e.strm || decide (e.id < st.pos)) ∧
      i.nextId = (tget {} (s.room r).iq q).nextId ∧
      exec (.streamElementArrival r q) s = .next (s.modRoom r fun x => { x with iq := tset {} x.iq q i }))

/-! ## The control core -/

namespace Sys2Proof.Machine

/-- The registers that an integer instruction reads, its destination and its value (R94). -/
def intResultOf (x : Room) : RvInstr → Option (List Reg × Reg × W64)
  | .lui rd imm => some ([], rd, (imm ++ 0#12).signExtend 64)
  | .auipc rd imm => some ([], rd, x.pc + (imm ++ 0#12).signExtend 64)
  | .alu op rd a b => some ([a, b], rd, alu op (x.getX a) (x.getX b))
  | .alui op rd a imm => some ([a], rd, aluImm op (x.getX a) imm)
  | .shift op rd a sh => some ([a], rd, aluShift op (x.getX a) sh.toNat)
  | .unary op rd a => some ([a], rd, aluUnary op (x.getX a))
  | _ => none

/-- The registers that a jump or branch reads and writes, its link register and its target; none as target where it goes on. -/
def jumpOf (x : Room) : RvInstr → Option (List Reg × List Reg × Reg × Option W64)
  | .jal rd off => some ([], [rd], rd, some (x.pc + (off ++ 0#1).signExtend 64))
  | .jalr rd a off => some ([a], [rd], rd, some ((x.getX a + off.signExtend 64) &&& ~~~1#64))
  | .branch op a b off => some ([a, b], [], 0, if branchTaken op (x.getX a) (x.getX b) then
      some (x.pc + (off ++ 0#1).signExtend 64) else none)
  | _ => none

/-- The registers of a floating-point instruction, the last one its destination, with f registers as 32 to 63, its destination, whether that is
an f register, its value and its flags; none for a reserved rounding mode (R95). -/
def fpResultOf (x : Room) : RvInstr → Option (List Nat × Reg × Bool × W64 × Nat)
  | .fop op dbl rm rd a b => (rvRm x rm).map fun m =>
      let v := fpArith op (fpFmt dbl) m (fpVal dbl (x.getF a)) (fpVal dbl (x.getF b))
      ([fnum a, fnum b, fnum rd], rd, true, fpBox dbl v.1, v.2)
  | .fma op dbl rm rd a b c => (rvRm x rm).map fun m =>
      let v := fpFused op (fpFmt dbl) m (fpVal dbl (x.getF a)) (fpVal dbl (x.getF b)) (fpVal dbl (x.getF c))
      ([fnum a, fnum b, fnum c, fnum rd], rd, true, fpBox dbl v.1, v.2)
  | .fq .le dbl rd a b => some ([fnum a, fnum b, rd.toNat], rd, false,
      if Fp.ltV (fpVal dbl (x.getF a)) (fpVal dbl (x.getF b)) || Fp.eqV (fpVal dbl (x.getF a)) (fpVal dbl (x.getF b)) then 1 else 0,
      if (fpVal dbl (x.getF a)).isNan || (fpVal dbl (x.getF b)).isNan then Fp.NV else 0)
  | .fq .lt dbl rd a b => some ([fnum a, fnum b, rd.toNat], rd, false,
      if Fp.ltV (fpVal dbl (x.getF a)) (fpVal dbl (x.getF b)) then 1 else 0,
      if (fpVal dbl (x.getF a)).isNan || (fpVal dbl (x.getF b)).isNan then Fp.NV else 0)
  | .fq .eq dbl rd a b => some ([fnum a, fnum b, rd.toNat], rd, false,
      if Fp.eqV (fpVal dbl (x.getF a)) (fpVal dbl (x.getF b)) then 1 else 0,
      max (Fp.sigFlag (fpVal dbl (x.getF a))) (Fp.sigFlag (fpVal dbl (x.getF b))))
  | .fq .sgnj dbl rd a b => some ([fnum a, fnum b, fnum rd], rd, true, fpBox dbl
      (withSignOf (fpFmt dbl) (fpRead dbl (x.getF a)) (negCode (fpFmt dbl) (fpRead dbl (x.getF b)))), 0)
  | .fq .sgnjn dbl rd a b => some ([fnum a, fnum b, fnum rd], rd, true, fpBox dbl
      (withSignOf (fpFmt dbl) (fpRead dbl (x.getF a)) (!negCode (fpFmt dbl) (fpRead dbl (x.getF b)))), 0)
  | .fq .sgnjx dbl rd a b => some ([fnum a, fnum b, fnum rd], rd, true, fpBox dbl
      (withSignOf (fpFmt dbl) (fpRead dbl (x.getF a))
        (negCode (fpFmt dbl) (fpRead dbl (x.getF a)) != negCode (fpFmt dbl) (fpRead dbl (x.getF b)))), 0)
  | .fq .min dbl rd a b =>
      let v := fpMinMax (fpFmt dbl) false (fpRead dbl (x.getF a)) (fpRead dbl (x.getF b))
      some ([fnum a, fnum b, fnum rd], rd, true, fpBox dbl v.1, v.2)
  | .fq .max dbl rd a b =>
      let v := fpMinMax (fpFmt dbl) true (fpRead dbl (x.getF a)) (fpRead dbl (x.getF b))
      some ([fnum a, fnum b, fnum rd], rd, true, fpBox dbl v.1, v.2)
  | .fmvFromX dbl rd a => some ([a.toNat, fnum rd], rd, true,
      fpBox dbl (if dbl then (x.getX a).toNat else (low32 (x.getX a)).toNat), 0)
  | .fq .cls dbl rd a _ => some ([fnum a, rd.toNat], rd, false,
      BitVec.ofNat 64 (Fp.classOf (fpFmt dbl) (fpRead dbl (x.getF a))), 0)
  | .fq .mvxf dbl rd a _ => some ([fnum a, rd.toNat], rd, false, if dbl then x.getF a else sx32 (x.getF a), 0)
  | .fcvtToInt ty dbl rm rd a => (rvRm x rm).map fun m =>
      let v := Fp.rvToInt (intSigned ty) (intWidth ty) m (fpVal dbl (x.getF a))
      ([fnum a, rd.toNat], rd, false, intResult ty v.1, v.2)
  | .fcvtFromInt ty dbl rm rd a => (rvRm x rm).map fun m =>
      let v := Fp.roundInt (fpFmt dbl) m false (intValue ty (x.getX a)) 0
      ([a.toNat, fnum rd], rd, true, fpBox dbl v.1, v.2)
  | .fcvtFmt toDbl rm rd a => (rvRm x rm).map fun m =>
      let v := fpConvert (fpFmt toDbl) m (fpVal (!toDbl) (x.getF a))
      ([fnum a, fnum rd], rd, true, fpBox toDbl v.1, v.2)
  | _ => none

/-- A room after a floating-point result. -/
def Room.takeFp (x : Room) (rd : Reg) (isF : Bool) (v : W64) (fl : Nat) : Room :=
  if isF then ((x.setF rd v).orFflags fl).fpDirty else if fl = 0 then x.setX rd v else ((x.setX rd v).orFflags fl).fpDirty

/-- What a load reads and writes. -/
structure LoadForm where
  base : Nat                       -- its address register
  reg  : Nat                       -- its destination, an f register from 32 on
  va   : W64
  w    : Nat
  dest : Dest
  put  : Nat → Room → Room         -- what its bytes leave in the room
/-- The form of a load; of a load of an f register none while FS is Off. -/
def loadOf (x : Room) : RvInstr → Option LoadForm
  | .load op rd a off => some ⟨a.toNat, rd.toNat, x.getX a + off.signExtend 64, ldWidth op, .x rd op,
      fun v y => y.setX rd (loadValue op v)⟩
  | .fload dbl rd a off => if x.fpOn then some ⟨a.toNat, fnum rd, x.getX a + off.signExtend 64, if dbl then 8 else 4, .f rd dbl,
      fun v y => (y.setF rd (floadValue dbl v)).fpDirty⟩ else none
  | _ => none
/-- The same of a store, with its data. -/
def storeOf (x : Room) : RvInstr → Option (List Nat × W64 × Nat × Nat)
  | .store op a b off => some ([a.toNat, b.toNat], x.getX a + off.signExtend 64, stWidth op, (x.getX b).toNat)
  | .fstore dbl a b off => if x.fpOn then some ([a.toNat, fnum b], x.getX a + off.signExtend 64, if dbl then 8 else 4,
      (x.getF b).toNat) else none
  | _ => none

end Sys2Proof.Machine

/-- R9, R21, R37, R94: an integer instruction whose registers do not wait writes its result and goes on to the next lane a tick
later; x0 stays 0. Division by zero gives all ones and leaves the dividend as remainder, the most negative number divided by -1
gives itself and 0, quotient and remainder satisfy a = b q + r, and the high and low halves form the exact product. Completes,
as exec (the form) s = .next (its own effect): rvScalarInstruction. -/
def Obligations.ScalarIntegerLanesAndDivision : Prop :=
  (∀ (i : RvInstr) (s : State) (regs : List Reg) (rd : Reg) (v : W64), intResultOf s.me i = some (regs, rd, v) →
    s.Free regs [rd] →
    ∃ x, exec (.rvScalarInstruction i) s = .next (s.setRoom s.turn x) ∧
      x.pc = nextPc s.me.pc ∧ x.nextDispatch = s.tick + 1 ∧ x.hold = .none ∧ x.disp = s.me.disp + 1 ∧
      (rd ≠ 0 → x.getX rd = v) ∧ x.getX 0 = 0 ∧ (∀ q, q ≠ rd → x.getX q = s.me.getX q) ∧
      { x with pc := s.me.pc, nextDispatch := s.me.nextDispatch, hold := s.me.hold, disp := s.me.disp, x := s.me.x } = s.me) ∧
  (∀ a b : W64, alu .div a 0 = -1#64 ∧ alu .divu a 0 = -1#64 ∧ alu .rem a 0 = a ∧ alu .remu a 0 = a ∧
    alu .div 0x8000000000000000#64 (-1#64) = 0x8000000000000000#64 ∧ alu .rem 0x8000000000000000#64 (-1#64) = 0 ∧
    b * alu .div a b + alu .rem a b = a ∧ b * alu .divu a b + alu .remu a b = a ∧
    2 ^ 64 * (alu .mulhu a b).toNat + (alu .mul a b).toNat = a.toNat * b.toNat ∧
    2 ^ 64 * (alu .mulh a b).toInt + ((alu .mul a b).toNat : Int) = a.toInt * b.toInt ∧
    2 ^ 64 * (alu .mulhsu a b).toInt + ((alu .mul a b).toNat : Int) = a.toInt * (b.toNat : Int))

/-- R21, R22: a jump or taken branch to a multiple of 4 writes its link register with the address of the next lane and goes to its
target, lane offset 0 meaning the lane at offset 4; any other target raises instruction-address-misaligned with the target in
xtval; a branch that is not taken goes on. Completes, as exec (the form) s = .next (its own effect): rvScalarInstruction. -/
def Obligations.ScalarJumps : Prop :=
  ∀ (i : RvInstr) (s : State) (regs dest : List Reg) (rd : Reg) (t : Option W64), jumpOf s.me i = some (regs, dest, rd, t) →
    s.Free regs dest →
    (t = none → exec (.rvScalarInstruction i) s = .next s.done) ∧
    (∀ a, t = some a → a.toNat % 4 = 0 →
      exec (.rvScalarInstruction i) s = .next (s.modMe fun x => (x.setX rd (nextPc x.pc)).retireTo s.tick a) ∧
      ((s.me.setX rd (nextPc s.me.pc)).retireTo s.tick a).pc = (if a.toNat % 32 = 0 then a + 4 else a)) ∧
    (∀ a, t = some a → a.toNat % 4 ≠ 0 → exec (.rvScalarInstruction i) s = .next (s.exc 0 a))

/-- R95: with FS not Off a floating-point instruction rounds in its own mode or that of fcsr, boxes its result and adds its flags to
fcsr; with FS Off it is illegal. Completes, as exec (the form) s = .next (its own effect): rvScalarInstruction. -/
def Obligations.ScalarFloatLanes : Prop :=
  ∀ (i : RvInstr) (s : State) (regs : List Nat) (rd : Reg) (isF : Bool) (v : W64) (fl : Nat),
    fpResultOf s.me i = some (regs, rd, isF, v, fl) →
    (s.me.fpOn = true → s.me.pendingAny regs = false → s.me.lateAny s.tick (regs.take (regs.length - 1)) = false →
      exec (.rvScalarInstruction i) s = .next (s.setRoom s.turn ((s.me.takeFp rd isF v fl).retire s.tick))) ∧
    (s.me.fpOn = false → exec (.rvScalarInstruction i) s = .next s.illegal)

/-- R22, R95, R192, R283, R285, R300, R352, R402: a load or store of the control core that is misaligned raises address-misaligned,
in the port range the access fault, and any other failing check its exception; a load of a line that a copy holds, with no
earlier load or atomic of the line on its way, writes the value that the copy gives, and any other load asks its home; a store
that needs no key, waits for no own atomic or buffered store to its line and meets no lost link is sent as one store
instruction, where the coherence class has room for it; `sfence.vma` of x0 and x0 drops the tenant's leaves. Completes, as exec
(the form) s = .next (its own effect): rvScalarInstruction. The model's choices in it: log entries 12, 17, 18, 19, 20, 41, 79. -/
def Obligations.ScalarLoadsAndStores : Prop :=
  ∀ (s : State),
    (∀ i f u c, loadOf s.me i = some f → s.me.pendingAny [f.base, f.reg] = false → s.me.lateAny s.tick [f.base] = false →
      c = coreCtx s.turn s.me false → u = s.needTier c f.va →
      (f.va.toNat % f.w ≠ 0 → (∀ l, place u c .load f.va = .ok l → l.place ≠ .port) →
        exec (.rvScalarInstruction i) s = .next (u.exc 4 f.va)) ∧
      (∀ l, f.va.toNat % f.w ≠ 0 → place u c .load f.va = .ok l → l.place = .port →
        exec (.rvScalarInstruction i) s = .next (u.exc 5 f.va)) ∧
      (∀ e, coreLoc u .load f.va f.w = .error e → exec (.rvScalarInstruction i) s = .next (u.rvExc e f.va)) ∧
      (∀ l p, coreLoc u .load f.va f.w = .ok l → s.me.atomOn (lineOf l.key) = false → p = partOf ⟨0, f.va, f.w⟩ l 0 →
        (∀ v, s.me.loadPending = false → (u.fillTlb l).atomOnWay s.turn (lineOf p.key) = false →
          coreHit (u.fillTlb l) s.turn p = some v →
          ∃ t, exec (.rvScalarInstruction i) s = .next t ∧
            t = (u.fillTlb l).modMe (fun x => (f.put v x).retire s.tick) ∧ (s.TierSettled → t.mem = s.mem)) ∧
        (∀ (t : State) (ids : List Nat), s.me.loadPending = true ∨ (u.fillTlb l).atomOnWay s.turn (lineOf p.key) = true ∨
            coreHit (u.fillTlb l) s.turn p = none → (u.fillTlb l).cohFull s.turn = false →
          sendLoad (u.fillTlb l) s.turn .core f.dest c.satp [p] = (t, ids) →
          exec (.rvScalarInstruction i) s = .next (t.modMe fun x => if (partFault t p).isSome then
            (x.await (ids.headD 0) [f.reg] false true).holdOn (.answer (ids.headD 0))
            else (x.await (ids.headD 0) [f.reg] false true).retire s.tick)))) ∧
    (∀ i regs va w data u c, storeOf s.me i = some (regs, va, w, data) → s.me.pendingAny regs = false →
      s.me.lateAny s.tick regs = false → c = coreCtx s.turn s.me false → u = s.needTier c va →
      (va.toNat % w ≠ 0 → (∀ l, place u c .store va = .ok l → l.place ≠ .port) →
        exec (.rvScalarInstruction i) s = .next (u.exc 6 va)) ∧
      (∀ l, va.toNat % w ≠ 0 → place u c .store va = .ok l → l.place = .port →
        exec (.rvScalarInstruction i) s = .next (u.exc 7 va)) ∧
      (∀ e, coreLoc u .store va w = .error e → exec (.rvScalarInstruction i) s = .next (u.rvExc e va)) ∧
      (∀ l p t outs ids, coreLoc u .store va w = .ok l → s.me.atomOn (lineOf l.key) = false → p = partOf ⟨0, va, w⟩ l data →
        keysWanted u s.turn [p] = [] → u.storeWaits s.turn .core [p] = false → u.bufferedTo s.turn [p] = [] →
        u.lost l.place l.key = false → u.cohFull s.turn = false →
        issueStore (u.fillTlb l) s.turn .core c.satp [p] = (t, outs, ids) →
        exec (.rvScalarInstruction i) s =
          .next (t.modMe fun x => ({ x with stores := x.stores ++ outs }).retire s.tick))) ∧
    (s.me.mode = .m → exec (.rvScalarInstruction (.sfenceVma 0 0)) s =
      .next (State.modMe { s with tlb := s.tlb.filter fun e => e.tenant ≠ s.me.tenant } fun x => x.retire s.tick))

/-- R27, R29, R84, R96, R109, R114, R233, R352, R360: a legal write of a CSR puts the value that the operation forms into the fields
that can be written and the old value into rd; QLP bits written as 1 clear; codes 8 to 15 leave their field of BANKFMT; only
tenant 0 outside U mode sets HEATCFG, from the next period on; an illegal access raises illegal-instruction. Only tenant 0
writes the registers LCFG and TSATP of the port range. Completes, as exec (the form) s = .next (its own effect): qslipWrite,
qwmarkWrite, vflagsWrite, bankfmtWrite, heatcfgWrite, satpWrite, registerWrite, rvScalarInstruction. The model's choices in it:
log entries 5, 19, 25. -/
def Obligations.CsrWrites : Prop :=
  ∀ (s : State) (f3 : BitVec 3) (rd rs1 : Reg) (old v : W64),
    s.Free (if f3.getLsbD 2 then [] else [rs1]) [rd] →
    (∀ n, old = csrRead s s.turn n → v = csrNew f3 old (if f3.getLsbD 2 then rs1.setWidth 64 else s.me.getX rs1) →
      (n = 0x800 → exec (.qslipWrite f3 rd rs1) s = .next ((s.modMe fun x => { x with qslip := v &&& 0x3F1F7F7F7F#64 }).doneX rd old)) ∧
      (n = 0x801 → exec (.qwmarkWrite f3 rd rs1) s = .next ((s.modMe fun x =>
        { x with qwmark := (v &&& 0x1F001F0F3F3F3F#64) ||| (x.qwmark &&& 0x1F0000000000#64 &&& ~~~v) }).doneX rd old)) ∧
      (n = 0x803 → exec (.vflagsWrite f3 rd rs1) s = .next ((s.modMe fun x => { x with vflags := v &&& vflagsMask }).doneX rd old)) ∧
      (n = 0x804 → ∃ w, exec (.bankfmtWrite f3 rd rs1) s = .next ((s.modMe fun x => { x with bankfmt := w }).doneX rd old) ∧
        ∀ b, b < 16 → getField w (4 * b) 4 = if getField v (4 * b) 4 < 8 then getField v (4 * b) 4
          else getField s.me.bankfmt (4 * b) 4) ∧
      (n = 0x810 → exec (.heatcfgWrite f3 rd rs1) s = .next ((if s.me.tenant = 0 ∧ s.me.mode ≠ .u then
          s.modHall fun h => { h with heatNew := some (getField v 0 4, getField v 4 5) } else s).doneX rd old)) ∧
      (n = 0x180 → csrLegal s.me n true = true → exec (.satpWrite f3 rd rs1) s = .next ((s.modMe fun x =>
        { x with csr := { x.csr with satp := satpNew x.csr.satp v } }).doneX rd old)) ∧
      (∀ c, c.csr.toNat = n → c.f3 = f3 → c.rd = rd → c.rs1 = rs1 → csrLegal s.me n true = true →
        n ∉ [0x805, 0x809, 0x80A] → exec (.registerWrite (.csr c)) s = .next ((s.modMe fun x =>
          { x with csr := csrSet x.csr n v x.disp }).doneX rd old)) ∧
      (∀ c, c.csr.toNat = n → c.f3 = f3 → c.rd = rd → c.rs1 = rs1 → csrLegal s.me n true = false →
        exec (.registerWrite (.csr c)) s = .next s.illegal) ∧
      (∀ c, c.csr.toNat = n → c.f3 = f3 → c.rd = rd → c.rs1 = rs1 → csrLegal s.me n false = true →
        exec (.rvScalarInstruction (.csr c)) s = .next (s.doneX rd old))) ∧
    (∀ pa w who, portReg (pa - portBase) ≠ .mbcmd →
      who = 0 ∨ (∀ n, portReg (pa - portBase) ≠ .lcfg n ∧ portReg (pa - portBase) ≠ .tsatp n) →
      exec (.registerWrite (.port pa w who)) s = .next (portStore s (portReg (pa - portBase)) w)) ∧
    (∀ pa w who n, who ≠ 0 → portReg (pa - portBase) = .lcfg n ∨ portReg (pa - portBase) = .tsatp n →
      exec (.registerWrite (.port pa w who)) s = .next s)

/-- R24, R28, R78, R338, R339, R341, R401: a trap that a lane boundary takes ends a hold without effect and saves the pc of the lane
not yet dispatched, the cause, xtval, the interrupt enable and the mode, records the cut and, for a device exception, FAULTREC,
and goes to the handler in S mode where it is delegated and else in M mode; into a vector of 0 it ends the iteration with CAUSE
3; `ecall` and `ebreak` take theirs at the lane. Completes, as exec (the form) s = .next (its own effect): trap,
rvScalarInstruction. The model's choices in it: log entries 16, 18, 55. -/
def Obligations.TrapsAreTaken : Prop :=
  ∀ (s : State) (r : Nat) (t : Trap),
    (∀ (u : State) (epc : W64), trapTaken s r = some t →
      u = (s.endHold r).modRoom r (fun x =>
        { x with misuse := if t.int then x.misuse else x.misuse.drop 1, disp := if x.hold = .wfi then x.disp + 1 else x.disp }) →
      epc = (if (s.room r).hold = .wfi then nextPc (s.room r).pc else (s.room r).pc) →
      ((if trapToS (s.room r) t then (s.room r).csr.stvec else (s.room r).csr.mtvec) ≠ 0 →
        exec (.trap r) s = .next (u.setRoom r (enterTrap (u.room r) s.tick t epc))) ∧
      ((if trapToS (s.room r) t then (s.room r).csr.stvec else (s.room r).csr.mtvec) = 0 → ∃ v recs,
        exec (.trap r) s = .next v ∧ (v.room r).dying = some (none, recs) ∧
        v = endRooms (u.modRoom r fun x => { x with nextDispatch := s.tick + 1 }) [r] [] 3 255 t.cause)) ∧
    (∀ (x : Room) (now : Nat) (epc : W64), (enterTrap x now t epc).faultrec =
      (match t.lane with | some a => faultRecWord a t.code t.outc | none => x.faultrec) ∧ (enterTrap x now t epc).hold = .none) ∧
    (∀ (x : Room) (now : Nat) (epc : W64), trapToS x t = false →
      (enterTrap x now t epc).csr.mepc = epc ∧ (enterTrap x now t epc).csr.mcause = t.cause ∧
      (enterTrap x now t epc).csr.mtval = t.tval ∧ (enterTrap x now t epc).mode = .m ∧
      getField (enterTrap x now t epc).csr.mstatus 3 1 = 0 ∧
      getField (enterTrap x now t epc).csr.mstatus 7 1 = getField x.csr.mstatus 3 1 ∧
      getField (enterTrap x now t epc).csr.mstatus 11 2 = modeNum x.mode ∧
      (enterTrap x now t epc).csr.sepc = x.csr.sepc ∧ (enterTrap x now t epc).x = x.x ∧
      (enterTrap x now t epc).pc = handlerPc x.csr.mtvec t) ∧
    (∀ (x : Room) (now : Nat) (epc : W64), trapToS x t = true →
      (enterTrap x now t epc).csr.sepc = epc ∧ (enterTrap x now t epc).csr.scause = t.cause ∧
      (enterTrap x now t epc).csr.stval = t.tval ∧ (enterTrap x now t epc).mode = .s ∧
      getField (enterTrap x now t epc).csr.mstatus 1 1 = 0 ∧
      getField (enterTrap x now t epc).csr.mstatus 5 1 = getField x.csr.mstatus 1 1 ∧
      getField (enterTrap x now t epc).csr.mstatus 8 1 = modeNum x.mode ∧
      (enterTrap x now t epc).csr.mepc = x.csr.mepc ∧ (enterTrap x now t epc).x = x.x ∧
      (enterTrap x now t epc).pc = handlerPc x.csr.stvec t) ∧
    (∀ (x : Room) (now : Nat) (epc : W64), (enterTrap x now t epc).qseq0 = x.cut.1 ∧
      (enterTrap x now t epc).qseq1 = x.cut.2.1 ∧ (enterTrap x now t epc).qseq2 = x.cut.2.2) ∧
    (s.me.deferred = 0 → s.me.csr.mtvec ≠ 0 → s.me.csr.stvec ≠ 0 →
      exec (.rvScalarInstruction .ecall) s = .next (s.setRoom s.turn (enterTrap s.me s.tick
        ⟨false, match s.me.mode with | .u => 8 | .s => 9 | .m => 11, 0, none, 0⟩ s.me.pc)) ∧
      exec (.rvScalarInstruction .ebreak) s = .next (s.setRoom s.turn (enterTrap s.me s.tick ⟨false, 3, s.me.pc, none, 0⟩ s.me.pc)))

/-- R24, R95: `mret` in M mode and `sret` in S or M mode restore the mode and the enable that the trap saved and go to xepc;
elsewhere they are illegal. `wfi` goes on while an interrupt is pending and enabled, and else stops dispatch. Completes, as exec
(the form) s = .next (its own effect): xret, wfi. The model's choices in it: log entry 16. -/
def Obligations.ReturnsAndWfi : Prop :=
  ∀ s : State,
    (s.me.mode = .m → ∃ x, exec (.xret true) s = .next (s.setRoom s.turn x) ∧ x.pc = laneTarget s.me.csr.mepc ∧
      (getField s.me.csr.mstatus 11 2 ≠ 2 → modeNum x.mode = getField s.me.csr.mstatus 11 2) ∧
      getField x.csr.mstatus 3 1 = getField s.me.csr.mstatus 7 1 ∧ getField x.csr.mstatus 7 1 = 1 ∧
      getField x.csr.mstatus 11 2 = 0 ∧ x.x = s.me.x ∧ x.csr.mepc = s.me.csr.mepc) ∧
    (s.me.mode = .m ∨ (s.me.mode = .s ∧ s.me.csr.mstatus.getLsbD 22 = false) →
      ∃ x, exec (.xret false) s = .next (s.setRoom s.turn x) ∧ x.pc = laneTarget s.me.csr.sepc ∧
        modeNum x.mode = getField s.me.csr.mstatus 8 1 ∧ getField x.csr.mstatus 1 1 = getField s.me.csr.mstatus 5 1 ∧
        getField x.csr.mstatus 5 1 = 1 ∧ getField x.csr.mstatus 8 1 = 0 ∧ x.x = s.me.x ∧ x.csr.sepc = s.me.csr.sepc) ∧
    (s.me.mode ≠ .m → exec (.xret true) s = .next s.illegal) ∧
    (s.me.mode = .u → exec (.xret false) s = .next s.illegal) ∧
    (mipOf s s.turn &&& s.me.csr.mie ≠ 0 → exec .wfi s = .next s.done) ∧
    (mipOf s s.turn &&& s.me.csr.mie = 0 → s.me.mode = .m ∨ s.me.csr.mstatus.getLsbD 21 = false →
      exec .wfi s = .next (s.modMe fun x => { x with hold := .wfi }))

/-- R79 to R84: `tsig` pushes the X to C token, noting the last store of the control core so far, and `twait` pops the C to X token,
or hold dispatch until they can; `efence` notes the last entry of each queue that its mask names and holds until all of those
have retired; `cq.pop` takes the oldest value that was pushed before this tick, holding dispatch while there is none; `cq.try`
takes it too, or answers 0, and says which in CQSTAT. Completes, as exec (the form) s = .next (its own effect): tsig, twait,
tsigPush, twaitPop, efence, efenceRelease, cqPop, cqTry, cqPopTake. -/
def Obligations.TokensAndTheControlQueue : Prop :=
  ∀ (s : State) (r : Nat),
    (∀ x : Room, x.release.tokS = (x.pushToken tokXC).tokS ∧ x.release.rel = x.rel ++ [tget 0 x.lastDue coreStoreKey] ∧
      { x.release with tokS := x.tokS, rel := x.rel } = x) ∧
    (s.me.tokenCount tokXC < 31 → exec .tsig s = .next (s.modMe fun x => x.release.retire s.tick)) ∧
    (31 ≤ s.me.tokenCount tokXC → exec .tsig s = .next (s.modMe fun x => { x with hold := .tsig })) ∧
    (1 ≤ s.me.tokens tokCX → exec .twait s = .next (s.modMe fun x => (x.popToken tokCX).retire s.tick)) ∧
    (s.me.tokens tokCX = 0 → exec .twait s = .next (s.modMe fun x => { x with hold := .twait })) ∧
    ((s.room r).hold = .tsig → (s.room r).tokenCount tokXC < 31 →
      exec (.tsigPush r) s = .next (s.modRoom r fun x => x.release.retire s.tick)) ∧
    ((s.room r).hold = .twait → 1 ≤ (s.room r).tokens tokCX →
      exec (.twaitPop r) s = .next (s.modRoom r fun x => (x.popToken tokCX).retire s.tick)) ∧
    (∀ (m : Reg) (last : Nat → Eng → Option Nat),
      last = (fun i e => if m.getLsbD i then ((s.me.queue e).q.getLast?).map (·.qpos) else none) →
      ((∀ p ∈ [(0, Eng.l), (1, .v), (2, .s), (3, .m), (4, .c)], last p.1 p.2 = none) → exec (.efence m) s = .next s.done) ∧
      ((∃ p ∈ [(0, Eng.l), (1, .v), (2, .s), (3, .m), (4, .c)], last p.1 p.2 ≠ none) → exec (.efence m) s =
        .next (s.modMe fun x => { x with hold := .efence (last 0 .l) (last 1 .v) (last 2 .s) (last 3 .m) (last 4 .c) }))) ∧
    (∀ l v w m c, (s.room r).hold = .efence l v w m c →
      ((∀ p ∈ [(Eng.l, l), (.v, v), (.s, w), (.m, m), (.c, c)], ∀ n ∈ ((s.room r).queue p.1).q, p.2 ≠ some n.qpos) →
        exec (.efenceRelease r) s = .next (s.modRoom r fun x => x.retire s.tick)) ∧
      ((∃ p ∈ [(Eng.l, l), (.v, v), (.s, w), (.m, m), (.c, c)], ∃ n ∈ ((s.room r).queue p.1).q, p.2 = some n.qpos) →
        exec (.efenceRelease r) s = .next (s.modRoom r fun x => x))) ∧
    (∀ xd v t rest, s.Free [] [xd] → s.me.cq = (v, t) :: rest → t < s.tick →
      exec (.cqPop xd) s = .next (s.modMe fun x => (({ x with cq := rest }).setX xd v).retire s.tick) ∧
      exec (.cqTry xd) s = .next (s.modMe fun x => (({ x with cq := rest, cqTry := true }).setX xd v).retire s.tick)) ∧
    (∀ xd, s.Free [] [xd] → s.me.cq = [] →
      exec (.cqPop xd) s = .next (s.modMe fun x => { x with hold := .cqPop xd }) ∧
      exec (.cqTry xd) s = .next (s.modMe fun x => (({ x with cqTry := false }).setX xd 0).retire s.tick)) ∧
    (∀ xd v t rest, (s.room r).hold = .cqPop xd → (s.room r).cq = (v, t) :: rest → t < s.tick →
      exec (.cqPopTake r) s = .next (s.modRoom r fun x => (({ x with cq := rest }).setX xd v).retire s.tick))

/-- R77, R87 to R93, R95, R288, R323, R375: `cal.now` reads the tick; `cal.wait` goes on at its target; `bnet` permutes 128 bits
into a register that can be read from two ticks later on; `bnet.ld` writes a pattern from its 64 bytes; `job.self` answers two
ticks later; `job.wait` holds while the tenant's job is incomplete; `fence` goes on when nothing that it orders is under way;
`fence.v` goes on at the horizon; `iter.end` and `wt.end` hold until the iteration is reported. Completes, as exec (the form) s
= .next (its own effect): calNow, calWait, calWaitRelease, bnet, bnetLd, jobSelf, jobWait, jobWaitRelease, rvFence, rvFenceI,
fenceV, fenceVRelease, iterEnd, wtEnd. The model's choices in it: log entries 11, 12. -/
def Obligations.TimeFencesAndJobs : Prop :=
  ∀ (s : State) (xd xs1 xs2 : Reg),
    (s.Free [] [xd] → exec (.calNow xd) s = .next (s.modMe fun x => (x.setX xd (BitVec.ofNat 64 s.tick)).retire s.tick)) ∧
    (s.Free [xs1] [] → calTarget (s.me.getX xs1) s.tick = s.tick + 1 → exec (.calWait xs1) s = .next s.done) ∧
    (s.Free [xs1] [] → calTarget (s.me.getX xs1) s.tick ≠ s.tick + 1 →
      exec (.calWait xs1) s = .next (s.modMe fun x => { x with hold := .calWait (calTarget (s.me.getX xs1) s.tick) })) ∧
    (∀ (v : W64) (d : Nat), d < calTarget v d ∧
      (v.getLsbD 63 = false → calTarget v d = max v.toNat (d + 1)) ∧
      (v.getLsbD 63 = true → calTarget v d % 4096 = 64 * (v.toNat % 64) ∧ calTarget v d ≤ d + 4096)) ∧
    (∀ r t, (s.room r).hold = .calWait t → t ≤ s.tick →
      exec (.calWaitRelease r) s = .next (s.modRoom r fun x => x.retire (s.tick - 1))) ∧
    (∀ p, s.Free [xs1, xs2] [xd] → ∃ v : W64,
      (∀ j, j < 64 → v.getLsbD j = (decide (s.me.pattern p.toNat j ≠ 127) &&
        (s.me.getX xs2 ++ s.me.getX xs1 : BitVec 128).getLsbD (s.me.pattern p.toNat j))) ∧
      exec (.bnet p xd xs1 xs2) s = .next (s.modMe fun x =>
        { (x.setX xd v).retire s.tick with late := some (xd.toNat, s.tick + 2) })) ∧
    (∀ (u : State) c l v p, s.Free [xs1, xs2] [] → c = { s.devCtx with repl := true } → u = s.needTier c (s.me.getX xs1) →
      coreLoc u .load (s.me.getX xs1) 64 c = .ok l → l.place ≠ .port →
      s.me.atomOn (lineOf l.key) = false → s.me.loadPending = false → p = partOf ⟨0, s.me.getX xs1, 64⟩ l 0 →
      (u.fillTlb l).atomOnWay s.turn (lineOf p.key) = false → coreHit (u.fillTlb l) s.turn p = some v →
      exec (.bnetLd xs1 xs2) s = .next ((u.fillTlb l).modMe fun x =>
        ({ x with bnet := tset [] x.bnet (getField (s.me.getX xs2) 0 3) (patternOf v) }).retire s.tick)) ∧
    (∀ u, s.Free [] [xd] → s.me.deferred < 8 → s.me.run = some u →
      exec (.jobSelf xd) s = .next ((s.schedule (s.tick + 2) (.deferredAnswer s.turn
        (valueAnswer s.seq (selfWord s.turn u) s.me.pc s.me.curWord))).deferX xd)) ∧
    (s.Free [xs1] [] → s.ownJob s.me.tenant (getField (s.me.getX xs1) 0 32) = true →
      exec (.jobWait xs1) s = .next (s.modMe fun x => { x with hold := .jobWait (getField (s.me.getX xs1) 0 32) })) ∧
    (s.Free [xs1] [] → s.ownJob s.me.tenant (getField (s.me.getX xs1) 0 32) = false → exec (.jobWait xs1) s = .next s.done) ∧
    (∀ r h, (s.room r).hold = .jobWait h → s.job? h = none →
      exec (.jobWaitRelease r) s = .next ((s.modRoom r fun x => x.retire (s.boundedTick - 1)).bump) ∧
      s.tick + 1 ≤ s.boundedTick ∧ s.boundedTick ≤ s.tick + 64) ∧
    (∀ imm, s.me.loadPending = false → coreStoresUnderWay s s.turn = false →
      exec (.rvFence xd xs1 imm) s = .next s.done ∧
      exec (.rvFenceI xd xs1 imm) s = .next (s.done.modMe fun x => { x with line := none })) ∧
    (((passWanted s s.turn).drainRoom s.turn).me.visible ((passWanted s s.turn).drainRoom s.turn).tick = true →
      exec .fenceV s = .next ((passWanted s s.turn).drainRoom s.turn).done) ∧
    (∀ r, (s.room r).hold = .fenceV → (s.room r).visible s.tick = true →
      exec (.fenceVRelease r) s = .next ((s.drainRoom r).modRoom r fun x => x.retire (s.tick - 1))) ∧
    (s.me.vhzPend = false → exec .iterEnd s = .next (s.modMe fun x => { x with hold := .iterEnd }) ∧
      exec .wtEnd s = .next (s.modMe fun x => { x with hold := .iterEnd })) ∧
    (s.me.vhzPend = true → exec .iterEnd s = .next (s.drainRoom s.turn).wait ∧ exec .wtEnd s = .next (s.drainRoom s.turn).wait)

/-! ## Slot pools -/

namespace Sys2Proof.Machine

/-- The operation of a pool instruction, its xd, its xs1 and its xs2 (R57). -/
def poolOf : Instr → Option (PoolOp × Reg × Reg × Reg)
  | .pwOpen xd xs1 => some (.open, xd, xs1, 0)
  | .pwCommit xd xs1 xs2 => some (.commit, xd, xs1, xs2)
  | .pwDrop xs1 => some (.drop, 0, xs1, 0)
  | .prAcq xd xs1 xs2 => some (.acq, xd, xs1, xs2)
  | .prRel xs1 xs2 => some (.rel, 0, xs1, xs2)
  | .pStat xd xs1 xs2 => some (.stat, xd, xs1, xs2)
  | _ => none

/-- A pool as registration and the decisions leave it: NREAD is at most NSLOT - 2 (R51), the one WRITING slot is the writing
slot, and a reader holds only a COMPLETE slot. -/
structure Pool.Ok (p : Pool) : Prop where
  room    : p.nread + 2 ≤ p.nslot
  writing : ∀ i, (p.slot i).state = 1 ↔ p.wslot = some i
  inside  : ∀ i, p.wslot = some i → i < p.nslot
  held    : ∀ r i, p.held? r = some i → r < p.nread ∧ i < p.nslot ∧ (p.slot i).state = 2

end Sys2Proof.Machine

/-- R10, R53, R57, R77, R85: a pool instruction whose registers do not wait sends one request to the descriptor's home, which
decides it after 1 tick in the room's own wing and after 4 in another; a lane whose request would be decided before an earlier
request of the room waits (log entry 63). Its xd waits for a deferred answer; an address that is not a multiple of 64 raises
ALIGN at the lane, one of a device window the RV access fault, and one that has no place the exception of its check, and nothing
is sent. Completes, as exec (the form) s = .next (its own effect): pwOpen, pwCommit, pwDrop, prAcq, prRel, pStat. The model's
choices in it: log entries 20, 22, 41, 63. -/
def Obligations.PoolRequestsAreSent : Prop :=
  ∀ (i : Instr) (s : State) (op : PoolOp) (xd xs1 xs2 : Reg), poolOf i = some (op, xd, xs1, xs2) → s.Free [xs1, xs2] [xd] →
    poolWaits op s.me = false → s.me.deferred < 8 →
    (∀ (u : State) l (due : Nat), (s.me.getX xs1).toNat % 64 = 0 → inWindows (s.me.getX xs1) = false →
      u = s.needTier s.devCtx (s.me.getX xs1) → place u s.devCtx .load (s.me.getX xs1) = .ok l →
      due = s.tick + (if (s.poolHome l.key).getD (wingOf s.turn) = wingOf s.turn then 1 else 4) →
      (tget 0 s.me.lastDue poolKey ≤ due → ∃ (q : PoolReq),
        q.op = op ∧ q.room = s.turn ∧ q.tenant = s.me.tenant ∧ q.dpa = l.key ∧ q.xs2 = s.me.getX xs2 ∧ q.hz = s.me.horizon ∧
        q.id = s.seq ∧ q.lane = s.me.pc ∧ q.sent = s.tick ∧ q.iter = s.me.iter ∧
        q.wing = (s.poolHome l.key).getD (wingOf s.turn) ∧
        exec i s = .next ((((u.fillTlb l).modMe fun x => { x with lastDue := tset 0 x.lastDue poolKey due }).schedule due
          (.poolDecision q)).deferX xd)) ∧
      (due < tget 0 s.me.lastDue poolKey → exec i s = .next (u.fillTlb l).wait)) ∧
    ((s.me.getX xs1).toNat % 64 ≠ 0 → exec i s = .next (s.devExc 2 (s.me.getX xs1))) ∧
    ((s.me.getX xs1).toNat % 64 = 0 → inWindows (s.me.getX xs1) = true → exec i s = .next (s.exc 5 (s.me.getX xs1))) ∧
    (∀ (u : State) c, (s.me.getX xs1).toNat % 64 = 0 → inWindows (s.me.getX xs1) = false →
      u = s.needTier s.devCtx (s.me.getX xs1) → place u s.devCtx .load (s.me.getX xs1) = .error c →
      exec i s = .next (u.devExc c (s.me.getX xs1)))

/-- R53, R55, R56, R58, R77, R224: an accepted request changes its pool as the decision says and is answered after 1 or 4 ticks; one
that is refused changes no pool, answers all ones where it has an xd, and raises POOL_MISUSE (cause 55) in its room. A deferred
answer that arrives writes its register and is no longer awaited; a lane that holds dispatch for it goes on. Completes, as exec
(the form) s = .next (its own effect): poolDecision, deferredAnswer. The model's choices in it: log entries 12, 21, 23, 55. -/
def Obligations.PoolDecisionsAreAnswered : Prop :=
  ∀ (s : State) (q : PoolReq),
    (∀ p p' v, s.pool? q.wing q.dpa = some p → p.decide s.tick q = some (p', v) →
      (PoolOpHasX q.op = true → exec (.poolDecision q) s = .next ((s.setPool q.wing p').schedule
        (s.tick + if q.wing = wingOf q.room then 1 else 4) (.deferredAnswer q.room (valueAnswer q.id v q.lane q.word)))) ∧
      (PoolOpHasX q.op = false →
        exec (.poolDecision q) s = .next ((s.setPool q.wing p').modRoom q.room fun x => x.answered q.id))) ∧
    ((∀ p, s.pool? q.wing q.dpa = some p → p.decide s.tick q = none) →
      ∃ t a, exec (.poolDecision q) s = .next t ∧ a.misuse = some 55 ∧ a.value = -1#64 ∧ a.write = PoolOpHasX q.op ∧
        a.lane = q.lane ∧ a.id = q.id ∧ t.wings = s.wings ∧ t.mem = s.mem ∧
        (s.tick + (if q.wing = wingOf q.room then 1 else 4), .deferredAnswer q.room a) ∈ t.agenda) ∧
    (∀ r (a : Answer) (o : Out) (rd : Reg), a.ask = none → (s.room r).outs.find? (fun o => o.id = a.id) = some o →
      ((∀ id b, (s.room r).hold ≠ .answer id ∧ (s.room r).hold ≠ .cbPull id b) →
        exec (.deferredAnswer r a) s = .next (s.modRoom r fun x => x.takeAnswer o a)) ∧
      ((s.room r).hold = .answer a.id → a.misuse = none →
        exec (.deferredAnswer r a) s = .next (s.modRoom r fun x => (x.takeAnswer o a).retire s.tick)) ∧
      (∀ b, (s.room r).hold = .cbPull a.id b → exec (.deferredAnswer r a) s =
        .next (s.modRoom r fun x => (x.takeAnswer o a).retire (if a.held then s.tick else s.tick - 1))) ∧
      (a.write = true → o.regs = [rd.toNat] → rd ≠ 0 → ((s.room r).takeAnswer o a).getX rd = a.value) ∧
      (a.write = false → ((s.room r).takeAnswer o a).x = (s.room r).x) ∧
      ((s.room r).takeAnswer o a).outs = (s.room r).outs.filter fun p => p.id ≠ a.id) ∧
    (∀ r (a : Answer), a.ask = none → (s.room r).outs.find? (fun o => o.id = a.id) = none →
      exec (.deferredAnswer r a) s = .next (s.modRoom r fun x => x))

/-- R55, R61: every decision and every kill keeps a pool well-formed; so a slot that a reader holds is COMPLETE. The model's choices
in it: log entries 21, 56. -/
def Obligations.PoolsStayWellFormed : Prop :=
  ∀ (p : Pool) (t : Nat), p.Ok →
    (∀ q p' v, p.decide t q = some (p', v) → p'.Ok) ∧ (∀ rooms iters, (p.kill rooms iters).Ok)

/-- R55 and the argument that S = R + 2 is enough: an open always finds a slot; it is neither the latest one nor held by a reader,
it becomes the writing slot, and its address is BASE + n STRIDE. -/
def Obligations.OpenAlwaysFindsASlot : Prop :=
  ∀ (p : Pool) (t : Nat) (q : PoolReq), p.Ok → q.tenant = p.tenant → q.op = .open →
    ∃ p' n, p.decide t q = some (p', p.base + BitVec.ofNat 64 n * p.stride) ∧ n < p.nslot ∧ p'.wslot = some n ∧
      (p'.slot n).state = 1 ∧ some n ≠ p.latest ∧ (∀ r, r < p.nread → p.held? r ≠ some n) ∧ p'.writer = some q.room ∧
      p'.held = p.held ∧ p'.ncommit = p.ncommit

/-- R13, R55: an acquire takes the visible slot with the largest sequence number, or none, and leaves every slot as it was; its word
holds slot, age and sequence number. A commit numbers its slot with the next sequence number and the later of its tick and its
horizon. -/
def Obligations.AcquireAndCommit : Prop :=
  ∀ (p : Pool) (t : Nat) (q : PoolReq), p.Ok → q.tenant = p.tenant →
    (q.op = .acq → q.xs2.toNat < p.nread → ∃ p' v, p.decide t q = some (p', v) ∧ p'.slots = p.slots ∧
      p'.held? q.xs2.toNat = p.visible t ∧ (∀ r, r ≠ q.xs2.toNat → p'.held? r = p.held? r) ∧
      (p.visible t = none → v = 0x000000FFFFFFFFFF#64) ∧
      (∀ i, p.visible t = some i → i < p.nslot ∧ (p.slot i).state = 2 ∧ (p.slot i).ct ≤ t ∧
        (∀ j, j < p.nslot → (p.slot j).state = 2 → (p.slot j).ct ≤ t → (p.slot j).seq ≤ (p.slot i).seq) ∧
        getField v 0 8 = i % 256 ∧ getField v 8 32 = min (t - (p.slot i).ct) 0xFFFFFFFE ∧
        getField v 40 24 = (p.slot i).seq % 2 ^ 24)) ∧
    (q.op = .commit → ∀ w, p.wslot = some w → p.writer = some q.room → q.xs2 = 0 →
      ∃ p', p.decide t q = some (p', BitVec.ofNat 64 (max t q.hz)) ∧ p'.slot w = ⟨2, p.ncommit + 1, max t q.hz⟩ ∧
        p'.ncommit = p.ncommit + 1 ∧ p'.wslot = none ∧ (∀ i, i ≠ w → p'.slot i = p.slot i) ∧ p'.held = p.held)

/-- R49 to R51, R54, R61, R245, R336, R349: while no command is under way a register or unregister command makes PRES busy. The
wing's controller carries it out in a tick in which it may serve tenant 0, or at its bound, and it completes within 64 ticks of
its write: a register command that no reason refuses installs the pool of its descriptor, with every slot FREE, under a free
index, an unregister command removes its pool, and a refused one leaves the pools. A command while PRES is busy is ignored. A
kill reaches the pools once the engines of its rooms have ended, their buffered stores are drained, and no store of theirs is
under way: a slot that a killed room writes is ABANDONED and what it reads is released; the same of a killed iteration before it
was parked (log entry 56). Once all stores have been applied for as long as R380 gives K, only the S and C engines are waited
for (log entry 97). Completes, as exec (the form) s = .next (its own effect): poolRegister, poolUnregister, poolCommandDone,
killPoolEffect. The model's choices in it: log entries 12, 36, 56, 64, 75, 84, 97. -/
def Obligations.PoolRegistration : Prop :=
  (∀ (s : State) (w : Nat) (v : W64),
    (pcmdBy s w v = none → exec (.poolRegister w v) s = .next s ∧ exec (.poolUnregister w v) s = .next s) ∧
    (getField (s.wing w).pres 0 2 = 1 → exec (.poolCommandDone w) s = .next (s.modWing w fun x => { x with pres := x.pcmdRes })) ∧
    (getField (s.wing w).pres 0 2 ≠ 1 → pcmdBy s w v = some (s.tick + 64)) ∧
    (∀ by_, pcmdBy s w v = some by_ → s.mayServe (calUnit 4 w) 0 s.tick = false → s.tick < by_ → ∃ t u,
      exec (.poolRegister w v) s = .next t ∧ exec (.poolUnregister w v) s = .next u ∧ t.mem = s.mem ∧ u.mem = s.mem ∧
      t.wing w = { s.wing w with pcmd := v, pcmdBy := some by_, pres := setField (s.wing w).pres 0 8 1 } ∧ u.wing w = t.wing w ∧
      (∃ d, d ≤ by_ ∧ (d, .poolRegister w v) ∈ t.agenda ∧ (d, .poolUnregister w v) ∈ u.agenda)) ∧
    (∀ (by_ : Nat) (g h : State), pcmdBy s w v = some by_ → s.mayServe (calUnit 4 w) 0 s.tick = true ∨ by_ ≤ s.tick →
      g = (s.modWing w fun x => { x with pcmd := v }).holdTier (pcmdDpa v) →
      h = (if descReadable g (pcmdDpa v) then g.ownParts [descPart g (pcmdDpa v)] else g) → ∃ t u,
      exec (.poolRegister w v) s = .next t ∧ exec (.poolUnregister w v) s = .next u ∧
      getField (t.wing w).pres 0 2 = 1 ∧ getField (u.wing w).pres 0 2 = 1 ∧ t.mem = h.mem ∧ u.mem = s.mem ∧
      (∃ d, d ≤ by_ ∧ (d, .poolCommandDone w) ∈ t.agenda ∧ (d, .poolCommandDone w) ∈ u.agenda) ∧
      (regReason h w v = 0 → (t.wing w).pools = (s.wing w).pools ++
        [newPool (BitVec.ofNat 512 (h.read (h.movedPa (pcmdDpa v)) 64)) (pcmdDpa v) (freePoolIndex (s.wing w).pools)
          (getField v 52 4)]) ∧
      (regReason h w v ≠ 0 → (t.wing w).pools = (s.wing w).pools ∧ getField (t.wing w).pcmdRes 0 8 = 2 + 4 * regReason h w v) ∧
      (pcmdReserved v = false → (u.wing w).pools = (s.wing w).pools.filter fun p => p.dpa ≠ pcmdDpa v) ∧
      (pcmdReserved v = true → (u.wing w).pools = (s.wing w).pools))) ∧
  (∀ (d : BitVec 512) (dpa idx tenant : Nat),
    (newPool d dpa idx tenant).nslot = getField (d.extractLsb' 0 64) 0 8 ∧
    (newPool d dpa idx tenant).nread = getField (d.extractLsb' 0 64) 8 8 ∧
    (newPool d dpa idx tenant).base = d.extractLsb' 64 64 ∧ (newPool d dpa idx tenant).stride = d.extractLsb' 128 64 ∧
    (newPool d dpa idx tenant).dpa = dpa ∧ (newPool d dpa idx tenant).tenant = tenant ∧
    (∀ i, (newPool d dpa idx tenant).slot i = ⟨0, 0, 0⟩) ∧ (newPool d dpa idx tenant).ncommit = 0 ∧
    (newPool d dpa idx tenant).wslot = none ∧ (∀ r, (newPool d dpa idx tenant).held? r = none)) ∧
  (∀ (s : State) (k : KillReq) (ended : Bool), ended = k.rooms.all (s.enginesEnded (killLate k s.tick)) →
    (ended = false →
      exec (.killPoolEffect k) s = .next (s.schedule (s.tick + 1) (.killPoolEffect (killWaits k s)))) ∧
    (∀ u, ended = true → k.rooms.any s.buffers = true → u = k.rooms.foldl State.drainRoom s →
      exec (.killPoolEffect k) s = .next (u.schedule (u.tick + 1) (.killPoolEffect (killWaits k u)))) ∧
    (ended = true → k.rooms.any s.buffers = false →
      storesUnderWay s k.rooms ≠ [] ∨ storesHeld s k.rooms = true →
      exec (.killPoolEffect k) s = .next (s.schedule (s.tick + 1) (.killPoolEffect (killWaits k s)))) ∧
    (ended = true → k.rooms.any s.buffers = false → storesUnderWay s k.rooms = [] →
      storesHeld s k.rooms = false →
      ∃ t, exec (.killPoolEffect k) s = .next t ∧ t.mem = s.mem ∧ (s.tick, .killCbuEffect k) ∈ t.agenda ∧
        (∀ w, w < 4 → (t.wing w).pools = (s.wing w).pools.map fun p => p.kill k.rooms k.iters)) ∧
    (storesApplied s k.rooms = true → (killWaits k s).till = some (k.till.getD (s.tick + 62))) ∧
    (∀ t, k.till = some t → (killLate k s.tick = true ↔ t ≤ s.tick)) ∧ (k.till = none → killLate k s.tick = false)) ∧
  (∀ (p : Pool) (rooms : List Nat) (iters : List (Nat × Nat)),
    (∀ i r, p.wslot = some i → p.writer = some r → rooms.contains r = true ∨ iters.contains p.wIter = true →
      (p.kill rooms iters).wslot = none ∧ ((p.kill rooms iters).slot i).state = 3 ∧
      ∀ j, j ≠ i → (p.kill rooms iters).slot j = p.slot j) ∧
    ((∀ r, p.writer = some r → rooms.contains r = false ∧ iters.contains p.wIter = false) →
      (p.kill rooms iters).wslot = p.wslot ∧ ∀ j, (p.kill rooms iters).slot j = p.slot j) ∧
    (∀ r, r < p.nread → p.holder? r = none → (p.kill rooms iters).held? r = p.held? r) ∧
    (∀ r h, r < p.nread → p.holder? r = some h → (p.kill rooms iters).held? r =
      if rooms.contains h || iters.contains (tget (0, 0) p.hIter r) then none else p.held? r))

/-! ## Messages at their homes -/

/-- R245, R263, R289, R295, R296, R301, R333, R359: a request of an old incarnation is dropped at its home and counted; a load
behind an atomic of its room to one of its lines waits a tick; one whose re-walk fails is answered with that fault; one whose
granules the bridge holds is performed as it arrives, unless an earlier one of its sender waits for one of its lines, and a put
whose window is closed then is discarded; else it waits at the bridge, having changed no byte; an MSAU performs one request of a
tick, to a line marked MS in a slot of its tenant only, and else the request waits; one behind its sender's earlier request to
its MSAU waits (of a watched line without MS: log entry 86). Completes, as exec (the form) s = .next (its own effect):
loadAtHome, storeAtHome, msauRequest. The model's choices in it: log entries 11, 12, 13, 15, 54, 75, 80, 85, 86. -/
def Obligations.RequestsReachTheirHomes : Prop :=
  ∀ (s : State) (m : MemMsg) (b : Bool) (i : Instr),
    (b = false ∧ i = .loadAtHome m ∨ b = true ∧ i = .storeAtHome m ∨
      (b = m.store ∧ i = .msauRequest m ∧ m.parts.any (·.ms) = false ∧ s.msauAhead m = none)) →
    ((∀ w, m.dest ≠ .cbu w) → s.stale m.room m.inc = true → exec i s = .next (s.dropStale m.room m.inc)) ∧
    (s.staleMsg m = false → s.behindAtom { m with store := b } = true →
      exec i s = .next (s.schedule (s.tick + 1) (.loadAtHome { m with store := b }))) ∧
    (∀ c va, s.staleMsg m = false → s.behindAtom { m with store := b } = false → moved s { m with store := b } = .error (c, va) →
      exec i s = .next
        (if b then storeFails s { m with store := b } c va else deliverFault s { m with store := b } c va)) ∧
    (∀ m' u, s.staleMsg m = false → s.behindAtom { m with store := b } = false → moved s { m with store := b } = .ok m' →
      u = leaveSource s { m with store := b } m' →
      (m'.parts.any (fun p => s.lost p.place p.key) = true ∨ (missing s m' = [] ∧ ∀ w ∈ s.waiting, w.id < m'.id → w.room = m'.room →
        w.who = m'.who → (∀ g ∈ needed w, ∀ h ∈ needed m', g / 2 ≠ h / 2) ∧
          (w.store = true → b = true → ∀ p ∈ w.parts, ∀ q ∈ m'.parts, lineOf p.key ≠ lineOf q.key)) →
        (b = false ∨ m.who ≠ .put ∨ (s.window? m.tenant m.satp).isSome = true →
          exec i s = .next (if b then performStore (holdBanks u m') m' else performLoad (holdBanks u m') m')) ∧
        (∀ p l, b = true → m.who = .put → (s.window? m.tenant m.satp).isSome = false → m'.parts = p :: l →
          exec i s = .next (entryFault s m.room .c m.id 1 p.va))) ∧
      (bridgeReady s m' = false →
        ∃ t, exec i s = .next t ∧ t.waiting = s.waiting ++ [m'] ∧ t.mem = s.mem ∧ t.rooms = s.rooms)) ∧
    (∀ u, s.msauAhead m = some u →
      (m.parts.any (·.ms) = false → exec (.msauRequest m) s = .next ((unbound s m).msauHold u (.msauRequest m))) ∧
      (m.parts.any (·.ms) = true → exec (.msauRequest m) s = .next (s.msauHold (msauOf m) (.msauRequest m)))) ∧
    (s.msauAhead m = none → m.parts.any (·.ms) = true →
      (s.msauCan (msauOf m) (.msauRequest m) = true → exec (.msauRequest m) s =
        exec (if m.store then .storeAtHome m else .loadAtHome m) (s.msauTake (msauOf m) (.msauRequest m))) ∧
      (s.msauCan (msauOf m) (.msauRequest m) = false →
        exec (.msauRequest m) s = .next (s.msauHold (msauOf m) (.msauRequest m)))) ∧
    (∀ u, m.parts.any (·.ms) = true → s.msauCan u (.msauRequest m) = true → tget 0 s.msauAt u ≠ s.tick + 1 ∧
      s.mayServe (calUnit 5 u) (if m.who = .host then 0 else m.tenant) s.tick = true ∧
      ∀ j, msauPasses j = false → (s.msauTake u (.msauRequest m)).msauCan u j = false)

/-- R284, R286, R288, R299: a load that is performed gives the control core the bytes that its home holds, under those of its
partition's own stores on their way, and changes no byte; a store that is performed has a visibility time after the last lease
granted on each of its lines, and at a first answer its room learns it: VHZ covers it from then on as a known tick, and a job
whose iteration has left the room learns it too (R236). Completes, as exec (the form) s = .next (its own effect): vtAnswer. The
model's choices in it: log entries 12, 13, 32, 43, 54, 79, 85. -/
def Obligations.LoadsDeliverAndStoresBecomeVisible : Prop :=
  (∀ (s : State) (m : MemMsg) (p : Part) (rd : Reg) (op : LdOp), m.dest = .x rd op → m.parts = [p] → partFault s p = none →
    rd ≠ 0 → ((s.room m.room).outs.any fun o => o.id = m.id) = true →
    ((performLoad s m).room m.room).getX rd = loadValue op (s.seen m.room m.id p) ∧
    (performLoad s m).mem = s.mem) ∧
  (∀ (s : State) (m : MemMsg) (p : Part), (applyStore s m).fault = none → p ∈ m.parts → cacheable p = true →
    (m.parts.all fun q => !watchedPart s q) = true →
    tget 0 s.lend (lineOf p.key) < (applyStore s m).vt ∧ s.tick ≤ (applyStore s m).vt) ∧
  (∀ (s : State) (r id vt : Nat), (s.wing (wingOf r)).keys = [] → (∀ w slot, (s.room r).hold ≠ .keyPass w slot) →
    ((s.room r).stores.any fun o => o.id = id) = true →
    exec (.vtAnswer r .core id vt) s = .next ((s.modHall fun h => { h with jobs := h.jobs.map fun j =>
        if (r, id) ∈ j.late then { j with late := j.late.filter (· ≠ (r, id)), endHz := max j.endHz vt } else j }).modRoom r fun x =>
      { x with stores := x.stores.filter fun o => o.id ≠ id, hz := max x.hz vt }))

/-- R220, R289, R295 to R297, R300, R301, R305, R306: an ownership read leaves the granule in E with the host's bytes, unless the
bridge evicts the line at once or the link is lost, and a BIRsp clears the host-held bit; one of an old incarnation is dropped;
in a slot of the tenant the software directory obtains the granule, or the access is served uncached, with no lease granted and
no half kept; a line that a `c.pf` asked for credits its barrier with 128 bytes, as the MSAU's one request of a tick; a
replicated load delivers its combination in list order, or its fault. Completes, as exec (the form) s = .next (its own effect):
rdownCompletion, birspArrival, sharingMiss, cpfCredit, replicaLoad. The model's choices in it: log entries 12, 15, 52, 84. -/
def Obligations.BridgeAndReplicaSteps : Prop :=
  ∀ (s : State),
    (∀ g data inc, s.stale (s.portAgent g) inc = true →
      exec (.rdownCompletion ⟨g, inc⟩ data) s = .next (s.dropStale (s.portAgent g) inc).reask) ∧
    (∀ g data inc, s.stale (s.portAgent g) inc = false → s.hall.linkLost.getLsbD (s.portAgent g - 256) = true →
      s.waiting = [] → s.waitAtom = [] → exec (.rdownCompletion ⟨g, inc⟩ data) s = .next s) ∧
    (∀ g data inc, s.stale (s.portAgent g) inc = false → s.hall.linkLost.getLsbD (s.portAgent g - 256) = false →
      s.waiting = [] → s.waitAtom = [] → (tget {} s.grans g).st = 0 →
      ∃ t, exec (.rdownCompletion ⟨g, inc⟩ data) s = .next t ∧ (tget {} t.grans g).st = (if Config.bridgeEvicts (g / 2) s.fresh = true ∧
          tget 0 s.lend (g / 2) < s.tick ∧ s.bridgeBusy (g / 2) = false then 0 else 1) ∧
        (∀ a, a < 64 * g ∨ 64 * g + min 64 data.length ≤ a → t.mem.get a = s.mem.get a) ∧
        (∀ k, k < min 64 data.length → t.mem.get (64 * g + k) = data.getD k 0)) ∧
    (∀ g data inc, s.stale (s.holderAgent g) inc = true →
      exec (.birspArrival ⟨g, inc⟩ data) s = .next (s.dropStale (s.holderAgent g) inc)) ∧
    (∀ g data inc, s.stale (s.holderAgent g) inc = false → tget [] s.birsp g = [] →
      ∃ t, exec (.birspArrival ⟨g, inc⟩ data) s = .next t ∧ tget false t.hostHeld g = false ∧
        (∀ a, a < 64 * g ∨ 64 * g + min 64 data.length ≤ a → t.mem.get a = s.mem.get a) ∧
        (∀ k, k < min 64 data.length → t.mem.get (64 * g + k) = data.getD k 0)) ∧
    (∀ m g inc u, u = calUnit 3 (coreUnit g) →
      (s.stale (coreAgent g) inc = true → exec (.sharingMiss m ⟨g, inc⟩) s = .next (s.dropStale (coreAgent g) inc).reask) ∧
      (s.stale (coreAgent g) inc = false → s.mayServe u m.tenant s.tick = false → exec (.sharingMiss m ⟨g, inc⟩) s =
        .next (s.schedule (s.serveTick u m.tenant (s.tick + 1)) (.sharingMiss m ⟨g, inc⟩))) ∧
      (s.stale (coreAgent g) inc = false → s.mayServe u m.tenant s.tick = true →
        (Config.directoryObtains g s.fresh = true ∨ (∃ a ∈ s.waitAtom, granuleOf a.part.key = g) →
          exec (.sharingMiss m ⟨g, inc⟩) s = .next (s.bump.askRdown g)) ∧
        (Config.directoryObtains g s.fresh = false → (∀ a ∈ s.waitAtom, granuleOf a.part.key ≠ g) →
          ∀ w, (s.waiting.filter fun w => w.id = m.id) = [w] → exec (.sharingMiss m ⟨g, inc⟩) s = .next ((retryAtomics (retryWaiting
            (serveUncached { s.bump with waiting := s.waiting.filter fun w => w.id ≠ m.id } w))).reask.remark g)))) ∧
    (∀ w, (w.store = false → (serveUncached s w).lend = s.lend) ∧
      (w.store = true → ∀ g ∈ missing s w, (tget {} (serveUncached s w).grans g).st = 0)) ∧
    (∀ c : CreditReq, s.stale c.room c.inc = true → exec (.cpfCredit c) s = .next (s.dropStale c.room c.inc)) ∧
    (∀ c : CreditReq, s.stale c.room c.inc = false → s.msauCan (channel c.key) (.cpfCredit c) = false →
      exec (.cpfCredit c) s = .next (s.msauHold (channel c.key) (.cpfCredit c))) ∧
    (∀ c : CreditReq, s.stale c.room c.inc = false → s.msauCan (channel c.key) (.cpfCredit c) = true →
      s.mayServe (calUnit 5 (channel c.key)) c.tenant s.tick = true ∧
      (barArrived (s.barObj (s.movedPa c.key)) ≠ barNpart (s.barObj (s.movedPa c.key)) →
      ∃ t, exec (.cpfCredit c) s = .next t ∧ barPend (t.barObj (s.movedPa c.key)) =
        min (2 ^ 40 - 1) (barPend (s.barObj (s.movedPa c.key)) + 128) ∧
        tget 0 t.msauAt (channel c.key) = s.tick + 1 ∧
        (∀ a, a < s.movedPa c.key ∨ s.movedPa c.key + 32 ≤ a → t.mem.get a = s.mem.get a))) ∧
    (∀ m p v, s.stale m.room m.inc = false → m.parts = [p] → replicaValue s p = .ok v →
      exec (.replicaLoad m) s = .next (deliver s.bump m [(p.pos, v)])) ∧
    (∀ m p c, s.stale m.room m.inc = false → m.parts = [p] → replicaValue s p = .error c →
      exec (.replicaLoad m) s = .next (deliverFault s.bump m c p.va))

/-! ## Atomics -/

namespace Sys2Proof.Machine

/-- The operation and the registers of a memory-side atomic (R327). -/
def msOf : Instr → Option (MsOp × Reg × Reg × Reg)
  | .amoCasMs xd xs1 xs2 => some (.cas, xd, xs1, xs2)
  | .amoAddMs xd xs1 xs2 => some (.add, xd, xs1, xs2)
  | .amoFaddMs xd xs1 xs2 => some (.fadd, xd, xs1, xs2)
  | .amoMinMs xd xs1 xs2 => some (.min, xd, xs1, xs2)
  | .amoMaxMs xd xs1 xs2 => some (.max, xd, xs1, xs2)
  | .amoAndMs xd xs1 xs2 => some (.and, xd, xs1, xs2)
  | .amoOrMs xd xs1 xs2 => some (.or, xd, xs1, xs2)
  | .amoXorMs xd xs1 xs2 => some (.xor, xd, xs1, xs2)
  | .amoSwapMs xd xs1 xs2 => some (.swap, xd, xs1, xs2)
  | _ => none

/-- The A extension: what it asks for, its function, aq, rl, rd, rs1, rs2, and whether it may store (R329). -/
def aExtOf : Instr → Option (Want × AtomFn × Bool × Bool × Reg × Reg × Reg × Bool)
  | .lr d aq rl rd rs1 => some (.load, .lr d, aq, rl, rd, rs1, 0, false)
  | .sc d aq rl rd rs1 rs2 => some (.store, .sc d, aq, rl, rd, rs1, rs2, true)
  | .aExtensionAmo op d aq rl rd rs1 rs2 => some (.atomic, .amo op d, aq, rl, rd, rs1, rs2, true)
  | _ => none

end Sys2Proof.Machine

/-- R77, R277, R279, R280, R285, R305, R327 to R329, R402: an atomic whose registers do not wait and whose address its checks accept
sends one request with the operands of its dispatch, behind the room's stores to its line. A memory-side atomic goes on at once,
its answer deferred; `amo.cas128` first waits for the horizon and then holds dispatch; an LR, SC or AMO holds dispatch with aq,
or when its exception is already certain, and goes on otherwise. A misaligned address raises ALIGN, or address-misaligned (an
access fault in the port range), at the lane, and the replicated range PERMISSION. A device atomic raises at its lane, in this
order: ALIGN, the store access fault in a device window, the fault of its translation, and PERMISSION for a place that it may
not name (a replicated or a compressed page, a host page for the memory-side forms, the port range for those of 8 bytes, and
ALIGN there for the others) or HOSTLOST; after a HOSTLOST on a non-coherent mapping `amo.cas128` records an unknown outcome.
Completes, as exec (the form) s = .next (its own effect): amoCasMs, amoAddMs, amoFaddMs, amoMinMs, amoMaxMs, amoAndMs, amoOrMs,
amoXorMs, amoSwapMs, amoCas128, lr, sc, aExtensionAmo. The model's choices in it: log entries 20, 35, 41. -/
def Obligations.AtomicLanesSendTheirRequests : Prop :=
  ∀ (s : State),
    (∀ i op xd xs1 xs2 l u v a, msOf i = some (op, xd, xs1, xs2) → s.Free ([xs1, xs2] ++ if op = .cas then [xd] else []) [xd] →
      s.me.deferred < 8 → u = s.needTier s.devCtx (s.me.getX xs1) → atomLoc u (atomWidth (.ms op)) false (s.me.getX xs1) = .ok l →
      keysWanted u s.turn [partOf ⟨0, s.me.getX xs1, atomWidth (.ms op)⟩ l 0] = [] →
      v = (u.fillTlb l).drainFor s.turn (lineOf l.key) →
      a = atomMsg v (.ms op) l (s.me.getX xs1) (s.me.getX xs2).toNat (s.me.getX xd).toNat xd →
      exec i s = .next ((sendAtom (v.countKeyed s.turn a.id a.part) a).nextId.modMe fun x => Room.retire { x with
        outs := x.outs ++ [⟨a.id, [xd.toNat], true, false, false, none⟩], stores := x.stores ++ [⟨a.id, none⟩] } s.tick)) ∧
    (∀ i op xd xs1 xs2, msOf i = some (op, xd, xs1, xs2) → s.Free ([xs1, xs2] ++ if op = .cas then [xd] else []) [xd] →
      s.me.deferred < 8 → (s.me.getX xs1).toNat % (if op = .fadd then 4 else 8) ≠ 0 →
      exec i s = .next ((s.needTier s.devCtx (s.me.getX xs1)).devExc 2 (s.me.getX xs1))) ∧
    (∀ i op xd xs1 xs2 c u, msOf i = some (op, xd, xs1, xs2) → s.Free ([xs1, xs2] ++ if op = .cas then [xd] else []) [xd] →
      s.me.deferred < 8 → u = s.needTier s.devCtx (s.me.getX xs1) → atomLoc u (atomWidth (.ms op)) false (s.me.getX xs1) = .error c →
      exec i s = .next (u.rvExc c (s.me.getX xs1))) ∧
    (∀ xd xs1 xs2 c u, s.Free [xs1, xs2, xs2 + 1, xd, xd + 1] [] → u = s.needTier s.devCtx (s.me.getX xs1) →
      atomLoc u 16 true (s.me.getX xs1) = .error c →
      (c ≠ 53 ∨ (∀ l, place u u.devCtx .atomic (s.me.getX xs1) = .ok l → l.place ≠ .hostN) →
        exec (.amoCas128 xd xs1 xs2) s = .next (u.rvExc c (s.me.getX xs1))) ∧
      (∀ l, c = 53 → place u u.devCtx .atomic (s.me.getX xs1) = .ok l → l.place = .hostN →
        exec (.amoCas128 xd xs1 xs2) s = .next (u.trap { int := false, code := 53, tval := s.me.getX xs1, lane := some u.me.pc,
                                                         outc := 2 }))) ∧
    (∀ w host va, (va.toNat % w ≠ 0 → atomLoc s w host va = .error 50) ∧
      (va.toNat % w = 0 → inWindows va = true → atomLoc s w host va = .error 7) ∧
      (va.toNat % w = 0 → inWindows va = false →
        (∀ f, place s s.devCtx .atomic va = .error f → atomLoc s w host va = .error (48 + f)) ∧
        (∀ l, place s s.devCtx .atomic va = .ok l →
          (l.place = .repl → atomLoc s w host va = .error 49) ∧
          (l.place = .port → atomLoc s w host va = .error (if w = 8 then 49 else 50)) ∧
          (l.place = .hostC ∨ l.place = .hostN → atomLoc s w host va =
            if host = false then .error 49 else if s.lost l.place l.key = true then .error 53 else .ok l) ∧
          (l.place = .hbm ∨ l.place = .tier → l.cmp = true → atomLoc s w host va = .error 49) ∧
          (l.place = .hbm → l.cmp = false → atomLoc s w host va = .ok l) ∧
          (l.place = .tier → l.cmp = false → atomLoc s w host va =
            if s.lost .tier l.key = true then .error 53 else .ok l)))) ∧
    (∀ xd xs1 xs2 l u, s.Free [xs1, xs2, xs2 + 1, xd, xd + 1] [] → u = s.needTier s.devCtx (s.me.getX xs1) →
      atomLoc u 16 true (s.me.getX xs1) = .ok l →
      (u.settled = false → exec (.amoCas128 xd xs1 xs2) s = .next (u.drainRoom s.turn).wait) ∧
      (u.settled = true → keysWanted u s.turn [partOf ⟨0, s.me.getX xs1, 16⟩ l 0] = [] →
        ∀ v a, v = (u.fillTlb l).drainFor s.turn (lineOf l.key) →
        a = atomMsg v .cas128 l (s.me.getX xs1) (s.me.getPair xs2) (s.me.getPair xd) xd →
        exec (.amoCas128 xd xs1 xs2) s = .next ((sendAtom (v.countKeyed s.turn a.id a.part) a).nextId.modMe fun x => { x with
          outs := x.outs ++ [⟨a.id, [xd.toNat, (xd + 1).toNat], false, true, false, none⟩], stores := x.stores ++ [⟨a.id, none⟩],
          hold := .answer a.id }))) ∧
    (∀ i w fn aq rl rd rs1 rs2 st va u v l a, aExtOf i = some (w, fn, aq, rl, rd, rs1, rs2, st) → s.Free [rs1, rs2] [rd] →
      va = s.me.getX rs1 → u = s.needTier (coreCtx s.turn s.me false) va →
      (∀ q, place u { coreCtx s.turn s.me false with repl := true } .load va = .ok q → q.place ≠ .repl) →
      coreLoc u w va (atomWidth fn) = .ok l → aPlaceFault w fn l = none → (rl = false ∨ u.settled = true) →
      s.me.atomOn (lineOf l.key) = false → u.cohFull s.turn = false →
      (st = true → keysWanted u s.turn [partOf ⟨0, va, atomWidth fn⟩ l 0] = []) →
      v = (u.fillTlb l).drainFor s.turn (lineOf l.key) → a = atomMsg v fn l va (s.me.getX rs2).toNat 0 rd →
      exec i s = .next ((sendAtom (if st then v.countKeyed s.turn a.id a.part else v) a).nextId.modMe fun x =>
        (fun y : Room => if aq || v.lost a.part.place a.part.key || decide (w ≠ .store) && v.poisoned a.part.key a.part.w
          then { y with hold := .answer a.id } else y.retire s.tick) { x with
            outs := x.outs ++ [⟨a.id, [rd.toNat], false, true, false, some (lineOf l.key)⟩],
            stores := x.stores ++ (if st then [⟨a.id, none⟩] else []) })) ∧
    (∀ i w fn aq rl rd rs1 rs2 st va u, aExtOf i = some (w, fn, aq, rl, rd, rs1, rs2, st) → s.Free [rs1, rs2] [rd] →
      va = s.me.getX rs1 → u = s.needTier (coreCtx s.turn s.me false) va →
      (va.toNat % atomWidth fn ≠ 0 →
        ((∃ l, place u (coreCtx u.turn u.me false) w va = .ok l ∧ l.place = .port) →
          exec i s = .next (u.exc (if w = .load then 5 else 7) va)) ∧
        ((∀ l, place u (coreCtx u.turn u.me false) w va = .ok l → l.place ≠ .port) →
          exec i s = .next (u.exc (if w = .load then 4 else 6) va))) ∧
      (va.toNat % atomWidth fn = 0 → (∃ l, place u { coreCtx s.turn s.me false with repl := true } .load va = .ok l ∧
        l.place = .repl) → exec i s = .next (u.devExc 1 va)))

/-- R245, R278, R280 to R282, R289, R290, R297, R301, R329, R359: an atomic that reaches its agent is performed there in one step:
the MSAU, where its page now lies, in a slot of its tenant as its one request of a tick, once no host copy of the granule is
left and no earlier store of its partition is on its way to the line (the LR of a room whose last three attempts failed where
the tenant is served 48 ticks on too); the bridge while it holds the granule and no earlier access of its room waits for the
line, the root complex at its completion, whether or not its room still waits; a request of an old incarnation is dropped, one
to a granule that the bridge does not hold waits, a completion that does not come in time leaves HOSTLOST. Whether an operation
whose completion the link lost has been performed is a free value (log entry 96). Completes, as exec (the form) s = .next (its
own effect): msauAtomic, bridgeAtomic, pcieAtomicCompletion, pcieCompletionTimeout. The model's choices in it: log entries 12,
35, 75, 85, 87, 88, 96. -/
def Obligations.AtomicsReachTheirAgents : Prop :=
  ∀ (s : State) (a : AtomMsg),
    (s.stale a.room a.inc = true → exec (.msauAtomic a) s = .next (s.dropStale a.room a.inc) ∧
      exec (.bridgeAtomic a) s = .next (s.dropStale a.room a.inc)) ∧
    (s.stale a.room a.inc = false → a.part.place ≠ .hbm → exec (.msauAtomic a) s = .next (performAtomic s a)) ∧
    (∀ u t, s.stale a.room a.inc = false → a.part.place = .hbm → u = channel a.part.key → t = s.msauTake u (.msauAtomic a) →
      (s.msauCan u (.msauAtomic a) = true →
        (∀ f, movedPart t a.tenant a.satp true a.part = .error f → exec (.msauAtomic a) s = .next (atomFault t a f 0)) ∧
        (∀ p, movedPart t a.tenant a.satp true a.part = .ok p →
          (p.place = .hbm → p.cmp = false → exec (.msauAtomic a) s = .next (performAtomic t { a with part := p })) ∧
          (p.place = .tier ∨ p.place = .hostC ∨ p.place = .hostN →
            exec (.msauAtomic a) s = .next (t.schedule s.tick (.bridgeAtomic { a with part := p }))))) ∧
      (s.msauCan u (.msauAtomic a) = false → ∃ t, exec (.msauAtomic a) s = .next t ∧ t.mem = s.mem ∧
        t.rooms = s.rooms ∧ tget [] t.msauQ u = tget [] s.msauQ u ++ [.msauAtomic a])) ∧
    (∀ u, s.msauCan u (.msauAtomic a) = true → tget false s.hostHeld (granuleOf a.part.key) = false ∧ s.atomBehind a = false ∧
      tget 0 s.msauAt u ≠ s.tick + 1 ∧ s.mayServe (calUnit 5 u) a.tenant s.tick = true ∧
      (∀ d, a.fn = .lr d → 3 ≤ (s.room a.room).scFails → s.mayServe (calUnit 5 u) a.tenant (s.tick + 48) = true)) ∧
    (∀ g ahead, s.stale a.room a.inc = false → s.lost a.part.place a.part.key = false → a.part.place ≠ .hostN →
      g = granuleOf a.part.key → ahead = (∃ w ∈ s.waiting, w.id < a.id ∧ w.room = a.room ∧ w.who = .core ∧ ∃ h ∈ needed w, h / 2 = g / 2) →
      (s.atomBehind a = true → exec (.bridgeAtomic a) s = .next (s.schedule (s.tick + 1) (.bridgeAtomic a))) ∧
      (s.atomBehind a = false → (tget {} s.grans g).st ≠ 0 → ¬ ahead → exec (.bridgeAtomic a) s = .next (performAtomic s a)) ∧
      (s.atomBehind a = false → (tget {} s.grans g).st = 0 ∨ ahead →
        ∃ t, exec (.bridgeAtomic a) s = .next t ∧ t.waitAtom = s.waitAtom ++ [a] ∧ t.mem = s.mem ∧ t.rooms = s.rooms)) ∧
    (s.stale a.room a.inc = false → s.lost a.part.place a.part.key = true → exec (.bridgeAtomic a) s =
      .next (atomFault s a 5 (if a.part.place = .hostN then 2 else 0))) ∧
    (s.stale a.room a.inc = false → s.lost a.part.place a.part.key = false → a.part.place = .hostN → ∃ d ok, s.tick < d ∧
      exec (.bridgeAtomic a) s = .next (s.schedule d (.pcieAtomicCompletion a ok)).bump) ∧
    (s.lost a.part.place a.part.key = false → exec (.pcieAtomicCompletion a true) s = .next (performAtomic s a)) ∧
    (s.lost a.part.place a.part.key = true → ∃ u, exec (.pcieAtomicCompletion a true) s = .next (performAtomic u a) ∧
      (Config.lostAtomicPerformed s.fresh = false → u = s.bump) ∧
      (Config.lostAtomicPerformed s.fresh = true → (atomNew a (homeValue s a.part) false = none → u = s.bump) ∧
        (∀ v, atomNew a (homeValue s a.part) false = some v → u = (applyStore s.bump (atomStore s a v)).s))) ∧
    (s.awaits a = true →
      exec (.pcieAtomicCompletion a false) s = .next (atomFault s a (match a.fn with | .ms _ | .cas128 => 1 | _ => 4) 0) ∧
      exec (.pcieCompletionTimeout a) s = .next (atomFault s a 5 2)) ∧
    (s.awaits a = false → exec (.pcieAtomicCompletion a false) s = .next s ∧ exec (.pcieCompletionTimeout a) s = .next s)

/-- R277 to R280, R290, R327 to R329: a performed atomic writes exactly its new value, computed from the bytes that its home holds
(an LR reads under its partition's own stores on their way, R307), and the answer on its way carries the old value, or for an SC
whether it failed; a compare that fails, an LR, and an SC without a reservation write nothing. A lost or poisoned operand writes
nothing, and its answer is a fault; a poisoned LR leaves no reservation, and an SC reads no operand. The new value is the
operand, the sum, the FP32 sum, the lesser or the greater (signed or unsigned), or the bitwise combination, of the width of the
form; that of a compare-and-swap is its operand exactly if the old value is the expected one. The pair of `amo.cas128` is
written and dispatch goes on; a reservation ends after 256 ticks. Completes, as exec (the form) s = .next (its own effect):
cas128Answer, reservationExpiry. The model's choices in it: log entries 34, 35, 88. -/
def Obligations.AtomicsReadComputeAndWrite : Prop :=
  (∀ (s : State) (a : AtomMsg) (old : Nat) (ok : Bool), s.lost a.part.place a.part.key = false →
    ((∃ d, a.fn = .sc d) ∨ s.poisoned a.part.key a.part.w = false) → a.part.cmp = false → a.part.place ≠ .port →
    beyondPortion s a.part = false → a.part.key % 32 + a.part.w ≤ 32 → tget false s.barObjs (a.part.key / 32 * 32) = false →
    old = (match a.fn with | .lr _ => s.seen a.room a.id a.part | _ => homeValue s a.part) →
    ok = s.reserved a.room (lineOf a.part.key) →
    (∀ v, atomNew a old ok = some v →
      (performAtomic s a).mem.read a.part.key a.part.w = v % 256 ^ a.part.w ∧
      (∀ b, b < a.part.key ∨ a.part.key + a.part.w ≤ b → (performAtomic s a).mem.get b = s.mem.get b)) ∧
    (atomNew a old ok = none → (performAtomic s a).mem = s.mem) ∧
    (∃ d, s.tick ≤ d ∧
      (a.fn = .cas128 → (d, .cas128Answer a.room a (BitVec.ofNat 128 old) none 0) ∈ (performAtomic s a).agenda) ∧
      (a.fn ≠ .cas128 →
        (d, .deferredAnswer a.room (valueAnswer a.id (atomValue a.fn old ok) a.lane a.word)) ∈ (performAtomic s a).agenda))) ∧
  (∀ (s : State) (a : AtomMsg), s.lost a.part.place a.part.key = true →
    performAtomic s a = atomFault s a 5 (if a.part.place = .hostN then 2 else 0)) ∧
  (∀ (s : State) (a : AtomMsg), s.lost a.part.place a.part.key = false → s.poisoned a.part.key a.part.w = true →
    ((∀ d, a.fn ≠ .sc d ∧ a.fn ≠ .lr d) → performAtomic s a = atomFault s a 4 0) ∧
    (∀ d, a.fn = .lr d → performAtomic s a = atomFault (s.modRoom a.room fun x => { x with resv := none }) a 4 0)) ∧
  (∀ (s : State) (a : AtomMsg) (code outc : Nat), (atomFault s a code outc).mem = s.mem ∧ ∃ d, s.tick ≤ d ∧
    (a.fn = .cas128 → (d, .cas128Answer a.room a 0 (some code) outc) ∈ (atomFault s a code outc).agenda) ∧
    (∀ op, a.fn = .ms op → (d, .deferredAnswer a.room { valueAnswer a.id 0 a.lane a.word with
      write := false, misuse := some (48 + code), va := a.part.va }) ∈ (atomFault s a code outc).agenda)) ∧
  (∀ (a : AtomMsg) (old : Nat) (b : Bool),
    (∀ x y : W64, x = BitVec.ofNat 64 old → y = BitVec.ofNat 64 a.operand →
      (a.fn = .ms .cas → atomNew a old b = if old % 2 ^ 64 = a.expect % 2 ^ 64 then some (a.operand % 2 ^ 64) else none) ∧
      (a.fn = .ms .add → atomNew a old b = some ((old + a.operand) % 2 ^ 64)) ∧
      (a.fn = .ms .fadd → atomNew a old b =
        some (Fp.add32 (BitVec.ofNat 32 old) (BitVec.ofNat 32 a.operand)).1.toNat) ∧
      (a.fn = .ms .min → atomNew a old b = some (if y.toInt < x.toInt then y else x).toNat) ∧
      (a.fn = .ms .max → atomNew a old b = some (if x.toInt < y.toInt then y else x).toNat) ∧
      (a.fn = .ms .and → atomNew a old b = some (x &&& y).toNat) ∧
      (a.fn = .ms .or → atomNew a old b = some (x ||| y).toNat) ∧
      (a.fn = .ms .xor → atomNew a old b = some (x ^^^ y).toNat) ∧
      (a.fn = .ms .swap → atomNew a old b = some (a.operand % 2 ^ 64))) ∧
    (∀ (d : Bool) (n : Nat) (x y : BitVec n), n = (if d then 64 else 32) → x = BitVec.ofNat n old → y = BitVec.ofNat n a.operand →
      (a.fn = .amo .swap d → atomNew a old b = some y.toNat) ∧
      (a.fn = .amo .add d → atomNew a old b = some ((old + a.operand) % 2 ^ n)) ∧
      (a.fn = .amo .xor d → atomNew a old b = some (x ^^^ y).toNat) ∧
      (a.fn = .amo .and d → atomNew a old b = some (x &&& y).toNat) ∧
      (a.fn = .amo .or d → atomNew a old b = some (x ||| y).toNat) ∧
      (a.fn = .amo .min d → atomNew a old b = some (if y.toInt < x.toInt then y else x).toNat) ∧
      (a.fn = .amo .max d → atomNew a old b = some (if x.toInt < y.toInt then y else x).toNat) ∧
      (a.fn = .amo .minu d → atomNew a old b = some (min x.toNat y.toNat)) ∧
      (a.fn = .amo .maxu d → atomNew a old b = some (max x.toNat y.toNat))) ∧
    (∀ d, a.fn = .lr d → atomNew a old b = none) ∧
    (a.fn = .cas128 → (atomNew a old b = if old = a.expect then some a.operand else none)) ∧
    (∀ d, a.fn = .sc d → (atomNew a old b = if b then some a.operand else none)) ∧
    (∀ op, atomValue (.ms op) old b = BitVec.ofNat 64 old) ∧ (∀ d, atomValue (.sc d) old b = if b then 0 else 1) ∧
    (∀ op, atomValue (.amo op true) old b = BitVec.ofNat 64 old ∧
      atomValue (.amo op false) old b = (BitVec.ofNat 32 old).signExtend 64) ∧
    atomValue (.lr true) old b = BitVec.ofNat 64 old ∧ atomValue (.lr false) old b = (BitVec.ofNat 32 old).signExtend 64) ∧
  (∀ (s : State) (r : Nat) (a : AtomMsg) (old : BitVec 128), (s.room r).hold = .answer a.id →
    exec (.cas128Answer r a old none 0) s = .next (s.modRoom r fun x =>
      (((x.answered a.id).setX a.rd (old.extractLsb' 0 64)).setX (a.rd + 1) (old.extractLsb' 64 64)).retire s.tick)) ∧
  (∀ (s : State) (r : Nat) (v : Resv), (s.room r).resv = some v → v.till < s.tick →
    exec (.reservationExpiry r) s = .next (s.modRoom r fun x => { x with resv := none }))

/-! ## Barriers, keys, monitors, windows -/

namespace Sys2Proof.Machine

/-- The operation of a barrier lane, its xs1, and the registers that it reads and writes; x gives the operands (R318 to R322). -/
def barOf (x : Room) : Instr → Option (BarOp × Reg × List Reg × List Reg)
  | .barInit a b => some (.init ((x.getX b).extractLsb' 0 16), a, [a, b], [])
  | .barExpect a b => some (.expect ((x.getX b).extractLsb' 0 40), a, [a, b], [])
  | .barArrive xd a => some (.arrive, a, [a], [xd])
  | .barWait a => some (.wait, a, [a], [])
  | .barTry xd a => some (.try, a, [a], [xd])
  | _ => none

/-- The state after a barrier lane has sent its request: `bar.init` and `bar.expect` go on, `bar.arrive` and `bar.try` go on with
a deferred answer, `bar.wait` holds dispatch. -/
def barSent (s : State) (va : W64) (l : Loc) (op : BarOp) : Instr → State
  | .barArrive xd _ => ((sendBar s op va l).modMe fun x =>
      ({ x with outs := x.outs ++ [⟨s.seq, [xd.toNat], true, false, true, none⟩] } : Room).retire s.tick).nextId
  | .barTry xd _ => (sendBar s op va l).deferX xd
  | .barWait _ => ((sendBar s op va l).modMe fun x => { x with hold := .barWait s.seq }).nextId
  | _ => (sendBar s op va l).nextId.done

end Sys2Proof.Machine

/-- R192, R317 to R322: a barrier lane whose object its checks accept sends one request; a bad object raises ALIGN, PERMISSION or
the fault of its walk, an address in the device windows an RV access fault. The MSAU applies a request as its one of a tick,
where the object's page then stands (R359), and changes no byte outside the object: `bar.init` starts the next phase with n
parties, at least 1; `bar.expect` adds to EXPB, which saturates with OVF, and may complete the phase; an arrival that is not the
last counts and is answered with the phase; one beyond NPART is answered with bit 63 and changes nothing; the last one completes
the phase when the credits suffice; `bar.try` changes nothing; a released wait goes on. Completes, as exec (the form) s = .next
(its own effect): barInit, barExpect, barArrive, barWait, barTry, barrierRequest, barWaitRelease. The model's choices in it: log
entries 12, 33, 75, 85. -/
def Obligations.BarriersCountAndRelease : Prop :=
  ∀ (s : State),
    (∀ i op a regs dest va u, barOf s.me i = some (op, a, regs, dest) → s.Free regs dest → s.me.deferred < 8 →
      (s.me.outs.any (·.arrive)) = false → va = s.me.getX a → u = s.needTier s.devCtx va →
      (inWindows va = true → va.toNat % 32 = 0 → exec i s = .next (s.exc (if op = .wait ∨ op = .try then 5 else 7) va)) ∧
      (inWindows va = false ∨ va.toNat % 32 ≠ 0 →
        (∀ l, barrierKey u u.devCtx va = .ok l → exec i s = .next (barSent (u.fillTlb l) va l op i)) ∧
        (∀ c, barrierKey u u.devCtx va = .error c → exec i s = .next (u.devExc c va)))) ∧
    (∀ (b : BarReq), s.msauCan (channel b.key) (.barrierRequest b) = false →
      exec (.barrierRequest b) s = .next (s.msauHold (channel b.key) (.barrierRequest b))) ∧
    (∀ (b : BarReq) o k, s.msauCan (channel b.key) (.barrierRequest b) = true → s.stale b.room b.inc = false → k = barMoved s b →
      o = s.barObj k →
      (∃ t, exec (.barrierRequest b) s = .next t ∧ ∀ a, a < k ∨ k + 32 ≤ a → t.mem.get a = s.mem.get a) ∧
      (∀ n, b.op = .init n → ∃ t, exec (.barrierRequest b) s = .next t ∧ barNpart (t.barObj k) = (if n = 0 then 1 else n) ∧
        barPhase (t.barObj k) = barPhase o + 1 ∧ barArrived (t.barObj k) = 0 ∧ barPend (t.barObj k) = 0 ∧
        barExpb (t.barObj k) = 0 ∧ barOvf (t.barObj k) = false) ∧
      (∀ n e, b.op = .expect n → e = min (2 ^ 40 - 1) (barExpb o + n.toNat) → ∃ t, exec (.barrierRequest b) s = .next t ∧
        barNpart (t.barObj k) = barNpart o ∧ barOvf (t.barObj k) = (barOvf o || decide (2 ^ 40 ≤ barExpb o + n.toNat)) ∧
        (barArrived o = barNpart o → e ≤ barPend o → barPhase (t.barObj k) = barPhase o + 1 ∧ barArrived (t.barObj k) = 0 ∧
          barExpb (t.barObj k) = 0 ∧ barPend (t.barObj k) = barPend o - e ∧ (t.barHeld.all fun h => h.key ≠ k) = true) ∧
        (barArrived o ≠ barNpart o ∨ barPend o < e → barPhase (t.barObj k) = barPhase o ∧
          barArrived (t.barObj k) = barArrived o ∧ barExpb (t.barObj k) = e ∧ barPend (t.barObj k) = barPend o ∧
          t.barHeld = s.barHeld)) ∧
      (b.op = .arrive → barArrived o = barNpart o → ∃ t a d, exec (.barrierRequest b) s = .next t ∧ t.barObj k = o ∧
        (d, .deferredAnswer b.room a) ∈ t.agenda ∧ a.id = b.id ∧ a.value = 1#1 ++ 0#47 ++ barPhase o) ∧
      (b.op = .arrive → barArrived o ≠ barNpart o → ∃ t a d, exec (.barrierRequest b) s = .next t ∧
        (d, .deferredAnswer b.room a) ∈ t.agenda ∧ a.id = b.id ∧ a.value = 0#48 ++ barPhase o ∧ a.bar = some b.key ∧
        (barArrived o + 1 = barNpart o → barExpb o ≤ barPend o → barPhase (t.barObj k) = barPhase o + 1 ∧
          barArrived (t.barObj k) = 0 ∧ barExpb (t.barObj k) = 0 ∧ barPend (t.barObj k) = barPend o - barExpb o ∧
          (t.barHeld.all fun h => h.key ≠ k) = true) ∧
        (barArrived o + 1 ≠ barNpart o → barPhase (t.barObj k) = barPhase o ∧ barArrived (t.barObj k) = barArrived o + 1 ∧
          barPend (t.barObj k) = barPend o ∧ barExpb (t.barObj k) = barExpb o)) ∧
      (b.op = .try → ∃ t a d, exec (.barrierRequest b) s = .next t ∧ t.mem = s.mem ∧ (d, .deferredAnswer b.room a) ∈ t.agenda ∧
        a.value = tryWord o (barPassed (s.room b.room) b.key o)) ∧
      (b.op = .wait → (s.room b.room).hold = .barWait b.id → barPassed (s.room b.room) b.key o = false →
        ∃ t, exec (.barrierRequest b) s = .next t ∧ t.barHeld = s.barHeld ++ [⟨k, b.room, b.id⟩] ∧ t.mem = s.mem)) ∧
    (∀ (b : BarReq), (s.movedPa b.key = b.key → barMoved s b = b.key) ∧
      (getField b.satp 60 4 ≠ 15 → barMoved s b = s.movedPa b.key)) ∧
    (∀ r id, (s.room r).hold = .barWait id →
      exec (.barWaitRelease r id) s = .next (s.modRoom r fun x => x.retire (s.tick - 1)))

/-- R192, R291 to R293, R324: `key.get` of a free region or of a key that the room holds goes on, of another room's key it holds
dispatch behind the queue; `key.pass` of the holder drains its stores and passes the key; outside every region, as in a device
window, both only go on. A key reaches the head of the queue at K. A register command that nothing refuses adds its region.
Completes, as exec (the form) s = .next (its own effect): keyGet, keyPass, keyGetGrant, keyQuantumExpiry, keyHandover,
keyRegister, keyUnregister, keyCommandDone. The model's choices in it: log entries 12, 25, 32. -/
def Obligations.KeysPassInOrder : Prop :=
  ∀ (s : State),
    (∀ (xs1 : Reg), s.Free [xs1] [] → inWindows (s.me.getX xs1) = true →
      exec (.keyGet xs1) s = .next s.done ∧ exec (.keyPass xs1) s = .next s.done) ∧
    (∀ (xs1 : Reg) (l : Loc) n u, s.Free [xs1] [] → inWindows (s.me.getX xs1) = false → n = s.needTier s.devCtx (s.me.getX xs1) →
      place n s.devCtx .load (s.me.getX xs1) = .ok l → u = n.fillTlb l →
      (u.keyOf l = none → exec (.keyGet xs1) s = .next u.done ∧ exec (.keyPass xs1) s = .next u.done) ∧
      (∀ k, u.keyOf l = some k → k.holder = some s.turn → k.passing = none →
        exec (.keyGet xs1) s = .next u.done ∧
        (∀ v, v = passKey u (wingOf s.turn) k.slot → exec (.keyPass xs1) s = .next
          (if v.keyDrained (wingOf s.turn) k.slot s.turn then v.done
           else v.modMe fun x => { x with hold := .keyPass (wingOf s.turn) k.slot }))) ∧
      (∀ k, u.keyOf l = some k → k.holder = none → k.queue = [] → exec (.keyGet xs1) s = .next (u.askKeys s.turn [k.slot]).done ∧
        (askKey s.turn s.tick k).holder = some s.turn) ∧
      (∀ k q, u.keyOf l = some k → k.holder = some q → q ≠ s.turn → exec (.keyGet xs1) s =
        .next ((u.askKeys s.turn [k.slot]).modMe fun x => { x with hold := .keyGet (wingOf s.turn) k.slot }) ∧
        (s.turn ∉ k.queue → (askKey s.turn s.tick k).queue = k.queue ++ [s.turn]))) ∧
    (∀ r w slot k, (s.room r).hold = .keyGet w slot → k ∈ (s.wing w).keys → k.slot = slot → k.holder = some r → k.passing = none →
      exec (.keyGetGrant r) s = .next (s.modRoom r fun x => x.retire s.tick)) ∧
    (∀ w slot k, s.key? w slot = some k → k.expired s.tick = true → exec (.keyQuantumExpiry w slot) s = .next (passKey s w slot)) ∧
    (∀ w slot k, s.key? w slot = some k → k.handsOver s.tick = true → exec (.keyHandover w slot) s = .next (s.modKey w slot fun k =>
      { k with holder := k.queue.head?, queue := k.queue.drop 1, since := s.tick, passing := none, maxVt := 0 })) ∧
    (∀ r base ctl, ∃ t u d, exec (.keyRegister r base ctl) s = .next t ∧ exec (.keyUnregister r base ctl) s = .next u ∧
      s.tick < d ∧ d ≤ s.tick + 64 ∧ (d, .keyCommandDone r) ∈ t.agenda ∧ t.mem = s.mem ∧ u.mem = s.mem ∧
      (keyReason (s.wing (wingOf r)).keys base ctl true = 0 → (t.wing (wingOf r)).keys =
        (s.wing (wingOf r)).keys ++ [⟨getField ctl 0 6, base.toNat, getField ctl 6 5,
          if getField ctl 12 16 = 0 then 65536 else getField ctl 12 16, none, 0, [], none, 0, [], [], []⟩]) ∧
      (keyReason (s.wing (wingOf r)).keys base ctl true ≠ 0 →
        (t.wing (wingOf r)).keys = (s.wing (wingOf r)).keys) ∧
      (keyReason (s.wing (wingOf r)).keys base ctl false = 0 →
        (u.wing (wingOf r)).keys = (s.wing (wingOf r)).keys.filter fun k => k.slot ≠ getField ctl 0 6)) ∧
    (∀ r, exec (.keyCommandDone r) s = .next (s.modRoom r fun x =>
      { x with keyctl := setField (setField x.keyctl 32 2 (getField x.keyRes 32 2)) 34 4 (getField x.keyRes 34 4) }))

/-- R284, R325, R326: `mon.arm` arms the monitor on a line, with a place at its home while the home's channel has fewer than 16, and
goes on; `mon.wait` answers 4 where the monitor is not armed on the line, 0 after a change, 1 where no copy is held, and else
holds dispatch; it returns with cause 0 at a change, 1 once its copy had ended by the end of the last tick, 2 after 4,096 ticks
and 3 after 256 where the home holds none. A change that comes before the wait is remembered; a lease that ends takes its copy.
Completes, as exec (the form) s = .next (its own effect): monArm, monWait, monChangeWake, monTimeout, monOtherWake, leaseExpiry.
The model's choices in it: log entries 11, 13, 34, 68. -/
def Obligations.MonitoredWaits : Prop :=
  ∀ (s : State),
    (∀ xs1 l u, s.Free [xs1] [] → inWindows (s.me.getX xs1) = false → u = s.needTier s.devCtx (s.me.getX xs1) →
      place u s.devCtx .load (s.me.getX xs1) = .ok l → ∃ t m, exec (.monArm xs1) s = .next t ∧
      ((t.room s.turn).mon = some m ∧ (t.room s.turn).monWoke = false ∧ (t.room s.turn).pc = nextPc s.me.pc) ∧
      m.line = lineOf l.key ∧ m.va = some (s.me.getX xs1) ∧ m.ended = false ∧ (s.TierSettled → t.mem = s.mem) ∧ m.leased = !l.ms ∧
      m.home = (decide (l.place ≠ .hostN) && decide (monsOf ((u.fillTlb l).disarm s.turn) (lineOf l.key) (!l.ms) < 16))) ∧
    (∀ xs1, s.Free [xs1] [] → inWindows (s.me.getX xs1) = true → exec (.monArm xs1) s = .next (s.exc 5 (s.me.getX xs1))) ∧
    (∀ xd xs1, s.Free [xs1] [xd] →
      (s.me.mon = none → exec (.monWait xd xs1) s = .next (monReturn s s.turn xd 4 (s.tick + 1))) ∧
      (∀ m, s.me.mon = some m →
        (monOn s m (s.me.getX xs1) = false → exec (.monWait xd xs1) s = .next (monReturn s s.turn xd 4 (s.tick + 1))) ∧
        (monOn s m (s.me.getX xs1) = true → s.me.monWoke = true →
          exec (.monWait xd xs1) s = .next (monReturn s s.turn xd 0 (s.tick + 1))) ∧
        (monOn s m (s.me.getX xs1) = true → s.me.monWoke = false → m.leased = true → s.holdsCopy s.turn m.line = false →
          exec (.monWait xd xs1) s = .next (monReturn s s.turn xd 1 (s.tick + 1))) ∧
        (monOn s m (s.me.getX xs1) = true → s.me.monWoke = false → m.leased = false ∨ s.holdsCopy s.turn m.line = true →
          exec (.monWait xd xs1) s = .next (s.modMe fun x => { x with hold := .monWait xd s.tick })))) ∧
    (∀ r rd since m, (s.room r).hold = .monWait rd since → (s.room r).mon = some m →
      exec (.monChangeWake r m.line) s = .next (monReturn s r rd 0 s.tick) ∧
      (since + 4096 ≤ s.tick → exec (.monTimeout r) s = .next (monReturn s r rd 2 s.tick)) ∧
      (m.home = false → since + 256 ≤ s.tick → exec (.monOtherWake r) s = .next (monReturn s r rd 3 s.tick))) ∧
    (∀ r m, (∀ rd since, (s.room r).hold ≠ .monWait rd since) → (s.room r).mon = some m →
      exec (.monChangeWake r m.line) s = .next (s.modRoom r fun x => { x with monWoke := true })) ∧
    (∀ h l, ∃ t, exec (.leaseExpiry h l) s = .next t ∧ t.mem = s.mem ∧
      t.copies = (if s.copyOver h l then tset {} s.copies (copyKey h l) {} else s.copies) ∧
      (∀ r rd since m, (s.room r).hold = .monWait rd since → (s.room r).mon = some m → m.line = l → r ∈ s.rooms.map (·.1) →
        t.room r = if m.ended then (monReturn s r rd 1 s.tick).room r else s.room r)) ∧
    (∀ r rd c t, 0 < t →
      ((monReturn s r rd c t).room r).mon = none ∧ ((monReturn s r rd c t).room r).nextDispatch = t ∧
      (rd ≠ 0 → ((monReturn s r rd c t).room r).getX rd = BitVec.ofNat 64 c))

/-- R272, R301, R303, R304, R330 to R333: `win.open` asks the hall, which answers the handle of a free entry under the next
generation, with a target counter of 0, or all ones; `win.close` closes a window of the tenant and completes at once; `win.cnt`
answers the counter that it names, a target counter as the hall holds it when the request arrives, and frees the slot for
selector 2. A put reaches the home of its window's bytes, one of another package only a window of SYS 1, with depth 0; its
bytes, once they have been accepted, raise both counters by their number. Completes, as exec (the form) s = .next (its own
effect): winOpen, winOpenDecision, winClose, winCloseDecision, winCnt, deferredAnswer, putAccept. The model's choices in it: log
entries 12, 31. -/
def Obligations.WindowsOpenCountAndClose : Prop :=
  ∀ (s : State),
    (∀ xd xs1 xs2 n u, s.Free [xs1, xs2] [xd] → s.me.deferred < 8 → n = getField (s.me.getX xs2) 0 40 →
      winOperands (s.me.getX xs1) (s.me.getX xs2) = true → u = s.needAll s.devCtx (pageVas (s.me.getX xs1).toNat n) →
      (∀ pages v, winPages u u.devCtx (s.me.getX xs1).toNat n = some pages → v = fillAll u pages → ∃ q : WinReq,
        q.tenant = s.me.tenant ∧ q.pages = pages.map (·.1) ∧ q.base = s.me.getX xs1 ∧ q.size = n ∧ q.sys = (s.me.getX xs2).getLsbD 40 ∧
        q.ok = true ∧ q.room = s.turn ∧ q.id = v.seq ∧
        exec (.winOpen xd xs1 xs2) s = .next ((v.send s.turn .data v.openTick (.winOpenDecision q)).deferX xd)) ∧
      (winPages u u.devCtx (s.me.getX xs1).toNat n = none → ∃ q : WinReq, q.ok = false ∧ q.room = s.turn ∧ q.id = u.seq ∧
        exec (.winOpen xd xs1 xs2) s = .next ((u.send s.turn .data u.openTick (.winOpenDecision q)).deferX xd))) ∧
    (∀ xd xs1 xs2, s.Free [xs1, xs2] [xd] → s.me.deferred < 8 → winOperands (s.me.getX xs1) (s.me.getX xs2) = false →
      ∃ q : WinReq, q.ok = false ∧ q.room = s.turn ∧ q.id = s.seq ∧
        exec (.winOpen xd xs1 xs2) s = .next ((s.send s.turn .data s.openTick (.winOpenDecision q)).deferX xd)) ∧
    (∀ q : WinReq, (q.ok = false ∨ s.freeWindow = none) → ∃ d, s.tick < d ∧ exec (.winOpenDecision q) s =
      .next (s.schedule d (.deferredAnswer q.room (valueAnswer q.id (-1) 0 0))).bump) ∧
    (∀ (q : WinReq) i, q.ok = true → s.freeWindow = some i → ∃ t d w,
      exec (.winOpenDecision q) s = .next t ∧ tget {} t.hall.windows i = w ∧ w.open_ = true ∧ w.tenant = q.tenant ∧ w.target = 0 ∧
      w.pages = q.pages ∧ w.gen = ((tget {} s.hall.windows i).gen + 1) % 2 ^ 16 ∧ t.mem = s.mem ∧
      (d, .deferredAnswer q.room (valueAnswer q.id (winHandle s i w.gen) 0 0)) ∈ t.agenda ∧
      (∀ j, j ≠ i → tget {} t.hall.windows j = tget {} s.hall.windows j)) ∧
    (∀ xs1, s.Free [xs1] [] → exec (.winClose xs1) s =
      .next (s.send s.turn .data s.openTick (.winCloseDecision s.me.tenant (s.me.getX xs1))).done) ∧
    (∀ ten h w, s.window? ten h = some w → exec (.winCloseDecision ten h) s = .next (s.modHall fun x =>
      { x with windows := tset {} x.windows (handleIndex h) { w with open_ := false, pages := [] } })) ∧
    (∀ ten h, s.window? ten h = none → exec (.winCloseDecision ten h) s = .next s) ∧
    (∀ xd xs1 xs2 sel u, s.Free [xs1, xs2] [xd] → s.me.deferred < 8 → sel = getField (s.me.getX xs2) 0 2 →
      u = (if sel = 2 then s.modMe fun x => x.freeOrigin (s.me.getX xs1) else s) →
      exec (.winCnt xd xs1 xs2) s = .next ((u.send s.turn .data s.openTick (.deferredAnswer s.turn
        { valueAnswer s.seq (winCounter s.me (s.me.getX xs1) sel) s.me.pc s.me.curWord with
          ask := if sel = 1 then some (.target (s.me.getX xs1)) else none })).deferX xd)) ∧
    (∀ r a q, a.ask = some q → (askWaits s q = none → exec (.deferredAnswer r a) s = .next (s.schedule s.openTick (.deferredAnswer r
        { a with value := askedValue s r q, ask := none })).bump) ∧
      (∀ t, askWaits s q = some t → exec (.deferredAnswer r a) s = .next (s.schedule t (.deferredAnswer r a)))) ∧
    (∀ h, askWaits s (.target h) = none) ∧
    (∀ r h, askedValue s r (.target h) = targetCount s (s.room r).tenant h) ∧
    (∀ ten h w, s.farHandle h = false → s.window? ten h = some w → targetCount s ten h = w.target) ∧
    (∀ (m : MemMsg) h w, m.store = false → s.window? m.tenant h = some w →
      ∃ t, exec (.putAccept m h) s = .next t ∧ t.mem = s.mem ∧ (tget {} t.hall.windows (handleIndex h)).target =
          w.target + BitVec.ofNat 64 ((m.parts.map (·.w)).foldl (· + ·) 0) ∧
        ((s.room m.room).qc.q.any (fun n => n.msgs.contains m.id) = true →
          (t.room m.room).origin? h = ((s.room m.room).origin? h).map fun o =>
            { o with count := o.count + BitVec.ofNat 64 ((m.parts.map (·.w)).foldl (· + ·) 0) })) ∧
    (∀ (m : MemMsg) h, m.store = true → s.stale m.room m.inc = true →
      exec (.putAccept m h) s = .next (s.dropStale m.room m.inc)) ∧
    (∀ (m : MemMsg) h w, m.store = true → s.stale m.room m.inc = false → s.window? m.tenant h = some w →
      (m.room < 256 ∨ w.sys = true → exec (.putAccept m h) s =
        .next (joinHome s { m with who := .put, satp := h, depth := if 256 ≤ m.room then 0 else m.depth })) ∧
      (256 ≤ m.room → w.sys = false → exec (.putAccept m h) s = .next s)) ∧
    (∀ (m : MemMsg) h, m.store = true → s.stale m.room m.inc = false → s.window? m.tenant h = none → exec (.putAccept m h) s =
      .next (entryFault s m.room .c m.id 1 (match m.parts with | p :: _ => p.va | [] => 0)))

/-! ## Jobs -/

/-- R231 to R237, R250, R371: `launch` at the horizon sends its push to the hall; a push that no check refuses gives the job a
handle of its own and appends its record to its queue; a refused one is answered with its REASON and queues nothing; a push
between tenants goes through the filter; LCMD makes LRES busy and completes within 64 ticks; EVSET and EVCLR set and clear the
tenant's events. At a slot boundary a record admitted is the head of its queue, all of whose wait events were set, and they are
clear after it. Completes, as exec (the form) s = .next (its own effect): launch, launchPush, launchPushDone, deviceLaunchPush,
crossTenantPush, evset, evclr, admission. The model's choices in it: log entries 12, 36, 37, 67, 84, 85. -/
def Obligations.PushesAndAdmission : Prop :=
  ∀ (s : State),
    (∀ xd xs1 xs2 l n u, s.Free [xs1, xs2] [xd] → s.me.deferred < 8 → (s.me.getX xs1).toNat % 128 = 0 →
      inWindows (s.me.getX xs1) = false → n = s.needTier s.devCtx (s.me.getX xs1) →
      place n s.devCtx .load (s.me.getX xs1) = .ok l → l.place ≠ .port → u = n.fillTlb l → u.settled = true →
      ∃ p : PushReq, p.src = s.me.tenant ∧ p.room = some s.turn ∧ p.id = u.seq ∧ p.queue = s.me.getX xs2 ∧ p.part.key = l.key ∧
        p.satp = s.me.csr.satp ∧
        exec (.launch xd xs1 xs2) s = .next ((u.send s.turn .data u.openTick (.deviceLaunchPush p)).deferX xd)) ∧
    (∀ (p : PushReq) b q, p.image = some b → q = getField p.queue 0 6 →
      (p.queue.toNat / 64 = 0 → pushReason s b q = 0 → ∃ t h, (∀ ten, exec (.launchPushDone ten p) s = .next t) ∧ h = s.newHandle ∧
        tget [] t.hall.queues (64 * b.tenant + q) = tget [] s.hall.queues (64 * b.tenant + q) ++ [⟨h, b, s.tick, none⟩] ∧
        t.hall.jobs = s.hall.jobs ++ [{ handle := h, record := b }] ∧ t.mem = s.mem ∧ t.rooms = s.rooms ∧
        (s.hall.jobs.length + 2 ≤ 2 ^ 32 → h ≠ 0 ∧ h ∉ s.hall.jobs.map (·.handle))) ∧
      (p.queue.toNat / 64 = 0 → pushReason s b q ≠ 0 →
        ∀ ten, exec (.launchPushDone ten p) s = .next (pushAnswer s p (pushReason s b q) 0)) ∧
      (p.src ≠ 0 → p.queue.toNat / 64 = 0 → pushReason s b q = 0 →
        (s.filter? p.src b.tenant q = none → exec (.crossTenantPush p) s = .next (pushAnswer s p 9 0)) ∧
        (∀ i e, s.filter? p.src b.tenant q = some (i, e) → e.getLsbD (16 + b.cls) = true →
          tget 0 s.hall.filtCnt i < (e.extractLsb' 32 16).toNat → exec (.crossTenantPush p) s = .next (pushNow (s.modHall fun h =>
            { h with filtCnt := tset 0 h.filtCnt i (tget 0 s.hall.filtCnt i + 1) }) p)))) ∧
    (∀ (p : PushReq) u, readRecord s p = (u, none) →
      exec (.deviceLaunchPush p) s = .next (pushAnswer u { p with image := none } 1 0)) ∧
    (∀ (p : PushReq) u b, readRecord s p = (u, some b) → b.tenant = p.src →
      exec (.deviceLaunchPush p) s = .next (pushNow u { p with image := some b })) ∧
    (∀ (p : PushReq), p.part.place = .hbm → p.part.cmp = false → s.movedPa p.part.key = p.part.key →
      partFault s p.part = none → readRecord s p = (s, some (BitVec.ofNat 1024 (homeValue s p.part)))) ∧
    (∀ ten v, getField (tget 0 s.hall.lres ten) 0 2 ≠ 1 → ∃ t d p, exec (.launchPush ten v) s = .next t ∧
      getField (tget 0 t.hall.lres ten) 0 2 = 1 ∧ s.tick < d ∧ d ≤ s.tick + 64 ∧ p.src = ten ∧
      (rangeOf (getField v 7 45 * 128) ≠ .tier → t.mem = s.mem) ∧
      ((d, .launchPushDone ten p) ∈ t.agenda ∨ (d, .crossTenantPush p) ∈ t.agenda)) ∧
    (∀ ten bits, exec (.evset ten bits) s = .next (s.modHall fun h => { h with events := tmod 0 h.events ten fun v => v ||| bits }) ∧
      exec (.evclr ten bits) s = .next (s.modHall fun h => { h with events := tmod 0 h.events ten fun v => v &&& ~~~bits })) ∧
    (s.tick % 64 = 0 → exec .admission s = .next ((List.range 16).foldl (admitTenant s.tick) s)) ∧
    (s.tick % 64 ≠ 0 → exec .admission s = .next s) ∧
    (∀ ten now n i p q u, n = (s.modHall fun h => { h with queues := (List.range 64).foldl (fun l k =>
        tmod [] l (64 * ten + k) (noteEligible (tget 0 s.hall.events ten) now)) h.queues }) → u = admitTenant now s ten →
      (chooseQueue n ten now = none → u = n) ∧
      (chooseQueue n ten now = some (i, p, q) → tget 0 u.hall.events ten = tget 0 s.hall.events ten &&& ~~~q.record.waits ∧
        tget [] u.hall.queues (64 * ten + i) = (tget [] n.hall.queues (64 * ten + i)).drop 1 ∧
        u.job? q.handle = (s.job? q.handle).map (fun j => { j with order := now + 1 }) ∧
        (∀ k, k ≠ ten → tget 0 u.hall.events k = tget 0 s.hall.events k) ∧ u.mem = s.mem ∧ u.rooms = s.rooms)) ∧
    (∀ ten i p q, ten < 16 → chooseQueue s ten s.tick = some (i, p, q) →
      (tget [] s.hall.queues (64 * ten + i)).head? = some q ∧ q.entered < s.tick ∧
      q.record.waits &&& ~~~(tget 0 s.hall.events ten) = 0 ∧ i < 64 ∧ p = effPriority (s.ageLimit ten) s.tick q)

/-- R235, R238 to R243, R288, R334, R336, R347, R350, R400: the walker claims the lowest-numbered free room with a claimant; a gang
that holds its rooms starts its iterations together, each at ENTRY with ARGS in x16 and its indices in their registers, in S
mode for tenant 0 and in U mode otherwise; a parked gang resumes at RESUME in M mode with the same preloads but its area in a0;
an iteration whose end can be reported adds its journal records and frees its room; a complete job sets its signal events and is
gone; a request for pre-emption makes interrupt 18 pending on the gang. A kill ends the rooms of the job and its descendants
with the tick of its lane. Completes, as exec (the form) s = .next (its own effect): roomClaim, gangStart, gangResume,
iterEndReport, jobComplete, jobKill, preemptRequest, preemptDeliveryDone. The model's choices in it: log entries 11, 36, 55, 56,
74, 75, 94. -/
def Obligations.JobsRunAndEnd : Prop :=
  ∀ (s : State),
    (∀ r j, s.nextClaim = some (r, j) → s.freeRoom r = true ∧ s.claimant r = some j ∧
      (∀ q, q < r → s.freeRoom q = true → s.claimant q = none) ∧ exec .roomClaim s = .next ((s.modRoom r fun x =>
      { x with claim := some j.handle }).modHall fun h => { h with rot := tset 0 h.rot (calUnit 0 r) j.record.tenant })) ∧
    (∀ h j l, s.gangPlace h = some (j, l) → (l.map (·.2)).Nodup → (∀ p ∈ l, (s.room p.2).tag = none) →
      ∃ t, exec (.gangStart h) s = .next t ∧ ∀ o r, (o, r) ∈ l →
      (t.room r).pc = laneTarget j.record.entry ∧ (t.room r).mode = startMode j.record.tenant ∧ (t.room r).qslip = j.record.slip ∧
      (t.room r).nextDispatch = s.tick + 1 ∧ (t.room r).run = some (jobRun j o j.next) ∧
      (t.room r).csr.satp = tget 0 s.hall.tsatp j.record.tenant ∧
      ((∀ k ∈ j.record.levels, j.record.reg k ≤ 5 ∧ ∀ i ∈ j.record.levels, i ≠ k → j.record.reg i ≠ j.record.reg k) →
        (t.room r).getX 16 = j.record.args ∧
        ∀ k ∈ j.record.levels, (t.room r).getX (BitVec.ofNat 5 (10 + j.record.reg k)) = BitVec.ofNat 64 (j.record.index o k))) ∧
    (∀ h j p l, s.resumePlace h = some (j, p, l) → (l.map (·.2)).Nodup → (∀ q ∈ l, (s.room q.2).tag = none) →
      ∃ t, exec (.gangResume h) s = .next t ∧ ∀ o r area resume, (o, r) ∈ l →
        p.members.find? (fun m => m.1 = o) = some (o, area, resume) → (t.room r).pc = laneTarget resume ∧ (t.room r).mode = .m ∧
        (t.room r).getX 10 = area ∧
        ((∀ k ∈ j.record.levels, j.record.reg k ≤ 5 ∧ ∀ i ∈ j.record.levels, i ≠ k → j.record.reg i ≠ j.record.reg k) →
          (t.room r).getX 16 = j.record.args ∧ ∀ k ∈ j.record.levels, j.record.reg k ≠ 0 →
            (t.room r).getX (BitVec.ofNat 5 (10 + j.record.reg k)) = BitVec.ofNat 64 (j.record.index o k))) ∧
    (∀ r u, (s.room r).run = some u → s.reports r = true → ((s.room r).dying.isSome ∨ (s.room r).vhzPend = false) →
      ∃ t, exec (.iterEndReport r) s = .next t ∧ (t.room r).run = none ∧ (t.room r).lastJob = some u.job ∧
        (t.room r).pc = (s.room r).pc ∧ tget [] t.hall.journal u.owner = tget [] s.hall.journal u.owner ++ endRecords s r ∧
        (∀ j, s.job? u.job = some j → ∃ k, t.job? u.job = some k ∧ k.ended = j.ended + 1 ∧ k.endHz = max j.endHz (endStores (s.room r)).1 ∧
          k.late = j.late ++ (endStores (s.room r)).2.map fun id => (r, id))) ∧
    (∀ x : Room, x.horizon ≤ (endStores x).1 ∧ ∀ o ∈ x.stores, o.bound = none → o.id ∈ (endStores x).2) ∧
    (∀ h j l rest, s.job? h = some j → j.recs = l :: rest → s.journalLen j.record.tenant + l.length ≤ 1024 →
      ∃ t, exec (.jobComplete h) s = .next t ∧ t.job? h = some { j with recs := rest } ∧
        tget [] t.hall.journal j.record.tenant = tget [] s.hall.journal j.record.tenant ++ l) ∧
    (∀ h j, s.job? h = some j → s.completes j = true → ∃ t, exec (.jobComplete h) s = .next t ∧ t.job? h = none ∧
      tget 0 t.hall.events j.record.tenant = tget 0 s.hall.events j.record.tenant ||| j.record.signals ∧ t.mem = s.mem) ∧
    (∀ xs1, s.me.mode ≠ .u → s.Free [xs1] [] → s.job? (getField (s.me.getX xs1) 0 32) = none → exec (.jobKill xs1) s = .next s.done) ∧
    (∀ xs1 j, s.me.mode ≠ .u → s.Free [xs1] [] → s.job? (getField (s.me.getX xs1) 0 32) = some j →
      (s.me.tenant = 0 ∨ j.record.tenant = s.me.tenant) → ∃ l, l = descendants s s.hall.jobs.length [getField (s.me.getX xs1) 0 32] ∧
        ∃ (k : KillOrder) (t : State), k.rooms = l.flatMap s.jobRooms ∧ k.kroom = s.turn ∧
          (∀ i ∈ l, ∀ d, s.job? i = some d → ∀ p ∈ d.parked, ∀ m ∈ p.members, ((s.areaOf i m.2.1).room, i, m.1) ∈ k.parked) ∧ t = l.foldl (killJob s.turn) s.done ∧
          exec (.jobKill xs1) s = .next { t with ending := t.ending ++ [k] }) ∧
    (∀ k : KillOrder, s.ending = [k] → s.endKilled = endRooms { s with ending := [] } k.rooms k.parked 1 k.kroom 0) ∧
    (∀ r u, (s.room r).run = some u → ∃ t, exec (.preemptRequest r) s = .next t ∧ t.hall.prBusy = true ∧
      (∀ q ∈ s.gangRooms u.job u.gang, (t.room q).pre = true) ∧ t.mem = s.mem) ∧
    (exec .preemptDeliveryDone s = .next (s.modHall fun h => { h with prBusy := false }))

/-! ## The conflict-batching unit -/

/-- R224 to R230, R251 to R254, R259, R373, R374: a `cb.` lane sends its request, decided a tick later; an open binds a stream to a
free unit and answers 0, or 1 to a bound one; the unit asks for one record after another, and halts at one that it cannot read;
a pull takes the first member that nobody holds; one that finds none is answered STREAM_END with no stream of its tenant or at
the end of it, else BATCH_END, the first time or while its room holds a member, and is held otherwise; a retirement names a
member that its room holds and counts at its horizon; a close unbinds the tenant's stream and answers the held pulls with
STREAM_END; `cb.stat` is answered the word that it selects; a batch whose members have all counted gives way to the next; a pass
appends a closed batch or keeps forming; a kill gives back what its rooms hold. Completes, as exec (the form) s = .next (its own
effect): cbOpen, cbDone, cbClose, cbStat, cbPull, cbuDecision, batchRelease, cbuPass, cbuRecordRead, cbDoneCount,
cbPullWithdraw, killCbuEffect. The model's choices in it: log entries 12, 38, 56, 61, 62, 74, 95. -/
def Obligations.ConflictBatching : Prop :=
  ∀ (s : State),
    (∀ xd xs1 xs2, s.Free [xs1, xs2] [xd] → s.me.vhzPend = false → s.me.deferred < 8 →
      exec (.cbOpen xd xs1 xs2) s = .next ((sendCb s .open (s.me.getX xs1) (s.me.getX xs2) xd).deferX xd) ∧
      exec (.cbDone xs1) s = .next (sendCb s .done (s.me.getX xs1) 0 0).sentCb ∧
      exec .cbClose s = .next (sendCb s .close 0 0 0).sentCb ∧
      exec (.cbStat xd xs1) s = .next ((sendCb s .stat (s.me.getX xs1) 0 xd).deferX xd) ∧
      exec (.cbPull xd) s = .next (((sendCb s .pull 0 0 xd).modMe fun x =>
        { x with outs := x.outs ++ [⟨s.seq, [xd.toNat], true, false, false, none⟩], hold := .cbPull s.seq false }).nextId)) ∧
    (∀ (q : CbuReq) w, w = wingOf q.room →
      (q.op = .open → openMisuse q.xs1 q.xs2 = false → (s.wing w).cbu = none → exec (.cbuDecision q) s = .next
        (cbAnswer (s.modWing w fun x => { x with cbu := some (openCbu q s.tick) }) q 0)) ∧
      (q.op = .open → openMisuse q.xs1 q.xs2 = false → (s.wing w).cbu ≠ none → exec (.cbuDecision q) s = .next (cbAnswer s q 1)) ∧
      (∀ c m before after, q.op = .pull → (s.wing w).cbu = some c → c.tenant = q.tenant → c.members = before ++ m :: after →
        m.holder = none → (∀ n ∈ before, n.holder ≠ none ∧ n.pos ≠ m.pos) → (∀ n ∈ after, n.pos ≠ m.pos) →
        exec (.cbuDecision q) s = .next (cbAnswer (s.modWing w fun x => { x with cbu := some { c with
          members := before ++ { m with holder := some q.room, iter := q.iter } :: after } }) q
          (0#8 ++ BitVec.ofNat 16 c.cur ++ 0#8 ++ m.payload))) ∧
      (q.op = .pull → (∀ c, (s.wing w).cbu = some c → c.tenant ≠ q.tenant) →
        exec (.cbuDecision q) s =
          .next (cbAnswer (s.modWing w fun x => { x with cbu := (s.wing w).cbu }) q (pullWord 0 2 0))) ∧
      (∀ c, q.op = .pull → (s.wing w).cbu = some c → c.tenant = q.tenant → (∀ m ∈ c.members, m.holder ≠ none) →
        (c.ended = true → exec (.cbuDecision q) s =
          .next (cbAnswer (s.modWing w fun x => { x with cbu := some c }) q (pullWord 0 2 c.cur))) ∧
        (c.ended = false → c.endSeen.getLsbD (q.room % 64) = false ∨ (∃ m ∈ c.members, m.holder = some q.room ∧ m.done = false) →
          exec (.cbuDecision q) s = .next (cbAnswer (s.modWing w fun x => { x with cbu := some { c with
            endSeen := c.endSeen ||| (1#64 <<< (q.room % 64)) } }) q (pullWord 0 1 c.cur))) ∧
        (c.ended = false → c.endSeen.getLsbD (q.room % 64) = true → (∀ m ∈ c.members, m.holder = some q.room → m.done = true) →
          ∃ t, exec (.cbuDecision q) s = .next t ∧ (t.wing w).cbu = some c ∧ (t.wing w).cbuHeld = (s.wing w).cbuHeld ++ [q] ∧
            t.rooms = s.rooms ∧ t.agenda = s.agenda)) ∧
      (∀ c l, q.op = .close → (s.wing w).cbu = some c → c.tenant = q.tenant → l = (s.wing w).cbuHeld →
        ∃ t, exec (.cbuDecision q) s = .next t ∧ (t.wing w).cbu = none ∧ (t.wing w).cbuHeld = [] ∧
          (∀ h ∈ l, (s.tick + 1, .deferredAnswer h.room
            { valueAnswer h.id (pullWord 0 2 0) h.lane h.word with held := true }) ∈ t.agenda) ∧
          (t.room q.room).x = (s.room q.room).x ∧
          (t.room q.room).outs = (s.room q.room).outs.filter fun o => o.id ≠ q.id) ∧
      (∀ c, q.op = .close → (s.wing w).cbu = some c → c.tenant ≠ q.tenant →
        exec (.cbuDecision q) s = .next (s.modRoom q.room fun x => x.answered q.id)) ∧
      (q.op = .stat → exec (.cbuDecision q) s = .next (cbAnswer s q (cbStatWord (s.wing w) q.tenant (getField q.xs1 0 2)))) ∧
      (q.op = .done → (∀ c, (s.wing w).cbu = some c → doneMember c q = none) →
        exec (.cbuDecision q) s = .next (cbRefuse s q false)) ∧
      (∀ c m, q.op = .done → (s.wing w).cbu = some c → doneMember c q = some m → ∃ t d, exec (.cbuDecision q) s = .next t ∧
        (t.wing w).cbu = some d ∧
        { m with done := true, counted := decide (q.hz ≤ s.tick), at_ := max s.tick q.hz } ∈ d.members) ∧
      (q.op = .close → (s.wing w).cbu = none → exec (.cbuDecision q) s = .next (s.modRoom q.room fun x => x.answered q.id))) ∧
    (∀ w c, (s.wing w).cbu = some c →
      (c.retired = true → c.closed ≠ [] → (s.wing w).cbuHeld = [] → ∃ t d, exec (.batchRelease w) s = .next t ∧
        (t.wing w).cbu = some d ∧ d.cur = c.cur + 1 ∧ d.closed = c.closed.drop 1 ∧ d.endSeen = 0 ∧
        d.members.map (·.payload) = (c.closed.headD []).map (·.payload) ∧ d.members.all (·.holder.isNone) = true) ∧
      (c.ends = true → c.closed = [] → (s.wing w).cbuHeld = [] → ∃ t, exec (.batchRelease w) s = .next t ∧
        (t.wing w).cbu = some { c with ended := true }) ∧
      (c.passDue s.tick = true → exec (.cbuPass w) s = .next (s.modWing w fun x => { x with cbu := some (c.pass s.tick) })) ∧
      (∀ n, c.got = none → c.reads s.tick = true →
        n = s.needTier { engCtx c.room c.satp c.mode with ten := some c.tenant } (c.base + BitVec.ofNat 64 (16 * c.cursor)) →
        (∀ l p u, cbFetch n c = .ok (l, p) → u = (n.fillTlb l).fillTier l → ∃ (d : Nat) (m : MemMsg),
          s.tick < d ∧ d ≤ s.tick + 64 ∧ m.parts = [p] ∧ m.dest = .cbu w ∧ m.id = n.seq ∧
          m.store = false ∧ exec (.cbuRecordRead w) s = .next ((u.modWing w fun x =>
            { x with cbu := some { c with asked := some n.seq } }).schedule d (.loadAtHome m)).nextId.bump) ∧
        (∀ f, cbFetch n c = .error f → exec (.cbuRecordRead w) s =
          .next (n.modWing w fun x => { x with cbu := some { c with halt := (some f), recorded := false } }))) ∧
      (∀ b, c.got = some b → ∃ d, s.tick < d ∧
        exec (.cbuRecordRead w) s = .next (s.modWing w fun x => { x with cbu := some { c with
          got := none, window := c.window ++ [cbRecord c.cursor b], cursor := c.cursor + 1, readAt := d } }).bump) ∧
      (∀ pos, ∃ t d, exec (.cbDoneCount w pos) s = .next t ∧ (t.wing w).cbu = some d ∧
        (∀ m ∈ c.members, m.pos = pos → m.done = true → m.at_ ≤ s.tick → { m with counted := true } ∈ d.members))) ∧
    (∀ (x : Wing) ten sel, (∀ c, x.cbu = some c → c.tenant ≠ ten) → cbStatWord x ten sel = 0) ∧
    (∀ (x : Wing) (c : Cbu), x.cbu = some c → c.cursor < 2 ^ 32 → c.window.length ≤ 256 → c.members.length ≤ 64 →
      c.forming.length ≤ 64 →
      getField (cbStatWord x c.tenant 0) 0 32 = c.cursor ∧ getField (cbStatWord x c.tenant 0) 32 9 = c.window.length ∧
      getField (cbStatWord x c.tenant 0) 41 7 = c.members.length ∧
      getField (cbStatWord x c.tenant 0) 48 7 = (c.members.filter (·.counted)).length ∧
      (cbStatWord x c.tenant 0).getLsbD 55 = c.ended ∧ (cbStatWord x c.tenant 0).getLsbD 56 = true ∧
      (cbStatWord x c.tenant 0).getLsbD 57 = c.ordered ∧ (cbStatWord x c.tenant 0).getLsbD 58 = c.halt.isSome ∧
      getField (cbStatWord x c.tenant 1) 0 16 = c.cur % 2 ^ 16 ∧ getField (cbStatWord x c.tenant 1) 16 7 = c.forming.length ∧
      cbStatWord x c.tenant 2 = c.endSeen) ∧
    (∀ r q, (s.wing (wingOf r)).cbuHeld = [q] → q.room = r → q.op = .pull →
      ∃ t, exec (.cbPullWithdraw r) s = .next t ∧ (t.wing (wingOf r)).cbuHeld = [] ∧
        (∀ id b, (s.room r).hold = .cbPull id b → (t.room r).hold = .none)) ∧
    (∀ (k : KillReq) w c, w < 4 → (s.wing w).cbu = some c → (s.wing w).cbuHeld = [] → ∃ t d, exec (.killCbuEffect k) s = .next t ∧
      (t.wing w).cbu = some d ∧ ∀ m ∈ c.members,
        (m.done = false → m.holder.isSome = true → m.iter ∈ k.iters → { m with holder := none } ∈ d.members) ∧
        (m.done = true ∨ m.iter ∉ k.iters → m ∈ d.members)) ∧
    (∀ k : KillReq, k.rooms = [] → k.parked = [] → k.iters = [] → exec (.killCbuEffect k) s = .next { s with agenda := s.agenda.filter fun a => match a.2 with
      | .cbuDecision r => !k.rooms.contains r.room | _ => true }) ∧
    (∀ (o : Bool) (win : List CRec) (w f : List CRec) (b : Bool), cbScan o win [] [] false = (w, f, b) →
      f.length ≤ 64 ∧ f.Pairwise fun x y => meets y.board x.board = false)

/-! ## The watch table -/

/-- R261 to R266, R270 to R276: `wt.arm` sends the image that it reads with the lines of its range; the table installs it in its
lowest free entry with a job of its own and answers the entry, or answers all ones; `wt.off` frees an entry of the tenant and
closes its job; a trigger starts a thread at the handler with its argument, line and count in a0 to a2 and one depth more than
its deepest store, and a store that came behind it in the claim tick begins the next trigger; the thread's first lane waits
until its stores are visible. Completes, as exec (the form) s = .next (its own effect): wtArm, watchArmInstall, wtOff,
watchOffDecision, triggerStart, threadStart. The model's choices in it: log entries 12, 37, 39, 84, 90, 92. -/
def Obligations.WatchTableActs : Prop :=
  ∀ (s : State),
    (∀ xd xs1 l v b lines n f g u, s.Free [xs1] [xd] → s.me.deferred < 8 → (s.me.getX xs1).toNat % 64 = 0 →
      inWindows (s.me.getX xs1) = false →
      n = s.needTier s.devCtx (s.me.getX xs1) → imageParts n n.devCtx .load 64 (s.me.getX xs1) 128 = .ok l →
      coreStoresUnderWay (fillAll n l) s.turn = false →
      f = ((fillAll n l).ownParts (l.map (·.1))).readMisses s.turn (l.map (·.1)) →
      imageValue f f.turn (l.map (·.1)) = .ok v → b = BitVec.ofNat 1024 v →
      g = (if entryFieldsOk f b then f.needAll f.devCtx
        (pageVas (entryFirst b).toNat ((entryLast b).toNat + 1 - (entryFirst b).toNat)) else f) →
      lines = (if entryFieldsOk g b then watchLines g g.devCtx b else none) →
      u = ((lines.map (·.2)).getD []).foldl State.fillTlb g →
      ∃ q : ArmReq, q.ok = lines.isSome ∧ q.lines = (lines.map (·.1)).getD [] ∧ q.image = b ∧ q.id = u.seq ∧
        exec (.wtArm xd xs1) s = .next ((u.send s.turn .data u.openTick (.watchArmInstall q)).deferX xd)) ∧
    (∀ q : ArmReq, (q.ok = false ∨ s.freeEntry = none) → exec (.watchArmInstall q) s =
      .next (s.schedule s.tick (.deferredAnswer q.room (valueAnswer q.id (-1) 0 0)))) ∧
    (∀ (q : ArmReq) i, q.ok = true → s.freeEntry = some i → ∃ t e, exec (.watchArmInstall q) s = .next t ∧
      tget none t.hall.watch i = some e ∧ e.state = 1 ∧ e.tenant = q.tenant ∧ e.lines = q.lines ∧ e.image = q.image ∧ e.pend = none ∧
      (s.tick, .deferredAnswer q.room (valueAnswer q.id (BitVec.ofNat 64 i) 0 0)) ∈ t.agenda ∧
      (∃ j ∈ t.hall.jobs, j.handle = e.job ∧ j.watch = some i ∧ j.record = q.record)) ∧
    (∀ xs1, s.Free [xs1] [] → exec (.wtOff xs1) s = .next (s.send s.turn .data s.openTick
      (.watchOffDecision s.me.tenant (getField (s.me.getX xs1) 0 10))).done) ∧
    (∀ ten i e, tget none s.hall.watch i = some e → (ten = e.tenant →
        ∃ t, exec (.watchOffDecision ten i) s = .next t ∧ tget none t.hall.watch i = none ∧ t.mem = s.mem ∧
          (∀ j, s.job? e.job = some j → t.job? e.job = some { j with closing := true })) ∧
      (ten ≠ e.tenant → exec (.watchOffDecision ten i) s = .next s)) ∧
    (∀ i e g r j, tget none s.hall.watch i = some e → e.pend = some g → s.claimed e.job = some r → s.job? e.job = some j →
      s.triggered i = true → j.parked = [] → (s.room r).tag = none → ∃ t, exec (.triggerStart i) s = .next t ∧
        (t.room r).pc = laneTarget (entryHandler e.image) ∧ (t.room r).getX 10 = entryArg e.image ∧ (t.room r).getX 11 = g.line ∧
        (t.room r).getX 12 = BitVec.ofNat 64 g.count ∧ (t.room r).depth = g.depth + 1 ∧
        (t.room r).hold = .thread g.vt g.wait ∧
        (∃ f, tget none t.hall.watch i = some f ∧ f.pend = e.fresh.head? ∧ f.started = e.started + 1)) ∧
    (∀ r vt, (s.room r).hold = .thread vt [] → vt ≤ s.tick → (s.room r).nextDispatch ≤ s.tick →
      exec (.threadStart r) s = .next (s.modRoom r fun x => { x with hold := .none, nextDispatch := s.tick }))

/-! ## Contexts, services and privileged instructions -/

/-- What a context must be for its area to hold it: the widths that R342 and R343 give its fields. -/
def Savable (x : Room) : Prop :=
  (∃ u, x.run = some u ∧ u.vregs ≤ 24) ∧ (∀ n, n < 16 → let w := tget ({} : Win) x.w n
    w.op < 16 ∧ w.front.length ≤ w.len ∧ w.back.length ≤ w.len ∧ w.front.length + w.back.length < 1024 ∧ (w.back = [] → w.bagg = [])) ∧
  winRow0 (fun n => (tget ({} : Win) x.w n).len) 16 ≤ 1024 ∧
  (∀ n, n < 4 → let z := tget ({} : Acc) x.z n
    z.mode < 4 ∧ ∀ a b, z.mn = some (a, b) → 1 ≤ a ∧ a ≤ 256 ∧ 1 ≤ b ∧ b ≤ 256) ∧
  x.horizon < 2 ^ 63 ∧ (∀ k, k < 16 → x.tokenCount k < 32) ∧ x.cq.length ≤ 16 ∧ x.posts.length ≤ 4 ∧
  (∀ p ∈ x.posts, p.1.toNat < 4 ∧ p.2 < 2 ^ 62) ∧ x.origins.length ≤ 64 ∧ (∀ o ∈ x.origins, o.handle ≠ 0) ∧
  (∀ e, (x.queue e).q.length ≤ e.depth ∧ (x.queue e).ret < 2 ^ 32 ∧ ∀ n ∈ (x.queue e).q, decodeEng e n.word = some n.instr) ∧
  (∀ q, q < 8 → x.iqHeld q ≤ 4) ∧ (∀ q, q < 4 → (x.oqElems q).length ≤ 4) ∧ x.disp < 2 ^ 32

/-- What a room holds after the load of a context's area over it (R345): registers, windows, accumulators, data, counters, control
queue, posts, origin counters, counts of R341, and the entries with their operands. -/
def Restores (x y z : Room) (now : Nat) : Prop :=
  (∀ n i, n < x.vregs → i < 1024 → tget 0 (tget [] z.v n) i = tget 0 (tget [] x.v n) i) ∧
  (∀ n i, n < 8 → i < 16 → tget 0 (z.getK n) i = tget 0 (x.getK n) i) ∧
  (∀ n, n < 16 → tget 0 z.lay n = tget 0 x.lay n) ∧
  (∀ n, n < 32 → tget 0 z.nestS n = tget 0 x.nestS n ∧ tget 0 z.nestA n = tget 0 x.activeSet.1 n) ∧
  (∀ n, n ∈ [8, 9, 10] → tget 0 z.recS n = tget 0 x.recS n ∧ tget 0 z.recA n = tget 0 x.activeSet.2 n) ∧
  (∀ i, i < 128 → z.gather.getD i 0 = x.gather.getD i 0) ∧
  (∀ p i, p < 8 → i < 64 → tget 127#7 (tget [] z.bnet p) i = tget 127#7 (tget [] x.bnet p) i) ∧
  (∀ n, n < 16 → let a := tget ({} : Win) x.w n; let b := tget ({} : Win) z.w n
    b.op = a.op ∧ b.len = a.len ∧ b.front.length = a.front.length ∧ b.back.length = a.back.length ∧ ∀ j, j < 64 →
      b.bagg.getD j 0 = a.bagg.getD j 0 ∧ ∀ i, (b.front.getD i []).getD j 0 = (a.front.getD i []).getD j 0 ∧
        (b.back.getD i []).getD j 0 = (a.back.getD i []).getD j 0) ∧
  (∀ n, n < 4 → let a := tget ({} : Acc) x.z n; let b := tget ({} : Acc) z.z n
    b.mode = a.mode ∧ b.mn = a.mn ∧ ∀ i, i < 16384 → tget 0 b.el i = tget 0 a.el i) ∧
  (∀ i, i < 16384 → tget 0 z.scales i = tget 0 x.scales i) ∧
  z.qslip = x.qslip &&& qslipMask ∧ z.qwmark = x.qwmark &&& (qwmarkMask ||| qlpMask) ∧ z.vflags = (x.vflags ||| x.vflNew) &&& vflagsMask ∧
  z.bankfmt = bankfmtNew y.bankfmt x.bankfmt ∧ z.bconf = x.bconf ∧ z.barrec = x.barrec ∧ z.hz = x.horizon ∧
  z.faultrec = x.faultrec &&& 0x1FFFFFFFFFFFFFFF#64 ∧ z.disp = x.disp ∧
  (∀ k, k < 16 → z.tokenCount k = x.tokenCount k) ∧ z.cq.map (·.1) = x.cq.map (·.1) ∧ z.posts = x.posts ++ y.posts ∧
  z.origins.map (fun o => (o.handle, o.count)) = x.origins.map (fun o => (o.handle, o.count)) ∧
  (∀ u v, x.run = some u → y.run = some v → u.selfJob < 2 ^ 32 → u.owner < 16 → u.selfOrd < 2 ^ 64 →
    z.run = some { v with ident := some (u.selfJob, u.selfOrd, u.owner) }) ∧
  (∀ e, (z.queue e).ret = (x.queue e).ret ∧ (z.queue e).q.length = (x.queue e).q.length ∧
    ∀ (i : Nat) n, (x.queue e).q[i]? = some n → ∃ m, (z.queue e).q[i]? = some m ∧ m.instr = n.instr ∧ m.word = n.word ∧ m.xa = n.xa ∧
      m.xb = n.xb ∧ m.bankfmt = n.bankfmt ∧ m.qpos = (x.queue e).ret + i ∧ m.popped = n.popped ∧ m.pushWait = n.pushWait ∧
      m.mask2 = n.mask2 ∧ m.issued = none) ∧
  (∀ n l t, x.qm.q = n :: l → n.nest = some t → n.pushWait = false → t.tile < 2 ^ 48 → t.block < 2 ^ 11 → t.pushed < 2 ^ 64 →
    (∃ sy xa xb, n.instr = .mGo sy xa xb) → ∃ m u, z.qm.q.head? = some m ∧ m.nest = some u ∧ u.tile = t.tile ∧ u.block = t.block ∧
      u.stage = (if 2 ≤ t.stage then 2 else 0) ∧ u.pushed = t.pushed ∧ ∀ k, k < 32 → tget 0 u.regs k = tget 0 t.regs k) ∧
  (∀ q, q < 8 → ((tget ({} : Iq) z.iq q).els.filterMap (·.el)).length = x.iqHeld q ∧
    (tget ({} : Iq) z.iq q).stream.isSome = (tget ({} : Iq) x.iq q).stream.isSome ∧
    ∀ (i : Nat) t, ((tget ({} : Iq) x.iq q).els.filterMap (·.el))[i]? = some t →
      ∃ u, ((tget ({} : Iq) z.iq q).els.filterMap (·.el))[i]? = some (u, now) ∧ ∀ j, j < 1024 → tget 0 u j = tget 0 t.1 j) ∧
  ((∀ n ∈ x.qs.q, n.popped = false) → ∀ q, q < 4 → (tget ({} : Oq) z.oq q).els.length = (x.oqElems q).length ∧
    ∀ (i : Nat) t, (x.oqElems q)[i]? = some t →
      ∃ u, (tget ({} : Oq) z.oq q).els[i]? = some (some (u, now)) ∧ ∀ j, j < 1024 → tget 0 u j = tget 0 t j)

/-- R71, R192, R246, R342 to R348, R351, R376 to R387: the privileged lanes are illegal in U mode, and `filt.set` and `cal.set` for
every tenant but 0. `q.save` and `q.load` check their area (ALIGN, and an access fault in the device windows), `q.save` then
stops the engines and holds dispatch, and a load, into the scratchpad too unless the room still holds the area's, goes on when
it is complete; `replay` removes the record that it names and its source continues; `tlb.inv` drops the entries that it names
and holds until their accesses are done; tables are stored and dispatch goes on; the readouts answer the word that they name,
`heat.rd`, `cmp.stat` and `st.rd` of a pool with what their unit reads as it decides, a pool controller in a slot of the tenant.
`q.save` stores the doublewords of the area, all but header doublewords 1, 2 and 256 to 511 and the v registers past VREGS, and
leaves the queues, data queues, control queue and tokens empty; the load of an area so written gives the room the registers,
windows, accumulators, data, tokens, counters and entries that the saved room held. Completes, as exec (the form) s = .next (its
own effect): qSave, qSaveDone, qLoad, qLoadDone, replay, replayDecision, tlbInv, tlbInvDone, filtSet, filtSetApplied, calSet,
calSetStored, stRd, logRd, lifeRd, heatRd, cmpStat. The model's choices in it: log entries 12, 37, 40, 41, 42, 43, 69, 83, 84,
90, 91, 92, 93. -/
def Obligations.PrivilegedLanes : Prop :=
  ∀ (s : State) (xs1 xs2 xd : Reg),
    (s.me.mode = .u → ∀ i ∈ [Instr.qSave xs1, .qLoad xs1, .replay xs1, .jobKill xs1, .tlbInv xs1 xs2, .filtSet xs1 xs2, .calSet xs1 xs2,
      .atticSet xs1 xs2, .stRd xd xs1, .logRd xd xs1, .lifeRd xd xs1], exec i s = .next s.illegal) ∧
    (s.me.mode ≠ .u → s.me.tenant ≠ 0 → exec (.filtSet xs1 xs2) s = .next s.illegal ∧ exec (.calSet xs1 xs2) s = .next s.illegal) ∧
    (s.me.mode ≠ .u → s.Free [xs1] [] → (s.me.getX xs1).toNat % 4096 ≠ 0 →
      exec (.qSave xs1) s = .next (s.devExc 2 (s.me.getX xs1)) ∧ exec (.qLoad xs1) s = .next (s.devExc 2 (s.me.getX xs1))) ∧
    (s.me.mode ≠ .u → s.Free [xs1] [] → (s.me.getX xs1).toNat % 4096 = 0 → inWindows (s.me.getX xs1) = true →
      exec (.qSave xs1) s = .next (s.exc 7 (s.me.getX xs1)) ∧ exec (.qLoad xs1) s = .next (s.exc 5 (s.me.getX xs1))) ∧
    (∀ l sp pages n f base m, s.me.mode ≠ .u → s.Free [xs1] [] → (s.me.getX xs1).toNat % 4096 = 0 → inWindows (s.me.getX xs1) = false →
      n = s.needAll s.devCtx (pageVas (s.me.getX xs1).toNat areaSize) →
      rangePages n n.devCtx .store (s.me.getX xs1) areaSize = .ok l → pages = l.map (·.1) →
      coreStoresUnderWay (fillAll n l) s.turn = false → f = (fillAll n l).readImage s.turn pages (s.me.getX xs1) 128 →
      imageFault f pages (s.me.getX xs1) 128 = none →
      base = imageWord f f.turn pages (s.me.getX xs1) 8 → inWindows base = false → m = f.needAll f.devCtx (pageVas base.toNat s.me.scratch) →
      rangePages m m.devCtx .store base s.me.scratch = .ok sp → exec (.qSave xs1) s = .next
        (((fillAll m sp).passRoom (fillAll m sp).turn).holdOn (.qSave (s.me.getX xs1) pages (sp.map (·.1)) base false))) ∧
    (∀ l pages n u size (w : Nat → W64), s.me.mode ≠ .u → s.Free [xs1] [] → (s.me.getX xs1).toNat % 4096 = 0 →
      inWindows (s.me.getX xs1) = false → (∀ e ∈ allEng, (s.me.queue e).q = []) →
      n = s.needAll s.devCtx (pageVas (s.me.getX xs1).toNat areaSize) →
      rangePages n n.devCtx .load (s.me.getX xs1) areaSize = .ok l → pages = l.map (·.1) →
      coreStoresUnderWay (fillAll n l) s.turn = false → u = (fillAll n l).readImage s.turn pages (s.me.getX xs1) areaSize →
      imageFault u pages (s.me.getX xs1) areaSize = none →
      (∀ off, w off = imageWord u u.turn pages (s.me.getX xs1) off) → headerFault w s.me.vregs (s.me.getX xs1) = none →
      size = min 0x400000 (getField (w 0) 32 32) →
      ((∃ t, s.me.tag = some t ∧ t.area = s.me.getX xs1 ∧ t.job = getField (w 24) 0 32) →
        exec (.qLoad xs1) s = .next (loadArea u u.turn (s.me.getX xs1) pages [] false)) ∧
      (∀ v sp f, s.me.tag = none → inWindows (w 8) = false → v = u.needAll u.devCtx (pageVas (w 8).toNat size) →
        rangePages v v.devCtx .load (w 8) size = .ok sp → f = (fillAll v sp).readImage s.turn (sp.map (·.1)) (w 8) size →
        imageFault f (sp.map (·.1)) (w 8) size = none →
        exec (.qLoad xs1) s = .next (loadArea f f.turn (s.me.getX xs1) pages (sp.map (·.1)) true))) ∧
    (∀ r a p q b, (s.room r).hold = .qSave a p q b true → (s.room r).stores = [] → (s.room r).parks = false →
      exec (.qSaveDone r) s = .next (s.modRoom r fun x => x.retire s.tick)) ∧
    (∀ r a p q b, (s.room r).hold = .qSave a p q b false → s.holdsKey r = false → (s.room r).saveReady s.tick = true →
      exec (.qSaveDone r) s = .next (writeArea (s.modRoom r Room.coverCut) r a p q b)) ∧
    (∀ r, (s.room r).hold = .qLoad → exec (.qLoadDone r) s = .next (s.modRoom r fun x => x.retire s.tick)) ∧
    (s.me.mode ≠ .u → s.Free [xs1] [] → exec (.replay xs1) s = .next (s.send s.turn .data s.openTick
      (.replayDecision ⟨s.turn, s.me.tenant, s.me.getX xs1⟩)).done) ∧
    (∀ q f, replayRecord s q = some f → exec (.replayDecision q) s = .next (resumeSource (s.modWing (wingOf q.room) fun x =>
      { x with faults := x.faults.filter fun g => g.slot ≠ f.slot }) f)) ∧
    (∀ q, replayRecord s q = none → exec (.replayDecision q) s = .next s) ∧
    (s.me.mode ≠ .u → s.Free [xs1, xs2] [] → tlbReserved (s.me.getX xs2) = false → ∃ t target cut d, exec (.tlbInv xs1 xs2) s = .next t ∧
      target = tlbTarget s.me.tenant (s.me.getX xs2) ∧ t.mem = s.mem ∧ (t.tlb = s.tlb.filter fun e =>
        !tlbNamed target (getField (s.me.getX xs2) 0 2) (getField (s.me.getX xs2) 16 16) (s.me.getX xs1) e) ∧
      (t.room s.turn).hold = .tlbInv cut target ∧ s.seq ≤ cut ∧ (t.room s.turn).pc = s.me.pc ∧
      s.tick < d ∧ (d, .tlbInvDone s.turn) ∈ t.agenda) ∧
    (∀ r cut ten, (s.room r).hold = .tlbInv cut ten → accessBefore s ten cut = true →
      exec (.tlbInvDone r) s = .next (s.schedule (s.tick + 1) (.tlbInvDone r))) ∧
    (∀ r cut ten, (s.room r).hold = .tlbInv cut ten → accessBefore s ten cut = false →
      exec (.tlbInvDone r) s = .next (s.modRoom r fun x => x.retire s.tick)) ∧
    (∀ l v n f, s.me.mode ≠ .u → s.me.tenant = 0 → s.Free [xs1, xs2] [] → (s.me.getX xs1).toNat % 16 = 0 →
      inWindows (s.me.getX xs1) = false →
      n = s.needTier s.devCtx (s.me.getX xs1) → coreStoresUnderWay (fillAll n l) s.turn = false →
      f = ((fillAll n l).ownParts (l.map (·.1))).readMisses s.turn (l.map (·.1)) →
      imageValue f f.turn (l.map (·.1)) = .ok v →
      (imageParts n n.devCtx .load 16 (s.me.getX xs1) 16 = .ok l → (BitVec.ofNat 128 v).extractLsb' 19 13 = 0 →
        (BitVec.ofNat 128 v).extractLsb' 48 80 = 0 → exec (.filtSet xs1 xs2) s = .next ((f.send f.turn .data
          f.openTick (.filtSetApplied f.turn (getField (s.me.getX xs2) 0 8) (BitVec.ofNat 128 v))).holdOn .filtSet)) ∧
      (∀ u, (s.me.getX xs1).toNat % 64 = 0 → imageParts n n.devCtx .load 64 (s.me.getX xs1) 64 = .ok l → unitOf (s.me.getX xs2) = some u →
        tableReserved (BitVec.ofNat 512 v) = false → exec (.calSet xs1 xs2) s = .next ((f.send f.turn .data
          f.openTick (.calSetStored f.turn u (BitVec.ofNat 512 v))).holdOn .calSet))) ∧
    (∀ r i b, (s.room r).hold = .filtSet → exec (.filtSetApplied r i b) s = .next ((s.modHall fun h =>
      { h with filt := tset 0 h.filt i b, filtCnt := tset 0 h.filtCnt i 0 }).modRoom r fun x => x.retire s.tick)) ∧
    (∀ r u b, (s.room r).hold = .calSet → exec (.calSetStored r u b) s = .next ((s.modHall fun h =>
      { h with calNew := tset none h.calNew u (some b) }).modRoom r fun x => x.retire s.tick)) ∧
    (s.me.mode ≠ .u → s.Free [xs1] [xd] → s.me.deferred < 8 →
      exec (.stRd xd xs1) s = .next (if getField (s.me.getX xs1) 56 8 = 1 then
          s.askLater xd (.pool s.me.tenant (getField (s.me.getX xs1) 40 16) (getField (s.me.getX xs1) 0 40))
        else (stateTake s s.me.tenant (s.me.getX xs1)).answerLater xd (stateRead s s.me.tenant (s.me.getX xs1))) ∧
      exec (.logRd xd xs1) s = .next (s.answerLater xd (logWord s s.me.tenant (s.me.getX xs1))) ∧
      exec (.lifeRd xd xs1) s = .next (s.answerLater xd (if wingOut s (getField (s.me.getX xs1) 0 2) then 0 else
        (s.wing (getField (s.me.getX xs1) 0 2)).powered ++ (s.wing (getField (s.me.getX xs1) 0 2)).hours))) ∧
    (s.Free [xs1] [xd] → s.me.deferred < 8 → inWindows (s.me.getX xs1) = true →
      exec (.heatRd xd xs1) s = .next (s.answerLater xd (BitVec.ofNat 64 (2 ^ 17))) ∧
      exec (.cmpStat xd xs1) s = .next (s.exc 5 (s.me.getX xs1))) ∧
    (∀ l c n u, s.Free [xs1] [xd] → s.me.deferred < 8 → inWindows (s.me.getX xs1) = false → n = s.needTier c (s.me.getX xs1) →
      place n c .load (s.me.getX xs1) = .ok l → u = n.fillTlb l →
      (c = { s.devCtx with repl := true } → exec (.heatRd xd xs1) s = .next (u.askLater xd (.heat (heatPage l) l.heat))) ∧
      (c = s.devCtx → l.cmp = true → exec (.cmpStat xd xs1) s = .next (u.askLater xd (.sectors s.me.tenant l.mdx))) ∧
      (c = s.devCtx → l.cmp = false → exec (.cmpStat xd xs1) s = .next (u.devExc 1 (s.me.getX xs1)))) ∧
    (∀ r ten u sel, askedValue s r (.pool ten u sel) = poolWord s ten u sel ∧
      (∀ t, askWaits s (.pool ten u sel) = some t → s.mayServe (calUnit 4 (u / 1024)) ten s.tick = false) ∧
      (u < 4096 → s.mayServe (calUnit 4 (u / 1024)) ten s.tick = false → (askWaits s (.pool ten u sel)).isSome = true)) ∧
    (∀ r page bit, askedValue s r (.heat page bit) = heatWord s page bit) ∧
    (∀ r ten mdx, askedValue s r (.sectors ten mdx) = cmpWord s ten mdx) ∧
    (∀ vregs off, vregs ≤ 24 → off % 8 = 0 → off < areaSize → ((∃ p ∈ savedRanges vregs, p.1 ≤ off ∧ off + 8 ≤ p.1 + p.2) ↔
      ¬ (off = 8 ∨ off = 16 ∨ (0x800 ≤ off ∧ off < 0x1000) ∨ (0xC000 + 4096 * vregs ≤ off ∧ off < 0x24000)))) ∧
    (∀ x r off len i, i < len / 8 → BitVec.ofNat 64 (savedData x r off len / 2 ^ (64 * i)) = saveWord x r (off + 8 * i)) ∧
    (∀ r area pages sp base x t, x = (finishBlocked s r).room r → t = writeArea s r area pages sp base →
      (∀ p ∈ savedRanges x.vregs, ∀ part, imagePart pages area p.1 p.2 (savedData x r p.1 p.2) = some part → ∃ d m,
        ((d, .storeAtHome m) ∈ t.agenda ∨ (d, .msauRequest m) ∈ t.agenda) ∧ m.room = r ∧ m.store = true ∧ part ∈ m.parts) ∧
      (∀ e, ((t.room r).queue e).q = []) ∧ (t.room r).iq = [] ∧ (t.room r).oq = [] ∧ (t.room r).cq = [] ∧ (t.room r).posts = [] ∧
      (∀ k, (t.room r).tokenCount k = 0) ∧ (t.room r).hold = .qSave area pages sp base true ∧
      ∃ g, (t.room r).tag = some g ∧ g.area = area ∧ g.base = base ∧ g.pages = sp ∧ g.size = x.scratch) ∧
    (∀ x y r now aux (w : Nat → W64), Savable x → (∀ off, off % 8 = 0 → off < areaSize →
      ¬ (off = 8 ∨ off = 16 ∨ (0x800 ≤ off ∧ off < 0x1000)) → w off = saveWord x r off) → Restores x y (loadRoom now r w aux y) now)

/-- R45, R198 to R203, R221, R222, R384: `cel.swap` by the stair's owner sends its request, which is refused within 64 ticks of T,
or over a pending swap, and else is pending until T; at T the halves exchange unless shadow bytes are under way, and the outcome
is posted; a post takes a free place of the control queue; `attic.set` holds until the partition has changed, and bytes that
only one of the portions has read as zeros, once the dirty lines of ways that are given up have been written back; a
configuration write is ignored while BUSY, refused over running rooms, and else accepted. Completes, as exec (the form) s =
.next (its own effect): celSwap, celSwapRequest, castling, cqStairPostDelivery, atticSet, atticChangeTick, stairownWrite,
atticctlWrite, atticpartWrite, configChangeDone. The model's choices in it: log entries 12, 44, 70. -/
def Obligations.StairsAndConfiguration : Prop :=
  ∀ (s : State),
    (∀ xs1, s.Free [xs1] [] → getField (s.wing (wingOf s.turn)).stairown (4 * (s.turn % 16)) 4 = s.me.tenant → s.me.posts.length < 4 →
      exec (.celSwap xs1) s = .next (s.schedule (s.tick + 1) (.celSwapRequest s.turn (s.me.getX xs1))).done) ∧
    (∀ xs1, s.Free [xs1] [] → getField (s.wing (wingOf s.turn)).stairown (4 * (s.turn % 16)) 4 ≠ s.me.tenant →
      exec (.celSwap xs1) s = .next (s.devExc 1 0)) ∧
    (∀ r t, (t.toNat < s.tick - 1 + 64 → exec (.celSwapRequest r t) s = .next (s.post r 2)) ∧
      (s.tick - 1 + 64 ≤ t.toNat → (s.stair (stairOf r)).swap ≠ none ∨ (s.stair (stairOf r)).swapAt = some s.tick →
        exec (.celSwapRequest r t) s = .next (s.post r 3)) ∧
      (s.tick - 1 + 64 ≤ t.toNat → (s.stair (stairOf r)).swap = none → (s.stair (stairOf r)).swapAt ≠ some s.tick → exec (.celSwapRequest r t) s =
        .next (s.modStair (stairOf r) fun x => { x with swap := some (t.toNat, r) }))) ∧
    (∀ i t r, (s.stair i).swap = some (t, r) → t ≤ s.tick → (s.shadowBusy i = false → exec (.castling i) s =
        .next ((s.modStair i fun x => { x with swap := none, swapAt := some s.tick, act := 1 - x.act }).post r 0)) ∧
      (s.shadowBusy i = true → exec (.castling i) s = .next ((s.modStair i fun x => { x with swap := none, swapAt := some s.tick }).post r 1))) ∧
    (∀ r p l, (s.room r).posts = p :: l → 0 < (s.room r).cqFree → exec (.cqStairPostDelivery r) s =
      .next (s.modRoom r fun x => { x with posts := l, cq := x.cq ++ [(p.1, s.tick)] })) ∧
    (∀ xs1 xs2 i v, s.me.mode ≠ .u → s.Free [xs1, xs2] [] → i = 16 * wingOf s.turn + getField (s.me.getX xs1) 0 4 →
      v = getField (s.me.getX xs2) 0 5 → (v % 4 = 0 → v ≤ 16 → s.me.tenant = 0 → ∃ d, s.tick < d ∧ exec (.atticSet xs1 xs2) s =
        .next (((s.modStair i fun t => { t with changes := t.changes ++ [(v, d, s.turn)] }).holdOn (.attic i)).bump)) ∧
      (v % 4 ≠ 0 ∨ 16 < v → exec (.atticSet xs1 xs2) s = .next s.illegalOp) ∧
      (v % 4 = 0 → v ≤ 16 → s.me.tenant ≠ 0 → s.me.tenant ≠ getField (s.wing (wingOf s.turn)).stairown (4 * (i % 16)) 4 →
        exec (.atticSet xs1 xs2) s = .next (s.devExc 1 0))) ∧
    (∀ i v d r l, (s.stair i).changes = (v, d, r) :: l →
      (s.atticDue i = true ↔ d ≤ s.tick ∧ (s.wing (i / 16)).cfgBusy = false ∧
        ((s.stair i).waypart ≤ v ∨ s.sliceDirty i = true ∨ s.sliceDrains i = false)) ∧
      (s.atticDue i = false → exec (.atticChangeTick i) s = .next s) ∧
      (s.atticDue i = true → v < (s.stair i).waypart → s.sliceDirty i = true →
        exec (.atticChangeTick i) s = .next ((s.sliceRooms i).foldl State.drainRoom s))) ∧
    (∀ i v d r l, (s.stair i).changes = (v, d, r) :: l → s.atticDue i = true → (s.stair i).waypart ≤ v ∨ s.sliceDirty i = false →
      (s.stair i).waypart ≤ 16 → v ≤ 16 → ((s.room r).hold = .attic i → ∃ t, exec (.atticChangeTick i) s = .next t ∧
        (t.room r).hold = .none ∧ (t.room r).pc = nextPc (s.room r).pc) ∧ ∃ t, exec (.atticChangeTick i) s = .next t ∧ (t.stair i).waypart = v ∧ (t.stair i).changes = l ∧
        (∀ a, 16 - max v (s.stair i).waypart ≤ a / 2 ^ 20 → a / 2 ^ 20 < 16 - min v (s.stair i).waypart →
          t.mem.get (atticKey i a) = 0) ∧
        (∀ a, a < atticKey i 0 ∨ atticKey i (2 ^ 24) ≤ a → t.mem.get a = s.mem.get a)) ∧
    (∀ w v, (s.wing w).cfgBusy = true → exec (.stairownWrite w v) s = .next s ∧ exec (.atticctlWrite w v) s = .next s ∧
      exec (.atticpartWrite w v) s = .next s) ∧
    (∀ w v, (s.wing w).cfgBusy = false → (s.wingRuns w fun _ => true) = false →
      exec (.atticctlWrite w v) s = .next ((s.cfgAccept w fun x => { x with atticctl := v &&& 1#64 }).flushAttic w) ∧
      exec (.atticpartWrite w v) s = .next ((s.cfgAccept w fun x => { x with atticpart := v }).flushAttic w) ∧
      ∃ t, exec (.stairownWrite w v) s = .next t ∧ (t.wing w).stairown = v ∧ (t.wing w).cfgBusy = true) ∧
    (∀ w v, (s.wing w).cfgBusy = false → (s.wingRuns w fun _ => true) = true →
      exec (.atticctlWrite w v) s = .next (s.modWing w fun x => { x with cfgRef := true })) ∧
    (∀ w, exec (.configChangeDone w) s = .next (s.modWing w fun x => { x with cfgBusy := false }))

/-! ## The bridge, memory services, reliability and the mailbox -/

/-- R295, R297, R299 to R302, R358, R359, R367, R368: a snoop of a held granule is answered once every lease on its line has ended
(and no fourth attempt of R329 is under way there), and the granule is then I; a host read with caching intent sets its
host-held bits, one without changes nothing, and a host write stores its bytes, a granule at a time, at their MSAU on a page
marked MS; a link that goes down is LOST, its granules are gone, a line with an M half is in the orphan area, and LOST clears
only while the link is up; RELOAD drops the tier entries; SCRUB adds 1 to an incarnation, and of a room ends the leases and
discards the requests that wait; a sealed migration moves the bytes of its page; a zero-fill clears its range; the bytes
elsewhere are as before. Completes, as exec (the form) s = .next (its own effect): hostSnoop, snoopAnswer, hostCxlMemAccess,
linkDown, linkUp, lostClear, reload, scrub, migrationSeal, migrationCopied, migrationRelease, zeroFillMark, zeroFillDone. The
model's choices in it: log entries 12, 15, 49, 80. -/
def Obligations.BridgeAndMemoryServices : Prop :=
  ∀ (s : State),
    (∀ g inc, (s.stale (s.portAgent g) inc = true → exec (.hostSnoop ⟨g, inc⟩) s = .next (s.dropStale (s.portAgent g) inc)) ∧
      (s.stale (s.portAgent g) inc = false → (tget {} s.grans g).st = 0 → exec (.hostSnoop ⟨g, inc⟩) s = .next s) ∧
      (s.stale (s.portAgent g) inc = false → (tget {} s.grans g).st ≠ 0 → g ∉ s.snoops →
        exec (.hostSnoop ⟨g, inc⟩) s = .next { s with snoops := s.snoops ++ [g] }) ∧
      (g ∈ s.snoops → s.leasesOver g = true → ∃ t, exec (.snoopAnswer g) s = .next t ∧
        (tget {} t.grans g).st = 0 ∧ g ∉ t.snoops ∧ (∀ h, h ≠ g → tget {} t.grans h = tget {} s.grans h) ∧ t.mem = s.mem) ∧
      (s.leasesOver g = false → exec (.snoopAnswer g) s = .next s)) ∧
    (∀ h : HostAcc, h.inc ≠ tget 0 s.hall.inc (256 + h.port) → exec (.hostCxlMemAccess h) s = .next (s.dropStale (256 + h.port) h.inc)) ∧
    (∀ (h : HostAcc) n, h.inc = tget 0 s.hall.inc (256 + h.port) → n = h.bytes.length → n ≠ 0 → rangeOf h.key = .hbm →
      rangeOf (h.key + n - 1) = .hbm →
      (h.store = false → h.cache = true → ∃ t, exec (.hostCxlMemAccess h) s = .next t ∧ t.mem = s.mem ∧ t.rooms = s.rooms ∧
        ∀ g, (granuleOf h.key ≤ g → g ≤ granuleOf (h.key + n - 1) → tget false t.hostHeld g = true ∧ tget 0 t.heldBy g = h.port) ∧
          (g < granuleOf h.key ∨ granuleOf (h.key + n - 1) < g →
            tget false t.hostHeld g = tget false s.hostHeld g ∧ tget 0 t.heldBy g = tget 0 s.heldBy g)) ∧
      (h.store = false → h.cache = false → exec (.hostCxlMemAccess h) s = .next s) ∧
      (h.store = true → exec (.hostCxlMemAccess h) s = .next ((hostPieces h.key h.bytes).foldl (hostWrite h) s))) ∧
    (∀ key (bytes : List Byte), bytes ≠ [] → (hostPieces key bytes).flatMap (·.2) = bytes ∧
      ∀ p ∈ hostPieces key bytes, p.2 ≠ [] ∧ granuleOf (p.1 + p.2.length - 1) = granuleOf p.1) ∧
    (∀ (h : HostAcc) k (b : List Byte), h.inc = tget 0 s.hall.inc (256 + h.port) → b ≠ [] →
      (msPage s k = true → ∃ m : MemMsg, m.store = true ∧ m.who = .host ∧ m.room = 256 + h.port ∧ m.parts.map (·.key) = [k] ∧
        m.parts.map (·.data) = [leNat b] ∧ hostWrite h s (k, b) = (s.msauHold (channel k) (.msauRequest m)).nextId) ∧
      (msPage s k = false → s.movedPa k = k → s.waiting = [] →
        (∀ o, tget false s.barObjs o = true → o + 32 ≤ k ∨ k + b.length ≤ o) →
        (hostWrite h s (k, b)).mem.read k b.length = leNat b ∧
        (∀ a, a < k ∨ k + b.length ≤ a → (hostWrite h s (k, b)).mem.get a = s.mem.get a))) ∧
    (∀ p, p < 4 → s.waiting = [] → s.waitAtom = [] → (s.grans.all fun e => e.2.st ≠ 2) = true → ∃ t, exec (.linkDown p) s = .next t ∧
      t.hall.linkUp.getLsbD p = false ∧ t.hall.linkLost.getLsbD p = true ∧ t.mem = s.mem ∧
      (∀ e ∈ t.grans, lineOfPort s p (e.1 / 2) = false)) ∧
    (∀ p line o e, p < 4 → s.waiting = [] → s.waitAtom = [] → o = s.hall.orphbase.toNat + 256 * s.hall.orphcnt →
      (((s.grans.filter fun g => lineOfPort s p (g.1 / 2)).filter fun g => g.2.st = 2).map fun g => g.1 / 2).eraseDups = [line] →
      e = orphanEntry s p line → ∃ t, exec (.linkDown p) s = .next t ∧ t.hall.orphcnt = min 262144 (s.hall.orphcnt + 1) ∧
        t.hall.linkLost.getLsbD p = true ∧
        t.mem.read o 256 = e % 256 ^ 256 ∧ (∀ a, a < o ∨ o + 256 ≤ a → t.mem.get a = s.mem.get a)) ∧
    (∀ p line lo hi, lo = tget {} s.grans (2 * line) → hi = tget {} s.grans (2 * line + 1) → line < 2 ^ 46 → p < 4 →
      orphanEntry s p line % 2 ^ 512 = (if lo.st = 0 then 0 else s.read (128 * line) 64 % 2 ^ 512) ∧
      orphanEntry s p line / 2 ^ 512 % 2 ^ 512 = (if hi.st = 0 then 0 else s.read (128 * line + 64) 64 % 2 ^ 512) ∧
      orphanEntry s p line / 2 ^ 1024 % 4 = (if lo.st = 2 then 1 else 0) + (if hi.st = 2 then 2 else 0) ∧
      orphanEntry s p line / 2 ^ 1152 = s.tick) ∧
    (∀ p, p < 4 → ∃ t, exec (.linkUp p) s = .next t ∧ t.hall.linkUp.getLsbD p = true ∧ t.hall.linkLost = s.hall.linkLost) ∧
    (∀ b p, p < 4 → ∃ t, exec (.lostClear b) s = .next t ∧
      t.hall.linkLost.getLsbD p = (s.hall.linkLost.getLsbD p && !(b.getLsbD p && s.hall.linkUp.getLsbD p))) ∧
    (exec .reload s = .next (s.modHall fun h => { h with tierHeld := [] })) ∧
    (∀ a, 256 ≤ a → ∃ t, exec (.scrub a) s = .next t ∧ tget 0 t.hall.inc a = (tget 0 s.hall.inc a + 1) % 2 ^ 16 ∧
      (∀ b, b ≠ a → tget 0 t.hall.inc b = tget 0 s.hall.inc b)) ∧
    (∀ a, a < 256 → ∃ t, exec (.scrub a) s = .next t ∧ tget 0 t.hall.inc a = (tget 0 s.hall.inc a + 1) % 2 ^ 16 ∧
      (∀ b, b ≠ a → tget 0 t.hall.inc b = tget 0 s.hall.inc b) ∧ t.mem = s.mem ∧
      (∀ e ∈ t.copies, e.1 / 2 ^ 52 ≠ s.partition a ∧ e.1 / 2 ^ 52 ≠ coreHolder a) ∧
      (∀ m ∈ t.waiting, m.room = a → m.who = .put ∨ m.who = .host) ∧ (∀ x ∈ t.waitAtom, x.room ≠ a) ∧
      (∀ q ∈ t.msauQ, ∀ i ∈ q.2, msauRoom i ≠ some a)) ∧
    (∀ src dst, s.hall.migsrc.toNat = src → s.hall.migdst.toNat = dst → s.hall.migStat = 0 → rangeOf src = .hbm → rangeOf dst = .hbm →
      src ≠ dst → src % 65536 = 0 → dst % 65536 = 0 → ∃ t, exec .migrationSeal s = .next t ∧ t.hall.migStat = 1 ∧
        t.hall.migSeal = s.tick ∧ (∀ i, i < 65536 → t.movedPa (src + i) = dst + i) ∧ (∀ i, i < 65536 → t.mem.get (dst + i) = s.mem.get (src + i)) ∧
        (∀ a, a < dst ∨ dst + 65536 ≤ a → t.mem.get a = s.mem.get a)) ∧
    (s.hall.migStat = 1 → exec .migrationCopied s = .next (s.modHall fun h => { h with migStat := 2 }) ∧
      exec .migrationRelease s = .next s) ∧
    (s.hall.migStat = 2 → exec .migrationRelease s = .next (s.modHall fun h => { h with migStat := 0 })) ∧
    (∀ base n, s.hall.zfbase.toNat = base → s.hall.zfsize.toNat * 65536 = n → s.hall.zfOn = false → n ≠ 0 → rangeOf base = .hbm →
      rangeOf (base + n - 1) = .hbm → ∃ t, exec .zeroFillMark s = .next t ∧ t.hall.zfStat = 1 ∧
        (∀ a, base ≤ a → a < base + n → t.mem.get a = 0) ∧ (∀ a, a < base ∨ base + n ≤ a → t.mem.get a = s.mem.get a)) ∧
    (s.hall.zfOn = true → s.hall.zfVt ≤ s.tick → exec .zeroFillDone s = .next (s.modHall fun h => { h with zfStat := 0, zfOn := false }))

/-- R246, R351, R387, R390 to R398: a corrected error is counted, an uncorrectable one poisons its granule, and the 16th address of
a part within 2^20 ticks is its failure; an error in the hall or a failed part stops dispatch from the next tick on, and a warm
restart from step 2 follows with the part mapped out; memory outside the rooms keeps its bytes; a period boundary installs the
tables that were stored; reset begins bring-up at step 1, which runs one step at a time and stays in a step that fails; a
mailbox command leaves its result and completes with its status within its bound. Where a report's contents stand in it is a
value of Config (log entry 48). Completes, as exec (the form) s = .next (its own effect): eccCorrected, poisonMark, partFailure,
warmRestart, lifeRecompute, backgroundScrub, calendarPeriodBoundary, reset, mbReadState, mbReadLog, mbSetPackage,
mbWriteReplica, mbAttest, mbReadIdentity, mbCommandDone. The model's choices in it: log entries 12, 46, 47, 48, 82. -/
def Obligations.ReliabilityBootAndMailbox : Prop :=
  ∀ (s : State),
    (∀ p, ∃ t, exec (.eccCorrected p) s = .next t ∧ (tget (0, 0) t.errCount p.num).1 = (tget (0, 0) s.errCount p.num).1 + 1 ∧ t.mem = s.mem) ∧
    (∀ k, partOfKey k = none → exec (.poisonMark (.granule k)) s = .next { s with poison := tset false s.poison (k / 128) true }) ∧
    (∀ k p l u, partOfKey k = some p →
      l = ((tget [] s.errSeen (errUnit p k)).filter fun e => decide (s.tick < e.2 + 2 ^ 20) && e.1 ≠ k / 128) ++ [(k / 128, s.tick)] →
      u = { s with poison := tset false s.poison (k / 128) true, errSeen := tset [] s.errSeen (errUnit p k) l } →
      exec (.poisonMark (.granule k)) s = .next (if 16 ≤ l.length ∧ u.failing p = false then partFails p l.length u else u)) ∧
    (∀ r, ((s.room r).run = none → exec (.poisonMark (.room r)) s = .next s) ∧
      (∀ u, (s.room r).run = some u → (s.room r).dying = none →
        exec (.poisonMark (.room r)) s = .next (endRooms (s.logAdd (lostRecord s r u)) [r] [] 2 255 0))) ∧
    (exec (.poisonMark .hall) s = .next (partFails ⟨9, 0, 0⟩ 1 s)) ∧
    (∀ p n, s.detect = none → ∃ d, (partFails p n s).detect = some s.tick ∧ s.tick < d ∧ d ≤ s.tick + 630000000 ∧
      (d, .warmRestart p) ∈ (partFails p n s).agenda ∧ (partFails p n s).mem = s.mem ∧ (partFails p n s).rooms = s.rooms) ∧
    (∀ r f, s.detect = some f → f < s.tick → s.laneDue r = false) ∧
    (∀ p, exec (.partFailure p) s = .next (partFails p (tget [] s.errSeen p.num).length s)) ∧
    (∀ p, ∃ t, exec (.warmRestart p) s = .next t ∧ t.boot = 2 ∧ t.warm = true ∧ t.rooms = [] ∧ t.tick = s.tick ∧
      (∀ r ∈ p.rooms, r ∈ t.mappedRooms) ∧
      (∀ a, a < 2 ^ 53 ∨ 2 ^ 54 ≤ a → t.mem.get a = s.mem.get a) ∧ (∀ a, 2 ^ 53 ≤ a → a < 2 ^ 54 → t.mem.get a = 0)) ∧
    (∀ w h a, 1000 ≤ h.toNat → exec (.lifeRecompute w h a) s = .next (s.modWing w fun x =>
      { x with hours := h, powered := s.poweredHours w a })) ∧
    (exec .backgroundScrub s = .next s) ∧
    (∀ u b, s.tick % 4096 = 0 → s.hall.calNew = [(u, some b)] → ∃ t,
      exec .calendarPeriodBoundary s = .next t ∧ tget calOpen t.hall.cal u = b ∧ t.hall.calNew = [] ∧ t.mem = s.mem ∧ t.rooms = s.rooms) ∧
    (∃ t, exec .reset s = .next t ∧ t.boot = 1 ∧ t.rooms = [] ∧ t.tick = 0 ∧ t.bootStop = false ∧
      (s.hall.logs.length ≤ 65532 → s.hall.logs <+: t.hall.logs)) ∧
    (∀ t, s.outOfService = false → s.boot < 6 → s.bootItem = none →
      t = (if s.bootStop then { s with tick := s.tick + 1 } else { (bootAction s).bump with tick := s.openTick }) →
      step s = .next (if t.tick / 2 ^ 32 = s.tick / 2 ^ 32 then t else t.lifeNow)) ∧
    ((bootAction s).mem = s.mem ∧ (bootAction s).rooms = s.rooms ∧ (s.boot = 1 → bootAction s = { s with boot := 2 }) ∧
      (s.boot = 2 → firmwareResult = 0 → (bootAction s).boot = 3 ∧ (bootAction s).bootStop = s.bootStop) ∧
      (s.boot = 2 → firmwareResult ≠ 0 → (bootAction s).boot = 2 ∧ (bootAction s).bootStop = true) ∧
      (s.boot = 3 → Config.badStack = none → (bootAction s).boot = 4) ∧
      (s.boot = 3 → Config.badStack ≠ none → (bootAction s).boot = 3 ∧ (bootAction s).bootStop = true) ∧
      (s.boot = 4 → (bootAction s).boot = 5) ∧ (s.boot = 5 → (bootAction s).boot = 6)) ∧
    (exec .mbReadState s = .next (((stateTake s 0 (s.mbArg 0)).mbPut [stateRead s 0 (s.mbArg 0)]).mbEnd 0) ∧
      exec .mbReadLog s = .next ((s.mbPut [logWord s 0 (s.mbArg 0)]).mbEnd 0) ∧
      (∀ l, l = reportWords s.attested → exec .mbAttest s = .next ((s.mbPut (l ++
        (List.range 64).map (Config.signatureWord l s.fresh))).mbEnd 0) ∧ l.length = 128 ∧
        ∃ a, a + 43 ≤ 128 ∧ (l.drop a).take 43 = s.attested) ∧
      s.attested.take 4 = (List.range 4).map s.mbArg ∧ s.attested.getLast? = some (BitVec.ofNat 64 s.tick) ∧
      s.attested.length = 43 ∧
      exec .mbReadIdentity s = .next ((s.mbPut ((List.range 65).map Config.identityKey)).mbEnd 0)) ∧
    (s.boot < 6 → exec .mbSetPackage s = .next (s.mbEnd 3) ∧ exec .mbWriteReplica s = .next (s.mbEnd 3)) ∧
    (6 ≤ s.boot → (s.mbArg 0).toNat < 16384 → exec .mbSetPackage s = .next ({ s with pkgNum := (s.mbArg 0).toNat }.mbEnd 0)) ∧
    (∀ r, 6 ≤ s.boot → getField (s.mbArg 0) 10 54 = 1 → getField (s.mbArg 0) 0 10 < 64 → mbReplica s = some r →
      exec .mbWriteReplica s = .next ((s.modHall fun h =>
        { h with replHall := tset none h.replHall (getField (s.mbArg 0) 0 10) (some r) }).mbEnd 0)) ∧
    (∀ reason, ∃ d, s.tick < d ∧ d ≤ s.tick + (if s.hall.mbop = 5 then 70000000 else 7000000) ∧
      (d, .mbCommandDone) ∈ (s.mbEnd reason).agenda) ∧
    (mbStep s.hall.mbop ≠ none → exec .mbCommandDone s = .next (s.modHall fun h => { h with mbstat := h.mbNext })) ∧
    (mbStep s.hall.mbop = none → exec .mbCommandDone s = .next (s.modHall fun h => { h with mbstat := 0x102 }))

/-! ## The machine as a whole -/

/-- R9, R17 to R21, R65, R370: when the control core of a room comes next, the step dispatches the lane at its pc: an empty lane is
passed over, an assigned lane has its meaning in that room, a lane that is not assigned traps, and so does a reserved engine
code (12). The model's choices in it: log entry 11. -/
def Obligations.StepRunsTheDecodedLane : Prop :=
  ∀ (s : State) (r : Nat), LaneComesNext s r →
    (∀ i, decodeLane (s.room r).curCode (s.room r).curWord = some i → (s.room r).curCode ≠ 0 → (s.room r).curCode < 7 →
      step s = exec i { s with turn := r, act := .lane }) ∧
    ((s.room r).curCode = 0 → step s = .next ({ s with turn := r, act := .lane }.modMe fun x => { x with pc := nextPc x.pc })) ∧
    (decodeLane (s.room r).curCode (s.room r).curWord = none → (s.room r).curCode = 1 →
      step s = .next { s with turn := r, act := .lane }.illegal) ∧
    (7 ≤ (s.room r).curCode →
      step s = .next ({ s with turn := r, act := .lane }.devExc 12 (0#32 ++ laneWord (s.room r).lineBits 0))) ∧
    (decodeLane (s.room r).curCode (s.room r).curWord = none → 2 ≤ (s.room r).curCode → (s.room r).curCode < 7 →
      step s = .next { s with turn := r, act := .lane }.illegalOp)

/-- R17, R19, R20, R95, R192, R359: dispatch that enters a line whose bytes can be fetched, where its page now lies, holds it, with
the header that its word 0 gives; nibble 0 of a header other than 0xA raises ILLEGAL_LANE (12) at lane 1; a fault of the fetch
is instruction access or page fault, and no line is fetched from a device window. Completes, as exec (the form) s = .next (its
own effect): fetchLineEntry. The model's choices in it: log entries 14, 18, 41, 43, 84, 85. -/
def Obligations.LinesAreFetched : Prop :=
  ∀ (s n u v : State) (r : Nat) (l : Loc) (p : Part) (c : Ctx) (a : W64) (bits : BitVec 256), s.turn = r → (s.room r).inLine = false →
    a = lineAddr (s.room r).pc → c = coreCtx r (s.room r) true → n = s.needTier c a → u = n.fillTlb l → p = partOf ⟨0, a, 32⟩ l 0 →
    v = (u.ownParts [p]).readMisses r [p] →
    ((window s c .fetch a).isSome = true → exec (.fetchLineEntry r) s = .next (s.exc 1 (s.room r).pc)) ∧
    (window s c .fetch a = none → locateNow n c .fetch a = .ok l → l.place ≠ .port → partFault v p = none →
      bits = BitVec.ofNat 256 (v.seen r v.seq p) →
      (bits.extractLsb' 0 4 = 0xA#4 →
        exec (.fetchLineEntry r) s = .next (v.modMe fun x => { x with line := some (a, bits) })) ∧
      (bits.extractLsb' 0 4 ≠ 0xA#4 → exec (.fetchLineEntry r) s = .next (State.devExc
        ((v.modMe fun x => { x with line := some (a, bits) }).modMe fun x => { x with pc := a + 4 }) 12
        (0#32 ++ bits.extractLsb' 0 32)))) ∧
    (window s c .fetch a = none → locateNow n c .fetch a = .ok l → l.place = .port →
      exec (.fetchLineEntry r) s = .next (u.exc 1 (s.room r).pc)) ∧
    (∀ f, window s c .fetch a = none → locateNow n c .fetch a = .ok l → l.place ≠ .port →
      partFault v p = some f →
      exec (.fetchLineEntry r) s = .next ((poisonRead v [p]).rvExc (if f = 5 then 53 else 1) (s.room r).pc)) ∧
    (∀ l, place n c .fetch a = .ok l → l.place = .hbm → l.cmp = false → n.movedPa l.key = l.key →
      locateNow n c .fetch a = .ok l) ∧
    (∀ f, window s c .fetch a = none → locateNow n c .fetch a = .error f → exec (.fetchLineEntry r) s =
      .next (n.rvExc (rvCause .fetch false (decide (getField c.satp 60 4 = 15)) f) (s.room r).pc))

/-- R11, R12, R24, R57, R79, R94, R105, R134, R158, R214, R277, R308: words written out from the tables of encodings decode to the
instructions that they stand for. -/
def Obligations.SampleWordsDecode : Prop :=
  decodeScalar 0x0209402B#32 = some (.calWait 18) ∧ decodeScalar 0x0004158B#32 = some (.pwOpen 11 8) ∧
  decodeScalar 0x0354158B#32 = some (.pwCommit 11 8 21) ∧ decodeScalar 0x0734160B#32 = some (.prAcq 12 8 19) ∧
  decodeScalar 0x0934100B#32 = some (.prRel 8 19) ∧ decodeScalar 0x0200302B#32 = some .iterEnd ∧
  decodeScalar 0x00E4062B#32 = some (.amoCas128 12 8 14) ∧ decodeScalar 0x0464052B#32 = some (.amoAddMs 10 8 6) ∧
  decodeScalar 0x0054200B#32 = some (.barInit 8 5) ∧ decodeScalar 0x0804250B#32 = some (.barTry 10 8) ∧
  decodeScalar 0x0000300B#32 = some .fenceV ∧ decodeScalar 0x0204B00B#32 = some (.keyGet 9) ∧
  decodeScalar 0x0804350B#32 = some (.monWait 10 8) ∧ decodeScalar 0x0064152B#32 = some (.winOpen 10 8 6) ∧
  decodeScalar 0x00500093#32 = some (.rvScalarInstruction (.alui .addi 1 0 5)) ∧
  decodeScalar 0x30200073#32 = some (.xret true) ∧ decodeScalar 0xFFFFFFFF#32 = none

/-- R18, R39, R64, R71 and the tables of encodings: an encoded well-formed instruction decodes to itself with every operand, an
engine lane under its engine's decoder and any other lane under the decoder of the control core. -/
def Obligations.DecodingUndoesEncoding : Prop :=
  ∀ (i : Instr) (w : W32), i.WellFormed = true → encode i = some w →
    (∀ e, i.engine = some e → decodeEng e w = some i) ∧ (i.engine = none → decodeScalar w = some i)

/-- Every step keeps the canonical form of memory: addresses rise and no entry holds what an unlisted address reads as. The form is
the model's own (log entry 6). -/
def Obligations.StepKeepsMemoryCanonical : Prop :=
  ∀ (s t : State), s.Inv → step s = .next t → t.Inv

/-- R7, R8, R109, R114, R198, R233, R392, R396, R400: right after reset the package is at step 1 of bring-up, in service, with
canonical memory, no room runs, and the registers hold the values that the tables give for reset. The model's choices in it: log
entries 5, 8. -/
def Obligations.ResetLeavesTheTablesValues : Prop :=
  State.reset.Inv ∧ State.reset.boot = 1 ∧ State.reset.outOfService = false ∧ State.reset.tick = 0 ∧
  (∀ r, (State.reset.room r).run = none ∧ (State.reset.room r).qslip = 0 ∧ (State.reset.room r).qwmark = 0 ∧
    (State.reset.room r).vflags = 0 ∧ (State.reset.room r).bankfmt = 0 ∧ (State.reset.room r).keyctl = 0 ∧
    (State.reset.room r).barrec = 0 ∧ (State.reset.room r).faultrec = 0 ∧ (State.reset.room r).csr.fcsr = 0) ∧
  (∀ w, (State.reset.wing w).stairown = 0 ∧ (State.reset.wing w).atticctl = 0 ∧
    (State.reset.wing w).atticpart = 0xFEDCBA9876543210#64 ∧ (State.reset.wing w).hours = 0xFFFFFFFF#32 ∧
    (State.reset.wing w).pools = [] ∧ (State.reset.wing w).keys = [] ∧ (State.reset.wing w).cbu = none) ∧
  State.reset.hall.linkUp = 0 ∧ State.reset.hall.linkLost = 0 ∧ State.reset.hall.jobs = [] ∧ State.reset.hall.heatS = 8 ∧
  State.reset.hall.heatD = 4 ∧ (∀ u t, State.reset.calEntry u t = if u = schedulerUnit then 0#8 else 0x10#8)
end

