-- ==== Sys2Proof/Laws/Encoding.lean ====
section
/-! SUPPORT. The fields of a lane word that has been put together from them (R64, R71, and the RV formats), and the value of a
concatenation. -/

namespace Sys2Proof

theorem toNat_app {a b : Nat} (x : BitVec a) (y : BitVec b) : (x ++ y).toNat = x.toNat * 2 ^ b + y.toNat := by
  rw [BitVec.toNat_append, ← Nat.shiftLeft_add_eq_or_of_lt y.isLt, Nat.shiftLeft_eq]
theorem laneVV_toNat (o sy a b c k) : (laneVV o sy a b c k).toNat =
    o.toNat * 2 ^ 24 + sy.toNat * 2 ^ 18 + a.toNat * 2 ^ 13 + b.toNat * 2 ^ 8 + c.toNat * 2 ^ 3 + k.toNat := by
  have h : (laneVV o sy a b c k).toNat = (o ++ sy ++ a ++ b ++ c ++ k).toNat := rfl
  rw [h]; simp only [toNat_app]; omega
@[simp] theorem fOpc_laneVV (o sy a b c k) : fOpc (laneVV o sy a b c k) = o := by
  apply BitVec.eq_of_toNat_eq
  simp only [fOpc, BitVec.extractLsb'_toNat, laneVV_toNat, Nat.shiftRight_eq_div_pow]
  have := o.isLt; have := sy.isLt; have := a.isLt; have := b.isLt; have := c.isLt; have := k.isLt
  omega
@[simp] theorem fSy_laneVV (o sy a b c k) : fSy (laneVV o sy a b c k) = sy := by
  apply BitVec.eq_of_toNat_eq
  simp only [fSy, BitVec.extractLsb'_toNat, laneVV_toNat, Nat.shiftRight_eq_div_pow]
  have := o.isLt; have := sy.isLt; have := a.isLt; have := b.isLt; have := c.isLt; have := k.isLt
  omega
@[simp] theorem fA_laneVV (o sy a b c k) : fA (laneVV o sy a b c k) = a := by
  apply BitVec.eq_of_toNat_eq
  simp only [fA, BitVec.extractLsb'_toNat, laneVV_toNat, Nat.shiftRight_eq_div_pow]
  have := o.isLt; have := sy.isLt; have := a.isLt; have := b.isLt; have := c.isLt; have := k.isLt
  omega
@[simp] theorem fB_laneVV (o sy a b c k) : fB (laneVV o sy a b c k) = b := by
  apply BitVec.eq_of_toNat_eq
  simp only [fB, BitVec.extractLsb'_toNat, laneVV_toNat, Nat.shiftRight_eq_div_pow]
  have := o.isLt; have := sy.isLt; have := a.isLt; have := b.isLt; have := c.isLt; have := k.isLt
  omega
@[simp] theorem fC_laneVV (o sy a b c k) : fC (laneVV o sy a b c k) = c := by
  apply BitVec.eq_of_toNat_eq
  simp only [fC, BitVec.extractLsb'_toNat, laneVV_toNat, Nat.shiftRight_eq_div_pow]
  have := o.isLt; have := sy.isLt; have := a.isLt; have := b.isLt; have := c.isLt; have := k.isLt
  omega
@[simp] theorem fK_laneVV (o sy a b c k) : fK (laneVV o sy a b c k) = k := by
  apply BitVec.eq_of_toNat_eq
  simp only [fK, BitVec.extractLsb'_toNat, laneVV_toNat, Nat.shiftRight_eq_div_pow]
  have := o.isLt; have := sy.isLt; have := a.isLt; have := b.isLt; have := c.isLt; have := k.isLt
  omega
theorem laneVI_toNat (o sy a i) : (laneVI o sy a i).toNat =
    o.toNat * 2 ^ 24 + sy.toNat * 2 ^ 18 + a.toNat * 2 ^ 13 + i.toNat := by
  have h : (laneVI o sy a i).toNat = (o ++ sy ++ a ++ i).toNat := rfl
  rw [h]; simp only [toNat_app]; omega
@[simp] theorem fOpc_laneVI (o sy a i) : fOpc (laneVI o sy a i) = o := by
  apply BitVec.eq_of_toNat_eq
  simp only [fOpc, BitVec.extractLsb'_toNat, laneVI_toNat, Nat.shiftRight_eq_div_pow]
  have := o.isLt; have := sy.isLt; have := a.isLt; have := i.isLt
  omega
@[simp] theorem fSy_laneVI (o sy a i) : fSy (laneVI o sy a i) = sy := by
  apply BitVec.eq_of_toNat_eq
  simp only [fSy, BitVec.extractLsb'_toNat, laneVI_toNat, Nat.shiftRight_eq_div_pow]
  have := o.isLt; have := sy.isLt; have := a.isLt; have := i.isLt
  omega
@[simp] theorem fA_laneVI (o sy a i) : fA (laneVI o sy a i) = a := by
  apply BitVec.eq_of_toNat_eq
  simp only [fA, BitVec.extractLsb'_toNat, laneVI_toNat, Nat.shiftRight_eq_div_pow]
  have := o.isLt; have := sy.isLt; have := a.isLt; have := i.isLt
  omega
@[simp] theorem fImm_laneVI (o sy a i) : fImm (laneVI o sy a i) = i := by
  apply BitVec.eq_of_toNat_eq
  simp only [fImm, BitVec.extractLsb'_toNat, laneVI_toNat, Nat.shiftRight_eq_div_pow]
  have := o.isLt; have := sy.isLt; have := a.isLt; have := i.isLt
  omega
theorem laneVA_toNat (o sy a b n q) : (laneVA o sy a b n q).toNat =
    o.toNat * 2 ^ 24 + sy.toNat * 2 ^ 18 + a.toNat * 2 ^ 13 + b.toNat * 2 ^ 8 + n.toNat * 2 ^ 2 + q.toNat := by
  have h : (laneVA o sy a b n q).toNat = (o ++ sy ++ a ++ b ++ n ++ q).toNat := rfl
  rw [h]; simp only [toNat_app]; omega
@[simp] theorem fOpc_laneVA (o sy a b n q) : fOpc (laneVA o sy a b n q) = o := by
  apply BitVec.eq_of_toNat_eq
  simp only [fOpc, BitVec.extractLsb'_toNat, laneVA_toNat, Nat.shiftRight_eq_div_pow]
  have := o.isLt; have := sy.isLt; have := a.isLt; have := b.isLt; have := n.isLt; have := q.isLt
  omega
@[simp] theorem fSy_laneVA (o sy a b n q) : fSy (laneVA o sy a b n q) = sy := by
  apply BitVec.eq_of_toNat_eq
  simp only [fSy, BitVec.extractLsb'_toNat, laneVA_toNat, Nat.shiftRight_eq_div_pow]
  have := o.isLt; have := sy.isLt; have := a.isLt; have := b.isLt; have := n.isLt; have := q.isLt
  omega
@[simp] theorem fA_laneVA (o sy a b n q) : fA (laneVA o sy a b n q) = a := by
  apply BitVec.eq_of_toNat_eq
  simp only [fA, BitVec.extractLsb'_toNat, laneVA_toNat, Nat.shiftRight_eq_div_pow]
  have := o.isLt; have := sy.isLt; have := a.isLt; have := b.isLt; have := n.isLt; have := q.isLt
  omega
@[simp] theorem fB_laneVA (o sy a b n q) : fB (laneVA o sy a b n q) = b := by
  apply BitVec.eq_of_toNat_eq
  simp only [fB, BitVec.extractLsb'_toNat, laneVA_toNat, Nat.shiftRight_eq_div_pow]
  have := o.isLt; have := sy.isLt; have := a.isLt; have := b.isLt; have := n.isLt; have := q.isLt
  omega
@[simp] theorem fN_laneVA (o sy a b n q) : fN (laneVA o sy a b n q) = n := by
  apply BitVec.eq_of_toNat_eq
  simp only [fN, BitVec.extractLsb'_toNat, laneVA_toNat, Nat.shiftRight_eq_div_pow]
  have := o.isLt; have := sy.isLt; have := a.isLt; have := b.isLt; have := n.isLt; have := q.isLt
  omega
@[simp] theorem fQ_laneVA (o sy a b n q) : fQ (laneVA o sy a b n q) = q := by
  apply BitVec.eq_of_toNat_eq
  simp only [fQ, BitVec.extractLsb'_toNat, laneVA_toNat, Nat.shiftRight_eq_div_pow]
  have := o.isLt; have := sy.isLt; have := a.isLt; have := b.isLt; have := n.isLt; have := q.isLt
  omega
theorem laneVC_toNat (o sy a b s d q) : (laneVC o sy a b s d q).toNat =
    o.toNat * 2 ^ 24 + sy.toNat * 2 ^ 18 + a.toNat * 2 ^ 13 + b.toNat * 2 ^ 8 + s.toNat * 2 ^ 5 + d.toNat * 2 ^ 2 + q.toNat := by
  have h : (laneVC o sy a b s d q).toNat = (o ++ sy ++ a ++ b ++ s ++ d ++ q).toNat := rfl
  rw [h]; simp only [toNat_app]; omega
@[simp] theorem fOpc_laneVC (o sy a b s d q) : fOpc (laneVC o sy a b s d q) = o := by
  apply BitVec.eq_of_toNat_eq
  simp only [fOpc, BitVec.extractLsb'_toNat, laneVC_toNat, Nat.shiftRight_eq_div_pow]
  have := o.isLt; have := sy.isLt; have := a.isLt; have := b.isLt; have := s.isLt; have := d.isLt; have := q.isLt
  omega
@[simp] theorem fSy_laneVC (o sy a b s d q) : fSy (laneVC o sy a b s d q) = sy := by
  apply BitVec.eq_of_toNat_eq
  simp only [fSy, BitVec.extractLsb'_toNat, laneVC_toNat, Nat.shiftRight_eq_div_pow]
  have := o.isLt; have := sy.isLt; have := a.isLt; have := b.isLt; have := s.isLt; have := d.isLt; have := q.isLt
  omega
@[simp] theorem fA_laneVC (o sy a b s d q) : fA (laneVC o sy a b s d q) = a := by
  apply BitVec.eq_of_toNat_eq
  simp only [fA, BitVec.extractLsb'_toNat, laneVC_toNat, Nat.shiftRight_eq_div_pow]
  have := o.isLt; have := sy.isLt; have := a.isLt; have := b.isLt; have := s.isLt; have := d.isLt; have := q.isLt
  omega
@[simp] theorem fB_laneVC (o sy a b s d q) : fB (laneVC o sy a b s d q) = b := by
  apply BitVec.eq_of_toNat_eq
  simp only [fB, BitVec.extractLsb'_toNat, laneVC_toNat, Nat.shiftRight_eq_div_pow]
  have := o.isLt; have := sy.isLt; have := a.isLt; have := b.isLt; have := s.isLt; have := d.isLt; have := q.isLt
  omega
@[simp] theorem fQ_laneVC (o sy a b s d q) : fQ (laneVC o sy a b s d q) = q := by
  apply BitVec.eq_of_toNat_eq
  simp only [fQ, BitVec.extractLsb'_toNat, laneVC_toNat, Nat.shiftRight_eq_div_pow]
  have := o.isLt; have := sy.isLt; have := a.isLt; have := b.isLt; have := s.isLt; have := d.isLt; have := q.isLt
  omega
@[simp] theorem fSt_laneVC (o sy a b s d q) : fSt (laneVC o sy a b s d q) = s := by
  apply BitVec.eq_of_toNat_eq
  simp only [fSt, BitVec.extractLsb'_toNat, laneVC_toNat, Nat.shiftRight_eq_div_pow]
  have := o.isLt; have := sy.isLt; have := a.isLt; have := b.isLt; have := s.isLt; have := d.isLt; have := q.isLt
  omega
@[simp] theorem fDt_laneVC (o sy a b s d q) : fDt (laneVC o sy a b s d q) = d := by
  apply BitVec.eq_of_toNat_eq
  simp only [fDt, BitVec.extractLsb'_toNat, laneVC_toNat, Nat.shiftRight_eq_div_pow]
  have := o.isLt; have := sy.isLt; have := a.isLt; have := b.isLt; have := s.isLt; have := d.isLt; have := q.isLt
  omega
theorem laneMF_toNat (o sy r y xa xb) : (laneMF o sy r y xa xb).toNat =
    o.toNat * 2 ^ 24 + sy.toNat * 2 ^ 18 + r.toNat * 2 ^ 13 + y.toNat * 2 ^ 9 + xa.toNat * 2 ^ 4 + xb.toNat := by
  have h : (laneMF o sy r y xa xb).toNat = (o ++ sy ++ r ++ y ++ xa ++ xb).toNat := rfl
  rw [h]; simp only [toNat_app]; omega
@[simp] theorem fOpc_laneMF (o sy r y xa xb) : fOpc (laneMF o sy r y xa xb) = o := by
  apply BitVec.eq_of_toNat_eq
  simp only [fOpc, BitVec.extractLsb'_toNat, laneMF_toNat, Nat.shiftRight_eq_div_pow]
  have := o.isLt; have := sy.isLt; have := r.isLt; have := y.isLt; have := xa.isLt; have := xb.isLt
  omega
@[simp] theorem fSy_laneMF (o sy r y xa xb) : fSy (laneMF o sy r y xa xb) = sy := by
  apply BitVec.eq_of_toNat_eq
  simp only [fSy, BitVec.extractLsb'_toNat, laneMF_toNat, Nat.shiftRight_eq_div_pow]
  have := o.isLt; have := sy.isLt; have := r.isLt; have := y.isLt; have := xa.isLt; have := xb.isLt
  omega
@[simp] theorem fA_laneMF (o sy r y xa xb) : fA (laneMF o sy r y xa xb) = r := by
  apply BitVec.eq_of_toNat_eq
  simp only [fA, BitVec.extractLsb'_toNat, laneMF_toNat, Nat.shiftRight_eq_div_pow]
  have := o.isLt; have := sy.isLt; have := r.isLt; have := y.isLt; have := xa.isLt; have := xb.isLt
  omega
@[simp] theorem fLay_laneMF (o sy r y xa xb) : fLay (laneMF o sy r y xa xb) = y := by
  apply BitVec.eq_of_toNat_eq
  simp only [fLay, BitVec.extractLsb'_toNat, laneMF_toNat, Nat.shiftRight_eq_div_pow]
  have := o.isLt; have := sy.isLt; have := r.isLt; have := y.isLt; have := xa.isLt; have := xb.isLt
  omega
@[simp] theorem fXa_laneMF (o sy r y xa xb) : fXa (laneMF o sy r y xa xb) = xa := by
  apply BitVec.eq_of_toNat_eq
  simp only [fXa, BitVec.extractLsb'_toNat, laneMF_toNat, Nat.shiftRight_eq_div_pow]
  have := o.isLt; have := sy.isLt; have := r.isLt; have := y.isLt; have := xa.isLt; have := xb.isLt
  omega
@[simp] theorem fXb_laneMF (o sy r y xa xb) : fXb (laneMF o sy r y xa xb) = xb := by
  apply BitVec.eq_of_toNat_eq
  simp only [fXb, BitVec.extractLsb'_toNat, laneMF_toNat, Nat.shiftRight_eq_div_pow]
  have := o.isLt; have := sy.isLt; have := r.isLt; have := y.isLt; have := xa.isLt; have := xb.isLt
  omega
theorem laneMR_toNat (o sy t z y xa xb) : (laneMR o sy t z y xa xb).toNat =
    o.toNat * 2 ^ 24 + sy.toNat * 2 ^ 18 + t.toNat * 2 ^ 15 + z.toNat * 2 ^ 13 + y.toNat * 2 ^ 9 + xa.toNat * 2 ^ 4 + xb.toNat := by
  have h : (laneMR o sy t z y xa xb).toNat = (o ++ sy ++ t ++ z ++ y ++ xa ++ xb).toNat := rfl
  rw [h]; simp only [toNat_app]; omega
@[simp] theorem fOpc_laneMR (o sy t z y xa xb) : fOpc (laneMR o sy t z y xa xb) = o := by
  apply BitVec.eq_of_toNat_eq
  simp only [fOpc, BitVec.extractLsb'_toNat, laneMR_toNat, Nat.shiftRight_eq_div_pow]
  have := o.isLt; have := sy.isLt; have := t.isLt; have := z.isLt; have := y.isLt; have := xa.isLt; have := xb.isLt
  omega
@[simp] theorem fSy_laneMR (o sy t z y xa xb) : fSy (laneMR o sy t z y xa xb) = sy := by
  apply BitVec.eq_of_toNat_eq
  simp only [fSy, BitVec.extractLsb'_toNat, laneMR_toNat, Nat.shiftRight_eq_div_pow]
  have := o.isLt; have := sy.isLt; have := t.isLt; have := z.isLt; have := y.isLt; have := xa.isLt; have := xb.isLt
  omega
@[simp] theorem fLay_laneMR (o sy t z y xa xb) : fLay (laneMR o sy t z y xa xb) = y := by
  apply BitVec.eq_of_toNat_eq
  simp only [fLay, BitVec.extractLsb'_toNat, laneMR_toNat, Nat.shiftRight_eq_div_pow]
  have := o.isLt; have := sy.isLt; have := t.isLt; have := z.isLt; have := y.isLt; have := xa.isLt; have := xb.isLt
  omega
@[simp] theorem fXa_laneMR (o sy t z y xa xb) : fXa (laneMR o sy t z y xa xb) = xa := by
  apply BitVec.eq_of_toNat_eq
  simp only [fXa, BitVec.extractLsb'_toNat, laneMR_toNat, Nat.shiftRight_eq_div_pow]
  have := o.isLt; have := sy.isLt; have := t.isLt; have := z.isLt; have := y.isLt; have := xa.isLt; have := xb.isLt
  omega
@[simp] theorem fXb_laneMR (o sy t z y xa xb) : fXb (laneMR o sy t z y xa xb) = xb := by
  apply BitVec.eq_of_toNat_eq
  simp only [fXb, BitVec.extractLsb'_toNat, laneMR_toNat, Nat.shiftRight_eq_div_pow]
  have := o.isLt; have := sy.isLt; have := t.isLt; have := z.isLt; have := y.isLt; have := xa.isLt; have := xb.isLt
  omega
@[simp] theorem fT_laneMR (o sy t z y xa xb) : fT (laneMR o sy t z y xa xb) = t := by
  apply BitVec.eq_of_toNat_eq
  simp only [fT, BitVec.extractLsb'_toNat, laneMR_toNat, Nat.shiftRight_eq_div_pow]
  have := o.isLt; have := sy.isLt; have := t.isLt; have := z.isLt; have := y.isLt; have := xa.isLt; have := xb.isLt
  omega
@[simp] theorem fZ_laneMR (o sy t z y xa xb) : fZ (laneMR o sy t z y xa xb) = z := by
  apply BitVec.eq_of_toNat_eq
  simp only [fZ, BitVec.extractLsb'_toNat, laneMR_toNat, Nat.shiftRight_eq_div_pow]
  have := o.isLt; have := sy.isLt; have := t.isLt; have := z.isLt; have := y.isLt; have := xa.isLt; have := xb.isLt
  omega
theorem rtype_toNat (f : BitVec 7) (r2 : Reg) (r1 : Reg) (f3 : BitVec 3) (d : Reg) (o : BitVec 7) : (rtype f r2 r1 f3 d o).toNat =
    f.toNat * 2 ^ 25 + r2.toNat * 2 ^ 20 + r1.toNat * 2 ^ 15 + f3.toNat * 2 ^ 12 + d.toNat * 2 ^ 7 + o.toNat := by
  have h : (rtype f r2 r1 f3 d o).toNat = (f ++ r2 ++ r1 ++ f3 ++ d ++ o).toNat := rfl
  rw [h]; simp only [toNat_app]; omega
@[simp] theorem f7_rtype (f : BitVec 7) (r2 : Reg) (r1 : Reg) (f3 : BitVec 3) (d : Reg) (o : BitVec 7) : Sys2Proof.f7 (rtype f r2 r1 f3 d o) = f := by
  apply BitVec.eq_of_toNat_eq
  simp only [Sys2Proof.f7, BitVec.extractLsb'_toNat, rtype_toNat, Nat.shiftRight_eq_div_pow]
  have := f.isLt; have := r2.isLt; have := r1.isLt; have := f3.isLt; have := d.isLt; have := o.isLt
  omega
@[simp] theorem rs2_rtype (f : BitVec 7) (r2 : Reg) (r1 : Reg) (f3 : BitVec 3) (d : Reg) (o : BitVec 7) : Sys2Proof.rs2 (rtype f r2 r1 f3 d o) = r2 := by
  apply BitVec.eq_of_toNat_eq
  simp only [Sys2Proof.rs2, BitVec.extractLsb'_toNat, rtype_toNat, Nat.shiftRight_eq_div_pow]
  have := f.isLt; have := r2.isLt; have := r1.isLt; have := f3.isLt; have := d.isLt; have := o.isLt
  omega
@[simp] theorem rs1_rtype (f : BitVec 7) (r2 : Reg) (r1 : Reg) (f3 : BitVec 3) (d : Reg) (o : BitVec 7) : Sys2Proof.rs1 (rtype f r2 r1 f3 d o) = r1 := by
  apply BitVec.eq_of_toNat_eq
  simp only [Sys2Proof.rs1, BitVec.extractLsb'_toNat, rtype_toNat, Nat.shiftRight_eq_div_pow]
  have := f.isLt; have := r2.isLt; have := r1.isLt; have := f3.isLt; have := d.isLt; have := o.isLt
  omega
@[simp] theorem f3_rtype (f : BitVec 7) (r2 : Reg) (r1 : Reg) (f3 : BitVec 3) (d : Reg) (o : BitVec 7) : Sys2Proof.f3 (rtype f r2 r1 f3 d o) = f3 := by
  apply BitVec.eq_of_toNat_eq
  simp only [Sys2Proof.f3, BitVec.extractLsb'_toNat, rtype_toNat, Nat.shiftRight_eq_div_pow]
  have := f.isLt; have := r2.isLt; have := r1.isLt; have := f3.isLt; have := d.isLt; have := o.isLt
  omega
@[simp] theorem rd_rtype (f : BitVec 7) (r2 : Reg) (r1 : Reg) (f3 : BitVec 3) (d : Reg) (o : BitVec 7) : Sys2Proof.rd (rtype f r2 r1 f3 d o) = d := by
  apply BitVec.eq_of_toNat_eq
  simp only [Sys2Proof.rd, BitVec.extractLsb'_toNat, rtype_toNat, Nat.shiftRight_eq_div_pow]
  have := f.isLt; have := r2.isLt; have := r1.isLt; have := f3.isLt; have := d.isLt; have := o.isLt
  omega
@[simp] theorem opc7_rtype (f : BitVec 7) (r2 : Reg) (r1 : Reg) (f3 : BitVec 3) (d : Reg) (o : BitVec 7) : Sys2Proof.opc7 (rtype f r2 r1 f3 d o) = o := by
  apply BitVec.eq_of_toNat_eq
  simp only [Sys2Proof.opc7, BitVec.extractLsb'_toNat, rtype_toNat, Nat.shiftRight_eq_div_pow]
  have := f.isLt; have := r2.isLt; have := r1.isLt; have := f3.isLt; have := d.isLt; have := o.isLt
  omega
theorem itype_toNat (i : BitVec 12) (r1 : Reg) (f3 : BitVec 3) (d : Reg) (o : BitVec 7) : (itype i r1 f3 d o).toNat =
    i.toNat * 2 ^ 20 + r1.toNat * 2 ^ 15 + f3.toNat * 2 ^ 12 + d.toNat * 2 ^ 7 + o.toNat := by
  have h : (itype i r1 f3 d o).toNat = (i ++ r1 ++ f3 ++ d ++ o).toNat := rfl
  rw [h]; simp only [toNat_app]; omega
@[simp] theorem immI_itype (i : BitVec 12) (r1 : Reg) (f3 : BitVec 3) (d : Reg) (o : BitVec 7) : Sys2Proof.immI (itype i r1 f3 d o) = i := by
  apply BitVec.eq_of_toNat_eq
  simp only [Sys2Proof.immI, BitVec.extractLsb'_toNat, itype_toNat, Nat.shiftRight_eq_div_pow]
  have := i.isLt; have := r1.isLt; have := f3.isLt; have := d.isLt; have := o.isLt
  omega
@[simp] theorem rs1_itype (i : BitVec 12) (r1 : Reg) (f3 : BitVec 3) (d : Reg) (o : BitVec 7) : Sys2Proof.rs1 (itype i r1 f3 d o) = r1 := by
  apply BitVec.eq_of_toNat_eq
  simp only [Sys2Proof.rs1, BitVec.extractLsb'_toNat, itype_toNat, Nat.shiftRight_eq_div_pow]
  have := i.isLt; have := r1.isLt; have := f3.isLt; have := d.isLt; have := o.isLt
  omega
@[simp] theorem f3_itype (i : BitVec 12) (r1 : Reg) (f3 : BitVec 3) (d : Reg) (o : BitVec 7) : Sys2Proof.f3 (itype i r1 f3 d o) = f3 := by
  apply BitVec.eq_of_toNat_eq
  simp only [Sys2Proof.f3, BitVec.extractLsb'_toNat, itype_toNat, Nat.shiftRight_eq_div_pow]
  have := i.isLt; have := r1.isLt; have := f3.isLt; have := d.isLt; have := o.isLt
  omega
@[simp] theorem rd_itype (i : BitVec 12) (r1 : Reg) (f3 : BitVec 3) (d : Reg) (o : BitVec 7) : Sys2Proof.rd (itype i r1 f3 d o) = d := by
  apply BitVec.eq_of_toNat_eq
  simp only [Sys2Proof.rd, BitVec.extractLsb'_toNat, itype_toNat, Nat.shiftRight_eq_div_pow]
  have := i.isLt; have := r1.isLt; have := f3.isLt; have := d.isLt; have := o.isLt
  omega
@[simp] theorem opc7_itype (i : BitVec 12) (r1 : Reg) (f3 : BitVec 3) (d : Reg) (o : BitVec 7) : Sys2Proof.opc7 (itype i r1 f3 d o) = o := by
  apply BitVec.eq_of_toNat_eq
  simp only [Sys2Proof.opc7, BitVec.extractLsb'_toNat, itype_toNat, Nat.shiftRight_eq_div_pow]
  have := i.isLt; have := r1.isLt; have := f3.isLt; have := d.isLt; have := o.isLt
  omega
theorem r4type_toNat (r3 : Reg) (fmt : BitVec 2) (r2 : Reg) (r1 : Reg) (f3 : BitVec 3) (d : Reg) (o : BitVec 7) : (r4type r3 fmt r2 r1 f3 d o).toNat =
    r3.toNat * 2 ^ 27 + fmt.toNat * 2 ^ 25 + r2.toNat * 2 ^ 20 + r1.toNat * 2 ^ 15 + f3.toNat * 2 ^ 12 + d.toNat * 2 ^ 7 + o.toNat := by
  have h : (r4type r3 fmt r2 r1 f3 d o).toNat = (r3 ++ fmt ++ r2 ++ r1 ++ f3 ++ d ++ o).toNat := rfl
  rw [h]; simp only [toNat_app]; omega
@[simp] theorem rs3_r4type (r3 : Reg) (fmt : BitVec 2) (r2 : Reg) (r1 : Reg) (f3 : BitVec 3) (d : Reg) (o : BitVec 7) : Sys2Proof.rs3 (r4type r3 fmt r2 r1 f3 d o) = r3 := by
  apply BitVec.eq_of_toNat_eq
  simp only [Sys2Proof.rs3, BitVec.extractLsb'_toNat, r4type_toNat, Nat.shiftRight_eq_div_pow]
  have := r3.isLt; have := fmt.isLt; have := r2.isLt; have := r1.isLt; have := f3.isLt; have := d.isLt; have := o.isLt
  omega
@[simp] theorem rs2_r4type (r3 : Reg) (fmt : BitVec 2) (r2 : Reg) (r1 : Reg) (f3 : BitVec 3) (d : Reg) (o : BitVec 7) : Sys2Proof.rs2 (r4type r3 fmt r2 r1 f3 d o) = r2 := by
  apply BitVec.eq_of_toNat_eq
  simp only [Sys2Proof.rs2, BitVec.extractLsb'_toNat, r4type_toNat, Nat.shiftRight_eq_div_pow]
  have := r3.isLt; have := fmt.isLt; have := r2.isLt; have := r1.isLt; have := f3.isLt; have := d.isLt; have := o.isLt
  omega
@[simp] theorem rs1_r4type (r3 : Reg) (fmt : BitVec 2) (r2 : Reg) (r1 : Reg) (f3 : BitVec 3) (d : Reg) (o : BitVec 7) : Sys2Proof.rs1 (r4type r3 fmt r2 r1 f3 d o) = r1 := by
  apply BitVec.eq_of_toNat_eq
  simp only [Sys2Proof.rs1, BitVec.extractLsb'_toNat, r4type_toNat, Nat.shiftRight_eq_div_pow]
  have := r3.isLt; have := fmt.isLt; have := r2.isLt; have := r1.isLt; have := f3.isLt; have := d.isLt; have := o.isLt
  omega
@[simp] theorem f3_r4type (r3 : Reg) (fmt : BitVec 2) (r2 : Reg) (r1 : Reg) (f3 : BitVec 3) (d : Reg) (o : BitVec 7) : Sys2Proof.f3 (r4type r3 fmt r2 r1 f3 d o) = f3 := by
  apply BitVec.eq_of_toNat_eq
  simp only [Sys2Proof.f3, BitVec.extractLsb'_toNat, r4type_toNat, Nat.shiftRight_eq_div_pow]
  have := r3.isLt; have := fmt.isLt; have := r2.isLt; have := r1.isLt; have := f3.isLt; have := d.isLt; have := o.isLt
  omega
@[simp] theorem rd_r4type (r3 : Reg) (fmt : BitVec 2) (r2 : Reg) (r1 : Reg) (f3 : BitVec 3) (d : Reg) (o : BitVec 7) : Sys2Proof.rd (r4type r3 fmt r2 r1 f3 d o) = d := by
  apply BitVec.eq_of_toNat_eq
  simp only [Sys2Proof.rd, BitVec.extractLsb'_toNat, r4type_toNat, Nat.shiftRight_eq_div_pow]
  have := r3.isLt; have := fmt.isLt; have := r2.isLt; have := r1.isLt; have := f3.isLt; have := d.isLt; have := o.isLt
  omega
@[simp] theorem opc7_r4type (r3 : Reg) (fmt : BitVec 2) (r2 : Reg) (r1 : Reg) (f3 : BitVec 3) (d : Reg) (o : BitVec 7) : Sys2Proof.opc7 (r4type r3 fmt r2 r1 f3 d o) = o := by
  apply BitVec.eq_of_toNat_eq
  simp only [Sys2Proof.opc7, BitVec.extractLsb'_toNat, r4type_toNat, Nat.shiftRight_eq_div_pow]
  have := r3.isLt; have := fmt.isLt; have := r2.isLt; have := r1.isLt; have := f3.isLt; have := d.isLt; have := o.isLt
  omega

end Sys2Proof
end

