-- ==== Sys2Proof/Laws/PerInstr.lean ====
section
/-! SUPPORT. A fact of every instruction as syntax: the table of operands (R64, R68) and the opcode tables agree on its
engine, and every lane of an engine has a word. -/

namespace Sys2Proof.Laws.LaneShape

open Sys2Proof.Machine

/-- The engine of the operand table is the engine of the opcode table, and a lane of an engine can be encoded. -/
def Statement (i : Instr) : Prop := i.engine = (laneOf i).map (·.eng) ∧ (i.engine.isSome = true → (encode i).isSome = true)

theorem rvScalarInstruction (op : RvInstr) : Statement (.rvScalarInstruction op) := ⟨rfl, fun h => by cases h⟩
theorem rvFence (rd rs1 : Reg) (imm : BitVec 12) : Statement (.rvFence rd rs1 imm) := ⟨rfl, fun h => by cases h⟩
theorem rvFenceI (rd rs1 : Reg) (imm : BitVec 12) : Statement (.rvFenceI rd rs1 imm) := ⟨rfl, fun h => by cases h⟩
theorem xret (m : Bool) : Statement (.xret m) := ⟨rfl, fun h => by cases h⟩
theorem lr (dbl aq rl : Bool) (rd rs1 : Reg) : Statement (.lr dbl aq rl rd rs1) := ⟨rfl, fun h => by cases h⟩
theorem sc (dbl aq rl : Bool) (rd rs1 rs2 : Reg) : Statement (.sc dbl aq rl rd rs1 rs2) := ⟨rfl, fun h => by cases h⟩
theorem aExtensionAmo (op : AmoOp) (dbl aq rl : Bool) (rd rs1 rs2 : Reg) : Statement (.aExtensionAmo op dbl aq rl rd rs1 rs2) := ⟨rfl, fun h => by cases h⟩
theorem deferredAnswer (room : Nat) (a : Answer) : Statement (.deferredAnswer room a) := ⟨rfl, fun h => by cases h⟩
theorem barWaitRelease (room id : Nat) : Statement (.barWaitRelease room id) := ⟨rfl, fun h => by cases h⟩
theorem cas128Answer (room : Nat) (a : AtomMsg) (old : BitVec 128) (fault : Option Nat) (outc : Nat) : Statement (.cas128Answer room a old fault outc) := ⟨rfl, fun h => by cases h⟩
theorem poolDecision (r : PoolReq) : Statement (.poolDecision r) := ⟨rfl, fun h => by cases h⟩
theorem poolRegister (wing : Nat) (v : W64) : Statement (.poolRegister wing v) := ⟨rfl, fun h => by cases h⟩
theorem poolUnregister (wing : Nat) (v : W64) : Statement (.poolUnregister wing v) := ⟨rfl, fun h => by cases h⟩
theorem poolCommandDone (wing : Nat) : Statement (.poolCommandDone wing) := ⟨rfl, fun h => by cases h⟩
theorem killPoolEffect (k : KillReq) : Statement (.killPoolEffect k) := ⟨rfl, fun h => by cases h⟩
theorem loadAtHome (m : MemMsg) : Statement (.loadAtHome m) := ⟨rfl, fun h => by cases h⟩
theorem storeAtHome (m : MemMsg) : Statement (.storeAtHome m) := ⟨rfl, fun h => by cases h⟩
theorem vtAnswer (room : Nat) (who : Who) (id vt : Nat) : Statement (.vtAnswer room who id vt) := ⟨rfl, fun h => by cases h⟩
theorem msauRequest (m : MemMsg) : Statement (.msauRequest m) := ⟨rfl, fun h => by cases h⟩
theorem msauAtomic (a : AtomMsg) : Statement (.msauAtomic a) := ⟨rfl, fun h => by cases h⟩
theorem bridgeAtomic (a : AtomMsg) : Statement (.bridgeAtomic a) := ⟨rfl, fun h => by cases h⟩
theorem barrierRequest (b : BarReq) : Statement (.barrierRequest b) := ⟨rfl, fun h => by cases h⟩
theorem cpfCredit (c : CreditReq) : Statement (.cpfCredit c) := ⟨rfl, fun h => by cases h⟩
theorem lifeRecompute (wing : Nat) (hours : W32) (asOf : Nat) : Statement (.lifeRecompute wing hours asOf) := ⟨rfl, fun h => by cases h⟩
theorem monChangeWake (room line : Nat) : Statement (.monChangeWake room line) := ⟨rfl, fun h => by cases h⟩
theorem keyRegister (room : Nat) (base ctl : W64) : Statement (.keyRegister room base ctl) := ⟨rfl, fun h => by cases h⟩
theorem keyUnregister (room : Nat) (base ctl : W64) : Statement (.keyUnregister room base ctl) := ⟨rfl, fun h => by cases h⟩
theorem keyCommandDone (room : Nat) : Statement (.keyCommandDone room) := ⟨rfl, fun h => by cases h⟩
theorem rdownCompletion (g : BridgeMsg) (data : List Byte) : Statement (.rdownCompletion g data) := ⟨rfl, fun h => by cases h⟩
theorem sharingMiss (m : MemMsg) (g : BridgeMsg) : Statement (.sharingMiss m g) := ⟨rfl, fun h => by cases h⟩
theorem birspArrival (g : BridgeMsg) (dirty : List Byte) : Statement (.birspArrival g dirty) := ⟨rfl, fun h => by cases h⟩
theorem pcieAtomicCompletion (a : AtomMsg) (ok : Bool) : Statement (.pcieAtomicCompletion a ok) := ⟨rfl, fun h => by cases h⟩
theorem lostClear (bits : BitVec 4) : Statement (.lostClear bits) := ⟨rfl, fun h => by cases h⟩
theorem scrub (agent : Nat) : Statement (.scrub agent) := ⟨rfl, fun h => by cases h⟩
theorem putAccept (m : MemMsg) (handle : W64) : Statement (.putAccept m handle) := ⟨rfl, fun h => by cases h⟩
theorem winCloseDecision (tenant : Nat) (handle : W64) : Statement (.winCloseDecision tenant handle) := ⟨rfl, fun h => by cases h⟩
theorem replicaLoad (m : MemMsg) : Statement (.replicaLoad m) := ⟨rfl, fun h => by cases h⟩
theorem celSwapRequest (room : Nat) (t : W64) : Statement (.celSwapRequest room t) := ⟨rfl, fun h => by cases h⟩
theorem launchPush (tenant : Nat) (v : W64) : Statement (.launchPush tenant v) := ⟨rfl, fun h => by cases h⟩
theorem launchPushDone (tenant : Nat) (p : PushReq) : Statement (.launchPushDone tenant p) := ⟨rfl, fun h => by cases h⟩
theorem crossTenantPush (p : PushReq) : Statement (.crossTenantPush p) := ⟨rfl, fun h => by cases h⟩
theorem evset (tenant : Nat) (bits : W64) : Statement (.evset tenant bits) := ⟨rfl, fun h => by cases h⟩
theorem evclr (tenant : Nat) (bits : W64) : Statement (.evclr tenant bits) := ⟨rfl, fun h => by cases h⟩
theorem preemptRequest (room : Nat) : Statement (.preemptRequest room) := ⟨rfl, fun h => by cases h⟩
theorem cbuDecision (r : CbuReq) : Statement (.cbuDecision r) := ⟨rfl, fun h => by cases h⟩
theorem cbPullWithdraw (room : Nat) : Statement (.cbPullWithdraw room) := ⟨rfl, fun h => by cases h⟩
theorem cbDoneCount (wing pos : Nat) : Statement (.cbDoneCount wing pos) := ⟨rfl, fun h => by cases h⟩
theorem killCbuEffect (k : KillReq) : Statement (.killCbuEffect k) := ⟨rfl, fun h => by cases h⟩
theorem stairownWrite (wing : Nat) (v : W64) : Statement (.stairownWrite wing v) := ⟨rfl, fun h => by cases h⟩
theorem atticctlWrite (wing : Nat) (v : W64) : Statement (.atticctlWrite wing v) := ⟨rfl, fun h => by cases h⟩
theorem atticpartWrite (wing : Nat) (v : W64) : Statement (.atticpartWrite wing v) := ⟨rfl, fun h => by cases h⟩
theorem configChangeDone (wing : Nat) : Statement (.configChangeDone wing) := ⟨rfl, fun h => by cases h⟩
theorem heatcfgWrite (f3 : BitVec 3) (rd rs1 : Reg) : Statement (.heatcfgWrite f3 rd rs1) := ⟨rfl, fun h => by cases h⟩
theorem qslipWrite (f3 : BitVec 3) (rd rs1 : Reg) : Statement (.qslipWrite f3 rd rs1) := ⟨rfl, fun h => by cases h⟩
theorem qwmarkWrite (f3 : BitVec 3) (rd rs1 : Reg) : Statement (.qwmarkWrite f3 rd rs1) := ⟨rfl, fun h => by cases h⟩
theorem vflagsWrite (f3 : BitVec 3) (rd rs1 : Reg) : Statement (.vflagsWrite f3 rd rs1) := ⟨rfl, fun h => by cases h⟩
theorem bankfmtWrite (f3 : BitVec 3) (rd rs1 : Reg) : Statement (.bankfmtWrite f3 rd rs1) := ⟨rfl, fun h => by cases h⟩
theorem satpWrite (f3 : BitVec 3) (rd rs1 : Reg) : Statement (.satpWrite f3 rd rs1) := ⟨rfl, fun h => by cases h⟩
theorem registerWrite (w : RegWrite) : Statement (.registerWrite w) := ⟨rfl, fun h => by cases h⟩
theorem warmRestart (part : PartCode) : Statement (.warmRestart part) := ⟨rfl, fun h => by cases h⟩
theorem efence (m : Reg) : Statement (.efence m) := ⟨rfl, fun h => by cases h⟩
theorem cqPop (xd : Reg) : Statement (.cqPop xd) := ⟨rfl, fun h => by cases h⟩
theorem cqTry (xd : Reg) : Statement (.cqTry xd) := ⟨rfl, fun h => by cases h⟩
theorem pwOpen (xd : Reg) (xs1 : Reg) : Statement (.pwOpen xd xs1) := ⟨rfl, fun h => by cases h⟩
theorem pwCommit (xd : Reg) (xs1 : Reg) (xs2 : Reg) : Statement (.pwCommit xd xs1 xs2) := ⟨rfl, fun h => by cases h⟩
theorem pwDrop (xs1 : Reg) : Statement (.pwDrop xs1) := ⟨rfl, fun h => by cases h⟩
theorem prAcq (xd : Reg) (xs1 : Reg) (xs2 : Reg) : Statement (.prAcq xd xs1 xs2) := ⟨rfl, fun h => by cases h⟩
theorem prRel (xs1 : Reg) (xs2 : Reg) : Statement (.prRel xs1 xs2) := ⟨rfl, fun h => by cases h⟩
theorem pStat (xd : Reg) (xs1 : Reg) (xs2 : Reg) : Statement (.pStat xd xs1 xs2) := ⟨rfl, fun h => by cases h⟩
theorem barInit (xs1 : Reg) (xs2 : Reg) : Statement (.barInit xs1 xs2) := ⟨rfl, fun h => by cases h⟩
theorem barArrive (xd : Reg) (xs1 : Reg) : Statement (.barArrive xd xs1) := ⟨rfl, fun h => by cases h⟩
theorem barExpect (xs1 : Reg) (xs2 : Reg) : Statement (.barExpect xs1 xs2) := ⟨rfl, fun h => by cases h⟩
theorem barWait (xs1 : Reg) : Statement (.barWait xs1) := ⟨rfl, fun h => by cases h⟩
theorem barTry (xd : Reg) (xs1 : Reg) : Statement (.barTry xd xs1) := ⟨rfl, fun h => by cases h⟩
theorem keyGet (xs1 : Reg) : Statement (.keyGet xs1) := ⟨rfl, fun h => by cases h⟩
theorem keyPass (xs1 : Reg) : Statement (.keyPass xs1) := ⟨rfl, fun h => by cases h⟩
theorem monArm (xs1 : Reg) : Statement (.monArm xs1) := ⟨rfl, fun h => by cases h⟩
theorem monWait (xd : Reg) (xs1 : Reg) : Statement (.monWait xd xs1) := ⟨rfl, fun h => by cases h⟩
theorem amoCas128 (xd : Reg) (xs1 : Reg) (xs2 : Reg) : Statement (.amoCas128 xd xs1 xs2) := ⟨rfl, fun h => by cases h⟩
theorem amoCasMs (xd : Reg) (xs1 : Reg) (xs2 : Reg) : Statement (.amoCasMs xd xs1 xs2) := ⟨rfl, fun h => by cases h⟩
theorem amoAddMs (xd : Reg) (xs1 : Reg) (xs2 : Reg) : Statement (.amoAddMs xd xs1 xs2) := ⟨rfl, fun h => by cases h⟩
theorem amoFaddMs (xd : Reg) (xs1 : Reg) (xs2 : Reg) : Statement (.amoFaddMs xd xs1 xs2) := ⟨rfl, fun h => by cases h⟩
theorem amoMinMs (xd : Reg) (xs1 : Reg) (xs2 : Reg) : Statement (.amoMinMs xd xs1 xs2) := ⟨rfl, fun h => by cases h⟩
theorem amoMaxMs (xd : Reg) (xs1 : Reg) (xs2 : Reg) : Statement (.amoMaxMs xd xs1 xs2) := ⟨rfl, fun h => by cases h⟩
theorem amoAndMs (xd : Reg) (xs1 : Reg) (xs2 : Reg) : Statement (.amoAndMs xd xs1 xs2) := ⟨rfl, fun h => by cases h⟩
theorem amoOrMs (xd : Reg) (xs1 : Reg) (xs2 : Reg) : Statement (.amoOrMs xd xs1 xs2) := ⟨rfl, fun h => by cases h⟩
theorem amoXorMs (xd : Reg) (xs1 : Reg) (xs2 : Reg) : Statement (.amoXorMs xd xs1 xs2) := ⟨rfl, fun h => by cases h⟩
theorem amoSwapMs (xd : Reg) (xs1 : Reg) (xs2 : Reg) : Statement (.amoSwapMs xd xs1 xs2) := ⟨rfl, fun h => by cases h⟩
theorem winOpen (xd : Reg) (xs1 : Reg) (xs2 : Reg) : Statement (.winOpen xd xs1 xs2) := ⟨rfl, fun h => by cases h⟩
theorem winClose (xs1 : Reg) : Statement (.winClose xs1) := ⟨rfl, fun h => by cases h⟩
theorem winCnt (xd : Reg) (xs1 : Reg) (xs2 : Reg) : Statement (.winCnt xd xs1 xs2) := ⟨rfl, fun h => by cases h⟩
theorem bnet (p : BitVec 3) (xd : Reg) (xs1 : Reg) (xs2 : Reg) : Statement (.bnet p xd xs1 xs2) := ⟨rfl, fun h => by cases h⟩
theorem bnetLd (xs1 : Reg) (xs2 : Reg) : Statement (.bnetLd xs1 xs2) := ⟨rfl, fun h => by cases h⟩
theorem launch (xd : Reg) (xs1 : Reg) (xs2 : Reg) : Statement (.launch xd xs1 xs2) := ⟨rfl, fun h => by cases h⟩
theorem jobWait (xs1 : Reg) : Statement (.jobWait xs1) := ⟨rfl, fun h => by cases h⟩
theorem jobSelf (xd : Reg) : Statement (.jobSelf xd) := ⟨rfl, fun h => by cases h⟩
theorem calNow (xd : Reg) : Statement (.calNow xd) := ⟨rfl, fun h => by cases h⟩
theorem calWait (xs1 : Reg) : Statement (.calWait xs1) := ⟨rfl, fun h => by cases h⟩
theorem cbOpen (xd : Reg) (xs1 : Reg) (xs2 : Reg) : Statement (.cbOpen xd xs1 xs2) := ⟨rfl, fun h => by cases h⟩
theorem cbPull (xd : Reg) : Statement (.cbPull xd) := ⟨rfl, fun h => by cases h⟩
theorem cbDone (xs1 : Reg) : Statement (.cbDone xs1) := ⟨rfl, fun h => by cases h⟩
theorem cbStat (xd : Reg) (xs1 : Reg) : Statement (.cbStat xd xs1) := ⟨rfl, fun h => by cases h⟩
theorem wtArm (xd : Reg) (xs1 : Reg) : Statement (.wtArm xd xs1) := ⟨rfl, fun h => by cases h⟩
theorem wtOff (xs1 : Reg) : Statement (.wtOff xs1) := ⟨rfl, fun h => by cases h⟩
theorem celSwap (xs1 : Reg) : Statement (.celSwap xs1) := ⟨rfl, fun h => by cases h⟩
theorem heatRd (xd : Reg) (xs1 : Reg) : Statement (.heatRd xd xs1) := ⟨rfl, fun h => by cases h⟩
theorem cmpStat (xd : Reg) (xs1 : Reg) : Statement (.cmpStat xd xs1) := ⟨rfl, fun h => by cases h⟩
theorem qSave (xs1 : Reg) : Statement (.qSave xs1) := ⟨rfl, fun h => by cases h⟩
theorem qLoad (xs1 : Reg) : Statement (.qLoad xs1) := ⟨rfl, fun h => by cases h⟩
theorem replay (xs1 : Reg) : Statement (.replay xs1) := ⟨rfl, fun h => by cases h⟩
theorem jobKill (xs1 : Reg) : Statement (.jobKill xs1) := ⟨rfl, fun h => by cases h⟩
theorem tlbInv (xs1 : Reg) (xs2 : Reg) : Statement (.tlbInv xs1 xs2) := ⟨rfl, fun h => by cases h⟩
theorem filtSet (xs1 : Reg) (xs2 : Reg) : Statement (.filtSet xs1 xs2) := ⟨rfl, fun h => by cases h⟩
theorem calSet (xs1 : Reg) (xs2 : Reg) : Statement (.calSet xs1 xs2) := ⟨rfl, fun h => by cases h⟩
theorem atticSet (xs1 : Reg) (xs2 : Reg) : Statement (.atticSet xs1 xs2) := ⟨rfl, fun h => by cases h⟩
theorem stRd (xd : Reg) (xs1 : Reg) : Statement (.stRd xd xs1) := ⟨rfl, fun h => by cases h⟩
theorem logRd (xd : Reg) (xs1 : Reg) : Statement (.logRd xd xs1) := ⟨rfl, fun h => by cases h⟩
theorem lifeRd (xd : Reg) (xs1 : Reg) : Statement (.lifeRd xd xs1) := ⟨rfl, fun h => by cases h⟩
theorem lNop (sy : BitVec 6) : Statement (.lNop sy) := ⟨rfl, fun _ => rfl⟩
theorem lV (sy : BitVec 6) (rd : Reg) (lay : BitVec 4) (xa : Reg) (xb : BitVec 4) : Statement (.lV sy rd lay xa xb) := ⟨by simp only [laneOf, lLd]; split <;> rfl, fun _ => rfl⟩
theorem lVs (sy : BitVec 6) (rd : Reg) (lay : BitVec 4) (xa : Reg) (xb : BitVec 4) : Statement (.lVs sy rd lay xa xb) := ⟨by simp only [laneOf, lLd]; split <;> rfl, fun _ => rfl⟩
theorem lBc (sy : BitVec 6) (rd : Reg) (lay : BitVec 4) (xa : Reg) (xb : BitVec 4) : Statement (.lBc sy rd lay xa xb) := ⟨by simp only [laneOf, lLd]; split <;> rfl, fun _ => rfl⟩
theorem lEl (sy : BitVec 6) (rd : Reg) (lay : BitVec 4) (xa : Reg) (xb : BitVec 4) : Statement (.lEl sy rd lay xa xb) := ⟨by simp only [laneOf, lLd]; split <;> rfl, fun _ => rfl⟩
theorem lGat (sy : BitVec 6) (rd : Reg) (lay : BitVec 4) (xa : Reg) (xb : BitVec 4) : Statement (.lGat sy rd lay xa xb) := ⟨by simp only [laneOf, lLd]; split <;> rfl, fun _ => rfl⟩
theorem lQ (sy : BitVec 6) (lay : BitVec 4) (xa : Reg) (xb : BitVec 4) : Statement (.lQ sy lay xa xb) := ⟨rfl, fun _ => rfl⟩
theorem lK (sy : BitVec 6) (rd : Reg) (lay : BitVec 4) (xa : Reg) (xb : BitVec 4) : Statement (.lK sy rd lay xa xb) := ⟨rfl, fun _ => rfl⟩
theorem lPf (sy : BitVec 6) (lay : BitVec 4) (xa : Reg) (xb : BitVec 4) : Statement (.lPf sy lay xa xb) := ⟨rfl, fun _ => rfl⟩
theorem lLay (sy : BitVec 6) (rd : Reg) (xa : Reg) (xb : BitVec 4) : Statement (.lLay sy rd xa xb) := ⟨rfl, fun _ => rfl⟩
theorem sNop (sy : BitVec 6) : Statement (.sNop sy) := ⟨rfl, fun _ => rfl⟩
theorem sV (sy : BitVec 6) (rd : Reg) (lay : BitVec 4) (xa : Reg) (xb : BitVec 4) : Statement (.sV sy rd lay xa xb) := ⟨rfl, fun _ => rfl⟩
theorem sVs (sy : BitVec 6) (rd : Reg) (lay : BitVec 4) (xa : Reg) (xb : BitVec 4) : Statement (.sVs sy rd lay xa xb) := ⟨rfl, fun _ => rfl⟩
theorem sRow (sy : BitVec 6) (rd : Reg) (lay : BitVec 4) (xa : Reg) (xb : BitVec 4) : Statement (.sRow sy rd lay xa xb) := ⟨rfl, fun _ => rfl⟩
theorem sSc (sy : BitVec 6) (rd : Reg) (lay : BitVec 4) (xa : Reg) (xb : BitVec 4) : Statement (.sSc sy rd lay xa xb) := ⟨rfl, fun _ => rfl⟩
theorem sK (sy : BitVec 6) (rd : Reg) (lay : BitVec 4) (xa : Reg) (xb : BitVec 4) : Statement (.sK sy rd lay xa xb) := ⟨rfl, fun _ => rfl⟩
theorem sEl (sy : BitVec 6) (rd : Reg) (lay : BitVec 4) (xa : Reg) (xb : BitVec 4) : Statement (.sEl sy rd lay xa xb) := ⟨rfl, fun _ => rfl⟩
theorem sC24 (sy : BitVec 6) (rd : Reg) (lay : BitVec 4) (xa : Reg) (xb : BitVec 4) : Statement (.sC24 sy rd lay xa xb) := ⟨rfl, fun _ => rfl⟩
theorem mNop (sy : BitVec 6) : Statement (.mNop sy) := ⟨rfl, fun _ => rfl⟩
theorem mSet (sy : BitVec 6) (rd : Reg) (xa : Reg) : Statement (.mSet sy rd xa) := ⟨rfl, fun _ => rfl⟩
theorem mSetx (sy : BitVec 6) (rd : Reg) (lay : BitVec 4) (xa : Reg) (xb : BitVec 4) : Statement (.mSetx sy rd lay xa xb) := ⟨rfl, fun _ => rfl⟩
theorem mGo (sy : BitVec 6) (xa : Reg) (xb : BitVec 4) : Statement (.mGo sy xa xb) := ⟨rfl, fun _ => rfl⟩
theorem mClr (sy : BitVec 6) (rd : Reg) : Statement (.mClr sy rd) := ⟨rfl, fun _ => rfl⟩
theorem mRetScratchpad (sy : BitVec 6) (z : BitVec 2) (lay : BitVec 4) (xa : Reg) (xb : BitVec 4) : Statement (.mRetScratchpad sy z lay xa xb) := ⟨rfl, fun _ => rfl⟩
theorem mRetOq (sy : BitVec 6) (tgt : BitVec 3) (z : BitVec 2) (xa : Reg) (xb : BitVec 4) : Statement (.mRetOq sy tgt z xa xb) := ⟨rfl, fun _ => rfl⟩
theorem mGidx (sy : BitVec 6) (rd : Reg) (xa : Reg) (xb : BitVec 4) : Statement (.mGidx sy rd xa xb) := ⟨rfl, fun _ => rfl⟩
theorem mSc (sy : BitVec 6) (lay : BitVec 4) (xa : Reg) (xb : BitVec 4) : Statement (.mSc sy lay xa xb) := ⟨rfl, fun _ => rfl⟩
theorem cNop (sy : BitVec 6) : Statement (.cNop sy) := ⟨rfl, fun _ => rfl⟩
theorem cCopy (sy : BitVec 6) (rd : Reg) (lay : BitVec 4) (xa : Reg) (xb : BitVec 4) : Statement (.cCopy sy rd lay xa xb) := ⟨by simp only [laneOf]; split <;> rfl, fun _ => rfl⟩
theorem cMcast (sy : BitVec 6) (rd : Reg) (lay : BitVec 4) (xa : Reg) (xb : BitVec 4) : Statement (.cMcast sy rd lay xa xb) := ⟨rfl, fun _ => rfl⟩
theorem cPut (sy : BitVec 6) (rd : Reg) (lay : BitVec 4) (xa : Reg) (xb : BitVec 4) : Statement (.cPut sy rd lay xa xb) := ⟨rfl, fun _ => rfl⟩
theorem cFill (sy : BitVec 6) (rd : Reg) (lay : BitVec 4) (xa : Reg) (xb : BitVec 4) : Statement (.cFill sy rd lay xa xb) := ⟨rfl, fun _ => rfl⟩
theorem cScl (sy : BitVec 6) (lay : BitVec 4) (xa : Reg) (xb : BitVec 4) : Statement (.cScl sy lay xa xb) := ⟨rfl, fun _ => rfl⟩
theorem cStrm (sy : BitVec 6) (rd : Reg) (lay : BitVec 4) (xa : Reg) (xb : BitVec 4) : Statement (.cStrm sy rd lay xa xb) := ⟨rfl, fun _ => rfl⟩
theorem cPf (sy : BitVec 6) (lay : BitVec 4) (xa : Reg) (xb : BitVec 4) : Statement (.cPf sy lay xa xb) := ⟨rfl, fun _ => rfl⟩
theorem vNop (sy : BitVec 6) : Statement (.vNop sy) := ⟨rfl, fun _ => rfl⟩
theorem vAddF (sy : BitVec 6) (vd : Reg) (va : Reg) (vb : Reg) (k : BitVec 3) : Statement (.vAddF sy vd va vb k) := ⟨rfl, fun _ => rfl⟩
theorem vSubF (sy : BitVec 6) (vd : Reg) (va : Reg) (vb : Reg) (k : BitVec 3) : Statement (.vSubF sy vd va vb k) := ⟨rfl, fun _ => rfl⟩
theorem vMulF (sy : BitVec 6) (vd : Reg) (va : Reg) (vb : Reg) (k : BitVec 3) : Statement (.vMulF sy vd va vb k) := ⟨rfl, fun _ => rfl⟩
theorem vFmaF (sy : BitVec 6) (vd : Reg) (va : Reg) (vb : Reg) (k : BitVec 3) : Statement (.vFmaF sy vd va vb k) := ⟨rfl, fun _ => rfl⟩
theorem vFmsF (sy : BitVec 6) (vd : Reg) (va : Reg) (vb : Reg) (k : BitVec 3) : Statement (.vFmsF sy vd va vb k) := ⟨rfl, fun _ => rfl⟩
theorem vMinF (sy : BitVec 6) (vd : Reg) (va : Reg) (vb : Reg) (k : BitVec 3) : Statement (.vMinF sy vd va vb k) := ⟨rfl, fun _ => rfl⟩
theorem vMaxF (sy : BitVec 6) (vd : Reg) (va : Reg) (vb : Reg) (k : BitVec 3) : Statement (.vMaxF sy vd va vb k) := ⟨rfl, fun _ => rfl⟩
theorem vAbsF (sy : BitVec 6) (vd : Reg) (va : Reg) (k : BitVec 3) : Statement (.vAbsF sy vd va k) := ⟨rfl, fun _ => rfl⟩
theorem vNegF (sy : BitVec 6) (vd : Reg) (va : Reg) (k : BitVec 3) : Statement (.vNegF sy vd va k) := ⟨rfl, fun _ => rfl⟩
theorem vDivF (sy : BitVec 6) (vd : Reg) (va : Reg) (vb : Reg) (k : BitVec 3) : Statement (.vDivF sy vd va vb k) := ⟨rfl, fun _ => rfl⟩
theorem vSqrtF (sy : BitVec 6) (vd : Reg) (va : Reg) (k : BitVec 3) : Statement (.vSqrtF sy vd va k) := ⟨rfl, fun _ => rfl⟩
theorem vRsqF (sy : BitVec 6) (vd : Reg) (va : Reg) (k : BitVec 3) : Statement (.vRsqF sy vd va k) := ⟨rfl, fun _ => rfl⟩
theorem vRcpF (sy : BitVec 6) (vd : Reg) (va : Reg) (k : BitVec 3) : Statement (.vRcpF sy vd va k) := ⟨rfl, fun _ => rfl⟩
theorem vExp2F (sy : BitVec 6) (vd : Reg) (va : Reg) (k : BitVec 3) : Statement (.vExp2F sy vd va k) := ⟨rfl, fun _ => rfl⟩
theorem vLog2F (sy : BitVec 6) (vd : Reg) (va : Reg) (k : BitVec 3) : Statement (.vLog2F sy vd va k) := ⟨rfl, fun _ => rfl⟩
theorem vTanhF (sy : BitVec 6) (vd : Reg) (va : Reg) (k : BitVec 3) : Statement (.vTanhF sy vd va k) := ⟨rfl, fun _ => rfl⟩
theorem vSgnjF (sy : BitVec 6) (vd : Reg) (va : Reg) (vb : Reg) (k : BitVec 3) : Statement (.vSgnjF sy vd va vb k) := ⟨rfl, fun _ => rfl⟩
theorem vClsF (sy : BitVec 6) (vd : Reg) (va : Reg) (k : BitVec 3) : Statement (.vClsF sy vd va k) := ⟨rfl, fun _ => rfl⟩
theorem vCmpF (sy : BitVec 6) (kd : Reg) (va : Reg) (vb : Reg) (c : BitVec 3) : Statement (.vCmpF sy kd va vb c) := ⟨rfl, fun _ => rfl⟩
theorem vAddI (sy : BitVec 6) (vd : Reg) (va : Reg) (vb : Reg) (k : BitVec 3) : Statement (.vAddI sy vd va vb k) := ⟨rfl, fun _ => rfl⟩
theorem vSubI (sy : BitVec 6) (vd : Reg) (va : Reg) (vb : Reg) (k : BitVec 3) : Statement (.vSubI sy vd va vb k) := ⟨rfl, fun _ => rfl⟩
theorem vMulI (sy : BitVec 6) (vd : Reg) (va : Reg) (vb : Reg) (k : BitVec 3) : Statement (.vMulI sy vd va vb k) := ⟨rfl, fun _ => rfl⟩
theorem vMulhI (sy : BitVec 6) (vd : Reg) (va : Reg) (vb : Reg) (k : BitVec 3) : Statement (.vMulhI sy vd va vb k) := ⟨rfl, fun _ => rfl⟩
theorem vMulhC (sy : BitVec 6) (vd : Reg) (va : Reg) (vb : Reg) (k : BitVec 3) : Statement (.vMulhC sy vd va vb k) := ⟨rfl, fun _ => rfl⟩
theorem vMinI (sy : BitVec 6) (vd : Reg) (va : Reg) (vb : Reg) (k : BitVec 3) : Statement (.vMinI sy vd va vb k) := ⟨rfl, fun _ => rfl⟩
theorem vMaxI (sy : BitVec 6) (vd : Reg) (va : Reg) (vb : Reg) (k : BitVec 3) : Statement (.vMaxI sy vd va vb k) := ⟨rfl, fun _ => rfl⟩
theorem vMinC (sy : BitVec 6) (vd : Reg) (va : Reg) (vb : Reg) (k : BitVec 3) : Statement (.vMinC sy vd va vb k) := ⟨rfl, fun _ => rfl⟩
theorem vMaxC (sy : BitVec 6) (vd : Reg) (va : Reg) (vb : Reg) (k : BitVec 3) : Statement (.vMaxC sy vd va vb k) := ⟨rfl, fun _ => rfl⟩
theorem vAnd (sy : BitVec 6) (vd : Reg) (va : Reg) (vb : Reg) (k : BitVec 3) : Statement (.vAnd sy vd va vb k) := ⟨rfl, fun _ => rfl⟩
theorem vOr (sy : BitVec 6) (vd : Reg) (va : Reg) (vb : Reg) (k : BitVec 3) : Statement (.vOr sy vd va vb k) := ⟨rfl, fun _ => rfl⟩
theorem vXor (sy : BitVec 6) (vd : Reg) (va : Reg) (vb : Reg) (k : BitVec 3) : Statement (.vXor sy vd va vb k) := ⟨rfl, fun _ => rfl⟩
theorem vNot (sy : BitVec 6) (vd : Reg) (va : Reg) (k : BitVec 3) : Statement (.vNot sy vd va k) := ⟨rfl, fun _ => rfl⟩
theorem vShl (sy : BitVec 6) (vd : Reg) (va : Reg) (vb : Reg) (k : BitVec 3) : Statement (.vShl sy vd va vb k) := ⟨rfl, fun _ => rfl⟩
theorem vShr (sy : BitVec 6) (vd : Reg) (va : Reg) (vb : Reg) (k : BitVec 3) : Statement (.vShr sy vd va vb k) := ⟨rfl, fun _ => rfl⟩
theorem vSra (sy : BitVec 6) (vd : Reg) (va : Reg) (vb : Reg) (k : BitVec 3) : Statement (.vSra sy vd va vb k) := ⟨rfl, fun _ => rfl⟩
theorem vPopc (sy : BitVec 6) (vd : Reg) (va : Reg) (k : BitVec 3) : Statement (.vPopc sy vd va k) := ⟨rfl, fun _ => rfl⟩
theorem vClz (sy : BitVec 6) (vd : Reg) (va : Reg) (k : BitVec 3) : Statement (.vClz sy vd va k) := ⟨rfl, fun _ => rfl⟩
theorem vCmpI (sy : BitVec 6) (kd : Reg) (va : Reg) (vb : Reg) (c : BitVec 3) : Statement (.vCmpI sy kd va vb c) := ⟨rfl, fun _ => rfl⟩
theorem vCmpC (sy : BitVec 6) (kd : Reg) (va : Reg) (vb : Reg) (c : BitVec 3) : Statement (.vCmpC sy kd va vb c) := ⟨rfl, fun _ => rfl⟩
theorem vMov (sy : BitVec 6) (vd : Reg) (va : Reg) (k : BitVec 3) : Statement (.vMov sy vd va k) := ⟨rfl, fun _ => rfl⟩
theorem vMovi (sy : BitVec 6) (vd : Reg) (imm : BitVec 13) : Statement (.vMovi sy vd imm) := ⟨rfl, fun _ => rfl⟩
theorem vBcx (sy : BitVec 6) (vd : Reg) (xa : Reg) (xb : Reg) : Statement (.vBcx sy vd xa xb) := ⟨rfl, fun _ => rfl⟩
theorem vIns (sy : BitVec 6) (vd : Reg) (xa : Reg) (xb : Reg) : Statement (.vIns sy vd xa xb) := ⟨rfl, fun _ => rfl⟩
theorem vExt (sy : BitVec 6) (va : Reg) (xa : Reg) (xb : Reg) : Statement (.vExt sy va xa xb) := ⟨rfl, fun _ => rfl⟩
theorem vSel (sy : BitVec 6) (vd : Reg) (va : Reg) (vb : Reg) (k : BitVec 3) : Statement (.vSel sy vd va vb k) := ⟨rfl, fun _ => rfl⟩
theorem vIota (sy : BitVec 6) (vd : Reg) (imm : BitVec 13) : Statement (.vIota sy vd imm) := ⟨rfl, fun _ => rfl⟩
theorem vPerm (sy : BitVec 6) (vd : Reg) (va : Reg) (vb : Reg) (k : BitVec 3) : Statement (.vPerm sy vd va vb k) := ⟨rfl, fun _ => rfl⟩
theorem vRotr (sy : BitVec 6) (vd : Reg) (va : Reg) (n : BitVec 6) : Statement (.vRotr sy vd va n) := ⟨rfl, fun _ => rfl⟩
theorem vRotc (sy : BitVec 6) (vd : Reg) (va : Reg) (n : BitVec 6) : Statement (.vRotc sy vd va n) := ⟨rfl, fun _ => rfl⟩
theorem vBcr (sy : BitVec 6) (vd : Reg) (va : Reg) (n : BitVec 6) : Statement (.vBcr sy vd va n) := ⟨rfl, fun _ => rfl⟩
theorem vBcc (sy : BitVec 6) (vd : Reg) (va : Reg) (n : BitVec 6) : Statement (.vBcc sy vd va n) := ⟨rfl, fun _ => rfl⟩
theorem vRedrF (sy : BitVec 6) (vd : Reg) (va : Reg) (op : BitVec 2) : Statement (.vRedrF sy vd va op) := ⟨rfl, fun _ => rfl⟩
theorem vRedcF (sy : BitVec 6) (vd : Reg) (va : Reg) (op : BitVec 2) : Statement (.vRedcF sy vd va op) := ⟨rfl, fun _ => rfl⟩
theorem vRedrI (sy : BitVec 6) (vd : Reg) (va : Reg) (op : BitVec 2) : Statement (.vRedrI sy vd va op) := ⟨rfl, fun _ => rfl⟩
theorem vRedcI (sy : BitVec 6) (vd : Reg) (va : Reg) (op : BitVec 2) : Statement (.vRedcI sy vd va op) := ⟨rfl, fun _ => rfl⟩
theorem vScnrF (sy : BitVec 6) (vd : Reg) (va : Reg) : Statement (.vScnrF sy vd va) := ⟨rfl, fun _ => rfl⟩
theorem vTr16 (sy : BitVec 6) (vd : Reg) (va : Reg) : Statement (.vTr16 sy vd va) := ⟨rfl, fun _ => rfl⟩
theorem vCvt (sy : BitVec 6) (vd : Reg) (va : Reg) (st : BitVec 3) (dt : BitVec 3) (mode : BitVec 2) : Statement (.vCvt sy vd va st dt mode) := ⟨rfl, fun _ => rfl⟩
theorem vPack (sy : BitVec 6) (vd : Reg) (va : Reg) (n : BitVec 6) : Statement (.vPack sy vd va n) := ⟨rfl, fun _ => rfl⟩
theorem vUnpk (sy : BitVec 6) (vd : Reg) (va : Reg) (n : BitVec 6) : Statement (.vUnpk sy vd va n) := ⟨rfl, fun _ => rfl⟩
theorem vIsect (sy : BitVec 6) (kp : Reg) (va : Reg) (vb : Reg) : Statement (.vIsect sy kp va vb) := ⟨rfl, fun _ => rfl⟩
theorem vC24 (sy : BitVec 6) (vd : Reg) (va : Reg) (vm : Reg) (k : BitVec 3) : Statement (.vC24 sy vd va vm k) := ⟨rfl, fun _ => rfl⟩
theorem vFnd (sy : BitVec 6) (va : Reg) (xa : Reg) (xb : Reg) (c : BitVec 3) : Statement (.vFnd sy va xa xb c) := ⟨rfl, fun _ => rfl⟩
theorem kAnd (sy : BitVec 6) (kd : Reg) (ka : Reg) (kb : Reg) : Statement (.kAnd sy kd ka kb) := ⟨rfl, fun _ => rfl⟩
theorem kOr (sy : BitVec 6) (kd : Reg) (ka : Reg) (kb : Reg) : Statement (.kOr sy kd ka kb) := ⟨rfl, fun _ => rfl⟩
theorem kXor (sy : BitVec 6) (kd : Reg) (ka : Reg) (kb : Reg) : Statement (.kXor sy kd ka kb) := ⟨rfl, fun _ => rfl⟩
theorem kAndn (sy : BitVec 6) (kd : Reg) (ka : Reg) (kb : Reg) : Statement (.kAndn sy kd ka kb) := ⟨rfl, fun _ => rfl⟩
theorem kNot (sy : BitVec 6) (kd : Reg) (ka : Reg) : Statement (.kNot sy kd ka) := ⟨rfl, fun _ => rfl⟩
theorem kMov (sy : BitVec 6) (kd : Reg) (ka : Reg) : Statement (.kMov sy kd ka) := ⟨rfl, fun _ => rfl⟩
theorem kCnt (sy : BitVec 6) (vd : Reg) (ka : Reg) : Statement (.kCnt sy vd ka) := ⟨rfl, fun _ => rfl⟩
theorem wCfg (sy : BitVec 6) (w : Reg) (imm : BitVec 13) : Statement (.wCfg sy w imm) := ⟨rfl, fun _ => rfl⟩
theorem wLen (sy : BitVec 6) (w : Reg) (imm : BitVec 13) : Statement (.wLen sy w imm) := ⟨rfl, fun _ => rfl⟩
theorem wPush (sy : BitVec 6) (w : Reg) (va : Reg) (k : BitVec 3) : Statement (.wPush sy w va k) := ⟨rfl, fun _ => rfl⟩
theorem wRd (sy : BitVec 6) (vd : Reg) (w : Reg) (k : BitVec 3) : Statement (.wRd sy vd w k) := ⟨rfl, fun _ => rfl⟩
theorem wClr (sy : BitVec 6) (w : Reg) : Statement (.wClr sy w) := ⟨rfl, fun _ => rfl⟩
theorem wStat (sy : BitVec 6) (w : Reg) : Statement (.wStat sy w) := ⟨rfl, fun _ => rfl⟩
theorem deviceLaunchPush (p : PushReq) : Statement (.deviceLaunchPush p) := ⟨rfl, fun h => by cases h⟩
theorem winOpenDecision (r : WinReq) : Statement (.winOpenDecision r) := ⟨rfl, fun h => by cases h⟩
theorem watchArmInstall (r : ArmReq) : Statement (.watchArmInstall r) := ⟨rfl, fun h => by cases h⟩
theorem watchOffDecision (tenant : Nat) (entry : Nat) : Statement (.watchOffDecision tenant entry) := ⟨rfl, fun h => by cases h⟩
theorem replayDecision (r : ReplayReq) : Statement (.replayDecision r) := ⟨rfl, fun h => by cases h⟩
theorem qLoadDone (room : Nat) : Statement (.qLoadDone room) := ⟨rfl, fun h => by cases h⟩
theorem tlbInvDone (room : Nat) : Statement (.tlbInvDone room) := ⟨rfl, fun h => by cases h⟩
theorem calSetStored (room unit : Nat) (image : BitVec 512) : Statement (.calSetStored room unit image) := ⟨rfl, fun h => by cases h⟩
theorem filtSetApplied (room idx : Nat) (image : BitVec 128) : Statement (.filtSetApplied room idx image) := ⟨rfl, fun h => by cases h⟩
theorem fetchLineEntry (room : Nat) : Statement (.fetchLineEntry room) := ⟨rfl, fun h => by cases h⟩
theorem reservationExpiry (room : Nat) : Statement (.reservationExpiry room) := ⟨rfl, fun h => by cases h⟩
theorem trap (room : Nat) : Statement (.trap room) := ⟨rfl, fun h => by cases h⟩
theorem entryIssue (room : Nat) (e : Eng) : Statement (.entryIssue room e) := ⟨rfl, fun h => by cases h⟩
theorem entryFinish (room : Nat) (e : Eng) : Statement (.entryFinish room e) := ⟨rfl, fun h => by cases h⟩
theorem entryDeferredPush (room : Nat) (e : Eng) : Statement (.entryDeferredPush room e) := ⟨rfl, fun h => by cases h⟩
theorem faultRecordWrite (src : FaultSrc) : Statement (.faultRecordWrite src) := ⟨rfl, fun h => by cases h⟩
theorem streamElementArrival (room q : Nat) : Statement (.streamElementArrival room q) := ⟨rfl, fun h => by cases h⟩
theorem cqStairPostDelivery (room : Nat) : Statement (.cqStairPostDelivery room) := ⟨rfl, fun h => by cases h⟩
theorem tsigPush (room : Nat) : Statement (.tsigPush room) := ⟨rfl, fun h => by cases h⟩
theorem twaitPop (room : Nat) : Statement (.twaitPop room) := ⟨rfl, fun h => by cases h⟩
theorem efenceRelease (room : Nat) : Statement (.efenceRelease room) := ⟨rfl, fun h => by cases h⟩
theorem cqPopTake (room : Nat) : Statement (.cqPopTake room) := ⟨rfl, fun h => by cases h⟩
theorem calWaitRelease (room : Nat) : Statement (.calWaitRelease room) := ⟨rfl, fun h => by cases h⟩
theorem jobWaitRelease (room : Nat) : Statement (.jobWaitRelease room) := ⟨rfl, fun h => by cases h⟩
theorem fenceVRelease (room : Nat) : Statement (.fenceVRelease room) := ⟨rfl, fun h => by cases h⟩
theorem keyGetGrant (room : Nat) : Statement (.keyGetGrant room) := ⟨rfl, fun h => by cases h⟩
theorem qSaveDone (room : Nat) : Statement (.qSaveDone room) := ⟨rfl, fun h => by cases h⟩
theorem leaseExpiry (holder line : Nat) : Statement (.leaseExpiry holder line) := ⟨rfl, fun h => by cases h⟩
theorem monTimeout (room : Nat) : Statement (.monTimeout room) := ⟨rfl, fun h => by cases h⟩
theorem monOtherWake (room : Nat) : Statement (.monOtherWake room) := ⟨rfl, fun h => by cases h⟩
theorem keyQuantumExpiry (wing slot : Nat) : Statement (.keyQuantumExpiry wing slot) := ⟨rfl, fun h => by cases h⟩
theorem keyHandover (wing slot : Nat) : Statement (.keyHandover wing slot) := ⟨rfl, fun h => by cases h⟩
theorem hostSnoop (g : BridgeMsg) : Statement (.hostSnoop g) := ⟨rfl, fun h => by cases h⟩
theorem snoopAnswer (granule : Nat) : Statement (.snoopAnswer granule) := ⟨rfl, fun h => by cases h⟩
theorem hostCxlMemAccess (h : HostAcc) : Statement (.hostCxlMemAccess h) := ⟨rfl, fun h => by cases h⟩
theorem linkDown (port : Nat) : Statement (.linkDown port) := ⟨rfl, fun h => by cases h⟩
theorem linkUp (port : Nat) : Statement (.linkUp port) := ⟨rfl, fun h => by cases h⟩
theorem castling (stair : Nat) : Statement (.castling stair) := ⟨rfl, fun h => by cases h⟩
theorem gangStart (job : Nat) : Statement (.gangStart job) := ⟨rfl, fun h => by cases h⟩
theorem iterEndReport (room : Nat) : Statement (.iterEndReport room) := ⟨rfl, fun h => by cases h⟩
theorem jobComplete (job : Nat) : Statement (.jobComplete job) := ⟨rfl, fun h => by cases h⟩
theorem gangResume (job : Nat) : Statement (.gangResume job) := ⟨rfl, fun h => by cases h⟩
theorem cbuRecordRead (wing : Nat) : Statement (.cbuRecordRead wing) := ⟨rfl, fun h => by cases h⟩
theorem cbuPass (wing : Nat) : Statement (.cbuPass wing) := ⟨rfl, fun h => by cases h⟩
theorem batchRelease (wing : Nat) : Statement (.batchRelease wing) := ⟨rfl, fun h => by cases h⟩
theorem triggerStart (entry : Nat) : Statement (.triggerStart entry) := ⟨rfl, fun h => by cases h⟩
theorem threadStart (room : Nat) : Statement (.threadStart room) := ⟨rfl, fun h => by cases h⟩
theorem atticChangeTick (stair : Nat) : Statement (.atticChangeTick stair) := ⟨rfl, fun h => by cases h⟩
theorem eccCorrected (part : PartCode) : Statement (.eccCorrected part) := ⟨rfl, fun h => by cases h⟩
theorem poisonMark (site : ErrSite) : Statement (.poisonMark site) := ⟨rfl, fun h => by cases h⟩
theorem partFailure (part : PartCode) : Statement (.partFailure part) := ⟨rfl, fun h => by cases h⟩
theorem pcieCompletionTimeout (a : AtomMsg) : Statement (.pcieCompletionTimeout a) := ⟨rfl, fun h => by cases h⟩
theorem wfi : Statement (.wfi) := ⟨rfl, fun h => by cases h⟩
theorem reload : Statement (.reload) := ⟨rfl, fun h => by cases h⟩
theorem migrationSeal : Statement (.migrationSeal) := ⟨rfl, fun h => by cases h⟩
theorem migrationRelease : Statement (.migrationRelease) := ⟨rfl, fun h => by cases h⟩
theorem migrationCopied : Statement (.migrationCopied) := ⟨rfl, fun h => by cases h⟩
theorem zeroFillMark : Statement (.zeroFillMark) := ⟨rfl, fun h => by cases h⟩
theorem zeroFillDone : Statement (.zeroFillDone) := ⟨rfl, fun h => by cases h⟩
theorem admission : Statement (.admission) := ⟨rfl, fun h => by cases h⟩
theorem calendarPeriodBoundary : Statement (.calendarPeriodBoundary) := ⟨rfl, fun h => by cases h⟩
theorem backgroundScrub : Statement (.backgroundScrub) := ⟨rfl, fun h => by cases h⟩
theorem reset : Statement (.reset) := ⟨rfl, fun h => by cases h⟩
theorem mbReadState : Statement (.mbReadState) := ⟨rfl, fun h => by cases h⟩
theorem mbReadLog : Statement (.mbReadLog) := ⟨rfl, fun h => by cases h⟩
theorem mbSetPackage : Statement (.mbSetPackage) := ⟨rfl, fun h => by cases h⟩
theorem mbWriteReplica : Statement (.mbWriteReplica) := ⟨rfl, fun h => by cases h⟩
theorem mbAttest : Statement (.mbAttest) := ⟨rfl, fun h => by cases h⟩
theorem mbReadIdentity : Statement (.mbReadIdentity) := ⟨rfl, fun h => by cases h⟩
theorem mbCommandDone : Statement (.mbCommandDone) := ⟨rfl, fun h => by cases h⟩
theorem tsig : Statement (.tsig) := ⟨rfl, fun h => by cases h⟩
theorem twait : Statement (.twait) := ⟨rfl, fun h => by cases h⟩
theorem fenceV : Statement (.fenceV) := ⟨rfl, fun h => by cases h⟩
theorem iterEnd : Statement (.iterEnd) := ⟨rfl, fun h => by cases h⟩
theorem cbClose : Statement (.cbClose) := ⟨rfl, fun h => by cases h⟩
theorem wtEnd : Statement (.wtEnd) := ⟨rfl, fun h => by cases h⟩
theorem preemptDeliveryDone : Statement (.preemptDeliveryDone) := ⟨rfl, fun h => by cases h⟩
theorem roomClaim : Statement (.roomClaim) := ⟨rfl, fun h => by cases h⟩

end Sys2Proof.Laws.LaneShape
end

