-- ==== Sys2Proof/Laws/State.lean ====
section
/-! SUPPORT. What each update of the state and of a room leaves as it was, field by field. -/

namespace Sys2Proof.Machine


/-! ### State.setRoom -/

@[simp] theorem State.setRoom_tick (s : State) (r : Nat) (x : Room) : (s.setRoom r x).tick = s.tick := rfl
@[simp] theorem State.setRoom_boot (s : State) (r : Nat) (x : Room) : (s.setRoom r x).boot = s.boot := rfl
@[simp] theorem State.setRoom_bootStop (s : State) (r : Nat) (x : Room) : (s.setRoom r x).bootStop = s.bootStop := rfl
@[simp] theorem State.setRoom_warm (s : State) (r : Nat) (x : Room) : (s.setRoom r x).warm = s.warm := rfl
@[simp] theorem State.setRoom_outOfService (s : State) (r : Nat) (x : Room) : (s.setRoom r x).outOfService = s.outOfService := rfl
@[simp] theorem State.setRoom_detect (s : State) (r : Nat) (x : Room) : (s.setRoom r x).detect = s.detect := rfl
@[simp] theorem State.setRoom_mappedRooms (s : State) (r : Nat) (x : Room) : (s.setRoom r x).mappedRooms = s.mappedRooms := rfl
@[simp] theorem State.setRoom_mappedStairs (s : State) (r : Nat) (x : Room) : (s.setRoom r x).mappedStairs = s.mappedStairs := rfl
@[simp] theorem State.setRoom_errCount (s : State) (r : Nat) (x : Room) : (s.setRoom r x).errCount = s.errCount := rfl
@[simp] theorem State.setRoom_errSeen (s : State) (r : Nat) (x : Room) : (s.setRoom r x).errSeen = s.errSeen := rfl
@[simp] theorem State.setRoom_pkgNum (s : State) (r : Nat) (x : Room) : (s.setRoom r x).pkgNum = s.pkgNum := rfl
@[simp] theorem State.setRoom_firmware (s : State) (r : Nat) (x : Room) : (s.setRoom r x).firmware = s.firmware := rfl
@[simp] theorem State.setRoom_agenda (s : State) (r : Nat) (x : Room) : (s.setRoom r x).agenda = s.agenda := rfl
@[simp] theorem State.setRoom_phase (s : State) (r : Nat) (x : Room) : (s.setRoom r x).phase = s.phase := rfl
@[simp] theorem State.setRoom_act (s : State) (r : Nat) (x : Room) : (s.setRoom r x).act = s.act := rfl
@[simp] theorem State.setRoom_turn (s : State) (r : Nat) (x : Room) : (s.setRoom r x).turn = s.turn := rfl
@[simp] theorem State.setRoom_fresh (s : State) (r : Nat) (x : Room) : (s.setRoom r x).fresh = s.fresh := rfl
@[simp] theorem State.setRoom_seq (s : State) (r : Nat) (x : Room) : (s.setRoom r x).seq = s.seq := rfl
@[simp] theorem State.setRoom_areas (s : State) (r : Nat) (x : Room) : (s.setRoom r x).areas = s.areas := rfl
@[simp] theorem State.setRoom_ending (s : State) (r : Nat) (x : Room) : (s.setRoom r x).ending = s.ending := rfl
@[simp] theorem State.setRoom_stairs (s : State) (r : Nat) (x : Room) : (s.setRoom r x).stairs = s.stairs := rfl
@[simp] theorem State.setRoom_wings (s : State) (r : Nat) (x : Room) : (s.setRoom r x).wings = s.wings := rfl
@[simp] theorem State.setRoom_mem (s : State) (r : Nat) (x : Room) : (s.setRoom r x).mem = s.mem := rfl
@[simp] theorem State.setRoom_lend (s : State) (r : Nat) (x : Room) : (s.setRoom r x).lend = s.lend := rfl
@[simp] theorem State.setRoom_copies (s : State) (r : Nat) (x : Room) : (s.setRoom r x).copies = s.copies := rfl
@[simp] theorem State.setRoom_poison (s : State) (r : Nat) (x : Room) : (s.setRoom r x).poison = s.poison := rfl
@[simp] theorem State.setRoom_hostHeld (s : State) (r : Nat) (x : Room) : (s.setRoom r x).hostHeld = s.hostHeld := rfl
@[simp] theorem State.setRoom_heldBy (s : State) (r : Nat) (x : Room) : (s.setRoom r x).heldBy = s.heldBy := rfl
@[simp] theorem State.setRoom_birsp (s : State) (r : Nat) (x : Room) : (s.setRoom r x).birsp = s.birsp := rfl
@[simp] theorem State.setRoom_msauQ (s : State) (r : Nat) (x : Room) : (s.setRoom r x).msauQ = s.msauQ := rfl
@[simp] theorem State.setRoom_msauAt (s : State) (r : Nat) (x : Room) : (s.setRoom r x).msauAt = s.msauAt := rfl
@[simp] theorem State.setRoom_barObjs (s : State) (r : Nat) (x : Room) : (s.setRoom r x).barObjs = s.barObjs := rfl
@[simp] theorem State.setRoom_grans (s : State) (r : Nat) (x : Room) : (s.setRoom r x).grans = s.grans := rfl
@[simp] theorem State.setRoom_marks (s : State) (r : Nat) (x : Room) : (s.setRoom r x).marks = s.marks := rfl
@[simp] theorem State.setRoom_waiting (s : State) (r : Nat) (x : Room) : (s.setRoom r x).waiting = s.waiting := rfl
@[simp] theorem State.setRoom_waitAtom (s : State) (r : Nat) (x : Room) : (s.setRoom r x).waitAtom = s.waitAtom := rfl
@[simp] theorem State.setRoom_snoops (s : State) (r : Nat) (x : Room) : (s.setRoom r x).snoops = s.snoops := rfl
@[simp] theorem State.setRoom_barHeld (s : State) (r : Nat) (x : Room) : (s.setRoom r x).barHeld = s.barHeld := rfl
@[simp] theorem State.setRoom_mons (s : State) (r : Nat) (x : Room) : (s.setRoom r x).mons = s.mons := rfl
@[simp] theorem State.setRoom_tlb (s : State) (r : Nat) (x : Room) : (s.setRoom r x).tlb = s.tlb := rfl
@[simp] theorem State.setRoom_heat (s : State) (r : Nat) (x : Room) : (s.setRoom r x).heat = s.heat := rfl
@[simp] theorem State.setRoom_down (s : State) (r : Nat) (x : Room) : (s.setRoom r x).down = s.down := rfl
@[simp] theorem State.setRoom_cohOut (s : State) (r : Nat) (x : Room) : (s.setRoom r x).cohOut = s.cohOut := rfl
@[simp] theorem State.setRoom_misses (s : State) (r : Nat) (x : Room) : (s.setRoom r x).misses = s.misses := rfl
@[simp] theorem State.setRoom_hall (s : State) (r : Nat) (x : Room) : (s.setRoom r x).hall = s.hall := rfl

/-! ### State.modRoom -/

@[simp] theorem State.modRoom_tick (s : State) (r : Nat) (f : Room → Room) : (s.modRoom r f).tick = s.tick := rfl
@[simp] theorem State.modRoom_boot (s : State) (r : Nat) (f : Room → Room) : (s.modRoom r f).boot = s.boot := rfl
@[simp] theorem State.modRoom_bootStop (s : State) (r : Nat) (f : Room → Room) : (s.modRoom r f).bootStop = s.bootStop := rfl
@[simp] theorem State.modRoom_warm (s : State) (r : Nat) (f : Room → Room) : (s.modRoom r f).warm = s.warm := rfl
@[simp] theorem State.modRoom_outOfService (s : State) (r : Nat) (f : Room → Room) : (s.modRoom r f).outOfService = s.outOfService := rfl
@[simp] theorem State.modRoom_detect (s : State) (r : Nat) (f : Room → Room) : (s.modRoom r f).detect = s.detect := rfl
@[simp] theorem State.modRoom_mappedRooms (s : State) (r : Nat) (f : Room → Room) : (s.modRoom r f).mappedRooms = s.mappedRooms := rfl
@[simp] theorem State.modRoom_mappedStairs (s : State) (r : Nat) (f : Room → Room) : (s.modRoom r f).mappedStairs = s.mappedStairs := rfl
@[simp] theorem State.modRoom_errCount (s : State) (r : Nat) (f : Room → Room) : (s.modRoom r f).errCount = s.errCount := rfl
@[simp] theorem State.modRoom_errSeen (s : State) (r : Nat) (f : Room → Room) : (s.modRoom r f).errSeen = s.errSeen := rfl
@[simp] theorem State.modRoom_pkgNum (s : State) (r : Nat) (f : Room → Room) : (s.modRoom r f).pkgNum = s.pkgNum := rfl
@[simp] theorem State.modRoom_firmware (s : State) (r : Nat) (f : Room → Room) : (s.modRoom r f).firmware = s.firmware := rfl
@[simp] theorem State.modRoom_agenda (s : State) (r : Nat) (f : Room → Room) : (s.modRoom r f).agenda = s.agenda := rfl
@[simp] theorem State.modRoom_phase (s : State) (r : Nat) (f : Room → Room) : (s.modRoom r f).phase = s.phase := rfl
@[simp] theorem State.modRoom_act (s : State) (r : Nat) (f : Room → Room) : (s.modRoom r f).act = s.act := rfl
@[simp] theorem State.modRoom_turn (s : State) (r : Nat) (f : Room → Room) : (s.modRoom r f).turn = s.turn := rfl
@[simp] theorem State.modRoom_fresh (s : State) (r : Nat) (f : Room → Room) : (s.modRoom r f).fresh = s.fresh := rfl
@[simp] theorem State.modRoom_seq (s : State) (r : Nat) (f : Room → Room) : (s.modRoom r f).seq = s.seq := rfl
@[simp] theorem State.modRoom_areas (s : State) (r : Nat) (f : Room → Room) : (s.modRoom r f).areas = s.areas := rfl
@[simp] theorem State.modRoom_ending (s : State) (r : Nat) (f : Room → Room) : (s.modRoom r f).ending = s.ending := rfl
@[simp] theorem State.modRoom_stairs (s : State) (r : Nat) (f : Room → Room) : (s.modRoom r f).stairs = s.stairs := rfl
@[simp] theorem State.modRoom_wings (s : State) (r : Nat) (f : Room → Room) : (s.modRoom r f).wings = s.wings := rfl
@[simp] theorem State.modRoom_mem (s : State) (r : Nat) (f : Room → Room) : (s.modRoom r f).mem = s.mem := rfl
@[simp] theorem State.modRoom_lend (s : State) (r : Nat) (f : Room → Room) : (s.modRoom r f).lend = s.lend := rfl
@[simp] theorem State.modRoom_copies (s : State) (r : Nat) (f : Room → Room) : (s.modRoom r f).copies = s.copies := rfl
@[simp] theorem State.modRoom_poison (s : State) (r : Nat) (f : Room → Room) : (s.modRoom r f).poison = s.poison := rfl
@[simp] theorem State.modRoom_hostHeld (s : State) (r : Nat) (f : Room → Room) : (s.modRoom r f).hostHeld = s.hostHeld := rfl
@[simp] theorem State.modRoom_heldBy (s : State) (r : Nat) (f : Room → Room) : (s.modRoom r f).heldBy = s.heldBy := rfl
@[simp] theorem State.modRoom_birsp (s : State) (r : Nat) (f : Room → Room) : (s.modRoom r f).birsp = s.birsp := rfl
@[simp] theorem State.modRoom_msauQ (s : State) (r : Nat) (f : Room → Room) : (s.modRoom r f).msauQ = s.msauQ := rfl
@[simp] theorem State.modRoom_msauAt (s : State) (r : Nat) (f : Room → Room) : (s.modRoom r f).msauAt = s.msauAt := rfl
@[simp] theorem State.modRoom_barObjs (s : State) (r : Nat) (f : Room → Room) : (s.modRoom r f).barObjs = s.barObjs := rfl
@[simp] theorem State.modRoom_grans (s : State) (r : Nat) (f : Room → Room) : (s.modRoom r f).grans = s.grans := rfl
@[simp] theorem State.modRoom_marks (s : State) (r : Nat) (f : Room → Room) : (s.modRoom r f).marks = s.marks := rfl
@[simp] theorem State.modRoom_waiting (s : State) (r : Nat) (f : Room → Room) : (s.modRoom r f).waiting = s.waiting := rfl
@[simp] theorem State.modRoom_waitAtom (s : State) (r : Nat) (f : Room → Room) : (s.modRoom r f).waitAtom = s.waitAtom := rfl
@[simp] theorem State.modRoom_snoops (s : State) (r : Nat) (f : Room → Room) : (s.modRoom r f).snoops = s.snoops := rfl
@[simp] theorem State.modRoom_barHeld (s : State) (r : Nat) (f : Room → Room) : (s.modRoom r f).barHeld = s.barHeld := rfl
@[simp] theorem State.modRoom_mons (s : State) (r : Nat) (f : Room → Room) : (s.modRoom r f).mons = s.mons := rfl
@[simp] theorem State.modRoom_tlb (s : State) (r : Nat) (f : Room → Room) : (s.modRoom r f).tlb = s.tlb := rfl
@[simp] theorem State.modRoom_heat (s : State) (r : Nat) (f : Room → Room) : (s.modRoom r f).heat = s.heat := rfl
@[simp] theorem State.modRoom_down (s : State) (r : Nat) (f : Room → Room) : (s.modRoom r f).down = s.down := rfl
@[simp] theorem State.modRoom_cohOut (s : State) (r : Nat) (f : Room → Room) : (s.modRoom r f).cohOut = s.cohOut := rfl
@[simp] theorem State.modRoom_misses (s : State) (r : Nat) (f : Room → Room) : (s.modRoom r f).misses = s.misses := rfl
@[simp] theorem State.modRoom_hall (s : State) (r : Nat) (f : Room → Room) : (s.modRoom r f).hall = s.hall := rfl

/-! ### State.modMe -/

@[simp] theorem State.modMe_tick (s : State) (f : Room → Room) : (s.modMe f).tick = s.tick := rfl
@[simp] theorem State.modMe_boot (s : State) (f : Room → Room) : (s.modMe f).boot = s.boot := rfl
@[simp] theorem State.modMe_bootStop (s : State) (f : Room → Room) : (s.modMe f).bootStop = s.bootStop := rfl
@[simp] theorem State.modMe_warm (s : State) (f : Room → Room) : (s.modMe f).warm = s.warm := rfl
@[simp] theorem State.modMe_outOfService (s : State) (f : Room → Room) : (s.modMe f).outOfService = s.outOfService := rfl
@[simp] theorem State.modMe_detect (s : State) (f : Room → Room) : (s.modMe f).detect = s.detect := rfl
@[simp] theorem State.modMe_mappedRooms (s : State) (f : Room → Room) : (s.modMe f).mappedRooms = s.mappedRooms := rfl
@[simp] theorem State.modMe_mappedStairs (s : State) (f : Room → Room) : (s.modMe f).mappedStairs = s.mappedStairs := rfl
@[simp] theorem State.modMe_errCount (s : State) (f : Room → Room) : (s.modMe f).errCount = s.errCount := rfl
@[simp] theorem State.modMe_errSeen (s : State) (f : Room → Room) : (s.modMe f).errSeen = s.errSeen := rfl
@[simp] theorem State.modMe_pkgNum (s : State) (f : Room → Room) : (s.modMe f).pkgNum = s.pkgNum := rfl
@[simp] theorem State.modMe_firmware (s : State) (f : Room → Room) : (s.modMe f).firmware = s.firmware := rfl
@[simp] theorem State.modMe_agenda (s : State) (f : Room → Room) : (s.modMe f).agenda = s.agenda := rfl
@[simp] theorem State.modMe_phase (s : State) (f : Room → Room) : (s.modMe f).phase = s.phase := rfl
@[simp] theorem State.modMe_act (s : State) (f : Room → Room) : (s.modMe f).act = s.act := rfl
@[simp] theorem State.modMe_turn (s : State) (f : Room → Room) : (s.modMe f).turn = s.turn := rfl
@[simp] theorem State.modMe_fresh (s : State) (f : Room → Room) : (s.modMe f).fresh = s.fresh := rfl
@[simp] theorem State.modMe_seq (s : State) (f : Room → Room) : (s.modMe f).seq = s.seq := rfl
@[simp] theorem State.modMe_areas (s : State) (f : Room → Room) : (s.modMe f).areas = s.areas := rfl
@[simp] theorem State.modMe_ending (s : State) (f : Room → Room) : (s.modMe f).ending = s.ending := rfl
@[simp] theorem State.modMe_stairs (s : State) (f : Room → Room) : (s.modMe f).stairs = s.stairs := rfl
@[simp] theorem State.modMe_wings (s : State) (f : Room → Room) : (s.modMe f).wings = s.wings := rfl
@[simp] theorem State.modMe_mem (s : State) (f : Room → Room) : (s.modMe f).mem = s.mem := rfl
@[simp] theorem State.modMe_lend (s : State) (f : Room → Room) : (s.modMe f).lend = s.lend := rfl
@[simp] theorem State.modMe_copies (s : State) (f : Room → Room) : (s.modMe f).copies = s.copies := rfl
@[simp] theorem State.modMe_poison (s : State) (f : Room → Room) : (s.modMe f).poison = s.poison := rfl
@[simp] theorem State.modMe_hostHeld (s : State) (f : Room → Room) : (s.modMe f).hostHeld = s.hostHeld := rfl
@[simp] theorem State.modMe_heldBy (s : State) (f : Room → Room) : (s.modMe f).heldBy = s.heldBy := rfl
@[simp] theorem State.modMe_birsp (s : State) (f : Room → Room) : (s.modMe f).birsp = s.birsp := rfl
@[simp] theorem State.modMe_msauQ (s : State) (f : Room → Room) : (s.modMe f).msauQ = s.msauQ := rfl
@[simp] theorem State.modMe_msauAt (s : State) (f : Room → Room) : (s.modMe f).msauAt = s.msauAt := rfl
@[simp] theorem State.modMe_barObjs (s : State) (f : Room → Room) : (s.modMe f).barObjs = s.barObjs := rfl
@[simp] theorem State.modMe_grans (s : State) (f : Room → Room) : (s.modMe f).grans = s.grans := rfl
@[simp] theorem State.modMe_marks (s : State) (f : Room → Room) : (s.modMe f).marks = s.marks := rfl
@[simp] theorem State.modMe_waiting (s : State) (f : Room → Room) : (s.modMe f).waiting = s.waiting := rfl
@[simp] theorem State.modMe_waitAtom (s : State) (f : Room → Room) : (s.modMe f).waitAtom = s.waitAtom := rfl
@[simp] theorem State.modMe_snoops (s : State) (f : Room → Room) : (s.modMe f).snoops = s.snoops := rfl
@[simp] theorem State.modMe_barHeld (s : State) (f : Room → Room) : (s.modMe f).barHeld = s.barHeld := rfl
@[simp] theorem State.modMe_mons (s : State) (f : Room → Room) : (s.modMe f).mons = s.mons := rfl
@[simp] theorem State.modMe_tlb (s : State) (f : Room → Room) : (s.modMe f).tlb = s.tlb := rfl
@[simp] theorem State.modMe_heat (s : State) (f : Room → Room) : (s.modMe f).heat = s.heat := rfl
@[simp] theorem State.modMe_down (s : State) (f : Room → Room) : (s.modMe f).down = s.down := rfl
@[simp] theorem State.modMe_cohOut (s : State) (f : Room → Room) : (s.modMe f).cohOut = s.cohOut := rfl
@[simp] theorem State.modMe_misses (s : State) (f : Room → Room) : (s.modMe f).misses = s.misses := rfl
@[simp] theorem State.modMe_hall (s : State) (f : Room → Room) : (s.modMe f).hall = s.hall := rfl

/-! ### State.setStair -/

@[simp] theorem State.setStair_tick (s : State) (i : Nat) (x : Stair) : (s.setStair i x).tick = s.tick := rfl
@[simp] theorem State.setStair_boot (s : State) (i : Nat) (x : Stair) : (s.setStair i x).boot = s.boot := rfl
@[simp] theorem State.setStair_bootStop (s : State) (i : Nat) (x : Stair) : (s.setStair i x).bootStop = s.bootStop := rfl
@[simp] theorem State.setStair_warm (s : State) (i : Nat) (x : Stair) : (s.setStair i x).warm = s.warm := rfl
@[simp] theorem State.setStair_outOfService (s : State) (i : Nat) (x : Stair) : (s.setStair i x).outOfService = s.outOfService := rfl
@[simp] theorem State.setStair_detect (s : State) (i : Nat) (x : Stair) : (s.setStair i x).detect = s.detect := rfl
@[simp] theorem State.setStair_mappedRooms (s : State) (i : Nat) (x : Stair) : (s.setStair i x).mappedRooms = s.mappedRooms := rfl
@[simp] theorem State.setStair_mappedStairs (s : State) (i : Nat) (x : Stair) : (s.setStair i x).mappedStairs = s.mappedStairs := rfl
@[simp] theorem State.setStair_errCount (s : State) (i : Nat) (x : Stair) : (s.setStair i x).errCount = s.errCount := rfl
@[simp] theorem State.setStair_errSeen (s : State) (i : Nat) (x : Stair) : (s.setStair i x).errSeen = s.errSeen := rfl
@[simp] theorem State.setStair_pkgNum (s : State) (i : Nat) (x : Stair) : (s.setStair i x).pkgNum = s.pkgNum := rfl
@[simp] theorem State.setStair_firmware (s : State) (i : Nat) (x : Stair) : (s.setStair i x).firmware = s.firmware := rfl
@[simp] theorem State.setStair_agenda (s : State) (i : Nat) (x : Stair) : (s.setStair i x).agenda = s.agenda := rfl
@[simp] theorem State.setStair_phase (s : State) (i : Nat) (x : Stair) : (s.setStair i x).phase = s.phase := rfl
@[simp] theorem State.setStair_act (s : State) (i : Nat) (x : Stair) : (s.setStair i x).act = s.act := rfl
@[simp] theorem State.setStair_turn (s : State) (i : Nat) (x : Stair) : (s.setStair i x).turn = s.turn := rfl
@[simp] theorem State.setStair_fresh (s : State) (i : Nat) (x : Stair) : (s.setStair i x).fresh = s.fresh := rfl
@[simp] theorem State.setStair_seq (s : State) (i : Nat) (x : Stair) : (s.setStair i x).seq = s.seq := rfl
@[simp] theorem State.setStair_areas (s : State) (i : Nat) (x : Stair) : (s.setStair i x).areas = s.areas := rfl
@[simp] theorem State.setStair_ending (s : State) (i : Nat) (x : Stair) : (s.setStair i x).ending = s.ending := rfl
@[simp] theorem State.setStair_rooms (s : State) (i : Nat) (x : Stair) : (s.setStair i x).rooms = s.rooms := rfl
@[simp] theorem State.setStair_wings (s : State) (i : Nat) (x : Stair) : (s.setStair i x).wings = s.wings := rfl
@[simp] theorem State.setStair_mem (s : State) (i : Nat) (x : Stair) : (s.setStair i x).mem = s.mem := rfl
@[simp] theorem State.setStair_lend (s : State) (i : Nat) (x : Stair) : (s.setStair i x).lend = s.lend := rfl
@[simp] theorem State.setStair_copies (s : State) (i : Nat) (x : Stair) : (s.setStair i x).copies = s.copies := rfl
@[simp] theorem State.setStair_poison (s : State) (i : Nat) (x : Stair) : (s.setStair i x).poison = s.poison := rfl
@[simp] theorem State.setStair_hostHeld (s : State) (i : Nat) (x : Stair) : (s.setStair i x).hostHeld = s.hostHeld := rfl
@[simp] theorem State.setStair_heldBy (s : State) (i : Nat) (x : Stair) : (s.setStair i x).heldBy = s.heldBy := rfl
@[simp] theorem State.setStair_birsp (s : State) (i : Nat) (x : Stair) : (s.setStair i x).birsp = s.birsp := rfl
@[simp] theorem State.setStair_msauQ (s : State) (i : Nat) (x : Stair) : (s.setStair i x).msauQ = s.msauQ := rfl
@[simp] theorem State.setStair_msauAt (s : State) (i : Nat) (x : Stair) : (s.setStair i x).msauAt = s.msauAt := rfl
@[simp] theorem State.setStair_barObjs (s : State) (i : Nat) (x : Stair) : (s.setStair i x).barObjs = s.barObjs := rfl
@[simp] theorem State.setStair_grans (s : State) (i : Nat) (x : Stair) : (s.setStair i x).grans = s.grans := rfl
@[simp] theorem State.setStair_marks (s : State) (i : Nat) (x : Stair) : (s.setStair i x).marks = s.marks := rfl
@[simp] theorem State.setStair_waiting (s : State) (i : Nat) (x : Stair) : (s.setStair i x).waiting = s.waiting := rfl
@[simp] theorem State.setStair_waitAtom (s : State) (i : Nat) (x : Stair) : (s.setStair i x).waitAtom = s.waitAtom := rfl
@[simp] theorem State.setStair_snoops (s : State) (i : Nat) (x : Stair) : (s.setStair i x).snoops = s.snoops := rfl
@[simp] theorem State.setStair_barHeld (s : State) (i : Nat) (x : Stair) : (s.setStair i x).barHeld = s.barHeld := rfl
@[simp] theorem State.setStair_mons (s : State) (i : Nat) (x : Stair) : (s.setStair i x).mons = s.mons := rfl
@[simp] theorem State.setStair_tlb (s : State) (i : Nat) (x : Stair) : (s.setStair i x).tlb = s.tlb := rfl
@[simp] theorem State.setStair_heat (s : State) (i : Nat) (x : Stair) : (s.setStair i x).heat = s.heat := rfl
@[simp] theorem State.setStair_down (s : State) (i : Nat) (x : Stair) : (s.setStair i x).down = s.down := rfl
@[simp] theorem State.setStair_cohOut (s : State) (i : Nat) (x : Stair) : (s.setStair i x).cohOut = s.cohOut := rfl
@[simp] theorem State.setStair_misses (s : State) (i : Nat) (x : Stair) : (s.setStair i x).misses = s.misses := rfl
@[simp] theorem State.setStair_hall (s : State) (i : Nat) (x : Stair) : (s.setStair i x).hall = s.hall := rfl

/-! ### State.modStair -/

@[simp] theorem State.modStair_tick (s : State) (i : Nat) (f : Stair → Stair) : (s.modStair i f).tick = s.tick := rfl
@[simp] theorem State.modStair_boot (s : State) (i : Nat) (f : Stair → Stair) : (s.modStair i f).boot = s.boot := rfl
@[simp] theorem State.modStair_bootStop (s : State) (i : Nat) (f : Stair → Stair) : (s.modStair i f).bootStop = s.bootStop := rfl
@[simp] theorem State.modStair_warm (s : State) (i : Nat) (f : Stair → Stair) : (s.modStair i f).warm = s.warm := rfl
@[simp] theorem State.modStair_outOfService (s : State) (i : Nat) (f : Stair → Stair) : (s.modStair i f).outOfService = s.outOfService := rfl
@[simp] theorem State.modStair_detect (s : State) (i : Nat) (f : Stair → Stair) : (s.modStair i f).detect = s.detect := rfl
@[simp] theorem State.modStair_mappedRooms (s : State) (i : Nat) (f : Stair → Stair) : (s.modStair i f).mappedRooms = s.mappedRooms := rfl
@[simp] theorem State.modStair_mappedStairs (s : State) (i : Nat) (f : Stair → Stair) : (s.modStair i f).mappedStairs = s.mappedStairs := rfl
@[simp] theorem State.modStair_errCount (s : State) (i : Nat) (f : Stair → Stair) : (s.modStair i f).errCount = s.errCount := rfl
@[simp] theorem State.modStair_errSeen (s : State) (i : Nat) (f : Stair → Stair) : (s.modStair i f).errSeen = s.errSeen := rfl
@[simp] theorem State.modStair_pkgNum (s : State) (i : Nat) (f : Stair → Stair) : (s.modStair i f).pkgNum = s.pkgNum := rfl
@[simp] theorem State.modStair_firmware (s : State) (i : Nat) (f : Stair → Stair) : (s.modStair i f).firmware = s.firmware := rfl
@[simp] theorem State.modStair_agenda (s : State) (i : Nat) (f : Stair → Stair) : (s.modStair i f).agenda = s.agenda := rfl
@[simp] theorem State.modStair_phase (s : State) (i : Nat) (f : Stair → Stair) : (s.modStair i f).phase = s.phase := rfl
@[simp] theorem State.modStair_act (s : State) (i : Nat) (f : Stair → Stair) : (s.modStair i f).act = s.act := rfl
@[simp] theorem State.modStair_turn (s : State) (i : Nat) (f : Stair → Stair) : (s.modStair i f).turn = s.turn := rfl
@[simp] theorem State.modStair_fresh (s : State) (i : Nat) (f : Stair → Stair) : (s.modStair i f).fresh = s.fresh := rfl
@[simp] theorem State.modStair_seq (s : State) (i : Nat) (f : Stair → Stair) : (s.modStair i f).seq = s.seq := rfl
@[simp] theorem State.modStair_areas (s : State) (i : Nat) (f : Stair → Stair) : (s.modStair i f).areas = s.areas := rfl
@[simp] theorem State.modStair_ending (s : State) (i : Nat) (f : Stair → Stair) : (s.modStair i f).ending = s.ending := rfl
@[simp] theorem State.modStair_rooms (s : State) (i : Nat) (f : Stair → Stair) : (s.modStair i f).rooms = s.rooms := rfl
@[simp] theorem State.modStair_wings (s : State) (i : Nat) (f : Stair → Stair) : (s.modStair i f).wings = s.wings := rfl
@[simp] theorem State.modStair_mem (s : State) (i : Nat) (f : Stair → Stair) : (s.modStair i f).mem = s.mem := rfl
@[simp] theorem State.modStair_lend (s : State) (i : Nat) (f : Stair → Stair) : (s.modStair i f).lend = s.lend := rfl
@[simp] theorem State.modStair_copies (s : State) (i : Nat) (f : Stair → Stair) : (s.modStair i f).copies = s.copies := rfl
@[simp] theorem State.modStair_poison (s : State) (i : Nat) (f : Stair → Stair) : (s.modStair i f).poison = s.poison := rfl
@[simp] theorem State.modStair_hostHeld (s : State) (i : Nat) (f : Stair → Stair) : (s.modStair i f).hostHeld = s.hostHeld := rfl
@[simp] theorem State.modStair_heldBy (s : State) (i : Nat) (f : Stair → Stair) : (s.modStair i f).heldBy = s.heldBy := rfl
@[simp] theorem State.modStair_birsp (s : State) (i : Nat) (f : Stair → Stair) : (s.modStair i f).birsp = s.birsp := rfl
@[simp] theorem State.modStair_msauQ (s : State) (i : Nat) (f : Stair → Stair) : (s.modStair i f).msauQ = s.msauQ := rfl
@[simp] theorem State.modStair_msauAt (s : State) (i : Nat) (f : Stair → Stair) : (s.modStair i f).msauAt = s.msauAt := rfl
@[simp] theorem State.modStair_barObjs (s : State) (i : Nat) (f : Stair → Stair) : (s.modStair i f).barObjs = s.barObjs := rfl
@[simp] theorem State.modStair_grans (s : State) (i : Nat) (f : Stair → Stair) : (s.modStair i f).grans = s.grans := rfl
@[simp] theorem State.modStair_marks (s : State) (i : Nat) (f : Stair → Stair) : (s.modStair i f).marks = s.marks := rfl
@[simp] theorem State.modStair_waiting (s : State) (i : Nat) (f : Stair → Stair) : (s.modStair i f).waiting = s.waiting := rfl
@[simp] theorem State.modStair_waitAtom (s : State) (i : Nat) (f : Stair → Stair) : (s.modStair i f).waitAtom = s.waitAtom := rfl
@[simp] theorem State.modStair_snoops (s : State) (i : Nat) (f : Stair → Stair) : (s.modStair i f).snoops = s.snoops := rfl
@[simp] theorem State.modStair_barHeld (s : State) (i : Nat) (f : Stair → Stair) : (s.modStair i f).barHeld = s.barHeld := rfl
@[simp] theorem State.modStair_mons (s : State) (i : Nat) (f : Stair → Stair) : (s.modStair i f).mons = s.mons := rfl
@[simp] theorem State.modStair_tlb (s : State) (i : Nat) (f : Stair → Stair) : (s.modStair i f).tlb = s.tlb := rfl
@[simp] theorem State.modStair_heat (s : State) (i : Nat) (f : Stair → Stair) : (s.modStair i f).heat = s.heat := rfl
@[simp] theorem State.modStair_down (s : State) (i : Nat) (f : Stair → Stair) : (s.modStair i f).down = s.down := rfl
@[simp] theorem State.modStair_cohOut (s : State) (i : Nat) (f : Stair → Stair) : (s.modStair i f).cohOut = s.cohOut := rfl
@[simp] theorem State.modStair_misses (s : State) (i : Nat) (f : Stair → Stair) : (s.modStair i f).misses = s.misses := rfl
@[simp] theorem State.modStair_hall (s : State) (i : Nat) (f : Stair → Stair) : (s.modStair i f).hall = s.hall := rfl

/-! ### State.setWing -/

@[simp] theorem State.setWing_tick (s : State) (w : Nat) (x : Wing) : (s.setWing w x).tick = s.tick := rfl
@[simp] theorem State.setWing_boot (s : State) (w : Nat) (x : Wing) : (s.setWing w x).boot = s.boot := rfl
@[simp] theorem State.setWing_bootStop (s : State) (w : Nat) (x : Wing) : (s.setWing w x).bootStop = s.bootStop := rfl
@[simp] theorem State.setWing_warm (s : State) (w : Nat) (x : Wing) : (s.setWing w x).warm = s.warm := rfl
@[simp] theorem State.setWing_outOfService (s : State) (w : Nat) (x : Wing) : (s.setWing w x).outOfService = s.outOfService := rfl
@[simp] theorem State.setWing_detect (s : State) (w : Nat) (x : Wing) : (s.setWing w x).detect = s.detect := rfl
@[simp] theorem State.setWing_mappedRooms (s : State) (w : Nat) (x : Wing) : (s.setWing w x).mappedRooms = s.mappedRooms := rfl
@[simp] theorem State.setWing_mappedStairs (s : State) (w : Nat) (x : Wing) : (s.setWing w x).mappedStairs = s.mappedStairs := rfl
@[simp] theorem State.setWing_errCount (s : State) (w : Nat) (x : Wing) : (s.setWing w x).errCount = s.errCount := rfl
@[simp] theorem State.setWing_errSeen (s : State) (w : Nat) (x : Wing) : (s.setWing w x).errSeen = s.errSeen := rfl
@[simp] theorem State.setWing_pkgNum (s : State) (w : Nat) (x : Wing) : (s.setWing w x).pkgNum = s.pkgNum := rfl
@[simp] theorem State.setWing_firmware (s : State) (w : Nat) (x : Wing) : (s.setWing w x).firmware = s.firmware := rfl
@[simp] theorem State.setWing_agenda (s : State) (w : Nat) (x : Wing) : (s.setWing w x).agenda = s.agenda := rfl
@[simp] theorem State.setWing_phase (s : State) (w : Nat) (x : Wing) : (s.setWing w x).phase = s.phase := rfl
@[simp] theorem State.setWing_act (s : State) (w : Nat) (x : Wing) : (s.setWing w x).act = s.act := rfl
@[simp] theorem State.setWing_turn (s : State) (w : Nat) (x : Wing) : (s.setWing w x).turn = s.turn := rfl
@[simp] theorem State.setWing_fresh (s : State) (w : Nat) (x : Wing) : (s.setWing w x).fresh = s.fresh := rfl
@[simp] theorem State.setWing_seq (s : State) (w : Nat) (x : Wing) : (s.setWing w x).seq = s.seq := rfl
@[simp] theorem State.setWing_areas (s : State) (w : Nat) (x : Wing) : (s.setWing w x).areas = s.areas := rfl
@[simp] theorem State.setWing_ending (s : State) (w : Nat) (x : Wing) : (s.setWing w x).ending = s.ending := rfl
@[simp] theorem State.setWing_rooms (s : State) (w : Nat) (x : Wing) : (s.setWing w x).rooms = s.rooms := rfl
@[simp] theorem State.setWing_stairs (s : State) (w : Nat) (x : Wing) : (s.setWing w x).stairs = s.stairs := rfl
@[simp] theorem State.setWing_mem (s : State) (w : Nat) (x : Wing) : (s.setWing w x).mem = s.mem := rfl
@[simp] theorem State.setWing_lend (s : State) (w : Nat) (x : Wing) : (s.setWing w x).lend = s.lend := rfl
@[simp] theorem State.setWing_copies (s : State) (w : Nat) (x : Wing) : (s.setWing w x).copies = s.copies := rfl
@[simp] theorem State.setWing_poison (s : State) (w : Nat) (x : Wing) : (s.setWing w x).poison = s.poison := rfl
@[simp] theorem State.setWing_hostHeld (s : State) (w : Nat) (x : Wing) : (s.setWing w x).hostHeld = s.hostHeld := rfl
@[simp] theorem State.setWing_heldBy (s : State) (w : Nat) (x : Wing) : (s.setWing w x).heldBy = s.heldBy := rfl
@[simp] theorem State.setWing_birsp (s : State) (w : Nat) (x : Wing) : (s.setWing w x).birsp = s.birsp := rfl
@[simp] theorem State.setWing_msauQ (s : State) (w : Nat) (x : Wing) : (s.setWing w x).msauQ = s.msauQ := rfl
@[simp] theorem State.setWing_msauAt (s : State) (w : Nat) (x : Wing) : (s.setWing w x).msauAt = s.msauAt := rfl
@[simp] theorem State.setWing_barObjs (s : State) (w : Nat) (x : Wing) : (s.setWing w x).barObjs = s.barObjs := rfl
@[simp] theorem State.setWing_grans (s : State) (w : Nat) (x : Wing) : (s.setWing w x).grans = s.grans := rfl
@[simp] theorem State.setWing_marks (s : State) (w : Nat) (x : Wing) : (s.setWing w x).marks = s.marks := rfl
@[simp] theorem State.setWing_waiting (s : State) (w : Nat) (x : Wing) : (s.setWing w x).waiting = s.waiting := rfl
@[simp] theorem State.setWing_waitAtom (s : State) (w : Nat) (x : Wing) : (s.setWing w x).waitAtom = s.waitAtom := rfl
@[simp] theorem State.setWing_snoops (s : State) (w : Nat) (x : Wing) : (s.setWing w x).snoops = s.snoops := rfl
@[simp] theorem State.setWing_barHeld (s : State) (w : Nat) (x : Wing) : (s.setWing w x).barHeld = s.barHeld := rfl
@[simp] theorem State.setWing_mons (s : State) (w : Nat) (x : Wing) : (s.setWing w x).mons = s.mons := rfl
@[simp] theorem State.setWing_tlb (s : State) (w : Nat) (x : Wing) : (s.setWing w x).tlb = s.tlb := rfl
@[simp] theorem State.setWing_heat (s : State) (w : Nat) (x : Wing) : (s.setWing w x).heat = s.heat := rfl
@[simp] theorem State.setWing_down (s : State) (w : Nat) (x : Wing) : (s.setWing w x).down = s.down := rfl
@[simp] theorem State.setWing_cohOut (s : State) (w : Nat) (x : Wing) : (s.setWing w x).cohOut = s.cohOut := rfl
@[simp] theorem State.setWing_misses (s : State) (w : Nat) (x : Wing) : (s.setWing w x).misses = s.misses := rfl
@[simp] theorem State.setWing_hall (s : State) (w : Nat) (x : Wing) : (s.setWing w x).hall = s.hall := rfl

/-! ### State.modWing -/

@[simp] theorem State.modWing_tick (s : State) (w : Nat) (f : Wing → Wing) : (s.modWing w f).tick = s.tick := rfl
@[simp] theorem State.modWing_boot (s : State) (w : Nat) (f : Wing → Wing) : (s.modWing w f).boot = s.boot := rfl
@[simp] theorem State.modWing_bootStop (s : State) (w : Nat) (f : Wing → Wing) : (s.modWing w f).bootStop = s.bootStop := rfl
@[simp] theorem State.modWing_warm (s : State) (w : Nat) (f : Wing → Wing) : (s.modWing w f).warm = s.warm := rfl
@[simp] theorem State.modWing_outOfService (s : State) (w : Nat) (f : Wing → Wing) : (s.modWing w f).outOfService = s.outOfService := rfl
@[simp] theorem State.modWing_detect (s : State) (w : Nat) (f : Wing → Wing) : (s.modWing w f).detect = s.detect := rfl
@[simp] theorem State.modWing_mappedRooms (s : State) (w : Nat) (f : Wing → Wing) : (s.modWing w f).mappedRooms = s.mappedRooms := rfl
@[simp] theorem State.modWing_mappedStairs (s : State) (w : Nat) (f : Wing → Wing) : (s.modWing w f).mappedStairs = s.mappedStairs := rfl
@[simp] theorem State.modWing_errCount (s : State) (w : Nat) (f : Wing → Wing) : (s.modWing w f).errCount = s.errCount := rfl
@[simp] theorem State.modWing_errSeen (s : State) (w : Nat) (f : Wing → Wing) : (s.modWing w f).errSeen = s.errSeen := rfl
@[simp] theorem State.modWing_pkgNum (s : State) (w : Nat) (f : Wing → Wing) : (s.modWing w f).pkgNum = s.pkgNum := rfl
@[simp] theorem State.modWing_firmware (s : State) (w : Nat) (f : Wing → Wing) : (s.modWing w f).firmware = s.firmware := rfl
@[simp] theorem State.modWing_agenda (s : State) (w : Nat) (f : Wing → Wing) : (s.modWing w f).agenda = s.agenda := rfl
@[simp] theorem State.modWing_phase (s : State) (w : Nat) (f : Wing → Wing) : (s.modWing w f).phase = s.phase := rfl
@[simp] theorem State.modWing_act (s : State) (w : Nat) (f : Wing → Wing) : (s.modWing w f).act = s.act := rfl
@[simp] theorem State.modWing_turn (s : State) (w : Nat) (f : Wing → Wing) : (s.modWing w f).turn = s.turn := rfl
@[simp] theorem State.modWing_fresh (s : State) (w : Nat) (f : Wing → Wing) : (s.modWing w f).fresh = s.fresh := rfl
@[simp] theorem State.modWing_seq (s : State) (w : Nat) (f : Wing → Wing) : (s.modWing w f).seq = s.seq := rfl
@[simp] theorem State.modWing_areas (s : State) (w : Nat) (f : Wing → Wing) : (s.modWing w f).areas = s.areas := rfl
@[simp] theorem State.modWing_ending (s : State) (w : Nat) (f : Wing → Wing) : (s.modWing w f).ending = s.ending := rfl
@[simp] theorem State.modWing_rooms (s : State) (w : Nat) (f : Wing → Wing) : (s.modWing w f).rooms = s.rooms := rfl
@[simp] theorem State.modWing_stairs (s : State) (w : Nat) (f : Wing → Wing) : (s.modWing w f).stairs = s.stairs := rfl
@[simp] theorem State.modWing_mem (s : State) (w : Nat) (f : Wing → Wing) : (s.modWing w f).mem = s.mem := rfl
@[simp] theorem State.modWing_lend (s : State) (w : Nat) (f : Wing → Wing) : (s.modWing w f).lend = s.lend := rfl
@[simp] theorem State.modWing_copies (s : State) (w : Nat) (f : Wing → Wing) : (s.modWing w f).copies = s.copies := rfl
@[simp] theorem State.modWing_poison (s : State) (w : Nat) (f : Wing → Wing) : (s.modWing w f).poison = s.poison := rfl
@[simp] theorem State.modWing_hostHeld (s : State) (w : Nat) (f : Wing → Wing) : (s.modWing w f).hostHeld = s.hostHeld := rfl
@[simp] theorem State.modWing_heldBy (s : State) (w : Nat) (f : Wing → Wing) : (s.modWing w f).heldBy = s.heldBy := rfl
@[simp] theorem State.modWing_birsp (s : State) (w : Nat) (f : Wing → Wing) : (s.modWing w f).birsp = s.birsp := rfl
@[simp] theorem State.modWing_msauQ (s : State) (w : Nat) (f : Wing → Wing) : (s.modWing w f).msauQ = s.msauQ := rfl
@[simp] theorem State.modWing_msauAt (s : State) (w : Nat) (f : Wing → Wing) : (s.modWing w f).msauAt = s.msauAt := rfl
@[simp] theorem State.modWing_barObjs (s : State) (w : Nat) (f : Wing → Wing) : (s.modWing w f).barObjs = s.barObjs := rfl
@[simp] theorem State.modWing_grans (s : State) (w : Nat) (f : Wing → Wing) : (s.modWing w f).grans = s.grans := rfl
@[simp] theorem State.modWing_marks (s : State) (w : Nat) (f : Wing → Wing) : (s.modWing w f).marks = s.marks := rfl
@[simp] theorem State.modWing_waiting (s : State) (w : Nat) (f : Wing → Wing) : (s.modWing w f).waiting = s.waiting := rfl
@[simp] theorem State.modWing_waitAtom (s : State) (w : Nat) (f : Wing → Wing) : (s.modWing w f).waitAtom = s.waitAtom := rfl
@[simp] theorem State.modWing_snoops (s : State) (w : Nat) (f : Wing → Wing) : (s.modWing w f).snoops = s.snoops := rfl
@[simp] theorem State.modWing_barHeld (s : State) (w : Nat) (f : Wing → Wing) : (s.modWing w f).barHeld = s.barHeld := rfl
@[simp] theorem State.modWing_mons (s : State) (w : Nat) (f : Wing → Wing) : (s.modWing w f).mons = s.mons := rfl
@[simp] theorem State.modWing_tlb (s : State) (w : Nat) (f : Wing → Wing) : (s.modWing w f).tlb = s.tlb := rfl
@[simp] theorem State.modWing_heat (s : State) (w : Nat) (f : Wing → Wing) : (s.modWing w f).heat = s.heat := rfl
@[simp] theorem State.modWing_down (s : State) (w : Nat) (f : Wing → Wing) : (s.modWing w f).down = s.down := rfl
@[simp] theorem State.modWing_cohOut (s : State) (w : Nat) (f : Wing → Wing) : (s.modWing w f).cohOut = s.cohOut := rfl
@[simp] theorem State.modWing_misses (s : State) (w : Nat) (f : Wing → Wing) : (s.modWing w f).misses = s.misses := rfl
@[simp] theorem State.modWing_hall (s : State) (w : Nat) (f : Wing → Wing) : (s.modWing w f).hall = s.hall := rfl

/-! ### State.modHall -/

@[simp] theorem State.modHall_tick (s : State) (f : Hall → Hall) : (s.modHall f).tick = s.tick := rfl
@[simp] theorem State.modHall_boot (s : State) (f : Hall → Hall) : (s.modHall f).boot = s.boot := rfl
@[simp] theorem State.modHall_bootStop (s : State) (f : Hall → Hall) : (s.modHall f).bootStop = s.bootStop := rfl
@[simp] theorem State.modHall_warm (s : State) (f : Hall → Hall) : (s.modHall f).warm = s.warm := rfl
@[simp] theorem State.modHall_outOfService (s : State) (f : Hall → Hall) : (s.modHall f).outOfService = s.outOfService := rfl
@[simp] theorem State.modHall_detect (s : State) (f : Hall → Hall) : (s.modHall f).detect = s.detect := rfl
@[simp] theorem State.modHall_mappedRooms (s : State) (f : Hall → Hall) : (s.modHall f).mappedRooms = s.mappedRooms := rfl
@[simp] theorem State.modHall_mappedStairs (s : State) (f : Hall → Hall) : (s.modHall f).mappedStairs = s.mappedStairs := rfl
@[simp] theorem State.modHall_errCount (s : State) (f : Hall → Hall) : (s.modHall f).errCount = s.errCount := rfl
@[simp] theorem State.modHall_errSeen (s : State) (f : Hall → Hall) : (s.modHall f).errSeen = s.errSeen := rfl
@[simp] theorem State.modHall_pkgNum (s : State) (f : Hall → Hall) : (s.modHall f).pkgNum = s.pkgNum := rfl
@[simp] theorem State.modHall_firmware (s : State) (f : Hall → Hall) : (s.modHall f).firmware = s.firmware := rfl
@[simp] theorem State.modHall_agenda (s : State) (f : Hall → Hall) : (s.modHall f).agenda = s.agenda := rfl
@[simp] theorem State.modHall_phase (s : State) (f : Hall → Hall) : (s.modHall f).phase = s.phase := rfl
@[simp] theorem State.modHall_act (s : State) (f : Hall → Hall) : (s.modHall f).act = s.act := rfl
@[simp] theorem State.modHall_turn (s : State) (f : Hall → Hall) : (s.modHall f).turn = s.turn := rfl
@[simp] theorem State.modHall_fresh (s : State) (f : Hall → Hall) : (s.modHall f).fresh = s.fresh := rfl
@[simp] theorem State.modHall_seq (s : State) (f : Hall → Hall) : (s.modHall f).seq = s.seq := rfl
@[simp] theorem State.modHall_areas (s : State) (f : Hall → Hall) : (s.modHall f).areas = s.areas := rfl
@[simp] theorem State.modHall_ending (s : State) (f : Hall → Hall) : (s.modHall f).ending = s.ending := rfl
@[simp] theorem State.modHall_rooms (s : State) (f : Hall → Hall) : (s.modHall f).rooms = s.rooms := rfl
@[simp] theorem State.modHall_stairs (s : State) (f : Hall → Hall) : (s.modHall f).stairs = s.stairs := rfl
@[simp] theorem State.modHall_wings (s : State) (f : Hall → Hall) : (s.modHall f).wings = s.wings := rfl
@[simp] theorem State.modHall_mem (s : State) (f : Hall → Hall) : (s.modHall f).mem = s.mem := rfl
@[simp] theorem State.modHall_lend (s : State) (f : Hall → Hall) : (s.modHall f).lend = s.lend := rfl
@[simp] theorem State.modHall_copies (s : State) (f : Hall → Hall) : (s.modHall f).copies = s.copies := rfl
@[simp] theorem State.modHall_poison (s : State) (f : Hall → Hall) : (s.modHall f).poison = s.poison := rfl
@[simp] theorem State.modHall_hostHeld (s : State) (f : Hall → Hall) : (s.modHall f).hostHeld = s.hostHeld := rfl
@[simp] theorem State.modHall_heldBy (s : State) (f : Hall → Hall) : (s.modHall f).heldBy = s.heldBy := rfl
@[simp] theorem State.modHall_birsp (s : State) (f : Hall → Hall) : (s.modHall f).birsp = s.birsp := rfl
@[simp] theorem State.modHall_msauQ (s : State) (f : Hall → Hall) : (s.modHall f).msauQ = s.msauQ := rfl
@[simp] theorem State.modHall_msauAt (s : State) (f : Hall → Hall) : (s.modHall f).msauAt = s.msauAt := rfl
@[simp] theorem State.modHall_barObjs (s : State) (f : Hall → Hall) : (s.modHall f).barObjs = s.barObjs := rfl
@[simp] theorem State.modHall_grans (s : State) (f : Hall → Hall) : (s.modHall f).grans = s.grans := rfl
@[simp] theorem State.modHall_marks (s : State) (f : Hall → Hall) : (s.modHall f).marks = s.marks := rfl
@[simp] theorem State.modHall_waiting (s : State) (f : Hall → Hall) : (s.modHall f).waiting = s.waiting := rfl
@[simp] theorem State.modHall_waitAtom (s : State) (f : Hall → Hall) : (s.modHall f).waitAtom = s.waitAtom := rfl
@[simp] theorem State.modHall_snoops (s : State) (f : Hall → Hall) : (s.modHall f).snoops = s.snoops := rfl
@[simp] theorem State.modHall_barHeld (s : State) (f : Hall → Hall) : (s.modHall f).barHeld = s.barHeld := rfl
@[simp] theorem State.modHall_mons (s : State) (f : Hall → Hall) : (s.modHall f).mons = s.mons := rfl
@[simp] theorem State.modHall_tlb (s : State) (f : Hall → Hall) : (s.modHall f).tlb = s.tlb := rfl
@[simp] theorem State.modHall_heat (s : State) (f : Hall → Hall) : (s.modHall f).heat = s.heat := rfl
@[simp] theorem State.modHall_down (s : State) (f : Hall → Hall) : (s.modHall f).down = s.down := rfl
@[simp] theorem State.modHall_cohOut (s : State) (f : Hall → Hall) : (s.modHall f).cohOut = s.cohOut := rfl
@[simp] theorem State.modHall_misses (s : State) (f : Hall → Hall) : (s.modHall f).misses = s.misses := rfl

/-! ### State.schedule -/

@[simp] theorem State.schedule_tick (s : State) (d : Nat) (i : Instr) : (s.schedule d i).tick = s.tick := rfl
@[simp] theorem State.schedule_boot (s : State) (d : Nat) (i : Instr) : (s.schedule d i).boot = s.boot := rfl
@[simp] theorem State.schedule_bootStop (s : State) (d : Nat) (i : Instr) : (s.schedule d i).bootStop = s.bootStop := rfl
@[simp] theorem State.schedule_warm (s : State) (d : Nat) (i : Instr) : (s.schedule d i).warm = s.warm := rfl
@[simp] theorem State.schedule_outOfService (s : State) (d : Nat) (i : Instr) : (s.schedule d i).outOfService = s.outOfService := rfl
@[simp] theorem State.schedule_detect (s : State) (d : Nat) (i : Instr) : (s.schedule d i).detect = s.detect := rfl
@[simp] theorem State.schedule_mappedRooms (s : State) (d : Nat) (i : Instr) : (s.schedule d i).mappedRooms = s.mappedRooms := rfl
@[simp] theorem State.schedule_mappedStairs (s : State) (d : Nat) (i : Instr) : (s.schedule d i).mappedStairs = s.mappedStairs := rfl
@[simp] theorem State.schedule_errCount (s : State) (d : Nat) (i : Instr) : (s.schedule d i).errCount = s.errCount := rfl
@[simp] theorem State.schedule_errSeen (s : State) (d : Nat) (i : Instr) : (s.schedule d i).errSeen = s.errSeen := rfl
@[simp] theorem State.schedule_pkgNum (s : State) (d : Nat) (i : Instr) : (s.schedule d i).pkgNum = s.pkgNum := rfl
@[simp] theorem State.schedule_firmware (s : State) (d : Nat) (i : Instr) : (s.schedule d i).firmware = s.firmware := rfl
@[simp] theorem State.schedule_phase (s : State) (d : Nat) (i : Instr) : (s.schedule d i).phase = s.phase := rfl
@[simp] theorem State.schedule_act (s : State) (d : Nat) (i : Instr) : (s.schedule d i).act = s.act := rfl
@[simp] theorem State.schedule_turn (s : State) (d : Nat) (i : Instr) : (s.schedule d i).turn = s.turn := rfl
@[simp] theorem State.schedule_fresh (s : State) (d : Nat) (i : Instr) : (s.schedule d i).fresh = s.fresh := rfl
@[simp] theorem State.schedule_seq (s : State) (d : Nat) (i : Instr) : (s.schedule d i).seq = s.seq := rfl
@[simp] theorem State.schedule_areas (s : State) (d : Nat) (i : Instr) : (s.schedule d i).areas = s.areas := rfl
@[simp] theorem State.schedule_ending (s : State) (d : Nat) (i : Instr) : (s.schedule d i).ending = s.ending := rfl
@[simp] theorem State.schedule_rooms (s : State) (d : Nat) (i : Instr) : (s.schedule d i).rooms = s.rooms := rfl
@[simp] theorem State.schedule_stairs (s : State) (d : Nat) (i : Instr) : (s.schedule d i).stairs = s.stairs := rfl
@[simp] theorem State.schedule_wings (s : State) (d : Nat) (i : Instr) : (s.schedule d i).wings = s.wings := rfl
@[simp] theorem State.schedule_mem (s : State) (d : Nat) (i : Instr) : (s.schedule d i).mem = s.mem := rfl
@[simp] theorem State.schedule_lend (s : State) (d : Nat) (i : Instr) : (s.schedule d i).lend = s.lend := rfl
@[simp] theorem State.schedule_copies (s : State) (d : Nat) (i : Instr) : (s.schedule d i).copies = s.copies := rfl
@[simp] theorem State.schedule_poison (s : State) (d : Nat) (i : Instr) : (s.schedule d i).poison = s.poison := rfl
@[simp] theorem State.schedule_hostHeld (s : State) (d : Nat) (i : Instr) : (s.schedule d i).hostHeld = s.hostHeld := rfl
@[simp] theorem State.schedule_heldBy (s : State) (d : Nat) (i : Instr) : (s.schedule d i).heldBy = s.heldBy := rfl
@[simp] theorem State.schedule_birsp (s : State) (d : Nat) (i : Instr) : (s.schedule d i).birsp = s.birsp := rfl
@[simp] theorem State.schedule_msauQ (s : State) (d : Nat) (i : Instr) : (s.schedule d i).msauQ = s.msauQ := rfl
@[simp] theorem State.schedule_msauAt (s : State) (d : Nat) (i : Instr) : (s.schedule d i).msauAt = s.msauAt := rfl
@[simp] theorem State.schedule_barObjs (s : State) (d : Nat) (i : Instr) : (s.schedule d i).barObjs = s.barObjs := rfl
@[simp] theorem State.schedule_grans (s : State) (d : Nat) (i : Instr) : (s.schedule d i).grans = s.grans := rfl
@[simp] theorem State.schedule_marks (s : State) (d : Nat) (i : Instr) : (s.schedule d i).marks = s.marks := rfl
@[simp] theorem State.schedule_waiting (s : State) (d : Nat) (i : Instr) : (s.schedule d i).waiting = s.waiting := rfl
@[simp] theorem State.schedule_waitAtom (s : State) (d : Nat) (i : Instr) : (s.schedule d i).waitAtom = s.waitAtom := rfl
@[simp] theorem State.schedule_snoops (s : State) (d : Nat) (i : Instr) : (s.schedule d i).snoops = s.snoops := rfl
@[simp] theorem State.schedule_barHeld (s : State) (d : Nat) (i : Instr) : (s.schedule d i).barHeld = s.barHeld := rfl
@[simp] theorem State.schedule_mons (s : State) (d : Nat) (i : Instr) : (s.schedule d i).mons = s.mons := rfl
@[simp] theorem State.schedule_tlb (s : State) (d : Nat) (i : Instr) : (s.schedule d i).tlb = s.tlb := rfl
@[simp] theorem State.schedule_heat (s : State) (d : Nat) (i : Instr) : (s.schedule d i).heat = s.heat := rfl
@[simp] theorem State.schedule_down (s : State) (d : Nat) (i : Instr) : (s.schedule d i).down = s.down := rfl
@[simp] theorem State.schedule_cohOut (s : State) (d : Nat) (i : Instr) : (s.schedule d i).cohOut = s.cohOut := rfl
@[simp] theorem State.schedule_misses (s : State) (d : Nat) (i : Instr) : (s.schedule d i).misses = s.misses := rfl
@[simp] theorem State.schedule_hall (s : State) (d : Nat) (i : Instr) : (s.schedule d i).hall = s.hall := rfl

/-! ### State.bump -/

@[simp] theorem State.bump_tick (s : State) : (s.bump).tick = s.tick := rfl
@[simp] theorem State.bump_boot (s : State) : (s.bump).boot = s.boot := rfl
@[simp] theorem State.bump_bootStop (s : State) : (s.bump).bootStop = s.bootStop := rfl
@[simp] theorem State.bump_warm (s : State) : (s.bump).warm = s.warm := rfl
@[simp] theorem State.bump_outOfService (s : State) : (s.bump).outOfService = s.outOfService := rfl
@[simp] theorem State.bump_detect (s : State) : (s.bump).detect = s.detect := rfl
@[simp] theorem State.bump_mappedRooms (s : State) : (s.bump).mappedRooms = s.mappedRooms := rfl
@[simp] theorem State.bump_mappedStairs (s : State) : (s.bump).mappedStairs = s.mappedStairs := rfl
@[simp] theorem State.bump_errCount (s : State) : (s.bump).errCount = s.errCount := rfl
@[simp] theorem State.bump_errSeen (s : State) : (s.bump).errSeen = s.errSeen := rfl
@[simp] theorem State.bump_pkgNum (s : State) : (s.bump).pkgNum = s.pkgNum := rfl
@[simp] theorem State.bump_firmware (s : State) : (s.bump).firmware = s.firmware := rfl
@[simp] theorem State.bump_agenda (s : State) : (s.bump).agenda = s.agenda := rfl
@[simp] theorem State.bump_phase (s : State) : (s.bump).phase = s.phase := rfl
@[simp] theorem State.bump_act (s : State) : (s.bump).act = s.act := rfl
@[simp] theorem State.bump_turn (s : State) : (s.bump).turn = s.turn := rfl
@[simp] theorem State.bump_seq (s : State) : (s.bump).seq = s.seq := rfl
@[simp] theorem State.bump_areas (s : State) : (s.bump).areas = s.areas := rfl
@[simp] theorem State.bump_ending (s : State) : (s.bump).ending = s.ending := rfl
@[simp] theorem State.bump_rooms (s : State) : (s.bump).rooms = s.rooms := rfl
@[simp] theorem State.bump_stairs (s : State) : (s.bump).stairs = s.stairs := rfl
@[simp] theorem State.bump_wings (s : State) : (s.bump).wings = s.wings := rfl
@[simp] theorem State.bump_mem (s : State) : (s.bump).mem = s.mem := rfl
@[simp] theorem State.bump_lend (s : State) : (s.bump).lend = s.lend := rfl
@[simp] theorem State.bump_copies (s : State) : (s.bump).copies = s.copies := rfl
@[simp] theorem State.bump_poison (s : State) : (s.bump).poison = s.poison := rfl
@[simp] theorem State.bump_hostHeld (s : State) : (s.bump).hostHeld = s.hostHeld := rfl
@[simp] theorem State.bump_heldBy (s : State) : (s.bump).heldBy = s.heldBy := rfl
@[simp] theorem State.bump_birsp (s : State) : (s.bump).birsp = s.birsp := rfl
@[simp] theorem State.bump_msauQ (s : State) : (s.bump).msauQ = s.msauQ := rfl
@[simp] theorem State.bump_msauAt (s : State) : (s.bump).msauAt = s.msauAt := rfl
@[simp] theorem State.bump_barObjs (s : State) : (s.bump).barObjs = s.barObjs := rfl
@[simp] theorem State.bump_grans (s : State) : (s.bump).grans = s.grans := rfl
@[simp] theorem State.bump_marks (s : State) : (s.bump).marks = s.marks := rfl
@[simp] theorem State.bump_waiting (s : State) : (s.bump).waiting = s.waiting := rfl
@[simp] theorem State.bump_waitAtom (s : State) : (s.bump).waitAtom = s.waitAtom := rfl
@[simp] theorem State.bump_snoops (s : State) : (s.bump).snoops = s.snoops := rfl
@[simp] theorem State.bump_barHeld (s : State) : (s.bump).barHeld = s.barHeld := rfl
@[simp] theorem State.bump_mons (s : State) : (s.bump).mons = s.mons := rfl
@[simp] theorem State.bump_tlb (s : State) : (s.bump).tlb = s.tlb := rfl
@[simp] theorem State.bump_heat (s : State) : (s.bump).heat = s.heat := rfl
@[simp] theorem State.bump_down (s : State) : (s.bump).down = s.down := rfl
@[simp] theorem State.bump_cohOut (s : State) : (s.bump).cohOut = s.cohOut := rfl
@[simp] theorem State.bump_misses (s : State) : (s.bump).misses = s.misses := rfl
@[simp] theorem State.bump_hall (s : State) : (s.bump).hall = s.hall := rfl

/-! ### State.nextId -/

@[simp] theorem State.nextId_tick (s : State) : (s.nextId).tick = s.tick := rfl
@[simp] theorem State.nextId_boot (s : State) : (s.nextId).boot = s.boot := rfl
@[simp] theorem State.nextId_bootStop (s : State) : (s.nextId).bootStop = s.bootStop := rfl
@[simp] theorem State.nextId_warm (s : State) : (s.nextId).warm = s.warm := rfl
@[simp] theorem State.nextId_outOfService (s : State) : (s.nextId).outOfService = s.outOfService := rfl
@[simp] theorem State.nextId_detect (s : State) : (s.nextId).detect = s.detect := rfl
@[simp] theorem State.nextId_mappedRooms (s : State) : (s.nextId).mappedRooms = s.mappedRooms := rfl
@[simp] theorem State.nextId_mappedStairs (s : State) : (s.nextId).mappedStairs = s.mappedStairs := rfl
@[simp] theorem State.nextId_errCount (s : State) : (s.nextId).errCount = s.errCount := rfl
@[simp] theorem State.nextId_errSeen (s : State) : (s.nextId).errSeen = s.errSeen := rfl
@[simp] theorem State.nextId_pkgNum (s : State) : (s.nextId).pkgNum = s.pkgNum := rfl
@[simp] theorem State.nextId_firmware (s : State) : (s.nextId).firmware = s.firmware := rfl
@[simp] theorem State.nextId_agenda (s : State) : (s.nextId).agenda = s.agenda := rfl
@[simp] theorem State.nextId_phase (s : State) : (s.nextId).phase = s.phase := rfl
@[simp] theorem State.nextId_act (s : State) : (s.nextId).act = s.act := rfl
@[simp] theorem State.nextId_turn (s : State) : (s.nextId).turn = s.turn := rfl
@[simp] theorem State.nextId_fresh (s : State) : (s.nextId).fresh = s.fresh := rfl
@[simp] theorem State.nextId_areas (s : State) : (s.nextId).areas = s.areas := rfl
@[simp] theorem State.nextId_ending (s : State) : (s.nextId).ending = s.ending := rfl
@[simp] theorem State.nextId_rooms (s : State) : (s.nextId).rooms = s.rooms := rfl
@[simp] theorem State.nextId_stairs (s : State) : (s.nextId).stairs = s.stairs := rfl
@[simp] theorem State.nextId_wings (s : State) : (s.nextId).wings = s.wings := rfl
@[simp] theorem State.nextId_mem (s : State) : (s.nextId).mem = s.mem := rfl
@[simp] theorem State.nextId_lend (s : State) : (s.nextId).lend = s.lend := rfl
@[simp] theorem State.nextId_copies (s : State) : (s.nextId).copies = s.copies := rfl
@[simp] theorem State.nextId_poison (s : State) : (s.nextId).poison = s.poison := rfl
@[simp] theorem State.nextId_hostHeld (s : State) : (s.nextId).hostHeld = s.hostHeld := rfl
@[simp] theorem State.nextId_heldBy (s : State) : (s.nextId).heldBy = s.heldBy := rfl
@[simp] theorem State.nextId_birsp (s : State) : (s.nextId).birsp = s.birsp := rfl
@[simp] theorem State.nextId_msauQ (s : State) : (s.nextId).msauQ = s.msauQ := rfl
@[simp] theorem State.nextId_msauAt (s : State) : (s.nextId).msauAt = s.msauAt := rfl
@[simp] theorem State.nextId_barObjs (s : State) : (s.nextId).barObjs = s.barObjs := rfl
@[simp] theorem State.nextId_grans (s : State) : (s.nextId).grans = s.grans := rfl
@[simp] theorem State.nextId_marks (s : State) : (s.nextId).marks = s.marks := rfl
@[simp] theorem State.nextId_waiting (s : State) : (s.nextId).waiting = s.waiting := rfl
@[simp] theorem State.nextId_waitAtom (s : State) : (s.nextId).waitAtom = s.waitAtom := rfl
@[simp] theorem State.nextId_snoops (s : State) : (s.nextId).snoops = s.snoops := rfl
@[simp] theorem State.nextId_barHeld (s : State) : (s.nextId).barHeld = s.barHeld := rfl
@[simp] theorem State.nextId_mons (s : State) : (s.nextId).mons = s.mons := rfl
@[simp] theorem State.nextId_tlb (s : State) : (s.nextId).tlb = s.tlb := rfl
@[simp] theorem State.nextId_heat (s : State) : (s.nextId).heat = s.heat := rfl
@[simp] theorem State.nextId_down (s : State) : (s.nextId).down = s.down := rfl
@[simp] theorem State.nextId_cohOut (s : State) : (s.nextId).cohOut = s.cohOut := rfl
@[simp] theorem State.nextId_misses (s : State) : (s.nextId).misses = s.misses := rfl
@[simp] theorem State.nextId_hall (s : State) : (s.nextId).hall = s.hall := rfl

/-! ### State.write -/

@[simp] theorem State.write_tick (s : State) (k n v : Nat) : (s.write k n v).tick = s.tick := rfl
@[simp] theorem State.write_boot (s : State) (k n v : Nat) : (s.write k n v).boot = s.boot := rfl
@[simp] theorem State.write_bootStop (s : State) (k n v : Nat) : (s.write k n v).bootStop = s.bootStop := rfl
@[simp] theorem State.write_warm (s : State) (k n v : Nat) : (s.write k n v).warm = s.warm := rfl
@[simp] theorem State.write_outOfService (s : State) (k n v : Nat) : (s.write k n v).outOfService = s.outOfService := rfl
@[simp] theorem State.write_detect (s : State) (k n v : Nat) : (s.write k n v).detect = s.detect := rfl
@[simp] theorem State.write_mappedRooms (s : State) (k n v : Nat) : (s.write k n v).mappedRooms = s.mappedRooms := rfl
@[simp] theorem State.write_mappedStairs (s : State) (k n v : Nat) : (s.write k n v).mappedStairs = s.mappedStairs := rfl
@[simp] theorem State.write_errCount (s : State) (k n v : Nat) : (s.write k n v).errCount = s.errCount := rfl
@[simp] theorem State.write_errSeen (s : State) (k n v : Nat) : (s.write k n v).errSeen = s.errSeen := rfl
@[simp] theorem State.write_pkgNum (s : State) (k n v : Nat) : (s.write k n v).pkgNum = s.pkgNum := rfl
@[simp] theorem State.write_firmware (s : State) (k n v : Nat) : (s.write k n v).firmware = s.firmware := rfl
@[simp] theorem State.write_agenda (s : State) (k n v : Nat) : (s.write k n v).agenda = s.agenda := rfl
@[simp] theorem State.write_phase (s : State) (k n v : Nat) : (s.write k n v).phase = s.phase := rfl
@[simp] theorem State.write_act (s : State) (k n v : Nat) : (s.write k n v).act = s.act := rfl
@[simp] theorem State.write_turn (s : State) (k n v : Nat) : (s.write k n v).turn = s.turn := rfl
@[simp] theorem State.write_fresh (s : State) (k n v : Nat) : (s.write k n v).fresh = s.fresh := rfl
@[simp] theorem State.write_seq (s : State) (k n v : Nat) : (s.write k n v).seq = s.seq := rfl
@[simp] theorem State.write_areas (s : State) (k n v : Nat) : (s.write k n v).areas = s.areas := rfl
@[simp] theorem State.write_ending (s : State) (k n v : Nat) : (s.write k n v).ending = s.ending := rfl
@[simp] theorem State.write_rooms (s : State) (k n v : Nat) : (s.write k n v).rooms = s.rooms := rfl
@[simp] theorem State.write_stairs (s : State) (k n v : Nat) : (s.write k n v).stairs = s.stairs := rfl
@[simp] theorem State.write_wings (s : State) (k n v : Nat) : (s.write k n v).wings = s.wings := rfl
@[simp] theorem State.write_lend (s : State) (k n v : Nat) : (s.write k n v).lend = s.lend := rfl
@[simp] theorem State.write_copies (s : State) (k n v : Nat) : (s.write k n v).copies = s.copies := rfl
@[simp] theorem State.write_poison (s : State) (k n v : Nat) : (s.write k n v).poison = s.poison := rfl
@[simp] theorem State.write_hostHeld (s : State) (k n v : Nat) : (s.write k n v).hostHeld = s.hostHeld := rfl
@[simp] theorem State.write_heldBy (s : State) (k n v : Nat) : (s.write k n v).heldBy = s.heldBy := rfl
@[simp] theorem State.write_birsp (s : State) (k n v : Nat) : (s.write k n v).birsp = s.birsp := rfl
@[simp] theorem State.write_msauQ (s : State) (k n v : Nat) : (s.write k n v).msauQ = s.msauQ := rfl
@[simp] theorem State.write_msauAt (s : State) (k n v : Nat) : (s.write k n v).msauAt = s.msauAt := rfl
@[simp] theorem State.write_barObjs (s : State) (k n v : Nat) : (s.write k n v).barObjs = s.barObjs := rfl
@[simp] theorem State.write_grans (s : State) (k n v : Nat) : (s.write k n v).grans = s.grans := rfl
@[simp] theorem State.write_marks (s : State) (k n v : Nat) : (s.write k n v).marks = s.marks := rfl
@[simp] theorem State.write_waiting (s : State) (k n v : Nat) : (s.write k n v).waiting = s.waiting := rfl
@[simp] theorem State.write_waitAtom (s : State) (k n v : Nat) : (s.write k n v).waitAtom = s.waitAtom := rfl
@[simp] theorem State.write_snoops (s : State) (k n v : Nat) : (s.write k n v).snoops = s.snoops := rfl
@[simp] theorem State.write_barHeld (s : State) (k n v : Nat) : (s.write k n v).barHeld = s.barHeld := rfl
@[simp] theorem State.write_mons (s : State) (k n v : Nat) : (s.write k n v).mons = s.mons := rfl
@[simp] theorem State.write_tlb (s : State) (k n v : Nat) : (s.write k n v).tlb = s.tlb := rfl
@[simp] theorem State.write_heat (s : State) (k n v : Nat) : (s.write k n v).heat = s.heat := rfl
@[simp] theorem State.write_down (s : State) (k n v : Nat) : (s.write k n v).down = s.down := rfl
@[simp] theorem State.write_cohOut (s : State) (k n v : Nat) : (s.write k n v).cohOut = s.cohOut := rfl
@[simp] theorem State.write_misses (s : State) (k n v : Nat) : (s.write k n v).misses = s.misses := rfl
@[simp] theorem State.write_hall (s : State) (k n v : Nat) : (s.write k n v).hall = s.hall := rfl

/-! ### State.done -/

@[simp] theorem State.done_tick (s : State) : (s.done).tick = s.tick := rfl
@[simp] theorem State.done_boot (s : State) : (s.done).boot = s.boot := rfl
@[simp] theorem State.done_bootStop (s : State) : (s.done).bootStop = s.bootStop := rfl
@[simp] theorem State.done_warm (s : State) : (s.done).warm = s.warm := rfl
@[simp] theorem State.done_outOfService (s : State) : (s.done).outOfService = s.outOfService := rfl
@[simp] theorem State.done_detect (s : State) : (s.done).detect = s.detect := rfl
@[simp] theorem State.done_mappedRooms (s : State) : (s.done).mappedRooms = s.mappedRooms := rfl
@[simp] theorem State.done_mappedStairs (s : State) : (s.done).mappedStairs = s.mappedStairs := rfl
@[simp] theorem State.done_errCount (s : State) : (s.done).errCount = s.errCount := rfl
@[simp] theorem State.done_errSeen (s : State) : (s.done).errSeen = s.errSeen := rfl
@[simp] theorem State.done_pkgNum (s : State) : (s.done).pkgNum = s.pkgNum := rfl
@[simp] theorem State.done_firmware (s : State) : (s.done).firmware = s.firmware := rfl
@[simp] theorem State.done_agenda (s : State) : (s.done).agenda = s.agenda := rfl
@[simp] theorem State.done_phase (s : State) : (s.done).phase = s.phase := rfl
@[simp] theorem State.done_act (s : State) : (s.done).act = s.act := rfl
@[simp] theorem State.done_turn (s : State) : (s.done).turn = s.turn := rfl
@[simp] theorem State.done_fresh (s : State) : (s.done).fresh = s.fresh := rfl
@[simp] theorem State.done_seq (s : State) : (s.done).seq = s.seq := rfl
@[simp] theorem State.done_areas (s : State) : (s.done).areas = s.areas := rfl
@[simp] theorem State.done_ending (s : State) : (s.done).ending = s.ending := rfl
@[simp] theorem State.done_stairs (s : State) : (s.done).stairs = s.stairs := rfl
@[simp] theorem State.done_wings (s : State) : (s.done).wings = s.wings := rfl
@[simp] theorem State.done_mem (s : State) : (s.done).mem = s.mem := rfl
@[simp] theorem State.done_lend (s : State) : (s.done).lend = s.lend := rfl
@[simp] theorem State.done_copies (s : State) : (s.done).copies = s.copies := rfl
@[simp] theorem State.done_poison (s : State) : (s.done).poison = s.poison := rfl
@[simp] theorem State.done_hostHeld (s : State) : (s.done).hostHeld = s.hostHeld := rfl
@[simp] theorem State.done_heldBy (s : State) : (s.done).heldBy = s.heldBy := rfl
@[simp] theorem State.done_birsp (s : State) : (s.done).birsp = s.birsp := rfl
@[simp] theorem State.done_msauQ (s : State) : (s.done).msauQ = s.msauQ := rfl
@[simp] theorem State.done_msauAt (s : State) : (s.done).msauAt = s.msauAt := rfl
@[simp] theorem State.done_barObjs (s : State) : (s.done).barObjs = s.barObjs := rfl
@[simp] theorem State.done_grans (s : State) : (s.done).grans = s.grans := rfl
@[simp] theorem State.done_marks (s : State) : (s.done).marks = s.marks := rfl
@[simp] theorem State.done_waiting (s : State) : (s.done).waiting = s.waiting := rfl
@[simp] theorem State.done_waitAtom (s : State) : (s.done).waitAtom = s.waitAtom := rfl
@[simp] theorem State.done_snoops (s : State) : (s.done).snoops = s.snoops := rfl
@[simp] theorem State.done_barHeld (s : State) : (s.done).barHeld = s.barHeld := rfl
@[simp] theorem State.done_mons (s : State) : (s.done).mons = s.mons := rfl
@[simp] theorem State.done_tlb (s : State) : (s.done).tlb = s.tlb := rfl
@[simp] theorem State.done_heat (s : State) : (s.done).heat = s.heat := rfl
@[simp] theorem State.done_down (s : State) : (s.done).down = s.down := rfl
@[simp] theorem State.done_cohOut (s : State) : (s.done).cohOut = s.cohOut := rfl
@[simp] theorem State.done_misses (s : State) : (s.done).misses = s.misses := rfl
@[simp] theorem State.done_hall (s : State) : (s.done).hall = s.hall := rfl

/-! ### State.doneX -/

@[simp] theorem State.doneX_tick (s : State) (rd : Reg) (v : W64) : (s.doneX rd v).tick = s.tick := rfl
@[simp] theorem State.doneX_boot (s : State) (rd : Reg) (v : W64) : (s.doneX rd v).boot = s.boot := rfl
@[simp] theorem State.doneX_bootStop (s : State) (rd : Reg) (v : W64) : (s.doneX rd v).bootStop = s.bootStop := rfl
@[simp] theorem State.doneX_warm (s : State) (rd : Reg) (v : W64) : (s.doneX rd v).warm = s.warm := rfl
@[simp] theorem State.doneX_outOfService (s : State) (rd : Reg) (v : W64) : (s.doneX rd v).outOfService = s.outOfService := rfl
@[simp] theorem State.doneX_detect (s : State) (rd : Reg) (v : W64) : (s.doneX rd v).detect = s.detect := rfl
@[simp] theorem State.doneX_mappedRooms (s : State) (rd : Reg) (v : W64) : (s.doneX rd v).mappedRooms = s.mappedRooms := rfl
@[simp] theorem State.doneX_mappedStairs (s : State) (rd : Reg) (v : W64) : (s.doneX rd v).mappedStairs = s.mappedStairs := rfl
@[simp] theorem State.doneX_errCount (s : State) (rd : Reg) (v : W64) : (s.doneX rd v).errCount = s.errCount := rfl
@[simp] theorem State.doneX_errSeen (s : State) (rd : Reg) (v : W64) : (s.doneX rd v).errSeen = s.errSeen := rfl
@[simp] theorem State.doneX_pkgNum (s : State) (rd : Reg) (v : W64) : (s.doneX rd v).pkgNum = s.pkgNum := rfl
@[simp] theorem State.doneX_firmware (s : State) (rd : Reg) (v : W64) : (s.doneX rd v).firmware = s.firmware := rfl
@[simp] theorem State.doneX_agenda (s : State) (rd : Reg) (v : W64) : (s.doneX rd v).agenda = s.agenda := rfl
@[simp] theorem State.doneX_phase (s : State) (rd : Reg) (v : W64) : (s.doneX rd v).phase = s.phase := rfl
@[simp] theorem State.doneX_act (s : State) (rd : Reg) (v : W64) : (s.doneX rd v).act = s.act := rfl
@[simp] theorem State.doneX_turn (s : State) (rd : Reg) (v : W64) : (s.doneX rd v).turn = s.turn := rfl
@[simp] theorem State.doneX_fresh (s : State) (rd : Reg) (v : W64) : (s.doneX rd v).fresh = s.fresh := rfl
@[simp] theorem State.doneX_seq (s : State) (rd : Reg) (v : W64) : (s.doneX rd v).seq = s.seq := rfl
@[simp] theorem State.doneX_areas (s : State) (rd : Reg) (v : W64) : (s.doneX rd v).areas = s.areas := rfl
@[simp] theorem State.doneX_ending (s : State) (rd : Reg) (v : W64) : (s.doneX rd v).ending = s.ending := rfl
@[simp] theorem State.doneX_stairs (s : State) (rd : Reg) (v : W64) : (s.doneX rd v).stairs = s.stairs := rfl
@[simp] theorem State.doneX_wings (s : State) (rd : Reg) (v : W64) : (s.doneX rd v).wings = s.wings := rfl
@[simp] theorem State.doneX_mem (s : State) (rd : Reg) (v : W64) : (s.doneX rd v).mem = s.mem := rfl
@[simp] theorem State.doneX_lend (s : State) (rd : Reg) (v : W64) : (s.doneX rd v).lend = s.lend := rfl
@[simp] theorem State.doneX_copies (s : State) (rd : Reg) (v : W64) : (s.doneX rd v).copies = s.copies := rfl
@[simp] theorem State.doneX_poison (s : State) (rd : Reg) (v : W64) : (s.doneX rd v).poison = s.poison := rfl
@[simp] theorem State.doneX_hostHeld (s : State) (rd : Reg) (v : W64) : (s.doneX rd v).hostHeld = s.hostHeld := rfl
@[simp] theorem State.doneX_heldBy (s : State) (rd : Reg) (v : W64) : (s.doneX rd v).heldBy = s.heldBy := rfl
@[simp] theorem State.doneX_birsp (s : State) (rd : Reg) (v : W64) : (s.doneX rd v).birsp = s.birsp := rfl
@[simp] theorem State.doneX_msauQ (s : State) (rd : Reg) (v : W64) : (s.doneX rd v).msauQ = s.msauQ := rfl
@[simp] theorem State.doneX_msauAt (s : State) (rd : Reg) (v : W64) : (s.doneX rd v).msauAt = s.msauAt := rfl
@[simp] theorem State.doneX_barObjs (s : State) (rd : Reg) (v : W64) : (s.doneX rd v).barObjs = s.barObjs := rfl
@[simp] theorem State.doneX_grans (s : State) (rd : Reg) (v : W64) : (s.doneX rd v).grans = s.grans := rfl
@[simp] theorem State.doneX_marks (s : State) (rd : Reg) (v : W64) : (s.doneX rd v).marks = s.marks := rfl
@[simp] theorem State.doneX_waiting (s : State) (rd : Reg) (v : W64) : (s.doneX rd v).waiting = s.waiting := rfl
@[simp] theorem State.doneX_waitAtom (s : State) (rd : Reg) (v : W64) : (s.doneX rd v).waitAtom = s.waitAtom := rfl
@[simp] theorem State.doneX_snoops (s : State) (rd : Reg) (v : W64) : (s.doneX rd v).snoops = s.snoops := rfl
@[simp] theorem State.doneX_barHeld (s : State) (rd : Reg) (v : W64) : (s.doneX rd v).barHeld = s.barHeld := rfl
@[simp] theorem State.doneX_mons (s : State) (rd : Reg) (v : W64) : (s.doneX rd v).mons = s.mons := rfl
@[simp] theorem State.doneX_tlb (s : State) (rd : Reg) (v : W64) : (s.doneX rd v).tlb = s.tlb := rfl
@[simp] theorem State.doneX_heat (s : State) (rd : Reg) (v : W64) : (s.doneX rd v).heat = s.heat := rfl
@[simp] theorem State.doneX_down (s : State) (rd : Reg) (v : W64) : (s.doneX rd v).down = s.down := rfl
@[simp] theorem State.doneX_cohOut (s : State) (rd : Reg) (v : W64) : (s.doneX rd v).cohOut = s.cohOut := rfl
@[simp] theorem State.doneX_misses (s : State) (rd : Reg) (v : W64) : (s.doneX rd v).misses = s.misses := rfl
@[simp] theorem State.doneX_hall (s : State) (rd : Reg) (v : W64) : (s.doneX rd v).hall = s.hall := rfl

/-! ### State.wait -/

@[simp] theorem State.wait_tick (s : State) : (s.wait).tick = s.tick := rfl
@[simp] theorem State.wait_boot (s : State) : (s.wait).boot = s.boot := rfl
@[simp] theorem State.wait_bootStop (s : State) : (s.wait).bootStop = s.bootStop := rfl
@[simp] theorem State.wait_warm (s : State) : (s.wait).warm = s.warm := rfl
@[simp] theorem State.wait_outOfService (s : State) : (s.wait).outOfService = s.outOfService := rfl
@[simp] theorem State.wait_detect (s : State) : (s.wait).detect = s.detect := rfl
@[simp] theorem State.wait_mappedRooms (s : State) : (s.wait).mappedRooms = s.mappedRooms := rfl
@[simp] theorem State.wait_mappedStairs (s : State) : (s.wait).mappedStairs = s.mappedStairs := rfl
@[simp] theorem State.wait_errCount (s : State) : (s.wait).errCount = s.errCount := rfl
@[simp] theorem State.wait_errSeen (s : State) : (s.wait).errSeen = s.errSeen := rfl
@[simp] theorem State.wait_pkgNum (s : State) : (s.wait).pkgNum = s.pkgNum := rfl
@[simp] theorem State.wait_firmware (s : State) : (s.wait).firmware = s.firmware := rfl
@[simp] theorem State.wait_agenda (s : State) : (s.wait).agenda = s.agenda := rfl
@[simp] theorem State.wait_phase (s : State) : (s.wait).phase = s.phase := rfl
@[simp] theorem State.wait_act (s : State) : (s.wait).act = s.act := rfl
@[simp] theorem State.wait_turn (s : State) : (s.wait).turn = s.turn := rfl
@[simp] theorem State.wait_fresh (s : State) : (s.wait).fresh = s.fresh := rfl
@[simp] theorem State.wait_seq (s : State) : (s.wait).seq = s.seq := rfl
@[simp] theorem State.wait_areas (s : State) : (s.wait).areas = s.areas := rfl
@[simp] theorem State.wait_ending (s : State) : (s.wait).ending = s.ending := rfl
@[simp] theorem State.wait_stairs (s : State) : (s.wait).stairs = s.stairs := rfl
@[simp] theorem State.wait_wings (s : State) : (s.wait).wings = s.wings := rfl
@[simp] theorem State.wait_mem (s : State) : (s.wait).mem = s.mem := rfl
@[simp] theorem State.wait_lend (s : State) : (s.wait).lend = s.lend := rfl
@[simp] theorem State.wait_copies (s : State) : (s.wait).copies = s.copies := rfl
@[simp] theorem State.wait_poison (s : State) : (s.wait).poison = s.poison := rfl
@[simp] theorem State.wait_hostHeld (s : State) : (s.wait).hostHeld = s.hostHeld := rfl
@[simp] theorem State.wait_heldBy (s : State) : (s.wait).heldBy = s.heldBy := rfl
@[simp] theorem State.wait_birsp (s : State) : (s.wait).birsp = s.birsp := rfl
@[simp] theorem State.wait_msauQ (s : State) : (s.wait).msauQ = s.msauQ := rfl
@[simp] theorem State.wait_msauAt (s : State) : (s.wait).msauAt = s.msauAt := rfl
@[simp] theorem State.wait_barObjs (s : State) : (s.wait).barObjs = s.barObjs := rfl
@[simp] theorem State.wait_grans (s : State) : (s.wait).grans = s.grans := rfl
@[simp] theorem State.wait_marks (s : State) : (s.wait).marks = s.marks := rfl
@[simp] theorem State.wait_waiting (s : State) : (s.wait).waiting = s.waiting := rfl
@[simp] theorem State.wait_waitAtom (s : State) : (s.wait).waitAtom = s.waitAtom := rfl
@[simp] theorem State.wait_snoops (s : State) : (s.wait).snoops = s.snoops := rfl
@[simp] theorem State.wait_barHeld (s : State) : (s.wait).barHeld = s.barHeld := rfl
@[simp] theorem State.wait_mons (s : State) : (s.wait).mons = s.mons := rfl
@[simp] theorem State.wait_tlb (s : State) : (s.wait).tlb = s.tlb := rfl
@[simp] theorem State.wait_heat (s : State) : (s.wait).heat = s.heat := rfl
@[simp] theorem State.wait_down (s : State) : (s.wait).down = s.down := rfl
@[simp] theorem State.wait_cohOut (s : State) : (s.wait).cohOut = s.cohOut := rfl
@[simp] theorem State.wait_misses (s : State) : (s.wait).misses = s.misses := rfl
@[simp] theorem State.wait_hall (s : State) : (s.wait).hall = s.hall := rfl

/-! ### State.holdOn -/

@[simp] theorem State.holdOn_tick (s : State) (h : Hold) : (s.holdOn h).tick = s.tick := rfl
@[simp] theorem State.holdOn_boot (s : State) (h : Hold) : (s.holdOn h).boot = s.boot := rfl
@[simp] theorem State.holdOn_bootStop (s : State) (h : Hold) : (s.holdOn h).bootStop = s.bootStop := rfl
@[simp] theorem State.holdOn_warm (s : State) (h : Hold) : (s.holdOn h).warm = s.warm := rfl
@[simp] theorem State.holdOn_outOfService (s : State) (h : Hold) : (s.holdOn h).outOfService = s.outOfService := rfl
@[simp] theorem State.holdOn_detect (s : State) (h : Hold) : (s.holdOn h).detect = s.detect := rfl
@[simp] theorem State.holdOn_mappedRooms (s : State) (h : Hold) : (s.holdOn h).mappedRooms = s.mappedRooms := rfl
@[simp] theorem State.holdOn_mappedStairs (s : State) (h : Hold) : (s.holdOn h).mappedStairs = s.mappedStairs := rfl
@[simp] theorem State.holdOn_errCount (s : State) (h : Hold) : (s.holdOn h).errCount = s.errCount := rfl
@[simp] theorem State.holdOn_errSeen (s : State) (h : Hold) : (s.holdOn h).errSeen = s.errSeen := rfl
@[simp] theorem State.holdOn_pkgNum (s : State) (h : Hold) : (s.holdOn h).pkgNum = s.pkgNum := rfl
@[simp] theorem State.holdOn_firmware (s : State) (h : Hold) : (s.holdOn h).firmware = s.firmware := rfl
@[simp] theorem State.holdOn_agenda (s : State) (h : Hold) : (s.holdOn h).agenda = s.agenda := rfl
@[simp] theorem State.holdOn_phase (s : State) (h : Hold) : (s.holdOn h).phase = s.phase := rfl
@[simp] theorem State.holdOn_act (s : State) (h : Hold) : (s.holdOn h).act = s.act := rfl
@[simp] theorem State.holdOn_turn (s : State) (h : Hold) : (s.holdOn h).turn = s.turn := rfl
@[simp] theorem State.holdOn_fresh (s : State) (h : Hold) : (s.holdOn h).fresh = s.fresh := rfl
@[simp] theorem State.holdOn_seq (s : State) (h : Hold) : (s.holdOn h).seq = s.seq := rfl
@[simp] theorem State.holdOn_areas (s : State) (h : Hold) : (s.holdOn h).areas = s.areas := rfl
@[simp] theorem State.holdOn_ending (s : State) (h : Hold) : (s.holdOn h).ending = s.ending := rfl
@[simp] theorem State.holdOn_stairs (s : State) (h : Hold) : (s.holdOn h).stairs = s.stairs := rfl
@[simp] theorem State.holdOn_wings (s : State) (h : Hold) : (s.holdOn h).wings = s.wings := rfl
@[simp] theorem State.holdOn_mem (s : State) (h : Hold) : (s.holdOn h).mem = s.mem := rfl
@[simp] theorem State.holdOn_lend (s : State) (h : Hold) : (s.holdOn h).lend = s.lend := rfl
@[simp] theorem State.holdOn_copies (s : State) (h : Hold) : (s.holdOn h).copies = s.copies := rfl
@[simp] theorem State.holdOn_poison (s : State) (h : Hold) : (s.holdOn h).poison = s.poison := rfl
@[simp] theorem State.holdOn_hostHeld (s : State) (h : Hold) : (s.holdOn h).hostHeld = s.hostHeld := rfl
@[simp] theorem State.holdOn_heldBy (s : State) (h : Hold) : (s.holdOn h).heldBy = s.heldBy := rfl
@[simp] theorem State.holdOn_birsp (s : State) (h : Hold) : (s.holdOn h).birsp = s.birsp := rfl
@[simp] theorem State.holdOn_msauQ (s : State) (h : Hold) : (s.holdOn h).msauQ = s.msauQ := rfl
@[simp] theorem State.holdOn_msauAt (s : State) (h : Hold) : (s.holdOn h).msauAt = s.msauAt := rfl
@[simp] theorem State.holdOn_barObjs (s : State) (h : Hold) : (s.holdOn h).barObjs = s.barObjs := rfl
@[simp] theorem State.holdOn_grans (s : State) (h : Hold) : (s.holdOn h).grans = s.grans := rfl
@[simp] theorem State.holdOn_marks (s : State) (h : Hold) : (s.holdOn h).marks = s.marks := rfl
@[simp] theorem State.holdOn_waiting (s : State) (h : Hold) : (s.holdOn h).waiting = s.waiting := rfl
@[simp] theorem State.holdOn_waitAtom (s : State) (h : Hold) : (s.holdOn h).waitAtom = s.waitAtom := rfl
@[simp] theorem State.holdOn_snoops (s : State) (h : Hold) : (s.holdOn h).snoops = s.snoops := rfl
@[simp] theorem State.holdOn_barHeld (s : State) (h : Hold) : (s.holdOn h).barHeld = s.barHeld := rfl
@[simp] theorem State.holdOn_mons (s : State) (h : Hold) : (s.holdOn h).mons = s.mons := rfl
@[simp] theorem State.holdOn_tlb (s : State) (h : Hold) : (s.holdOn h).tlb = s.tlb := rfl
@[simp] theorem State.holdOn_heat (s : State) (h : Hold) : (s.holdOn h).heat = s.heat := rfl
@[simp] theorem State.holdOn_down (s : State) (h : Hold) : (s.holdOn h).down = s.down := rfl
@[simp] theorem State.holdOn_cohOut (s : State) (h : Hold) : (s.holdOn h).cohOut = s.cohOut := rfl
@[simp] theorem State.holdOn_misses (s : State) (h : Hold) : (s.holdOn h).misses = s.misses := rfl
@[simp] theorem State.holdOn_hall (s : State) (h : Hold) : (s.holdOn h).hall = s.hall := rfl

/-! ### State.noteCoh -/

@[simp] theorem State.noteCoh_tick (s : State) (b : Bool) (a d : Nat) : (s.noteCoh b a d).tick = s.tick := rfl
@[simp] theorem State.noteCoh_boot (s : State) (b : Bool) (a d : Nat) : (s.noteCoh b a d).boot = s.boot := rfl
@[simp] theorem State.noteCoh_bootStop (s : State) (b : Bool) (a d : Nat) : (s.noteCoh b a d).bootStop = s.bootStop := rfl
@[simp] theorem State.noteCoh_warm (s : State) (b : Bool) (a d : Nat) : (s.noteCoh b a d).warm = s.warm := rfl
@[simp] theorem State.noteCoh_outOfService (s : State) (b : Bool) (a d : Nat) : (s.noteCoh b a d).outOfService = s.outOfService := rfl
@[simp] theorem State.noteCoh_detect (s : State) (b : Bool) (a d : Nat) : (s.noteCoh b a d).detect = s.detect := rfl
@[simp] theorem State.noteCoh_mappedRooms (s : State) (b : Bool) (a d : Nat) : (s.noteCoh b a d).mappedRooms = s.mappedRooms := rfl
@[simp] theorem State.noteCoh_mappedStairs (s : State) (b : Bool) (a d : Nat) : (s.noteCoh b a d).mappedStairs = s.mappedStairs := rfl
@[simp] theorem State.noteCoh_errCount (s : State) (b : Bool) (a d : Nat) : (s.noteCoh b a d).errCount = s.errCount := rfl
@[simp] theorem State.noteCoh_errSeen (s : State) (b : Bool) (a d : Nat) : (s.noteCoh b a d).errSeen = s.errSeen := rfl
@[simp] theorem State.noteCoh_pkgNum (s : State) (b : Bool) (a d : Nat) : (s.noteCoh b a d).pkgNum = s.pkgNum := rfl
@[simp] theorem State.noteCoh_firmware (s : State) (b : Bool) (a d : Nat) : (s.noteCoh b a d).firmware = s.firmware := rfl
@[simp] theorem State.noteCoh_agenda (s : State) (b : Bool) (a d : Nat) : (s.noteCoh b a d).agenda = s.agenda := rfl
@[simp] theorem State.noteCoh_phase (s : State) (b : Bool) (a d : Nat) : (s.noteCoh b a d).phase = s.phase := rfl
@[simp] theorem State.noteCoh_act (s : State) (b : Bool) (a d : Nat) : (s.noteCoh b a d).act = s.act := rfl
@[simp] theorem State.noteCoh_turn (s : State) (b : Bool) (a d : Nat) : (s.noteCoh b a d).turn = s.turn := rfl
@[simp] theorem State.noteCoh_fresh (s : State) (b : Bool) (a d : Nat) : (s.noteCoh b a d).fresh = s.fresh := rfl
@[simp] theorem State.noteCoh_seq (s : State) (b : Bool) (a d : Nat) : (s.noteCoh b a d).seq = s.seq := rfl
@[simp] theorem State.noteCoh_areas (s : State) (b : Bool) (a d : Nat) : (s.noteCoh b a d).areas = s.areas := rfl
@[simp] theorem State.noteCoh_ending (s : State) (b : Bool) (a d : Nat) : (s.noteCoh b a d).ending = s.ending := rfl
@[simp] theorem State.noteCoh_rooms (s : State) (b : Bool) (a d : Nat) : (s.noteCoh b a d).rooms = s.rooms := rfl
@[simp] theorem State.noteCoh_stairs (s : State) (b : Bool) (a d : Nat) : (s.noteCoh b a d).stairs = s.stairs := rfl
@[simp] theorem State.noteCoh_wings (s : State) (b : Bool) (a d : Nat) : (s.noteCoh b a d).wings = s.wings := rfl
@[simp] theorem State.noteCoh_mem (s : State) (b : Bool) (a d : Nat) : (s.noteCoh b a d).mem = s.mem := rfl
@[simp] theorem State.noteCoh_lend (s : State) (b : Bool) (a d : Nat) : (s.noteCoh b a d).lend = s.lend := rfl
@[simp] theorem State.noteCoh_copies (s : State) (b : Bool) (a d : Nat) : (s.noteCoh b a d).copies = s.copies := rfl
@[simp] theorem State.noteCoh_poison (s : State) (b : Bool) (a d : Nat) : (s.noteCoh b a d).poison = s.poison := rfl
@[simp] theorem State.noteCoh_hostHeld (s : State) (b : Bool) (a d : Nat) : (s.noteCoh b a d).hostHeld = s.hostHeld := rfl
@[simp] theorem State.noteCoh_heldBy (s : State) (b : Bool) (a d : Nat) : (s.noteCoh b a d).heldBy = s.heldBy := rfl
@[simp] theorem State.noteCoh_birsp (s : State) (b : Bool) (a d : Nat) : (s.noteCoh b a d).birsp = s.birsp := rfl
@[simp] theorem State.noteCoh_msauQ (s : State) (b : Bool) (a d : Nat) : (s.noteCoh b a d).msauQ = s.msauQ := rfl
@[simp] theorem State.noteCoh_msauAt (s : State) (b : Bool) (a d : Nat) : (s.noteCoh b a d).msauAt = s.msauAt := rfl
@[simp] theorem State.noteCoh_barObjs (s : State) (b : Bool) (a d : Nat) : (s.noteCoh b a d).barObjs = s.barObjs := rfl
@[simp] theorem State.noteCoh_grans (s : State) (b : Bool) (a d : Nat) : (s.noteCoh b a d).grans = s.grans := rfl
@[simp] theorem State.noteCoh_marks (s : State) (b : Bool) (a d : Nat) : (s.noteCoh b a d).marks = s.marks := rfl
@[simp] theorem State.noteCoh_waiting (s : State) (b : Bool) (a d : Nat) : (s.noteCoh b a d).waiting = s.waiting := rfl
@[simp] theorem State.noteCoh_waitAtom (s : State) (b : Bool) (a d : Nat) : (s.noteCoh b a d).waitAtom = s.waitAtom := rfl
@[simp] theorem State.noteCoh_snoops (s : State) (b : Bool) (a d : Nat) : (s.noteCoh b a d).snoops = s.snoops := rfl
@[simp] theorem State.noteCoh_barHeld (s : State) (b : Bool) (a d : Nat) : (s.noteCoh b a d).barHeld = s.barHeld := rfl
@[simp] theorem State.noteCoh_mons (s : State) (b : Bool) (a d : Nat) : (s.noteCoh b a d).mons = s.mons := rfl
@[simp] theorem State.noteCoh_tlb (s : State) (b : Bool) (a d : Nat) : (s.noteCoh b a d).tlb = s.tlb := rfl
@[simp] theorem State.noteCoh_heat (s : State) (b : Bool) (a d : Nat) : (s.noteCoh b a d).heat = s.heat := rfl
@[simp] theorem State.noteCoh_down (s : State) (b : Bool) (a d : Nat) : (s.noteCoh b a d).down = s.down := rfl
@[simp] theorem State.noteCoh_misses (s : State) (b : Bool) (a d : Nat) : (s.noteCoh b a d).misses = s.misses := rfl
@[simp] theorem State.noteCoh_hall (s : State) (b : Bool) (a d : Nat) : (s.noteCoh b a d).hall = s.hall := rfl

/-! ### State.send -/

@[simp] theorem State.send_tick (s : State) (r : Nat) (c : MsgClass) (d : Nat) (i : Instr) : (s.send r c d i).tick = s.tick := by
  simp only [State.send, State.bump_tick, State.noteCoh_tick, State.schedule_tick, State.modRoom_tick]
@[simp] theorem State.send_boot (s : State) (r : Nat) (c : MsgClass) (d : Nat) (i : Instr) : (s.send r c d i).boot = s.boot := by
  simp only [State.send, State.bump_boot, State.noteCoh_boot, State.schedule_boot, State.modRoom_boot]
@[simp] theorem State.send_bootStop (s : State) (r : Nat) (c : MsgClass) (d : Nat) (i : Instr) : (s.send r c d i).bootStop = s.bootStop := by
  simp only [State.send, State.bump_bootStop, State.noteCoh_bootStop, State.schedule_bootStop, State.modRoom_bootStop]
@[simp] theorem State.send_warm (s : State) (r : Nat) (c : MsgClass) (d : Nat) (i : Instr) : (s.send r c d i).warm = s.warm := by
  simp only [State.send, State.bump_warm, State.noteCoh_warm, State.schedule_warm, State.modRoom_warm]
@[simp] theorem State.send_outOfService (s : State) (r : Nat) (c : MsgClass) (d : Nat) (i : Instr) : (s.send r c d i).outOfService = s.outOfService := by
  simp only [State.send, State.bump_outOfService, State.noteCoh_outOfService, State.schedule_outOfService, State.modRoom_outOfService]
@[simp] theorem State.send_detect (s : State) (r : Nat) (c : MsgClass) (d : Nat) (i : Instr) : (s.send r c d i).detect = s.detect := by
  simp only [State.send, State.bump_detect, State.noteCoh_detect, State.schedule_detect, State.modRoom_detect]
@[simp] theorem State.send_mappedRooms (s : State) (r : Nat) (c : MsgClass) (d : Nat) (i : Instr) : (s.send r c d i).mappedRooms = s.mappedRooms := by
  simp only [State.send, State.bump_mappedRooms, State.noteCoh_mappedRooms, State.schedule_mappedRooms, State.modRoom_mappedRooms]
@[simp] theorem State.send_mappedStairs (s : State) (r : Nat) (c : MsgClass) (d : Nat) (i : Instr) : (s.send r c d i).mappedStairs = s.mappedStairs := by
  simp only [State.send, State.bump_mappedStairs, State.noteCoh_mappedStairs, State.schedule_mappedStairs, State.modRoom_mappedStairs]
@[simp] theorem State.send_errCount (s : State) (r : Nat) (c : MsgClass) (d : Nat) (i : Instr) : (s.send r c d i).errCount = s.errCount := by
  simp only [State.send, State.bump_errCount, State.noteCoh_errCount, State.schedule_errCount, State.modRoom_errCount]
@[simp] theorem State.send_errSeen (s : State) (r : Nat) (c : MsgClass) (d : Nat) (i : Instr) : (s.send r c d i).errSeen = s.errSeen := by
  simp only [State.send, State.bump_errSeen, State.noteCoh_errSeen, State.schedule_errSeen, State.modRoom_errSeen]
@[simp] theorem State.send_pkgNum (s : State) (r : Nat) (c : MsgClass) (d : Nat) (i : Instr) : (s.send r c d i).pkgNum = s.pkgNum := by
  simp only [State.send, State.bump_pkgNum, State.noteCoh_pkgNum, State.schedule_pkgNum, State.modRoom_pkgNum]
@[simp] theorem State.send_firmware (s : State) (r : Nat) (c : MsgClass) (d : Nat) (i : Instr) : (s.send r c d i).firmware = s.firmware := by
  simp only [State.send, State.bump_firmware, State.noteCoh_firmware, State.schedule_firmware, State.modRoom_firmware]
@[simp] theorem State.send_phase (s : State) (r : Nat) (c : MsgClass) (d : Nat) (i : Instr) : (s.send r c d i).phase = s.phase := by
  simp only [State.send, State.bump_phase, State.noteCoh_phase, State.schedule_phase, State.modRoom_phase]
@[simp] theorem State.send_act (s : State) (r : Nat) (c : MsgClass) (d : Nat) (i : Instr) : (s.send r c d i).act = s.act := by
  simp only [State.send, State.bump_act, State.noteCoh_act, State.schedule_act, State.modRoom_act]
@[simp] theorem State.send_turn (s : State) (r : Nat) (c : MsgClass) (d : Nat) (i : Instr) : (s.send r c d i).turn = s.turn := by
  simp only [State.send, State.bump_turn, State.noteCoh_turn, State.schedule_turn, State.modRoom_turn]
@[simp] theorem State.send_seq (s : State) (r : Nat) (c : MsgClass) (d : Nat) (i : Instr) : (s.send r c d i).seq = s.seq := by
  simp only [State.send, State.bump_seq, State.noteCoh_seq, State.schedule_seq, State.modRoom_seq]
@[simp] theorem State.send_areas (s : State) (r : Nat) (c : MsgClass) (d : Nat) (i : Instr) : (s.send r c d i).areas = s.areas := by
  simp only [State.send, State.bump_areas, State.noteCoh_areas, State.schedule_areas, State.modRoom_areas]
@[simp] theorem State.send_ending (s : State) (r : Nat) (c : MsgClass) (d : Nat) (i : Instr) : (s.send r c d i).ending = s.ending := by
  simp only [State.send, State.bump_ending, State.noteCoh_ending, State.schedule_ending, State.modRoom_ending]
@[simp] theorem State.send_stairs (s : State) (r : Nat) (c : MsgClass) (d : Nat) (i : Instr) : (s.send r c d i).stairs = s.stairs := by
  simp only [State.send, State.bump_stairs, State.noteCoh_stairs, State.schedule_stairs, State.modRoom_stairs]
@[simp] theorem State.send_wings (s : State) (r : Nat) (c : MsgClass) (d : Nat) (i : Instr) : (s.send r c d i).wings = s.wings := by
  simp only [State.send, State.bump_wings, State.noteCoh_wings, State.schedule_wings, State.modRoom_wings]
@[simp] theorem State.send_mem (s : State) (r : Nat) (c : MsgClass) (d : Nat) (i : Instr) : (s.send r c d i).mem = s.mem := by
  simp only [State.send, State.bump_mem, State.noteCoh_mem, State.schedule_mem, State.modRoom_mem]
@[simp] theorem State.send_lend (s : State) (r : Nat) (c : MsgClass) (d : Nat) (i : Instr) : (s.send r c d i).lend = s.lend := by
  simp only [State.send, State.bump_lend, State.noteCoh_lend, State.schedule_lend, State.modRoom_lend]
@[simp] theorem State.send_copies (s : State) (r : Nat) (c : MsgClass) (d : Nat) (i : Instr) : (s.send r c d i).copies = s.copies := by
  simp only [State.send, State.bump_copies, State.noteCoh_copies, State.schedule_copies, State.modRoom_copies]
@[simp] theorem State.send_poison (s : State) (r : Nat) (c : MsgClass) (d : Nat) (i : Instr) : (s.send r c d i).poison = s.poison := by
  simp only [State.send, State.bump_poison, State.noteCoh_poison, State.schedule_poison, State.modRoom_poison]
@[simp] theorem State.send_hostHeld (s : State) (r : Nat) (c : MsgClass) (d : Nat) (i : Instr) : (s.send r c d i).hostHeld = s.hostHeld := by
  simp only [State.send, State.bump_hostHeld, State.noteCoh_hostHeld, State.schedule_hostHeld, State.modRoom_hostHeld]
@[simp] theorem State.send_heldBy (s : State) (r : Nat) (c : MsgClass) (d : Nat) (i : Instr) : (s.send r c d i).heldBy = s.heldBy := by
  simp only [State.send, State.bump_heldBy, State.noteCoh_heldBy, State.schedule_heldBy, State.modRoom_heldBy]
@[simp] theorem State.send_birsp (s : State) (r : Nat) (c : MsgClass) (d : Nat) (i : Instr) : (s.send r c d i).birsp = s.birsp := by
  simp only [State.send, State.bump_birsp, State.noteCoh_birsp, State.schedule_birsp, State.modRoom_birsp]
@[simp] theorem State.send_msauQ (s : State) (r : Nat) (c : MsgClass) (d : Nat) (i : Instr) : (s.send r c d i).msauQ = s.msauQ := by
  simp only [State.send, State.bump_msauQ, State.noteCoh_msauQ, State.schedule_msauQ, State.modRoom_msauQ]
@[simp] theorem State.send_msauAt (s : State) (r : Nat) (c : MsgClass) (d : Nat) (i : Instr) : (s.send r c d i).msauAt = s.msauAt := by
  simp only [State.send, State.bump_msauAt, State.noteCoh_msauAt, State.schedule_msauAt, State.modRoom_msauAt]
@[simp] theorem State.send_barObjs (s : State) (r : Nat) (c : MsgClass) (d : Nat) (i : Instr) : (s.send r c d i).barObjs = s.barObjs := by
  simp only [State.send, State.bump_barObjs, State.noteCoh_barObjs, State.schedule_barObjs, State.modRoom_barObjs]
@[simp] theorem State.send_grans (s : State) (r : Nat) (c : MsgClass) (d : Nat) (i : Instr) : (s.send r c d i).grans = s.grans := by
  simp only [State.send, State.bump_grans, State.noteCoh_grans, State.schedule_grans, State.modRoom_grans]
@[simp] theorem State.send_marks (s : State) (r : Nat) (c : MsgClass) (d : Nat) (i : Instr) : (s.send r c d i).marks = s.marks := by
  simp only [State.send, State.bump_marks, State.noteCoh_marks, State.schedule_marks, State.modRoom_marks]
@[simp] theorem State.send_waiting (s : State) (r : Nat) (c : MsgClass) (d : Nat) (i : Instr) : (s.send r c d i).waiting = s.waiting := by
  simp only [State.send, State.bump_waiting, State.noteCoh_waiting, State.schedule_waiting, State.modRoom_waiting]
@[simp] theorem State.send_waitAtom (s : State) (r : Nat) (c : MsgClass) (d : Nat) (i : Instr) : (s.send r c d i).waitAtom = s.waitAtom := by
  simp only [State.send, State.bump_waitAtom, State.noteCoh_waitAtom, State.schedule_waitAtom, State.modRoom_waitAtom]
@[simp] theorem State.send_snoops (s : State) (r : Nat) (c : MsgClass) (d : Nat) (i : Instr) : (s.send r c d i).snoops = s.snoops := by
  simp only [State.send, State.bump_snoops, State.noteCoh_snoops, State.schedule_snoops, State.modRoom_snoops]
@[simp] theorem State.send_barHeld (s : State) (r : Nat) (c : MsgClass) (d : Nat) (i : Instr) : (s.send r c d i).barHeld = s.barHeld := by
  simp only [State.send, State.bump_barHeld, State.noteCoh_barHeld, State.schedule_barHeld, State.modRoom_barHeld]
@[simp] theorem State.send_mons (s : State) (r : Nat) (c : MsgClass) (d : Nat) (i : Instr) : (s.send r c d i).mons = s.mons := by
  simp only [State.send, State.bump_mons, State.noteCoh_mons, State.schedule_mons, State.modRoom_mons]
@[simp] theorem State.send_tlb (s : State) (r : Nat) (c : MsgClass) (d : Nat) (i : Instr) : (s.send r c d i).tlb = s.tlb := by
  simp only [State.send, State.bump_tlb, State.noteCoh_tlb, State.schedule_tlb, State.modRoom_tlb]
@[simp] theorem State.send_heat (s : State) (r : Nat) (c : MsgClass) (d : Nat) (i : Instr) : (s.send r c d i).heat = s.heat := by
  simp only [State.send, State.bump_heat, State.noteCoh_heat, State.schedule_heat, State.modRoom_heat]
@[simp] theorem State.send_down (s : State) (r : Nat) (c : MsgClass) (d : Nat) (i : Instr) : (s.send r c d i).down = s.down := by
  simp only [State.send, State.bump_down, State.noteCoh_down, State.schedule_down, State.modRoom_down]
@[simp] theorem State.send_misses (s : State) (r : Nat) (c : MsgClass) (d : Nat) (i : Instr) : (s.send r c d i).misses = s.misses := by
  simp only [State.send, State.bump_misses, State.noteCoh_misses, State.schedule_misses, State.modRoom_misses]
@[simp] theorem State.send_hall (s : State) (r : Nat) (c : MsgClass) (d : Nat) (i : Instr) : (s.send r c d i).hall = s.hall := by
  simp only [State.send, State.bump_hall, State.noteCoh_hall, State.schedule_hall, State.modRoom_hall]

/-! ### The fields that they change -/

@[simp] theorem State.modHall_hall (s : State) (f : Hall → Hall) : (s.modHall f).hall = f s.hall := rfl
@[simp] theorem State.bump_fresh (s : State) : (s.bump).fresh = s.fresh + 1 := rfl
@[simp] theorem State.nextId_seq (s : State) : (s.nextId).seq = s.seq + 1 := rfl
@[simp] theorem State.schedule_agenda (s : State) (d : Nat) (i : Instr) : (s.schedule d i).agenda = agendaInsert s.agenda d i := rfl
@[simp] theorem State.write_mem (s : State) (k n v : Nat) : (s.write k n v).mem = s.mem.write k n v := rfl

/-! ### Room.setX -/

@[simp] theorem Room.setX_run (x : Room) (r : Reg) (v : W64) : (x.setX r v).run = x.run := by unfold Room.setX; split <;> rfl
@[simp] theorem Room.setX_lastJob (x : Room) (r : Reg) (v : W64) : (x.setX r v).lastJob = x.lastJob := by unfold Room.setX; split <;> rfl
@[simp] theorem Room.setX_claim (x : Room) (r : Reg) (v : W64) : (x.setX r v).claim = x.claim := by unfold Room.setX; split <;> rfl
@[simp] theorem Room.setX_mode (x : Room) (r : Reg) (v : W64) : (x.setX r v).mode = x.mode := by unfold Room.setX; split <;> rfl
@[simp] theorem Room.setX_pc (x : Room) (r : Reg) (v : W64) : (x.setX r v).pc = x.pc := by unfold Room.setX; split <;> rfl
@[simp] theorem Room.setX_line (x : Room) (r : Reg) (v : W64) : (x.setX r v).line = x.line := by unfold Room.setX; split <;> rfl
@[simp] theorem Room.setX_nextDispatch (x : Room) (r : Reg) (v : W64) : (x.setX r v).nextDispatch = x.nextDispatch := by unfold Room.setX; split <;> rfl
@[simp] theorem Room.setX_hold (x : Room) (r : Reg) (v : W64) : (x.setX r v).hold = x.hold := by unfold Room.setX; split <;> rfl
@[simp] theorem Room.setX_f (x : Room) (r : Reg) (v : W64) : (x.setX r v).f = x.f := by unfold Room.setX; split <;> rfl
@[simp] theorem Room.setX_outs (x : Room) (r : Reg) (v : W64) : (x.setX r v).outs = x.outs := by unfold Room.setX; split <;> rfl
@[simp] theorem Room.setX_late (x : Room) (r : Reg) (v : W64) : (x.setX r v).late = x.late := by unfold Room.setX; split <;> rfl
@[simp] theorem Room.setX_misuse (x : Room) (r : Reg) (v : W64) : (x.setX r v).misuse = x.misuse := by unfold Room.setX; split <;> rfl
@[simp] theorem Room.setX_csr (x : Room) (r : Reg) (v : W64) : (x.setX r v).csr = x.csr := by unfold Room.setX; split <;> rfl
@[simp] theorem Room.setX_qslip (x : Room) (r : Reg) (v : W64) : (x.setX r v).qslip = x.qslip := by unfold Room.setX; split <;> rfl
@[simp] theorem Room.setX_qwmark (x : Room) (r : Reg) (v : W64) : (x.setX r v).qwmark = x.qwmark := by unfold Room.setX; split <;> rfl
@[simp] theorem Room.setX_cqTry (x : Room) (r : Reg) (v : W64) : (x.setX r v).cqTry = x.cqTry := by unfold Room.setX; split <;> rfl
@[simp] theorem Room.setX_vflags (x : Room) (r : Reg) (v : W64) : (x.setX r v).vflags = x.vflags := by unfold Room.setX; split <;> rfl
@[simp] theorem Room.setX_vflNew (x : Room) (r : Reg) (v : W64) : (x.setX r v).vflNew = x.vflNew := by unfold Room.setX; split <;> rfl
@[simp] theorem Room.setX_bankfmt (x : Room) (r : Reg) (v : W64) : (x.setX r v).bankfmt = x.bankfmt := by unfold Room.setX; split <;> rfl
@[simp] theorem Room.setX_bconf (x : Room) (r : Reg) (v : W64) : (x.setX r v).bconf = x.bconf := by unfold Room.setX; split <;> rfl
@[simp] theorem Room.setX_hz (x : Room) (r : Reg) (v : W64) : (x.setX r v).hz = x.hz := by unfold Room.setX; split <;> rfl
@[simp] theorem Room.setX_stores (x : Room) (r : Reg) (v : W64) : (x.setX r v).stores = x.stores := by unfold Room.setX; split <;> rfl
@[simp] theorem Room.setX_keybase (x : Room) (r : Reg) (v : W64) : (x.setX r v).keybase = x.keybase := by unfold Room.setX; split <;> rfl
@[simp] theorem Room.setX_keyctl (x : Room) (r : Reg) (v : W64) : (x.setX r v).keyctl = x.keyctl := by unfold Room.setX; split <;> rfl
@[simp] theorem Room.setX_keyRes (x : Room) (r : Reg) (v : W64) : (x.setX r v).keyRes = x.keyRes := by unfold Room.setX; split <;> rfl
@[simp] theorem Room.setX_barrec (x : Room) (r : Reg) (v : W64) : (x.setX r v).barrec = x.barrec := by unfold Room.setX; split <;> rfl
@[simp] theorem Room.setX_qseq0 (x : Room) (r : Reg) (v : W64) : (x.setX r v).qseq0 = x.qseq0 := by unfold Room.setX; split <;> rfl
@[simp] theorem Room.setX_qseq1 (x : Room) (r : Reg) (v : W64) : (x.setX r v).qseq1 = x.qseq1 := by unfold Room.setX; split <;> rfl
@[simp] theorem Room.setX_qseq2 (x : Room) (r : Reg) (v : W64) : (x.setX r v).qseq2 = x.qseq2 := by unfold Room.setX; split <;> rfl
@[simp] theorem Room.setX_faultrec (x : Room) (r : Reg) (v : W64) : (x.setX r v).faultrec = x.faultrec := by unfold Room.setX; split <;> rfl
@[simp] theorem Room.setX_disp (x : Room) (r : Reg) (v : W64) : (x.setX r v).disp = x.disp := by unfold Room.setX; split <;> rfl
@[simp] theorem Room.setX_ql (x : Room) (r : Reg) (v : W64) : (x.setX r v).ql = x.ql := by unfold Room.setX; split <;> rfl
@[simp] theorem Room.setX_qv (x : Room) (r : Reg) (v : W64) : (x.setX r v).qv = x.qv := by unfold Room.setX; split <;> rfl
@[simp] theorem Room.setX_qs (x : Room) (r : Reg) (v : W64) : (x.setX r v).qs = x.qs := by unfold Room.setX; split <;> rfl
@[simp] theorem Room.setX_qm (x : Room) (r : Reg) (v : W64) : (x.setX r v).qm = x.qm := by unfold Room.setX; split <;> rfl
@[simp] theorem Room.setX_qc (x : Room) (r : Reg) (v : W64) : (x.setX r v).qc = x.qc := by unfold Room.setX; split <;> rfl
@[simp] theorem Room.setX_tok (x : Room) (r : Reg) (v : W64) : (x.setX r v).tok = x.tok := by unfold Room.setX; split <;> rfl
@[simp] theorem Room.setX_tokS (x : Room) (r : Reg) (v : W64) : (x.setX r v).tokS = x.tokS := by unfold Room.setX; split <;> rfl
@[simp] theorem Room.setX_rel (x : Room) (r : Reg) (v : W64) : (x.setX r v).rel = x.rel := by unfold Room.setX; split <;> rfl
@[simp] theorem Room.setX_v (x : Room) (r : Reg) (v : W64) : (x.setX r v).v = x.v := by unfold Room.setX; split <;> rfl
@[simp] theorem Room.setX_k (x : Room) (r : Reg) (v : W64) : (x.setX r v).k = x.k := by unfold Room.setX; split <;> rfl
@[simp] theorem Room.setX_z (x : Room) (r : Reg) (v : W64) : (x.setX r v).z = x.z := by unfold Room.setX; split <;> rfl
@[simp] theorem Room.setX_w (x : Room) (r : Reg) (v : W64) : (x.setX r v).w = x.w := by unfold Room.setX; split <;> rfl
@[simp] theorem Room.setX_lay (x : Room) (r : Reg) (v : W64) : (x.setX r v).lay = x.lay := by unfold Room.setX; split <;> rfl
@[simp] theorem Room.setX_nestS (x : Room) (r : Reg) (v : W64) : (x.setX r v).nestS = x.nestS := by unfold Room.setX; split <;> rfl
@[simp] theorem Room.setX_recS (x : Room) (r : Reg) (v : W64) : (x.setX r v).recS = x.recS := by unfold Room.setX; split <;> rfl
@[simp] theorem Room.setX_nestA (x : Room) (r : Reg) (v : W64) : (x.setX r v).nestA = x.nestA := by unfold Room.setX; split <;> rfl
@[simp] theorem Room.setX_recA (x : Room) (r : Reg) (v : W64) : (x.setX r v).recA = x.recA := by unfold Room.setX; split <;> rfl
@[simp] theorem Room.setX_gather (x : Room) (r : Reg) (v : W64) : (x.setX r v).gather = x.gather := by unfold Room.setX; split <;> rfl
@[simp] theorem Room.setX_bnet (x : Room) (r : Reg) (v : W64) : (x.setX r v).bnet = x.bnet := by unfold Room.setX; split <;> rfl
@[simp] theorem Room.setX_scales (x : Room) (r : Reg) (v : W64) : (x.setX r v).scales = x.scales := by unfold Room.setX; split <;> rfl
@[simp] theorem Room.setX_iq (x : Room) (r : Reg) (v : W64) : (x.setX r v).iq = x.iq := by unfold Room.setX; split <;> rfl
@[simp] theorem Room.setX_oq (x : Room) (r : Reg) (v : W64) : (x.setX r v).oq = x.oq := by unfold Room.setX; split <;> rfl
@[simp] theorem Room.setX_cq (x : Room) (r : Reg) (v : W64) : (x.setX r v).cq = x.cq := by unfold Room.setX; split <;> rfl
@[simp] theorem Room.setX_cqRes (x : Room) (r : Reg) (v : W64) : (x.setX r v).cqRes = x.cqRes := by unfold Room.setX; split <;> rfl
@[simp] theorem Room.setX_posts (x : Room) (r : Reg) (v : W64) : (x.setX r v).posts = x.posts := by unfold Room.setX; split <;> rfl
@[simp] theorem Room.setX_tag (x : Room) (r : Reg) (v : W64) : (x.setX r v).tag = x.tag := by unfold Room.setX; split <;> rfl
@[simp] theorem Room.setX_mon (x : Room) (r : Reg) (v : W64) : (x.setX r v).mon = x.mon := by unfold Room.setX; split <;> rfl
@[simp] theorem Room.setX_monWoke (x : Room) (r : Reg) (v : W64) : (x.setX r v).monWoke = x.monWoke := by unfold Room.setX; split <;> rfl
@[simp] theorem Room.setX_resv (x : Room) (r : Reg) (v : W64) : (x.setX r v).resv = x.resv := by unfold Room.setX; split <;> rfl
@[simp] theorem Room.setX_scFails (x : Room) (r : Reg) (v : W64) : (x.setX r v).scFails = x.scFails := by unfold Room.setX; split <;> rfl
@[simp] theorem Room.setX_origins (x : Room) (r : Reg) (v : W64) : (x.setX r v).origins = x.origins := by unfold Room.setX; split <;> rfl
@[simp] theorem Room.setX_pre (x : Room) (r : Reg) (v : W64) : (x.setX r v).pre = x.pre := by unfold Room.setX; split <;> rfl
@[simp] theorem Room.setX_mHeld (x : Room) (r : Reg) (v : W64) : (x.setX r v).mHeld = x.mHeld := by unfold Room.setX; split <;> rfl
@[simp] theorem Room.setX_mSoon (x : Room) (r : Reg) (v : W64) : (x.setX r v).mSoon = x.mSoon := by unfold Room.setX; split <;> rfl
@[simp] theorem Room.setX_banks (x : Room) (r : Reg) (v : W64) : (x.setX r v).banks = x.banks := by unfold Room.setX; split <;> rfl
@[simp] theorem Room.setX_plans (x : Room) (r : Reg) (v : W64) : (x.setX r v).plans = x.plans := by unfold Room.setX; split <;> rfl
@[simp] theorem Room.setX_lastDue (x : Room) (r : Reg) (v : W64) : (x.setX r v).lastDue = x.lastDue := by unfold Room.setX; split <;> rfl
@[simp] theorem Room.setX_mLast (x : Room) (r : Reg) (v : W64) : (x.setX r v).mLast = x.mLast := by unfold Room.setX; split <;> rfl
@[simp] theorem Room.setX_dying (x : Room) (r : Reg) (v : W64) : (x.setX r v).dying = x.dying := by unfold Room.setX; split <;> rfl
@[simp] theorem Room.setX_freeFrom (x : Room) (r : Reg) (v : W64) : (x.setX r v).freeFrom = x.freeFrom := by unfold Room.setX; split <;> rfl

/-! ### Room.setF -/

@[simp] theorem Room.setF_run (x : Room) (r : Reg) (v : W64) : (x.setF r v).run = x.run := rfl
@[simp] theorem Room.setF_lastJob (x : Room) (r : Reg) (v : W64) : (x.setF r v).lastJob = x.lastJob := rfl
@[simp] theorem Room.setF_claim (x : Room) (r : Reg) (v : W64) : (x.setF r v).claim = x.claim := rfl
@[simp] theorem Room.setF_mode (x : Room) (r : Reg) (v : W64) : (x.setF r v).mode = x.mode := rfl
@[simp] theorem Room.setF_pc (x : Room) (r : Reg) (v : W64) : (x.setF r v).pc = x.pc := rfl
@[simp] theorem Room.setF_line (x : Room) (r : Reg) (v : W64) : (x.setF r v).line = x.line := rfl
@[simp] theorem Room.setF_nextDispatch (x : Room) (r : Reg) (v : W64) : (x.setF r v).nextDispatch = x.nextDispatch := rfl
@[simp] theorem Room.setF_hold (x : Room) (r : Reg) (v : W64) : (x.setF r v).hold = x.hold := rfl
@[simp] theorem Room.setF_x (x : Room) (r : Reg) (v : W64) : (x.setF r v).x = x.x := rfl
@[simp] theorem Room.setF_outs (x : Room) (r : Reg) (v : W64) : (x.setF r v).outs = x.outs := rfl
@[simp] theorem Room.setF_late (x : Room) (r : Reg) (v : W64) : (x.setF r v).late = x.late := rfl
@[simp] theorem Room.setF_misuse (x : Room) (r : Reg) (v : W64) : (x.setF r v).misuse = x.misuse := rfl
@[simp] theorem Room.setF_csr (x : Room) (r : Reg) (v : W64) : (x.setF r v).csr = x.csr := rfl
@[simp] theorem Room.setF_qslip (x : Room) (r : Reg) (v : W64) : (x.setF r v).qslip = x.qslip := rfl
@[simp] theorem Room.setF_qwmark (x : Room) (r : Reg) (v : W64) : (x.setF r v).qwmark = x.qwmark := rfl
@[simp] theorem Room.setF_cqTry (x : Room) (r : Reg) (v : W64) : (x.setF r v).cqTry = x.cqTry := rfl
@[simp] theorem Room.setF_vflags (x : Room) (r : Reg) (v : W64) : (x.setF r v).vflags = x.vflags := rfl
@[simp] theorem Room.setF_vflNew (x : Room) (r : Reg) (v : W64) : (x.setF r v).vflNew = x.vflNew := rfl
@[simp] theorem Room.setF_bankfmt (x : Room) (r : Reg) (v : W64) : (x.setF r v).bankfmt = x.bankfmt := rfl
@[simp] theorem Room.setF_bconf (x : Room) (r : Reg) (v : W64) : (x.setF r v).bconf = x.bconf := rfl
@[simp] theorem Room.setF_hz (x : Room) (r : Reg) (v : W64) : (x.setF r v).hz = x.hz := rfl
@[simp] theorem Room.setF_stores (x : Room) (r : Reg) (v : W64) : (x.setF r v).stores = x.stores := rfl
@[simp] theorem Room.setF_keybase (x : Room) (r : Reg) (v : W64) : (x.setF r v).keybase = x.keybase := rfl
@[simp] theorem Room.setF_keyctl (x : Room) (r : Reg) (v : W64) : (x.setF r v).keyctl = x.keyctl := rfl
@[simp] theorem Room.setF_keyRes (x : Room) (r : Reg) (v : W64) : (x.setF r v).keyRes = x.keyRes := rfl
@[simp] theorem Room.setF_barrec (x : Room) (r : Reg) (v : W64) : (x.setF r v).barrec = x.barrec := rfl
@[simp] theorem Room.setF_qseq0 (x : Room) (r : Reg) (v : W64) : (x.setF r v).qseq0 = x.qseq0 := rfl
@[simp] theorem Room.setF_qseq1 (x : Room) (r : Reg) (v : W64) : (x.setF r v).qseq1 = x.qseq1 := rfl
@[simp] theorem Room.setF_qseq2 (x : Room) (r : Reg) (v : W64) : (x.setF r v).qseq2 = x.qseq2 := rfl
@[simp] theorem Room.setF_faultrec (x : Room) (r : Reg) (v : W64) : (x.setF r v).faultrec = x.faultrec := rfl
@[simp] theorem Room.setF_disp (x : Room) (r : Reg) (v : W64) : (x.setF r v).disp = x.disp := rfl
@[simp] theorem Room.setF_ql (x : Room) (r : Reg) (v : W64) : (x.setF r v).ql = x.ql := rfl
@[simp] theorem Room.setF_qv (x : Room) (r : Reg) (v : W64) : (x.setF r v).qv = x.qv := rfl
@[simp] theorem Room.setF_qs (x : Room) (r : Reg) (v : W64) : (x.setF r v).qs = x.qs := rfl
@[simp] theorem Room.setF_qm (x : Room) (r : Reg) (v : W64) : (x.setF r v).qm = x.qm := rfl
@[simp] theorem Room.setF_qc (x : Room) (r : Reg) (v : W64) : (x.setF r v).qc = x.qc := rfl
@[simp] theorem Room.setF_tok (x : Room) (r : Reg) (v : W64) : (x.setF r v).tok = x.tok := rfl
@[simp] theorem Room.setF_tokS (x : Room) (r : Reg) (v : W64) : (x.setF r v).tokS = x.tokS := rfl
@[simp] theorem Room.setF_rel (x : Room) (r : Reg) (v : W64) : (x.setF r v).rel = x.rel := rfl
@[simp] theorem Room.setF_v (x : Room) (r : Reg) (v : W64) : (x.setF r v).v = x.v := rfl
@[simp] theorem Room.setF_k (x : Room) (r : Reg) (v : W64) : (x.setF r v).k = x.k := rfl
@[simp] theorem Room.setF_z (x : Room) (r : Reg) (v : W64) : (x.setF r v).z = x.z := rfl
@[simp] theorem Room.setF_w (x : Room) (r : Reg) (v : W64) : (x.setF r v).w = x.w := rfl
@[simp] theorem Room.setF_lay (x : Room) (r : Reg) (v : W64) : (x.setF r v).lay = x.lay := rfl
@[simp] theorem Room.setF_nestS (x : Room) (r : Reg) (v : W64) : (x.setF r v).nestS = x.nestS := rfl
@[simp] theorem Room.setF_recS (x : Room) (r : Reg) (v : W64) : (x.setF r v).recS = x.recS := rfl
@[simp] theorem Room.setF_nestA (x : Room) (r : Reg) (v : W64) : (x.setF r v).nestA = x.nestA := rfl
@[simp] theorem Room.setF_recA (x : Room) (r : Reg) (v : W64) : (x.setF r v).recA = x.recA := rfl
@[simp] theorem Room.setF_gather (x : Room) (r : Reg) (v : W64) : (x.setF r v).gather = x.gather := rfl
@[simp] theorem Room.setF_bnet (x : Room) (r : Reg) (v : W64) : (x.setF r v).bnet = x.bnet := rfl
@[simp] theorem Room.setF_scales (x : Room) (r : Reg) (v : W64) : (x.setF r v).scales = x.scales := rfl
@[simp] theorem Room.setF_iq (x : Room) (r : Reg) (v : W64) : (x.setF r v).iq = x.iq := rfl
@[simp] theorem Room.setF_oq (x : Room) (r : Reg) (v : W64) : (x.setF r v).oq = x.oq := rfl
@[simp] theorem Room.setF_cq (x : Room) (r : Reg) (v : W64) : (x.setF r v).cq = x.cq := rfl
@[simp] theorem Room.setF_cqRes (x : Room) (r : Reg) (v : W64) : (x.setF r v).cqRes = x.cqRes := rfl
@[simp] theorem Room.setF_posts (x : Room) (r : Reg) (v : W64) : (x.setF r v).posts = x.posts := rfl
@[simp] theorem Room.setF_tag (x : Room) (r : Reg) (v : W64) : (x.setF r v).tag = x.tag := rfl
@[simp] theorem Room.setF_mon (x : Room) (r : Reg) (v : W64) : (x.setF r v).mon = x.mon := rfl
@[simp] theorem Room.setF_monWoke (x : Room) (r : Reg) (v : W64) : (x.setF r v).monWoke = x.monWoke := rfl
@[simp] theorem Room.setF_resv (x : Room) (r : Reg) (v : W64) : (x.setF r v).resv = x.resv := rfl
@[simp] theorem Room.setF_scFails (x : Room) (r : Reg) (v : W64) : (x.setF r v).scFails = x.scFails := rfl
@[simp] theorem Room.setF_origins (x : Room) (r : Reg) (v : W64) : (x.setF r v).origins = x.origins := rfl
@[simp] theorem Room.setF_pre (x : Room) (r : Reg) (v : W64) : (x.setF r v).pre = x.pre := rfl
@[simp] theorem Room.setF_mHeld (x : Room) (r : Reg) (v : W64) : (x.setF r v).mHeld = x.mHeld := rfl
@[simp] theorem Room.setF_mSoon (x : Room) (r : Reg) (v : W64) : (x.setF r v).mSoon = x.mSoon := rfl
@[simp] theorem Room.setF_banks (x : Room) (r : Reg) (v : W64) : (x.setF r v).banks = x.banks := rfl
@[simp] theorem Room.setF_plans (x : Room) (r : Reg) (v : W64) : (x.setF r v).plans = x.plans := rfl
@[simp] theorem Room.setF_lastDue (x : Room) (r : Reg) (v : W64) : (x.setF r v).lastDue = x.lastDue := rfl
@[simp] theorem Room.setF_mLast (x : Room) (r : Reg) (v : W64) : (x.setF r v).mLast = x.mLast := rfl
@[simp] theorem Room.setF_dying (x : Room) (r : Reg) (v : W64) : (x.setF r v).dying = x.dying := rfl
@[simp] theorem Room.setF_freeFrom (x : Room) (r : Reg) (v : W64) : (x.setF r v).freeFrom = x.freeFrom := rfl

/-! ### Room.setQueue -/

@[simp] theorem Room.setQueue_run (x : Room) (e : Eng) (q : Queue) : (x.setQueue e q).run = x.run := by cases e <;> rfl
@[simp] theorem Room.setQueue_lastJob (x : Room) (e : Eng) (q : Queue) : (x.setQueue e q).lastJob = x.lastJob := by cases e <;> rfl
@[simp] theorem Room.setQueue_claim (x : Room) (e : Eng) (q : Queue) : (x.setQueue e q).claim = x.claim := by cases e <;> rfl
@[simp] theorem Room.setQueue_mode (x : Room) (e : Eng) (q : Queue) : (x.setQueue e q).mode = x.mode := by cases e <;> rfl
@[simp] theorem Room.setQueue_pc (x : Room) (e : Eng) (q : Queue) : (x.setQueue e q).pc = x.pc := by cases e <;> rfl
@[simp] theorem Room.setQueue_line (x : Room) (e : Eng) (q : Queue) : (x.setQueue e q).line = x.line := by cases e <;> rfl
@[simp] theorem Room.setQueue_nextDispatch (x : Room) (e : Eng) (q : Queue) : (x.setQueue e q).nextDispatch = x.nextDispatch := by cases e <;> rfl
@[simp] theorem Room.setQueue_hold (x : Room) (e : Eng) (q : Queue) : (x.setQueue e q).hold = x.hold := by cases e <;> rfl
@[simp] theorem Room.setQueue_x (x : Room) (e : Eng) (q : Queue) : (x.setQueue e q).x = x.x := by cases e <;> rfl
@[simp] theorem Room.setQueue_f (x : Room) (e : Eng) (q : Queue) : (x.setQueue e q).f = x.f := by cases e <;> rfl
@[simp] theorem Room.setQueue_outs (x : Room) (e : Eng) (q : Queue) : (x.setQueue e q).outs = x.outs := by cases e <;> rfl
@[simp] theorem Room.setQueue_late (x : Room) (e : Eng) (q : Queue) : (x.setQueue e q).late = x.late := by cases e <;> rfl
@[simp] theorem Room.setQueue_misuse (x : Room) (e : Eng) (q : Queue) : (x.setQueue e q).misuse = x.misuse := by cases e <;> rfl
@[simp] theorem Room.setQueue_csr (x : Room) (e : Eng) (q : Queue) : (x.setQueue e q).csr = x.csr := by cases e <;> rfl
@[simp] theorem Room.setQueue_qslip (x : Room) (e : Eng) (q : Queue) : (x.setQueue e q).qslip = x.qslip := by cases e <;> rfl
@[simp] theorem Room.setQueue_qwmark (x : Room) (e : Eng) (q : Queue) : (x.setQueue e q).qwmark = x.qwmark := by cases e <;> rfl
@[simp] theorem Room.setQueue_cqTry (x : Room) (e : Eng) (q : Queue) : (x.setQueue e q).cqTry = x.cqTry := by cases e <;> rfl
@[simp] theorem Room.setQueue_vflags (x : Room) (e : Eng) (q : Queue) : (x.setQueue e q).vflags = x.vflags := by cases e <;> rfl
@[simp] theorem Room.setQueue_vflNew (x : Room) (e : Eng) (q : Queue) : (x.setQueue e q).vflNew = x.vflNew := by cases e <;> rfl
@[simp] theorem Room.setQueue_bankfmt (x : Room) (e : Eng) (q : Queue) : (x.setQueue e q).bankfmt = x.bankfmt := by cases e <;> rfl
@[simp] theorem Room.setQueue_bconf (x : Room) (e : Eng) (q : Queue) : (x.setQueue e q).bconf = x.bconf := by cases e <;> rfl
@[simp] theorem Room.setQueue_hz (x : Room) (e : Eng) (q : Queue) : (x.setQueue e q).hz = x.hz := by cases e <;> rfl
@[simp] theorem Room.setQueue_stores (x : Room) (e : Eng) (q : Queue) : (x.setQueue e q).stores = x.stores := by cases e <;> rfl
@[simp] theorem Room.setQueue_keybase (x : Room) (e : Eng) (q : Queue) : (x.setQueue e q).keybase = x.keybase := by cases e <;> rfl
@[simp] theorem Room.setQueue_keyctl (x : Room) (e : Eng) (q : Queue) : (x.setQueue e q).keyctl = x.keyctl := by cases e <;> rfl
@[simp] theorem Room.setQueue_keyRes (x : Room) (e : Eng) (q : Queue) : (x.setQueue e q).keyRes = x.keyRes := by cases e <;> rfl
@[simp] theorem Room.setQueue_barrec (x : Room) (e : Eng) (q : Queue) : (x.setQueue e q).barrec = x.barrec := by cases e <;> rfl
@[simp] theorem Room.setQueue_qseq0 (x : Room) (e : Eng) (q : Queue) : (x.setQueue e q).qseq0 = x.qseq0 := by cases e <;> rfl
@[simp] theorem Room.setQueue_qseq1 (x : Room) (e : Eng) (q : Queue) : (x.setQueue e q).qseq1 = x.qseq1 := by cases e <;> rfl
@[simp] theorem Room.setQueue_qseq2 (x : Room) (e : Eng) (q : Queue) : (x.setQueue e q).qseq2 = x.qseq2 := by cases e <;> rfl
@[simp] theorem Room.setQueue_faultrec (x : Room) (e : Eng) (q : Queue) : (x.setQueue e q).faultrec = x.faultrec := by cases e <;> rfl
@[simp] theorem Room.setQueue_disp (x : Room) (e : Eng) (q : Queue) : (x.setQueue e q).disp = x.disp := by cases e <;> rfl
@[simp] theorem Room.setQueue_tok (x : Room) (e : Eng) (q : Queue) : (x.setQueue e q).tok = x.tok := by cases e <;> rfl
@[simp] theorem Room.setQueue_tokS (x : Room) (e : Eng) (q : Queue) : (x.setQueue e q).tokS = x.tokS := by cases e <;> rfl
@[simp] theorem Room.setQueue_rel (x : Room) (e : Eng) (q : Queue) : (x.setQueue e q).rel = x.rel := by cases e <;> rfl
@[simp] theorem Room.setQueue_v (x : Room) (e : Eng) (q : Queue) : (x.setQueue e q).v = x.v := by cases e <;> rfl
@[simp] theorem Room.setQueue_k (x : Room) (e : Eng) (q : Queue) : (x.setQueue e q).k = x.k := by cases e <;> rfl
@[simp] theorem Room.setQueue_z (x : Room) (e : Eng) (q : Queue) : (x.setQueue e q).z = x.z := by cases e <;> rfl
@[simp] theorem Room.setQueue_w (x : Room) (e : Eng) (q : Queue) : (x.setQueue e q).w = x.w := by cases e <;> rfl
@[simp] theorem Room.setQueue_lay (x : Room) (e : Eng) (q : Queue) : (x.setQueue e q).lay = x.lay := by cases e <;> rfl
@[simp] theorem Room.setQueue_nestS (x : Room) (e : Eng) (q : Queue) : (x.setQueue e q).nestS = x.nestS := by cases e <;> rfl
@[simp] theorem Room.setQueue_recS (x : Room) (e : Eng) (q : Queue) : (x.setQueue e q).recS = x.recS := by cases e <;> rfl
@[simp] theorem Room.setQueue_nestA (x : Room) (e : Eng) (q : Queue) : (x.setQueue e q).nestA = x.nestA := by cases e <;> rfl
@[simp] theorem Room.setQueue_recA (x : Room) (e : Eng) (q : Queue) : (x.setQueue e q).recA = x.recA := by cases e <;> rfl
@[simp] theorem Room.setQueue_gather (x : Room) (e : Eng) (q : Queue) : (x.setQueue e q).gather = x.gather := by cases e <;> rfl
@[simp] theorem Room.setQueue_bnet (x : Room) (e : Eng) (q : Queue) : (x.setQueue e q).bnet = x.bnet := by cases e <;> rfl
@[simp] theorem Room.setQueue_scales (x : Room) (e : Eng) (q : Queue) : (x.setQueue e q).scales = x.scales := by cases e <;> rfl
@[simp] theorem Room.setQueue_iq (x : Room) (e : Eng) (q : Queue) : (x.setQueue e q).iq = x.iq := by cases e <;> rfl
@[simp] theorem Room.setQueue_oq (x : Room) (e : Eng) (q : Queue) : (x.setQueue e q).oq = x.oq := by cases e <;> rfl
@[simp] theorem Room.setQueue_cq (x : Room) (e : Eng) (q : Queue) : (x.setQueue e q).cq = x.cq := by cases e <;> rfl
@[simp] theorem Room.setQueue_cqRes (x : Room) (e : Eng) (q : Queue) : (x.setQueue e q).cqRes = x.cqRes := by cases e <;> rfl
@[simp] theorem Room.setQueue_posts (x : Room) (e : Eng) (q : Queue) : (x.setQueue e q).posts = x.posts := by cases e <;> rfl
@[simp] theorem Room.setQueue_tag (x : Room) (e : Eng) (q : Queue) : (x.setQueue e q).tag = x.tag := by cases e <;> rfl
@[simp] theorem Room.setQueue_mon (x : Room) (e : Eng) (q : Queue) : (x.setQueue e q).mon = x.mon := by cases e <;> rfl
@[simp] theorem Room.setQueue_monWoke (x : Room) (e : Eng) (q : Queue) : (x.setQueue e q).monWoke = x.monWoke := by cases e <;> rfl
@[simp] theorem Room.setQueue_resv (x : Room) (e : Eng) (q : Queue) : (x.setQueue e q).resv = x.resv := by cases e <;> rfl
@[simp] theorem Room.setQueue_scFails (x : Room) (e : Eng) (q : Queue) : (x.setQueue e q).scFails = x.scFails := by cases e <;> rfl
@[simp] theorem Room.setQueue_origins (x : Room) (e : Eng) (q : Queue) : (x.setQueue e q).origins = x.origins := by cases e <;> rfl
@[simp] theorem Room.setQueue_pre (x : Room) (e : Eng) (q : Queue) : (x.setQueue e q).pre = x.pre := by cases e <;> rfl
@[simp] theorem Room.setQueue_mHeld (x : Room) (e : Eng) (q : Queue) : (x.setQueue e q).mHeld = x.mHeld := by cases e <;> rfl
@[simp] theorem Room.setQueue_mSoon (x : Room) (e : Eng) (q : Queue) : (x.setQueue e q).mSoon = x.mSoon := by cases e <;> rfl
@[simp] theorem Room.setQueue_banks (x : Room) (e : Eng) (q : Queue) : (x.setQueue e q).banks = x.banks := by cases e <;> rfl
@[simp] theorem Room.setQueue_plans (x : Room) (e : Eng) (q : Queue) : (x.setQueue e q).plans = x.plans := by cases e <;> rfl
@[simp] theorem Room.setQueue_lastDue (x : Room) (e : Eng) (q : Queue) : (x.setQueue e q).lastDue = x.lastDue := by cases e <;> rfl
@[simp] theorem Room.setQueue_mLast (x : Room) (e : Eng) (q : Queue) : (x.setQueue e q).mLast = x.mLast := by cases e <;> rfl
@[simp] theorem Room.setQueue_dying (x : Room) (e : Eng) (q : Queue) : (x.setQueue e q).dying = x.dying := by cases e <;> rfl
@[simp] theorem Room.setQueue_freeFrom (x : Room) (e : Eng) (q : Queue) : (x.setQueue e q).freeFrom = x.freeFrom := by cases e <;> rfl

/-! ### Room.retire -/

@[simp] theorem Room.retire_run (x : Room) (t : Nat) : (x.retire t).run = x.run := rfl
@[simp] theorem Room.retire_lastJob (x : Room) (t : Nat) : (x.retire t).lastJob = x.lastJob := rfl
@[simp] theorem Room.retire_claim (x : Room) (t : Nat) : (x.retire t).claim = x.claim := rfl
@[simp] theorem Room.retire_mode (x : Room) (t : Nat) : (x.retire t).mode = x.mode := rfl
@[simp] theorem Room.retire_line (x : Room) (t : Nat) : (x.retire t).line = x.line := rfl
@[simp] theorem Room.retire_x (x : Room) (t : Nat) : (x.retire t).x = x.x := rfl
@[simp] theorem Room.retire_f (x : Room) (t : Nat) : (x.retire t).f = x.f := rfl
@[simp] theorem Room.retire_outs (x : Room) (t : Nat) : (x.retire t).outs = x.outs := rfl
@[simp] theorem Room.retire_late (x : Room) (t : Nat) : (x.retire t).late = x.late := rfl
@[simp] theorem Room.retire_misuse (x : Room) (t : Nat) : (x.retire t).misuse = x.misuse := rfl
@[simp] theorem Room.retire_csr (x : Room) (t : Nat) : (x.retire t).csr = x.csr := rfl
@[simp] theorem Room.retire_qslip (x : Room) (t : Nat) : (x.retire t).qslip = x.qslip := rfl
@[simp] theorem Room.retire_qwmark (x : Room) (t : Nat) : (x.retire t).qwmark = x.qwmark := rfl
@[simp] theorem Room.retire_cqTry (x : Room) (t : Nat) : (x.retire t).cqTry = x.cqTry := rfl
@[simp] theorem Room.retire_vflags (x : Room) (t : Nat) : (x.retire t).vflags = x.vflags := rfl
@[simp] theorem Room.retire_vflNew (x : Room) (t : Nat) : (x.retire t).vflNew = x.vflNew := rfl
@[simp] theorem Room.retire_bankfmt (x : Room) (t : Nat) : (x.retire t).bankfmt = x.bankfmt := rfl
@[simp] theorem Room.retire_bconf (x : Room) (t : Nat) : (x.retire t).bconf = x.bconf := rfl
@[simp] theorem Room.retire_hz (x : Room) (t : Nat) : (x.retire t).hz = x.hz := rfl
@[simp] theorem Room.retire_stores (x : Room) (t : Nat) : (x.retire t).stores = x.stores := rfl
@[simp] theorem Room.retire_keybase (x : Room) (t : Nat) : (x.retire t).keybase = x.keybase := rfl
@[simp] theorem Room.retire_keyctl (x : Room) (t : Nat) : (x.retire t).keyctl = x.keyctl := rfl
@[simp] theorem Room.retire_keyRes (x : Room) (t : Nat) : (x.retire t).keyRes = x.keyRes := rfl
@[simp] theorem Room.retire_barrec (x : Room) (t : Nat) : (x.retire t).barrec = x.barrec := rfl
@[simp] theorem Room.retire_qseq0 (x : Room) (t : Nat) : (x.retire t).qseq0 = x.qseq0 := rfl
@[simp] theorem Room.retire_qseq1 (x : Room) (t : Nat) : (x.retire t).qseq1 = x.qseq1 := rfl
@[simp] theorem Room.retire_qseq2 (x : Room) (t : Nat) : (x.retire t).qseq2 = x.qseq2 := rfl
@[simp] theorem Room.retire_faultrec (x : Room) (t : Nat) : (x.retire t).faultrec = x.faultrec := rfl
@[simp] theorem Room.retire_ql (x : Room) (t : Nat) : (x.retire t).ql = x.ql := rfl
@[simp] theorem Room.retire_qv (x : Room) (t : Nat) : (x.retire t).qv = x.qv := rfl
@[simp] theorem Room.retire_qs (x : Room) (t : Nat) : (x.retire t).qs = x.qs := rfl
@[simp] theorem Room.retire_qm (x : Room) (t : Nat) : (x.retire t).qm = x.qm := rfl
@[simp] theorem Room.retire_qc (x : Room) (t : Nat) : (x.retire t).qc = x.qc := rfl
@[simp] theorem Room.retire_tok (x : Room) (t : Nat) : (x.retire t).tok = x.tok := rfl
@[simp] theorem Room.retire_tokS (x : Room) (t : Nat) : (x.retire t).tokS = x.tokS := rfl
@[simp] theorem Room.retire_rel (x : Room) (t : Nat) : (x.retire t).rel = x.rel := rfl
@[simp] theorem Room.retire_v (x : Room) (t : Nat) : (x.retire t).v = x.v := rfl
@[simp] theorem Room.retire_k (x : Room) (t : Nat) : (x.retire t).k = x.k := rfl
@[simp] theorem Room.retire_z (x : Room) (t : Nat) : (x.retire t).z = x.z := rfl
@[simp] theorem Room.retire_w (x : Room) (t : Nat) : (x.retire t).w = x.w := rfl
@[simp] theorem Room.retire_lay (x : Room) (t : Nat) : (x.retire t).lay = x.lay := rfl
@[simp] theorem Room.retire_nestS (x : Room) (t : Nat) : (x.retire t).nestS = x.nestS := rfl
@[simp] theorem Room.retire_recS (x : Room) (t : Nat) : (x.retire t).recS = x.recS := rfl
@[simp] theorem Room.retire_nestA (x : Room) (t : Nat) : (x.retire t).nestA = x.nestA := rfl
@[simp] theorem Room.retire_recA (x : Room) (t : Nat) : (x.retire t).recA = x.recA := rfl
@[simp] theorem Room.retire_gather (x : Room) (t : Nat) : (x.retire t).gather = x.gather := rfl
@[simp] theorem Room.retire_bnet (x : Room) (t : Nat) : (x.retire t).bnet = x.bnet := rfl
@[simp] theorem Room.retire_scales (x : Room) (t : Nat) : (x.retire t).scales = x.scales := rfl
@[simp] theorem Room.retire_iq (x : Room) (t : Nat) : (x.retire t).iq = x.iq := rfl
@[simp] theorem Room.retire_oq (x : Room) (t : Nat) : (x.retire t).oq = x.oq := rfl
@[simp] theorem Room.retire_cq (x : Room) (t : Nat) : (x.retire t).cq = x.cq := rfl
@[simp] theorem Room.retire_cqRes (x : Room) (t : Nat) : (x.retire t).cqRes = x.cqRes := rfl
@[simp] theorem Room.retire_posts (x : Room) (t : Nat) : (x.retire t).posts = x.posts := rfl
@[simp] theorem Room.retire_tag (x : Room) (t : Nat) : (x.retire t).tag = x.tag := rfl
@[simp] theorem Room.retire_mon (x : Room) (t : Nat) : (x.retire t).mon = x.mon := rfl
@[simp] theorem Room.retire_monWoke (x : Room) (t : Nat) : (x.retire t).monWoke = x.monWoke := rfl
@[simp] theorem Room.retire_resv (x : Room) (t : Nat) : (x.retire t).resv = x.resv := rfl
@[simp] theorem Room.retire_scFails (x : Room) (t : Nat) : (x.retire t).scFails = x.scFails := rfl
@[simp] theorem Room.retire_origins (x : Room) (t : Nat) : (x.retire t).origins = x.origins := rfl
@[simp] theorem Room.retire_pre (x : Room) (t : Nat) : (x.retire t).pre = x.pre := rfl
@[simp] theorem Room.retire_mHeld (x : Room) (t : Nat) : (x.retire t).mHeld = x.mHeld := rfl
@[simp] theorem Room.retire_mSoon (x : Room) (t : Nat) : (x.retire t).mSoon = x.mSoon := rfl
@[simp] theorem Room.retire_banks (x : Room) (t : Nat) : (x.retire t).banks = x.banks := rfl
@[simp] theorem Room.retire_plans (x : Room) (t : Nat) : (x.retire t).plans = x.plans := rfl
@[simp] theorem Room.retire_lastDue (x : Room) (t : Nat) : (x.retire t).lastDue = x.lastDue := rfl
@[simp] theorem Room.retire_mLast (x : Room) (t : Nat) : (x.retire t).mLast = x.mLast := rfl
@[simp] theorem Room.retire_dying (x : Room) (t : Nat) : (x.retire t).dying = x.dying := rfl
@[simp] theorem Room.retire_freeFrom (x : Room) (t : Nat) : (x.retire t).freeFrom = x.freeFrom := rfl
@[simp] theorem Room.retire_pc (x : Room) (t : Nat) : (x.retire t).pc = nextPc x.pc := rfl
@[simp] theorem Room.retire_nextDispatch (x : Room) (t : Nat) : (x.retire t).nextDispatch = t + 1 := rfl
@[simp] theorem Room.retire_hold (x : Room) (t : Nat) : (x.retire t).hold = .none := rfl
@[simp] theorem Room.retire_disp (x : Room) (t : Nat) : (x.retire t).disp = x.disp + 1 := rfl
@[simp] theorem Room.getX_retire (x : Room) (t : Nat) (r : Reg) : (x.retire t).getX r = x.getX r := rfl
@[simp] theorem Room.queue_setQueue (x : Room) (e : Eng) (q : Queue) : (x.setQueue e q).queue e = q := by cases e <;> rfl
theorem Room.queue_setQueue_ne (x : Room) {e f : Eng} (q : Queue) (h : f ≠ e) : (x.setQueue e q).queue f = x.queue f := by
  cases e <;> cases f <;> first | rfl | exact absurd rfl h

end Sys2Proof.Machine
end

