-- ==== Sys2Proof/Laws/Tables.lean ====
section
/-! SUPPORT. Laws of sparse tables and of memory: read after write, and the canonical form that every operation keeps. -/

namespace Sys2Proof

variable {α : Type}

/-! ## Tables -/

theorem tget_below (d : α) [DecidableEq α] {t : Tbl α} {lo i : Nat} (h : twfFrom d lo t = true) (hi : i < lo) : tget d t i = d := by
  induction t generalizing lo with
  | nil => rfl
  | cons e t ih =>
    simp only [twfFrom, Bool.and_eq_true, decide_eq_true_eq] at h
    simp [tget, show e.1 ≠ i by omega, ih h.2 (by omega)]

theorem twfFrom_mono (d : α) [DecidableEq α] {t : Tbl α} {lo lo' : Nat} (h : twfFrom d lo t = true) (hl : lo' ≤ lo) :
    twfFrom d lo' t = true := by
  cases t with
  | nil => rfl
  | cons e t =>
    simp only [twfFrom, Bool.and_eq_true, decide_eq_true_eq] at h ⊢
    exact ⟨⟨by omega, h.1.2⟩, h.2⟩

theorem twfFrom_filter (d : α) [DecidableEq α] (p : Nat × α → Bool) {t : Tbl α} {lo : Nat} (h : twfFrom d lo t = true) :
    twfFrom d lo (t.filter p) = true := by
  induction t generalizing lo with
  | nil => rfl
  | cons e t ih =>
    simp only [twfFrom, Bool.and_eq_true, decide_eq_true_eq] at h
    by_cases hp : p e = true
    · rw [List.filter_cons_of_pos hp]
      simp only [twfFrom, Bool.and_eq_true, decide_eq_true_eq]
      exact ⟨h.1, ih h.2⟩
    · rw [List.filter_cons_of_neg hp]
      exact twfFrom_mono d (ih h.2) (by omega)

theorem twfFrom_tput (d : α) [DecidableEq α] {v : α} (hv : v ≠ d) {i : Nat} {t : Tbl α} {lo : Nat} (h : twfFrom d lo t = true)
    (hi : lo ≤ i) : twfFrom d lo (tput t i v) = true := by
  induction t generalizing lo with
  | nil => simp [tput, twfFrom, hv, hi]
  | cons e t ih =>
    simp only [twfFrom, Bool.and_eq_true, decide_eq_true_eq] at h
    unfold tput
    split
    · simp only [twfFrom, Bool.and_eq_true, decide_eq_true_eq]
      exact ⟨⟨hi, hv⟩, ⟨⟨by omega, h.1.2⟩, h.2⟩⟩
    · split
      · rename_i heq
        simp only [twfFrom, Bool.and_eq_true, decide_eq_true_eq]
        exact ⟨⟨hi, hv⟩, heq ▸ h.2⟩
      · simp only [twfFrom, Bool.and_eq_true, decide_eq_true_eq]
        exact ⟨h.1, ih h.2 (by omega)⟩

/-- Writing a key keeps the canonical form. -/
theorem twf_tset (d : α) [DecidableEq α] {t : Tbl α} (h : twf d t = true) (i : Nat) (v : α) : twf d (tset d t i v) = true := by
  unfold tset
  split
  · exact twfFrom_filter d _ h
  · rename_i hv
    exact twfFrom_tput d hv h (Nat.zero_le i)

theorem twf_tmod (d : α) [DecidableEq α] {t : Tbl α} (h : twf d t = true) (i : Nat) (f : α → α) : twf d (tmod d t i f) = true :=
  twf_tset d h i _

theorem tget_tput (d : α) (t : Tbl α) (i : Nat) (v : α) (j : Nat) :
    tget d (tput t i v) j = if j = i then v else tget d t j := by
  induction t with
  | nil => by_cases hj : j = i <;> simp [tput, tget, hj, eq_comm (a := i)]
  | cons e t ih =>
    unfold tput
    split
    · by_cases hj : j = i
      · simp [tget, hj]
      · simp [tget, hj, Ne.symm hj]
    · split
      · rename_i heq
        by_cases hj : j = i
        · simp [tget, hj]
        · simp [tget, hj, Ne.symm hj, show e.1 ≠ j from fun h => hj (h.symm.trans heq.symm)]
      · rename_i hne
        by_cases hej : e.1 = j
        · simp [tget, hej, show j ≠ i from fun h => hne (h.symm.trans hej.symm)]
        · simp [tget, hej, ih]

/-- What is left after entries have been dropped by their keys. -/
theorem tget_filter (d : α) (p : Nat → Bool) (t : Tbl α) (j : Nat) :
    tget d (t.filter fun e => p e.1) j = if p j then tget d t j else d := by
  induction t with
  | nil => simp [tget]
  | cons e t ih =>
    by_cases hp : p e.1 = true
    · rw [List.filter_cons_of_pos (p := fun e : Nat × α => p e.1) hp]
      by_cases hej : e.1 = j
      · subst hej; simp [tget, hp]
      · simp [tget, hej, ih]
    · rw [List.filter_cons_of_neg (p := fun e : Nat × α => p e.1) hp, ih]
      by_cases hej : e.1 = j
      · subst hej; simp [hp]
      · simp [tget, hej]

/-- Read after write. -/
theorem tget_tset (d : α) [DecidableEq α] (t : Tbl α) (i : Nat) (v : α) (j : Nat) :
    tget d (tset d t i v) j = if j = i then v else tget d t j := by
  unfold tset
  split
  · rename_i hv
    rw [tget_filter d (fun k => decide (k ≠ i))]
    by_cases hj : j = i <;> simp [hj, hv]
  · exact tget_tput d t i v j

@[simp] theorem tget_tset_self (d : α) [DecidableEq α] (t : Tbl α) (i : Nat) (v : α) : tget d (tset d t i v) i = v := by
  simp [tget_tset]

theorem tget_tset_ne (d : α) [DecidableEq α] (t : Tbl α) {i j : Nat} (v : α) (hj : j ≠ i) :
    tget d (tset d t i v) j = tget d t j := by
  simp [tget_tset, hj]

theorem tget_tmod (d : α) [DecidableEq α] (t : Tbl α) (i : Nat) (f : α → α) (j : Nat) :
    tget d (tmod d t i f) j = if j = i then f (tget d t i) else tget d t j := tget_tset d t i _ j

/-- Dropping entries keeps the canonical form. -/
theorem twf_filter (d : α) [DecidableEq α] (p : Nat × α → Bool) {t : Tbl α} (h : twf d t = true) : twf d (t.filter p) = true :=
  twfFrom_filter d p h

theorem tdrop_eq (t : Tbl α) (lo hi : Nat) :
    tdrop t lo hi = t.filter fun e => (fun i => decide (i < lo) || decide (hi ≤ i)) e.1 := rfl

theorem twf_tdrop (d : α) [DecidableEq α] {t : Tbl α} (h : twf d t = true) (lo hi : Nat) : twf d (tdrop t lo hi) = true :=
  twf_filter d _ h

theorem tget_tdrop (d : α) (t : Tbl α) (lo hi j : Nat) :
    tget d (tdrop t lo hi) j = if lo ≤ j ∧ j < hi then d else tget d t j := by
  rw [tdrop_eq, tget_filter d (fun i => decide (i < lo) || decide (hi ≤ i))]
  by_cases h1 : j < lo
  · simp [h1, show ¬ (lo ≤ j ∧ j < hi) by omega]
  · by_cases h2 : hi ≤ j
    · simp [h2, show ¬ (lo ≤ j ∧ j < hi) by omega]
    · simp [h1, h2, show lo ≤ j ∧ j < hi by omega]

/-- Equal reads make equal tables. -/
theorem twf_ext_from (d : α) [DecidableEq α] {t u : Tbl α} {lo : Nat} (ht : twfFrom d lo t = true) (hu : twfFrom d lo u = true)
    (h : ∀ i, tget d t i = tget d u i) : t = u := by
  induction t generalizing lo u with
  | nil =>
    cases u with
    | nil => rfl
    | cons e u =>
      simp only [twfFrom, Bool.and_eq_true, decide_eq_true_eq] at hu
      exact absurd (h e.1).symm (by simpa [tget] using hu.1.2)
  | cons e t ih =>
    have ht' := ht
    simp only [twfFrom, Bool.and_eq_true, decide_eq_true_eq] at ht
    cases u with
    | nil => exact absurd (h e.1) (by simpa [tget] using ht.1.2)
    | cons f u =>
      have hu' := hu
      simp only [twfFrom, Bool.and_eq_true, decide_eq_true_eq] at hu
      have hk : e.1 = f.1 := by
        rcases Nat.lt_trichotomy e.1 f.1 with hlt | heq | hgt
        · have := h e.1
          simp only [tget, if_true, show f.1 ≠ e.1 by omega, if_false, tget_below d hu.2 (show e.1 < f.1 + 1 by omega)] at this
          exact absurd this ht.1.2
        · exact heq
        · have := h f.1
          simp only [tget, if_true, show e.1 ≠ f.1 by omega, if_false, tget_below d ht.2 (show f.1 < e.1 + 1 by omega)] at this
          exact absurd this.symm hu.1.2
      have hv : e.2 = f.2 := by simpa [tget, hk] using h e.1
      have htu : t = u := by
        refine ih ht.2 (hk ▸ hu.2) fun i => ?_
        by_cases hi : i < e.1 + 1
        · rw [tget_below d ht.2 hi, tget_below d (hk ▸ hu.2) hi]
        · have := h i
          simpa [tget, show e.1 ≠ i by omega, show f.1 ≠ i by omega] using this
      rw [htu, Prod.ext hk hv]

theorem twf_ext (d : α) [DecidableEq α] {t u : Tbl α} (ht : twf d t = true) (hu : twf d u = true) (h : ∀ i, tget d t i = tget d u i) :
    t = u := twf_ext_from d ht hu h

/-! ## Memory -/

theorem Memory.wf_set {m : Memory} (h : m.wf = true) (a : Nat) (b : Byte) : (m.set a b).wf = true := twf_tset _ h a b

theorem Memory.get_set (m : Memory) (a : Nat) (b : Byte) (i : Nat) :
    (m.set a b).get i = if i = a then b else m.get i := tget_tset _ m a b i

theorem Memory.wf_write {m : Memory} (h : m.wf = true) (a n v : Nat) : (m.write a n v).wf = true := by
  induction n generalizing m a v with
  | zero => exact h
  | succ n ih => exact ih (wf_set h a _) _ _

/-- A write leaves every byte outside its range. -/
theorem Memory.get_write_outside (m : Memory) (a n v i : Nat) (hi : i < a ∨ a + n ≤ i) :
    (m.write a n v).get i = m.get i := by
  induction n generalizing m a v with
  | zero => rfl
  | succ n ih =>
    rw [Memory.write, ih _ _ _ (by omega), get_set]
    simp [show i ≠ a by omega]

/-- Byte k of a written value. -/
theorem Memory.get_write_inside (m : Memory) (a n v k : Nat) (hk : k < n) :
    (m.write a n v).get (a + k) = BitVec.ofNat 8 (v / 256 ^ k) := by
  induction n generalizing m a v k with
  | zero => omega
  | succ n ih =>
    rw [Memory.write]
    cases k with
    | zero => rw [get_write_outside _ _ _ _ _ (by omega), get_set]; simp
    | succ k =>
      have e : a + (k + 1) = (a + 1) + k := by omega
      rw [e, ih _ _ _ k (by omega), Nat.div_div_eq_div_mul, ← Nat.pow_succ']

theorem Memory.read_congr {m m' : Memory} {a n : Nat} (h : ∀ k, k < n → m.get (a + k) = m'.get (a + k)) : m.read a n = m'.read a n := by
  induction n generalizing a with
  | zero => rfl
  | succ n ih =>
    rw [Memory.read, Memory.read]
    have h0 := h 0 (by omega)
    simp only [Nat.add_zero] at h0
    rw [h0, ih fun k hk => by have := h (k + 1) (by omega); rwa [show a + (k + 1) = a + 1 + k by omega] at this]

/-- Reading what has been written. -/
theorem Memory.read_write_same (m : Memory) (a n v : Nat) : (m.write a n v).read a n = v % 256 ^ n := by
  induction n generalizing m a v with
  | zero => simp [Memory.read, Nat.mod_one]
  | succ n ih =>
    rw [Memory.read, Memory.write, ih _ _ _, get_write_outside _ _ _ _ _ (by omega), get_set]
    have := Nat.mod_mul (a := 256) (b := 256 ^ n) (x := v)
    simp only [if_true, BitVec.toNat_ofNat, show (2 : Nat) ^ 8 = 256 from rfl]
    rw [Nat.pow_succ', this]

/-- Reading apart from what has been written. -/
theorem Memory.read_write_apart (m : Memory) (a n v b k : Nat) (hd : b + k ≤ a ∨ a + n ≤ b) :
    (m.write a n v).read b k = m.read b k :=
  read_congr fun i hi => get_write_outside m _ _ _ _ (by omega)

theorem Memory.wf_putBytes {m : Memory} (h : m.wf = true) (a : Nat) (l : List Byte) : (m.putBytes a l).wf = true := by
  induction l generalizing m a with
  | nil => exact h
  | cons b l ih => exact ih (wf_set h a b) _

theorem Memory.get_putBytes_outside (m : Memory) (a : Nat) (l : List Byte) (i : Nat) (hi : i < a ∨ a + l.length ≤ i) :
    (m.putBytes a l).get i = m.get i := by
  induction l generalizing m a with
  | nil => rfl
  | cons b l ih =>
    simp only [List.length_cons] at hi
    rw [Memory.putBytes, ih _ _ (by omega), get_set]
    simp [show i ≠ a by omega]

theorem Memory.get_putBytes_inside (m : Memory) (a : Nat) (l : List Byte) (k : Nat) (hk : k < l.length) :
    (m.putBytes a l).get (a + k) = l.getD k 0 := by
  induction l generalizing m a k with
  | nil => simp at hk
  | cons b l ih =>
    rw [Memory.putBytes]
    cases k with
    | zero => rw [get_putBytes_outside _ _ _ _ (by omega), get_set]; simp
    | succ k =>
      have hk' : k < l.length := by simpa using hk
      rw [show a + (k + 1) = a + 1 + k by omega, ih _ _ k hk']
      simp

theorem Memory.wf_erase {m : Memory} (h : m.wf = true) (a n : Nat) : (m.erase a n).wf = true := twf_tdrop _ h _ _

theorem Memory.get_erase (m : Memory) (a n i : Nat) :
    (m.erase a n).get i = if a ≤ i ∧ i < a + n then memDefault else m.get i := tget_tdrop _ m _ _ _

theorem Memory.wf_filter {m : Memory} (h : m.wf = true) (p : Nat × Byte → Bool) : Memory.wf (m.filter p) = true := twf_filter _ p h

/-- Writes of a list of bytes at computed addresses keep the canonical form. -/
theorem Memory.wf_foldl_set {β : Type} (f : β → Nat) (g : β → Byte) (l : List β) {m : Memory} (h : m.wf = true) :
    (l.foldl (fun m e => m.set (f e) (g e)) m).wf = true := by
  induction l generalizing m with
  | nil => exact h
  | cons e l ih => exact ih (wf_set h _ _)

theorem Memory.wf_foldr_set {β : Type} (f : β → Nat) (g : β → Byte) (l : List β) {m : Memory} (h : m.wf = true) :
    (l.foldr (fun e m => m.set (f e) (g e)) m).wf = true := by
  induction l with
  | nil => exact h
  | cons e l ih => exact wf_set ih _ _

/-- Memories that read alike are equal. -/
theorem Memory.ext {m m' : Memory} (h : m.wf = true) (h' : m'.wf = true) (e : ∀ a, m.get a = m'.get a) : m = m' := twf_ext _ h h' e

theorem Memory.wf_empty : Memory.wf [] = true := rfl
theorem Memory.get_empty (a : Nat) : Memory.get [] a = memDefault := rfl

end Sys2Proof
end

