-- ==== Sys2Proof/Laws/Registers.lean ====
section
/-! SUPPORT. What the shared operations do: reads after writes of rooms, wings, stairs and registers, when a lane runs on or
waits, what the agenda holds, and what taking a trap and returning from one leave. -/

namespace Sys2Proof.Machine

/-! ## Reads after writes -/

@[simp] theorem room_setRoom (s : State) (r : Nat) (x : Room) : (s.setRoom r x).room r = x := by
  simp [State.room, State.setRoom]
theorem room_setRoom_ne (s : State) {r q : Nat} (x : Room) (h : q ≠ r) : (s.setRoom r x).room q = s.room q := by
  simp [State.room, State.setRoom, tget_tset, h]
@[simp] theorem room_modRoom (s : State) (r : Nat) (f : Room → Room) : (s.modRoom r f).room r = f (s.room r) := by
  simp [State.modRoom]
theorem room_modRoom_ne (s : State) {r q : Nat} (f : Room → Room) (h : q ≠ r) : (s.modRoom r f).room q = s.room q :=
  room_setRoom_ne s _ h
@[simp] theorem me_setRoom (s : State) (x : Room) : (s.setRoom s.turn x).me = x := by simp [State.me]
@[simp] theorem me_modMe (s : State) (f : Room → Room) : (s.modMe f).me = f s.me := by simp [State.me, State.modMe]
@[simp] theorem wing_setWing (s : State) (w : Nat) (x : Wing) : (s.setWing w x).wing w = x := by
  simp [State.wing, State.setWing]
theorem wing_setWing_ne (s : State) {w q : Nat} (x : Wing) (h : q ≠ w) : (s.setWing w x).wing q = s.wing q := by
  simp [State.wing, State.setWing, tget_tset, h]
@[simp] theorem wing_modWing (s : State) (w : Nat) (f : Wing → Wing) : (s.modWing w f).wing w = f (s.wing w) := by
  simp [State.modWing]
theorem wing_modWing_ne (s : State) {w q : Nat} (f : Wing → Wing) (h : q ≠ w) : (s.modWing w f).wing q = s.wing q :=
  wing_setWing_ne s _ h
@[simp] theorem stair_setStair (s : State) (i : Nat) (x : Stair) : (s.setStair i x).stair i = x := by
  simp [State.stair, State.setStair]
theorem stair_setStair_ne (s : State) {i q : Nat} (x : Stair) (h : q ≠ i) : (s.setStair i x).stair q = s.stair q := by
  simp [State.stair, State.setStair, tget_tset, h]
@[simp] theorem stair_modStair (s : State) (i : Nat) (f : Stair → Stair) : (s.modStair i f).stair i = f (s.stair i) := by
  simp [State.modStair]
theorem stair_modStair_ne (s : State) {i q : Nat} (f : Stair → Stair) (h : q ≠ i) : (s.modStair i f).stair q = s.stair q :=
  stair_setStair_ne s _ h
@[simp] theorem hall_modHall (s : State) (f : Hall → Hall) : (s.modHall f).hall = f s.hall := rfl

/-! ## Registers of the control core (R37) -/

@[simp] theorem getX_zero (x : Room) : x.getX 0 = 0 := by simp [Room.getX]
@[simp] theorem setX_zero (x : Room) (v : W64) : x.setX 0 v = x := by simp [Room.setX]
/-- x0 reads as 0 and discards writes; any other register reads as it was last written. -/
theorem getX_setX (x : Room) (r q : Reg) (v : W64) : (x.setX r v).getX q = if q = 0 then 0 else if q = r then v else x.getX q := by
  have e : (q.toNat = r.toNat) ↔ q = r := ⟨fun h => BitVec.eq_of_toNat_eq h, fun h => h ▸ rfl⟩
  unfold Room.setX Room.getX
  by_cases hq : q = 0
  · rw [if_pos hq, if_pos hq]
  · rw [if_neg hq, if_neg hq]
    by_cases hr : r = 0
    · rw [if_pos hr, if_neg (fun h => hq (h.trans hr)), if_neg hq]
    · rw [if_neg hr, tget_tset, if_neg hq]; simp only [e]
theorem getF_setF (x : Room) (r q : Reg) (v : W64) : (x.setF r v).getF q = if q = r then v else x.getF q := by
  have e : (q.toNat = r.toNat) ↔ q = r := ⟨fun h => BitVec.eq_of_toNat_eq h, fun h => h ▸ rfl⟩
  unfold Room.setF Room.getF
  rw [tget_tset]; simp only [e]
/-- A lane that completes with a result in a register, read back. -/
theorem getX_doneX (s : State) (rd q : Reg) (v : W64) :
    (s.doneX rd v).me.getX q = if q = 0 then 0 else if q = rd then v else s.me.getX q := by
  rw [← getX_setX]; simp only [State.doneX, me_modMe]; rfl
theorem pc_doneX (s : State) (rd : Reg) (v : W64) : (s.doneX rd v).me.pc = nextPc s.me.pc := by
  simp only [State.doneX, me_modMe, Room.retire_pc]; unfold Room.setX; split <;> rfl
theorem pc_done (s : State) : s.done.me.pc = nextPc s.me.pc := by simp only [State.done, me_modMe, Room.retire_pc]

/-! ## Lanes that run on or wait (R9, R71, R77) -/

/-- A lane whose registers can be used runs on. -/
theorem whenTo_free {s : State} {dest regs : List Reg} (h : s.Free regs dest) (f : Room → State) :
    s.whenTo dest regs f = f s.me := by
  obtain ⟨h1, h2⟩ := h
  unfold State.whenTo; rw [h1, h2]; rfl
theorem whenRegs_free {s : State} {regs : List Reg} (h : s.Free regs []) (f : Room → State) : s.whenRegs regs f = f s.me :=
  whenTo_free h f
/-- A lane that names a register which waits for an answer waits. -/
theorem whenTo_busy {s : State} {dest regs : List Reg} (h : s.me.pendingAny ((regs ++ dest).map (·.toNat)) = true)
    (f : Room → State) : s.whenTo dest regs f = s.wait := by
  unfold State.whenTo; rw [h]; rfl
/-- So does one that reads the result of `bnet` too early (R88). -/
theorem whenTo_late {s : State} {dest regs : List Reg} (h : s.me.lateAny s.tick (regs.map (·.toNat)) = true)
    (f : Room → State) : s.whenTo dest regs f = s.wait := by
  unfold State.whenTo; rw [h, Bool.or_true]; rfl
theorem whenSlot_free {s : State} (h : s.me.deferred < 8) (f : State) : s.whenSlot f = f := if_pos h
theorem whenSlot_full {s : State} (h : 8 ≤ s.me.deferred) (f : State) : s.whenSlot f = s.wait := if_neg (by omega)
/-- A lane that waits changes nothing but the tick at which it dispatches again. -/
theorem me_wait (s : State) : s.wait.me = { s.me with nextDispatch := s.tick + 1 } := by
  simp only [State.wait, me_modMe, Room.stall]

/-! ## The agenda -/

theorem mem_agendaInsert (l : List (Nat × Instr)) (d : Nat) (i : Instr) (e : Nat × Instr) :
    e ∈ agendaInsert l d i ↔ e = (d, i) ∨ e ∈ l := by
  induction l with
  | nil => simp [agendaInsert]
  | cons a l ih =>
    unfold agendaInsert
    split
    · rw [List.mem_cons, List.mem_cons, ih]; exact or_left_comm
    · exact List.mem_cons
/-- A step that is put on the agenda stands there, and nothing else changes in it. -/
theorem mem_schedule (s : State) (d : Nat) (i : Instr) (e : Nat × Instr) :
    e ∈ (s.schedule d i).agenda ↔ e = (d, i) ∨ e ∈ s.agenda := mem_agendaInsert _ _ _ _
theorem tick_lt_openTick (s : State) : s.tick < s.openTick := by unfold State.openTick; omega
theorem tick_lt_boundedTick (s : State) : s.tick < s.boundedTick ∧ s.boundedTick ≤ s.tick + 63 := by
  unfold State.boundedTick; omega
theorem tick_lt_cohTick (s : State) : s.tick < s.cohTick ∧ s.cohTick ≤ s.tick + 64 := by unfold State.cohTick; omega
theorem le_landing (r t : Nat) : t ≤ landing r t ∧ landing r t ≤ t + 15 := by unfold landing; omega
/-- A message arrives at its tick or, behind an earlier one of its class or for its landing, later; a fill of the attic's cache may
take the landing before, within its bound. -/
theorem le_arrival (x : Room) (r now : Nat) (c : MsgClass) (due : Nat) (i : Instr) :
    (c ≠ .coh → due ≤ x.arrival r now c due i) ∧ due ≤ x.arrival r now c due i + 16 := by
  unfold Room.arrival
  split
  · rename_i h
    refine ⟨fun n => absurd h.1 n, ?_⟩
    have := (le_landing r (max due (tget 0 x.lastDue landKey))).1
    unfold landingBy; split <;> omega
  · split
    · have := (le_landing r (max due (x.behind now c (isLoad i)))).1
      exact ⟨fun _ => by omega, by omega⟩
    · exact ⟨fun _ => Nat.le_max_left _ _, by omega⟩
/-- The tick at which a message of a room leaves: a message of the coherence class waits until fewer than 64 are outstanding. -/
theorem mem_send (s : State) (r : Nat) (c : MsgClass) (due : Nat) (i : Instr) :
    ((s.room r).arrival r (if c.isCoh then s.leaves r 64 else s.tick) c
      (due + ((if c.isCoh then s.leaves r 64 else s.tick) - s.tick)) i, i) ∈ (s.send r c due i).agenda := by
  unfold State.send
  simp only [State.bump_agenda, State.noteCoh_agenda]
  exact (mem_schedule _ _ _ _).2 (.inl rfl)

/-! ## Traps (R24, R338, R339, R341, R401) -/

/-- A trap taken into a mode whose vector is not 0 leaves the room as `enterTrap` says. -/
theorem room_takeTrap {s : State} {r : Nat} {t : Trap} {epc : W64}
    (h : (if trapToS (s.room r) t then (s.room r).csr.stvec else (s.room r).csr.mtvec) ≠ 0) :
    takeTrap s r t epc = s.setRoom r (enterTrap (s.room r) s.tick t epc) := by
  simp only [takeTrap]; rw [if_neg h]
/-- An exception waits until every deferred answer has been written. -/
theorem trap_ready {s : State} (h : s.me.deferred = 0) (t : Trap) : s.trap t = takeTrap s s.turn t s.me.pc := if_pos h
theorem trap_waits {s : State} (h : s.me.deferred ≠ 0) (t : Trap) :
    s.trap t = s.modMe fun x => { x.stall s.tick with
      hold := .none, misuse := x.misuse ++ [⟨t.code, t.tval, t.lane.getD x.pc, x.curWord, t.outc⟩] } := if_neg h
/-- A trap leaves the registers of the room as they were. -/
theorem enterTrap_regs (x : Room) (now : Nat) (t : Trap) (epc : W64) (r : Reg) :
    (enterTrap x now t epc).getX r = x.getX r ∧ (enterTrap x now t epc).getF r = x.getF r ∧
      (enterTrap x now t epc).v = x.v ∧ (enterTrap x now t epc).k = x.k := ⟨rfl, rfl, rfl, rfl⟩
theorem returnTrap_regs (x : Room) (now : Nat) (m : Bool) (r : Reg) :
    (returnTrap x now m).getX r = x.getX r ∧ (returnTrap x now m).getF r = x.getF r := by cases m <;> exact ⟨rfl, rfl⟩

end Sys2Proof.Machine
end

