-- ==== Sys2Proof/Tests/Slice0.lean ====
section
/-! SUPPORT. The model's own tests: terms that are not well-formed, words of the spec's tables, single steps from the
spec's worked examples, and a witness for the hypotheses of every statement. -/

namespace Sys2Proof.Tests

open Sys2Proof Sys2Proof.Machine Host

set_option Elab.async false

/-! ## Terms that are not instructions (R64, R65, R69, R71) -/

theorem test_wf_vector_destination_above_oq3 : (Instr.vAddF 0 28 1 2 0).WellFormed = false := by decide
theorem test_wf_vector_register_above_v23 : (Instr.vFmaF 0 24 1 2 0).WellFormed = false := by decide
theorem test_wf_store_source_above_oq3 : (Instr.sV 0 28 0 1 2).WellFormed = false := by decide
theorem test_wf_mask_register_above_k7 : (Instr.kNot 0 8 1).WellFormed = false ∧ (Instr.kNot 0 1 8).WellFormed = false := by decide
theorem test_wf_mask_pair : (Instr.vIsect 0 0 1 2).WellFormed = false ∧ (Instr.vIsect 0 4 1 2).WellFormed = false := by decide
theorem test_wf_window_register : (Instr.wClr 0 16).WellFormed = false := by decide
theorem test_wf_layout_register : (Instr.lLay 0 16 1 2).WellFormed = false := by decide
theorem test_wf_accumulator : (Instr.mClr 0 4).WellFormed = false := by decide
theorem test_wf_copy_destination : (Instr.cCopy 0 16 0 1 2).WellFormed = false := by decide
theorem test_wf_stream_destination : (Instr.cStrm 0 23 0 1 2).WellFormed = false := by decide
theorem test_wf_setx_register : (Instr.mSetx 0 7 0 1 2).WellFormed = false ∧ (Instr.mSetx 0 11 0 1 2).WellFormed = false := by decide
theorem test_wf_set_register : (Instr.mSet 0 8 1).WellFormed = false ∧ (Instr.mSet 0 12 1).WellFormed = false ∧
    (Instr.mSet 0 22 1).WellFormed = false ∧ (Instr.mSet 0 30 1).WellFormed = false := by decide
theorem test_wf_retirement_target : (Instr.mRetOq 0 0 1 1 2).WellFormed = false ∧ (Instr.mRetOq 0 5 1 1 2).WellFormed = false := by
  decide
theorem test_wf_condition_codes : (Instr.vCmpI 0 1 1 2 6).WellFormed = false ∧ (Instr.vFnd 0 1 1 2 7).WellFormed = false := by decide
theorem test_wf_row_counts : (Instr.vRotc 0 1 1 16).WellFormed = false ∧ (Instr.vBcc 0 1 1 16).WellFormed = false := by decide
theorem test_wf_reduction_operators : (Instr.vRedrF 0 1 1 3).WellFormed = false := by decide
theorem test_wf_pack_byte : (Instr.vPack 0 1 1 4).WellFormed = false ∧ (Instr.vUnpk 0 1 1 4).WellFormed = false := by decide
theorem test_wf_window_operator : (Instr.wCfg 0 1 10).WellFormed = false := by decide
theorem test_wf_window_length : (Instr.wLen 0 1 0).WellFormed = false ∧ (Instr.wLen 0 1 513).WellFormed = false := by decide
theorem test_wf_cas128_pairs : (Instr.amoCas128 0 1 2).WellFormed = false ∧ (Instr.amoCas128 3 1 2).WellFormed = false ∧
    (Instr.amoCas128 2 1 3).WellFormed = false := by decide
theorem test_wf_rounding_mode : (RvInstr.fop .fadd false 5 1 2 3).wf = false ∧ (RvInstr.fma .fmadd true 6 1 2 3 4).wf = false ∧
    (RvInstr.fcvtFmt true 5 1 2).wf = false := by decide
theorem test_wf_sqrt_has_one_source : (RvInstr.fop .fsqrt false 0 1 2 3).wf = false ∧ (RvInstr.fq .cls false 1 2 3).wf = false ∧
    (RvInstr.fq .mvxf false 1 2 3).wf = false := by decide
theorem test_wf_word_shift : (RvInstr.shift .slliw 1 2 32).wf = false := by decide
theorem test_wf_csr_writes : (RvInstr.csr ⟨0x340, 1, 1, 0⟩).wf = false ∧ (RvInstr.csr ⟨0x340, 4, 1, 0⟩).wf = false ∧
    (Instr.qslipWrite 2 1 0).WellFormed = false ∧ (RegWrite.csr ⟨0x800, 1, 1, 1⟩).wf = false ∧
    (RegWrite.csr ⟨0x340, 2, 1, 0⟩).wf = false := by decide
theorem test_wf_rooms_wings_ports_tenants : (Instr.trap 256).WellFormed = false ∧ (Instr.cbuPass 4).WellFormed = false ∧
    (Instr.linkUp 4).WellFormed = false ∧ (Instr.evset 16 1).WellFormed = false ∧ (Instr.castling 64).WellFormed = false ∧
    (Instr.scrub 288).WellFormed = false ∧ (RegWrite.port 0 0 16).wf = false := by decide

/-! ## Words of the tables of encodings -/

theorem test_word_v_cvt : decodeEng .v 0x6000830D#32 = some (.vCvt 0 4 3 0 3 1) := by decide
theorem test_word_v_isect : decodeEng .v 0x70002218#32 = some (.vIsect 0 1 2 3) := by decide
theorem test_word_v_c24 : decodeEng .v 0x71010148#32 = some (.vC24 0 8 1 9 0) := by decide
theorem test_word_v_fnd : decodeEng .v 0x7200AA5D#32 = some (.vFnd 0 5 10 11 5) := by decide
theorem test_word_k_andn : decodeEng .v 0x7B006110#32 = some (.kAndn 0 3 1 2) := by decide
theorem test_word_w_len : decodeEng .v 0x81004003#32 = some (.wLen 0 2 3) := by decide
theorem test_word_w_push : decodeEng .v 0x82004101#32 = some (.wPush 0 2 1 1) := by decide
theorem test_word_v_redr : decodeEng .v 0x5400A401#32 = some (.vRedrF 0 5 4 1) := by decide
theorem test_word_v_movi : decodeEng .v 0x41005FFF#32 = some (.vMovi 0 2 0x1FFF) := by decide
theorem test_word_l_v : decodeEng .l 0x01002080#32 = some (.lV 0 1 0 8 0) := by decide
theorem test_word_l_lay : decodeEng .l 0x090060B0#32 = some (.lLay 0 3 11 0) := by decide
theorem test_word_m_setx : decodeEng .m 0x02014880#32 = some (.mSetx 0 10 4 8 0) := by decide
theorem test_word_c_copy : decodeEng .c 0x010062AB#32 = some (.cCopy 0 3 1 10 11) ∧
    decodeEng .c 0x010342A0#32 = some (.cCopy 0 26 1 10 0) := by decide
theorem test_word_c_strm : decodeEng .c 0x060302AB#32 = some (.cStrm 0 24 1 10 11) := by decide
theorem test_word_c_nop_posts_x : decodeEng .c 0x00100000#32 = some (.cNop 4) := by decide
theorem test_word_bnet : decodeScalar 0x0655252B#32 = some (.bnet 3 10 10 5) := by decide
theorem test_word_efence : decodeScalar 0x040A000B#32 = some (.efence 20) := by decide
theorem test_word_cq_try : decodeScalar 0x0800050B#32 = some (.cqTry 10) := by decide
theorem test_word_cel_swap : decodeScalar 0x0009205B#32 = some (.celSwap 18) := by decide
theorem test_word_win_close : decodeScalar 0x0205102B#32 = some (.winClose 10) := by decide
theorem test_word_rv_amoadd : decodeScalar 0x00A5B52F#32 = some (.aExtensionAmo .add true false false 10 11 10) := by decide
theorem test_word_reserved_field_set : decodeScalar 0x0209442B#32 = none := by decide
theorem test_word_unassigned_engine_opcode : decodeEng .v 0x48000000#32 = none ∧ decodeEng .m 0x09000000#32 = none := by decide

/-! ## Small states -/

/-- A room that runs an iteration of tenant 0 in S mode, with x8 = 64 and the other x registers 0. -/
def tRoom : Room := { run := some fetchRun, mode := .s, x := [(8, 64#64)], line := some (0, 0xA) }
/-- Room 0 runs, at tick 5000, and its lane acts. -/
def tState : State := { tick := 5000, boot := 6, phase := lanePhase, rooms := [(0, tRoom)] }
/-- The state with another room 0. -/
def tWith (x : Room) : State := { tState with rooms := [(0, x)] }
/-- An entry that has issued and takes its step. -/
def tEntry (i : Instr) : Entry :=
  { newEntry tRoom i ((laneOf i).getD { eng := .v, sync := 0 }) with popped := true, issued := some 4999, more := some 5000 }
/-- The room with an entry in a queue. -/
def tQueued (e : Eng) (n : Entry) : Room := tRoom.modQueue e fun q => { q with q := [n] }
/-- The state in which the entry of a queue acts. -/
def tActs (e : Eng) (n : Entry) : State := { tWith (tQueued e n) with act := .entry e }
/-- A layout record of e0 × e1 elements of a VC type, rows of `st` bytes. -/
def tRec (fmt e0 e1 st : Nat) : LayRec :=
  BitVec.ofNat 512 (2 ^ 448 * fmt + 2 ^ 256 * st + 2 ^ 192 * fmtWidth fmt + 2 ^ 160 + 2 ^ 128 + 2 ^ 96 * e1 + 2 ^ 64 * e0)

/-- An answer that is accepted and satisfies a condition. -/
def okAnd {ε α : Type} (e : Except ε α) (p : α → Bool) : Bool := match e with | .ok a => p a | .error _ => false
/-- The state in which the control core of room 0 holds line 0, of bytes 7. -/
def tCopy : State := { tState with copies := [(copyKey (coreHolder 0) 0, ⟨List.replicate 128 7#8, 5000, 0⟩)] }

/-! ## Witnesses: the vector engine -/

theorem witness_VectorElementwise :
    (vOne (.vUnpk 0 27 23 3)).isSome = true ∧ (vTwo (.vSra 0 0 31 24 7)).isSome = true ∧ (vThree (.vPack 0 23 0 0)).isSome = true ∧
    Acts (tActs .v (tEntry (.vUnpk 0 27 23 3))) .v (tEntry (.vUnpk 0 27 23 3)) ∧
    Acts (tActs .v (tEntry (.vSra 0 0 31 24 7))) .v (tEntry (.vSra 0 0 31 24 7)) ∧
    Acts (tActs .v (tEntry (.vPack 0 23 0 0))) .v (tEntry (.vPack 0 23 0 0)) :=
  ⟨rfl, rfl, rfl, ⟨rfl, rfl⟩, ⟨rfl, rfl⟩, ⟨rfl, rfl⟩⟩

theorem witness_VectorMasksAndWholeDestinations :
    (vCond (.vCmpI 0 7 23 24 5)).isSome = true ∧ (kLogic (.kNot 0 0 0)).isSome = true ∧
    (vWhole (tEntry (.vRotc 0 27 31 15)) (fun _ _ _ => 0) (fun _ _ _ => false) (.vRotc 0 27 31 15)).isSome = true ∧
    (Instr.vRotc 0 27 31 15).WellFormed = true ∧
    Acts (tActs .v (tEntry (.vCmpI 0 7 23 24 5))) .v (tEntry (.vCmpI 0 7 23 24 5)) ∧
    Acts (tActs .v (tEntry (.kNot 0 0 0))) .v (tEntry (.kNot 0 0 0)) ∧
    Acts (tActs .v (tEntry (.vRotc 0 27 31 15))) .v (tEntry (.vRotc 0 27 31 15)) :=
  ⟨rfl, rfl, rfl, rfl, ⟨rfl, rfl⟩, ⟨rfl, rfl⟩, ⟨rfl, rfl⟩⟩

theorem witness_VectorReductions :
    (vFold [] (.vRedcI 0 27 23 2)).isSome = true ∧
    Acts (tActs .v (tEntry (.vRedcI 0 27 23 2))) .v (tEntry (.vRedcI 0 27 23 2)) := ⟨rfl, ⟨rfl, rfl⟩⟩

theorem witness_VectorMovesAndSparseHelpers :
    Acts (tActs .v (tEntry (.vIns 63 23 31 31))) .v (tEntry (.vIns 63 23 31 31)) ∧
    Acts (tActs .v (tEntry (.vIsect 0 3 23 24))) .v (tEntry (.vIsect 0 3 23 24)) := ⟨⟨rfl, rfl⟩, ⟨rfl, rfl⟩⟩

/-- Entries of the lanes with the largest rotates; a source that is its own transposition, read twice. -/
theorem witness_RotatesAndTranspositionMoveElements :
    Acts (tActs .v (tEntry (.vRotr 0 27 31 63))) .v (tEntry (.vRotr 0 27 31 63)) ∧
    Acts (tActs .v (tEntry (.vRotc 0 27 31 15))) .v (tEntry (.vRotc 0 27 31 15)) ∧ (Instr.vRotc 0 27 31 15).WellFormed = true ∧
    Acts (tActs .v (tEntry (.vTr16 0 4 8))) .v (tEntry (.vTr16 0 4 8)) ∧
    elems (srcTile (tActs .v (tEntry (.vTr16 0 4 8))).me (tEntry (.vTr16 0 4 8)) 8) = List.replicate 1024 0 :=
  ⟨⟨rfl, rfl⟩, ⟨rfl, rfl⟩, rfl, ⟨rfl, rfl⟩, by decide +kernel⟩

theorem witness_WindowAccumulators :
    Acts (tActs .v (tEntry (.wLen 0 15 512))) .v (tEntry (.wLen 0 15 512)) := ⟨rfl, rfl⟩

/-- A full window of length 1, and an empty one of length 512. -/
theorem witness_WindowKeepsItsLength :
    (0 < ({ len := 1, back := [[]] } : Win).len ∧ ({ len := 1, back := [[]] } : Win).count ≤ ({ len := 1, back := [[]] } : Win).len) ∧
    (0 < ({ len := 512 } : Win).len ∧ ({ len := 512 } : Win).count ≤ ({ len := 512 } : Win).len ∧
      ([[]] : List (List W32)).length ≤ ({ len := 512 } : Win).len - ({ len := 512 } : Win).count) := by decide

/-! ## Witnesses: engine queues, loads and stores -/

/-- A lane of V, with a destination at the last v register; the queue of a room is empty, or full. -/
theorem witness_EngineLaneBecomesEntryWithItsOperands :
    (tState.act = .lane ∧ laneOf (.vAddF 0 23 1 2 0) = some (vv2 0 23 1 2 0 1 4) ∧
      tState.me.pendingAny [(vv2 0 23 1 2 0 1 4).xa.toNat, (vv2 0 23 1 2 0 1 4).xb.toNat] = false ∧
      tState.me.lateAny tState.tick [(vv2 0 23 1 2 0 1 4).xa.toNat, (vv2 0 23 1 2 0 1 4).xb.toNat] = false ∧
      (tState.me.queue .v).q.length < tState.me.slip .v ∧ (vv2 0 23 1 2 0 1 4).vregs.all (· < tState.me.vregs) = true) ∧
    ((tWith { tRoom with qslip := 0x100#64, qv := { q := [tEntry (.vNop 0)] } }).me.slip .v ≤
        ((tWith { tRoom with qslip := 0x100#64, qv := { q := [tEntry (.vNop 0)] } }).me.queue .v).q.length) ∧
    (tWith { tRoom with outs := [⟨7, [8], true, false, false, none⟩] }).me.pendingAny [8, 0] = true ∧
    (tWith { tRoom with late := some (8, 5001) }).me.lateAny 5000 [8, 0] = true ∧
    ((vv2 0 23 1 2 0 1 4).vregs.any ((tWith { tRoom with run := some { fetchRun with vregs := 23 } }).me.vregs ≤ ·) = true) := by decide

/-- An entry of V that waits for a token of L, which is there; and one whose check at the head fails. -/
theorem witness_EntriesIssueAndFinish :
    (let n := newEntry tRoom (.vNop 8) ((laneOf (.vNop 8)).getD { eng := .l, sync := 0 })
     let s := tWith { tQueued .v n with tok := (tRoom.pushTokens [0]).commitTokens.tok }
     s.mayStart 0 = true ∧ (s.room 0).saving = false ∧ (s.room 0).candidate .v s.tick = some n ∧ headFault s 0 .v n = none ∧
       n.popped = false ∧ (s.room 0).hasTokens n = true ∧ (s.room 0).dataReady ((laneOf n.instr).getD { eng := .l, sync := 0 }) s.tick = true) ∧
    (let n := newEntry tRoom (.vFnd 0 1 0 8 0) ((laneOf (.vFnd 0 1 0 8 0)).getD { eng := .l, sync := 0 })
     let m := { n with xb := 0xC00 }
     let s := tWith (tQueued .v m)
     s.mayStart 0 = true ∧ (s.room 0).candidate .v s.tick = some m ∧ (headFault s 0 .v m).isSome = true) ∧
    ([3, 5].Nodup) := by decide

/-- An entry of V that finishes, one of L, and one that has waited for its counter. -/
theorem witness_EntriesIssueAndFinish_finish :
    (let n := { tEntry (.vNop 0) with more := none, minFin := 5000, effs := [.v 0 [] []] }
     finishing (tWith (tQueued .v n)) 0 .v = some n ∧
       n.effs.all (fun f => match f with | .scratch _ => false | _ => true) = true) ∧
    (let n := { tEntry (.lNop 0) with more := none, minFin := 5000 }
     finishing (tWith (tQueued .l n)) 0 .l = some n) ∧
    (let n := { tEntry (.vNop 1) with more := none, pushWait := true }
     deferred (tWith { tQueued .v n with tok := [(1, 30)] }) 0 .v = some n) := by decide

/-- Entries of V and of L whose one effect is a write of k0 finish. -/
theorem witness_MaskRegisterZeroStaysAllOnes :
    (let n := { tEntry (.kNot 0 0 0) with more := none, minFin := 5000, effs := [.k 0 [(3, 7)]] }
     finishing (tWith (tQueued .v n)) 0 .v = some n ∧ (((tWith (tQueued .v n)).room 0).queue .v).q.head?.map (·.qpos) = some n.qpos ∧
       ((tWith (tQueued .v n)).room 0).canPush n = true) ∧
    (let n := { tEntry (.lK 0 0 0 0 8) with more := none, minFin := 5000 }
     finishing (tWith (tQueued .l n)) 0 .l = some n ∧ ∃ m, lEffs n = [.k 0 m]) :=
  ⟨by decide, by decide +kernel, ⟨_, rfl⟩⟩

/-- A faulted entry of room 0 with a free place, and with a full buffer. -/
theorem witness_FaultRecordIsWritten :
    (let s := tWith (tQueued .l { tEntry (.lNop 0) with fault := some illegalHead })
     (unrecorded s (.entry 0 .l)).isSome = true ∧ freeSlot (s.wing 0).faults = some 0) ∧
    freeSlot (List.replicate 1024 (⟨0, 0, 0, 0, .cbu 0, none⟩ : FRec)) = none := by decide +kernel

theorem witness_EntriesMakeTheAccessesOfTheirForm :
    (loadForm (tEntry (.lEl 0 23 0 8 15)) (.lEl 0 23 0 8 15)).isSome = true ∧
    Acts (tActs .l (tEntry (.lEl 0 23 0 8 15))) .l (tEntry (.lEl 0 23 0 8 15)) ∧
    Acts (tActs .l { tEntry (.lGat 0 31 15 0 8) with cursor := 1 }) .l { tEntry (.lGat 0 31 15 0 8) with cursor := 1 } ∧
    Acts (tActs .s { tEntry (.sSc 0 27 15 0 8) with cursor := 1 }) .s { tEntry (.sSc 0 27 15 0 8) with cursor := 1 } ∧
    (storeForm tRoom (tEntry (.sC24 0 0 0 8 0)) (.sC24 0 0 0 8 0)).isSome = true ∧
    Acts (tActs .s (tEntry (.sC24 0 0 0 8 0))) .s (tEntry (.sC24 0 0 0 8 0)) :=
  ⟨rfl, ⟨rfl, rfl⟩, ⟨rfl, rfl⟩, ⟨rfl, rfl⟩, rfl, ⟨rfl, rfl⟩⟩

/-- Of two accesses the second is misaligned, and the last byte of the scratchpad and the one beyond it. -/
theorem witness_LoadEntryFaultsOrReads :
    (placeAll (tActs .l (tEntry (.lNop 0))) (entryCtx 0 .l (tEntry (.lNop 0))) .load (fun _ => false)
      [⟨0, 0xFFC0000000000000, 4⟩, ⟨1, 0xFFC0000000000002, 4⟩]).toOption = none ∧
    (placeOf (tActs .l (tEntry (.lNop 0))) (entryCtx 0 .l (tEntry (.lNop 0))) .load ⟨1, 0xFFC0000000000002, 4⟩).toOption = none ∧
    (placeOf (tActs .l (tEntry (.lNop 0))) (entryCtx 0 .l (tEntry (.lNop 0))) .load ⟨0, 0xFFC00000003FFFFF, 1⟩).toOption.isSome = true ∧
    (placeOf (tActs .l (tEntry (.lNop 0))) (entryCtx 0 .l (tEntry (.lNop 0))) .load ⟨0, 0xFFC0000000400000, 1⟩).toOption = none := by
  decide

theorem tState_tierSettled : tState.TierSettled := fun _ => rfl
theorem tState_crc : ∀ t m c, crcBad (tState.needAll (entryCtx tState.turn .l (tEntry (.lNop 0))) (([] : List Access).map (·.va))) t m c = false := by
  intro t m c
  have h (n : Nat) : ∀ a, Memory.read [] a n = 0 := by
    induction n with
    | zero => intro a; rfl
    | succ n ih => intro a; simp [Memory.read, Memory.get, tget, memDefault, ih]
  have d : sectorDesc tState t m c = 0 := by
    unfold sectorDesc State.read
    rw [show tState.mem = [] from rfl, h]; rfl
  change crcBad tState t m c = false
  simp [crcBad, d, descNch]

/-- The last bytes of the own scratchpad, which a load of 8 bytes takes at once; the entry of a gather whose table is padding. -/
theorem witness_LoadEntryFaultsOrReads_completes :
    (let n := { tEntry (.lQ 0 0 8 0) with xa := 0xFFC00000003FFFF8, lay := .known (tRec 0 1 1 64) }
     let a : List Access := [{ n := 0, va := 0xFFC00000003FFFF8, w := 8 }]
     let u : State := State.needAll { tActs .l n with act := .lane } (entryCtx 0 .l n) (a.map (·.va))
     (Acts (tActs .l n) .l n ∧ loadTakes n 5000 (.lQ 0 0 8 0) = some (a, 0)) ∧
     okAnd (placeAll u (entryCtx 0 .l n) .load (nearCopy u 0 .l) a)
       (fun pl => pl.all fun p => (nearValue (fillAll u pl) 0 .l p.1).isSome) = true) ∧
    (let n := { tEntry (.lGat 0 31 15 0 8) with cursor := 1, got := [(1024, 2 ^ 31)], lay := .known (tRec 0 1 1 64) }
     (loadTakes n 5000 (.lGat 0 31 15 0 8)).isSome = true) := by
  refine ⟨⟨⟨⟨rfl, rfl⟩, ?_⟩, ?_⟩, ?_⟩ <;> decide +kernel

/-- A store of mask rows to the own scratchpad. -/
theorem witness_EntriesMakeTheAccessesOfTheirForm_completes :
    (let n := { tEntry (.sEl 0 23 0 8 0) with xa := 0xFFC0000000000000, lay := .known (tRec 0 1 1 64) }
     let a : List (Access × Nat) := [({ n := 0, va := 0xFFC0000000000000, w := 4 }, 0)]
     let u : State := State.needAll { tActs .s n with act := .lane } (entryCtx 0 .s n) (a.map (·.1.va))
     (Acts (tActs .s n) .s n ∧ storeTakes (tActs .s n).me n 5000 (.sEl 0 23 0 8 0) = some (a, 0)) ∧
     okAnd (placeAll u (entryCtx 0 .s n) .store (fun _ => true) (a.map (·.1))) (fun pl =>
       let parts : List Part := (pl.zip a).map fun p => { p.1.1 with data := p.2.2 % 256 ^ p.2.1.w }
       (storeChecks u 0 n.satp parts).isNone && (keysWanted (fillAll u pl) 0 parts).isEmpty &&
         !(fillAll u pl).storeWaits 0 (.eng .s) parts && (State.bufferedTo (fillAll u pl) 0 parts).isEmpty &&
         (firstParts (fillAll u pl) 0 parts).isEmpty) = true ∧ n.held = []) ∧
    (let n := { tEntry (.sSc 0 27 15 0 8) with cursor := 1, got := [(1024, 2 ^ 31)], lay := .known (tRec 0 1 1 64) }
     (storeTakes tRoom n 5000 (.sSc 0 27 15 0 8)).isSome = true) := by
  refine ⟨⟨⟨⟨rfl, rfl⟩, ?_⟩, ?_⟩, ?_⟩ <;> decide +kernel

/-- A store of two positions, one of the own scratchpad and one of the attic portion, which goes first; and the step that stores the
part that the entry then holds. -/
theorem witness_EntriesMakeTheAccessesOfTheirForm_mixed :
    (let n := { tEntry (.sV 0 23 15 8 0) with xa := 0xFFC0000000000000, xb := 0, lay := .known (tRec 0 1 2 0x200000000) }
     let a : List (Access × Nat) := [({ n := 0, va := 0xFFC0000000000000, w := 4 }, 0), ({ n := 1, va := 0xFFC0000200000000, w := 4 }, 0)]
     let s : State := { tActs .s n with stairs := [(0, { waypart := 4 })] }
     let u : State := State.needAll { s with act := .lane } (entryCtx 0 .s n) (a.map (·.1.va))
     (Acts s .s n ∧ storeTakes s.me n 5000 (.sV 0 23 15 8 0) = some (a, 0) ∧ n.held = []) ∧
     okAnd (placeAll u (entryCtx 0 .s n) .store (fun _ => true) (a.map (·.1))) (fun pl =>
       let parts : List Part := (pl.zip a).map fun p => { p.1.1 with data := p.2.2 % 256 ^ p.2.1.w }
       (storeChecks u 0 n.satp parts).isNone && (keysWanted (fillAll u pl) 0 parts).isEmpty &&
         !(fillAll u pl).storeWaits 0 (.eng .s) parts && (State.bufferedTo (fillAll u pl) 0 parts).isEmpty &&
         decide ((parts.filter (goesFirst (fillAll u pl) 0)).length = 1) && decide (parts.length = 2)) = true) ∧
    (let p : Part := { pos := 0, va := 0xFFC0000000000000, place := .scratch 0, key := scratchKey 0 0, w := 4, data := 7, ms := false,
                       watch := false, cmp := false, heat := false }
     let n := { tEntry (.sEl 0 23 0 8 0) with held := [p], lay := .known (tRec 0 1 1 64) }
     let v : State := { tActs .s n with act := .lane }
     (Acts (tActs .s n) .s n ∧ n.held ≠ [] ∧ (storeTakes (tActs .s n).me n 5000 (.sEl 0 23 0 8 0)).isSome = true) ∧
     (keysWanted v 0 n.held = [] ∧ v.storeWaits 0 (.eng .s) n.held = false ∧ v.bufferedTo 0 n.held = [])) := by
  refine ⟨⟨⟨⟨rfl, rfl⟩, ?_⟩, ?_⟩, ⟨⟨⟨rfl, rfl⟩, ?_⟩, ?_⟩⟩ <;> decide +kernel

theorem witness_NoOperationEntries :
    Acts (tActs .l (tEntry (.lNop 63))) .l (tEntry (.lNop 63)) ∧ Acts (tActs .s (tEntry (.sNop 0))) .s (tEntry (.sNop 0)) ∧
    Acts (tActs .m (tEntry (.mNop 0))) .m (tEntry (.mNop 0)) ∧ Acts (tActs .c (tEntry (.cNop 0))) .c (tEntry (.cNop 0)) ∧
    Acts (tActs .l (tEntry (.lPf 0 0 8 0))) .l (tEntry (.lPf 0 0 8 0)) ∧ (recEmpty (tEntry (.lPf 0 0 8 0)).lay.get = true) :=
  ⟨⟨rfl, rfl⟩, ⟨rfl, rfl⟩, ⟨rfl, rfl⟩, ⟨rfl, rfl⟩, ⟨rfl, rfl⟩, by decide +kernel⟩

/-- One part of a store of the control core to HBM4E. -/
def tPart : Part := { pos := 0, va := 64, place := .hbm, key := 64, w := 8, data := 7, ms := false, watch := false, cmp := false, heat := false }
/-- The message of that store. -/
def tMsg : MemMsg :=
  { room := 0, tenant := 0, who := .core, depth := 0, inc := 0, id := 3, issued := 4999, store := true, satp := 0, dest := .none, parts := [tPart] }

theorem witness_PlainStoresWriteExactlyTheirBytes :
    (tMsg.parts.all fun p => !p.cmp && decide (p.place ≠ .port)) = true ∧
    (∀ k, tget false { tState with barObjs := [(32, true)] }.barObjs k = true → ∀ p ∈ tMsg.parts, k + 32 ≤ p.key ∨ p.key + p.w ≤ k) ∧
    (∀ p ∈ tMsg.parts, 63 < p.key ∨ p.key + p.w ≤ 63) ∧ (∀ p ∈ tMsg.parts, 72 < p.key ∨ p.key + p.w ≤ 72) ∧
    tMsg.parts = [tPart] ∧ tPart.cmp = false ∧ tPart.place ≠ .port ∧ (applyStore tState tMsg).fault = none := by
  refine ⟨by decide, ?_, by decide, by decide, rfl, rfl, by decide, by decide +kernel⟩
  intro k hk p hp
  by_cases h : k = 32
  · simp [tMsg] at hp; subst hp h; simp [tPart]
  · change tget false [(32, true)] k = true at hk
    simp [tget, Ne.symm h] at hk


/-! ## Witnesses: the matrix and copy engines -/

theorem witness_MatrixRegisterEntries :
    Acts (tActs .m (tEntry (.mClr 0 3))) .m (tEntry (.mClr 0 3)) ∧
    Acts (tActs .m (tEntry (.mSet 0 29 8))) .m (tEntry (.mSet 0 29 8)) ∧
    Acts (tActs .m (tEntry (.mSetx 0 10 15 8 0))) .m (tEntry (.mSetx 0 10 15 8 0)) ∧
    Acts (tActs .m (tEntry (.mGidx 0 23 0 8))) .m (tEntry (.mGidx 0 23 0 8)) ∧
    Acts (tActs .m (tEntry (.mSc 0 15 8 0))) .m (tEntry (.mSc 0 15 8 0)) := ⟨⟨rfl, rfl⟩, ⟨rfl, rfl⟩, ⟨rfl, rfl⟩, ⟨rfl, rfl⟩, ⟨rfl, rfl⟩⟩

/-- Of two words of scales, neither is poisoned, or the second; and an entry before has still to write the first. -/
theorem witness_MatrixRegisterEntries_scales :
    (let n := tEntry (.mSc 0 15 8 0)
     earlierBytes (tActs .m n).me n [(0, 4), (4, 4)] = false ∧ ([0, 4].all fun o => !(tActs .m n).poisoned (scratchKey 0 o) 4) = true) ∧
    (let s : State := { tState with poison := [(scratchKey 0 128 / 128, true)] }
     [0, 128].find? (fun o => s.poisoned (scratchKey 0 o) 4) = some 128) ∧
    (let n := { tEntry (.mSc 0 15 8 0) with qpos := 1 }
     let g := { tEntry (.mRetScratchpad 0 3 15 8 0) with xa := 0xFFC0000000000000, xb := 0, lay := .known (tRec 0 1 1 64) }
     earlierBytes ({ tRoom with z := [(3, { mn := some (1, 1) })] }.modQueue .m fun q => { q with q := [{ g with more := some 5001 }, n] }) n
       [(0, 4)] = true) := by
  refine ⟨?_, ?_, ?_⟩ <;> decide +kernel

/-- A retirement into scratchpad; one into an oq before its first push, and one whose first element is due. -/
theorem witness_MatrixRetirements :
    Acts (tActs .m (tEntry (.mRetScratchpad 0 3 15 8 0))) .m (tEntry (.mRetScratchpad 0 3 15 8 0)) ∧
    (tEntry (.mRetOq 0 4 3 0 0)).minFin = 0 ∧ (tEntry (.mRetOq 0 4 3 0 0)).cursor = 0 ∧
    Acts (tActs .m (tEntry (.mRetOq 0 4 3 0 0))) .m (tEntry (.mRetOq 0 4 3 0 0)) ∧
    Acts (tActs .m { tEntry (.mRetOq 0 4 3 0 0) with minFin := 4999 }) .m { tEntry (.mRetOq 0 4 3 0 0) with minFin := 4999 } ∧
    ((tRoom.pushOq 3 [] 5000).isSome = true) := ⟨⟨rfl, rfl⟩, rfl, rfl, ⟨rfl, rfl⟩, ⟨rfl, rfl⟩, rfl⟩

/-- A retirement into scratchpad with nothing before it, and the same behind a nest that has steps ahead. -/
theorem witness_MatrixRetirements_waits :
    (let n := tEntry (.mRetScratchpad 0 3 15 8 0)
     readsFirst (tActs .m n).me n = false ∧ earlierBytes (tActs .m n).me n [(0, 4)] = false ∧
       (accShape { mn := some (32, 32) }).1 * (accShape { mn := some (32, 32) }).2 ≤ 1024 * (0 + 1)) ∧
    (let n := { tEntry (.mRetScratchpad 0 3 15 8 0) with qpos := 1 }
     let g := { tEntry (.mGo 0 8 15) with nest := some { regs := [], recs := [], gather := [] } }
     Acts { tWith (tRoom.modQueue .m fun q => { q with q := [{ g with more := some 5001 }, n] }) with act := .entry .m } .m n ∧
       (readsFirst (tRoom.modQueue .m fun q => { q with q := [{ g with more := some 5001 }, n] }) n ||
         earlierBytes (tRoom.modQueue .m fun q => { q with q := [{ g with more := some 5001 }, n] }) n [(0, 4)]) = true) := by
  refine ⟨?_, ⟨rfl, rfl⟩, ?_⟩ <;> decide +kernel

theorem witness_MatrixNestCapturesItsSet :
    Acts (tActs .m (tEntry (.mGo 0 8 15))) .m (tEntry (.mGo 0 8 15)) ∧ (tEntry (.mGo 0 8 15)).nest = none := ⟨⟨rfl, rfl⟩, rfl⟩

/-- A nest of one k-step whose step has been taken. -/
theorem witness_MatrixNestCapturesItsSet_ends :
    let t : NestRun := { regs := [(1, 1)], recs := [], gather := [], stage := 1, tick := 4900, steps := [([0], [0])] }
    let n := { tEntry (.mGo 0 8 15) with nest := some t }
    Acts (tActs .m n) .m n ∧ t.ar = false ∧ t.block + 1 = t.blocks ∧ t.steps.length = t.blockSteps t.block ∧
      t.ticks (min t.k (32 * t.block + 32)) - t.ticks (32 * t.block) ≤ 5000 - t.tick + 1 := by
  refine ⟨⟨rfl, rfl⟩, ?_⟩; decide +kernel

/-- Entries of C with a record of 129 positions: none moved, a block read, 128 moved, all moved. -/
theorem witness_CopyEntriesMoveBlocks :
    (let n := { tEntry (.cCopy 0 15 0 8 0) with lay := .known (tRec 0 129 1 516), lay2 := .known (tRec 0 129 1 516) }
     (Acts (tActs .c n) .c n ∧ n.cursor < recP n.lay.get ∧ tget 0 n.got 0 = 0 ∧ 127 ∈ blockAt n.cursor (recP n.lay.get)) ∧
     (Acts (tActs .c { n with got := [(0, 1)] }) .c { n with got := [(0, 1)] } ∧ tget 0 ({ n with got := [(0, 1)] } : Entry).got 0 ≠ 0) ∧
     (Acts (tActs .c { n with cursor := 128 }) .c { n with cursor := 128 } ∧ 128 ∈ blockAt 128 (recP n.lay.get)) ∧
     (Acts (tActs .c { n with cursor := 129 }) .c { n with cursor := 129 } ∧ recP n.lay.get ≤ 129 ∧ recP n.lay2.get ≤ 129)) ∧
    (15#5).toNat < 16 := by
  refine ⟨⟨⟨⟨rfl, rfl⟩, ?_⟩, ⟨⟨rfl, rfl⟩, ?_⟩, ⟨⟨rfl, rfl⟩, ?_⟩, ⟨⟨rfl, rfl⟩, ?_⟩⟩, ?_⟩ <;> decide +kernel

/-- An entry with nothing to settle, and one whose block of 128 has been stored. -/
theorem witness_CopyEntriesMoveBlocks_settled :
    (let k := tEntry (.cCopy 0 15 0 8 0)
     k = k.settle) ∧
    (let k := { tEntry (.cCopy 0 15 0 8 0) with got := [(3, 129)] }
     Acts (tActs .c k) .c k ∧ k.settle.cursor = 128 ∧ tget 0 k.settle.got 0 = 0) := by
  refine ⟨rfl, ⟨rfl, rfl⟩, ?_⟩; decide +kernel

/-- A multicast and a put that are done, a stream that binds iq7, a prefetch whose lines are asked for, an element of a stream. -/
theorem witness_CopyEntriesDeliver :
    (let n := { tEntry (.cMcast 0 15 0 8 0) with mask := 1 }
     Acts (tActs .c n) .c n ∧ n.mask ≠ 0 ∧ n.mask2 = 0 ∧ recP n.lay.get ≤ n.cursor) ∧
    (let n := { tEntry (.cPut 0 15 0 8 0) with mask := 1 }
     (Acts (tActs .c n) .c n ∧ n.mask ≠ 0 ∧ recP n.lay.get ≤ n.cursor ∧ n.msgs = [] ∧ tget 0 n.got 4 = 0) ∧
     ({ n with msgs := [3] } : Entry).msgs ≠ [] ∧ n = n.settle) ∧
    (let n := tEntry (.cStrm 0 31 0 8 0)
     Acts (tActs .c n) .c n ∧ n.iqId = some (7, 0) ∧ n.mask = 0) ∧
    (let n := { tEntry (.cPf 0 15 8 0) with got := [(1, 1)] }
     Acts (tActs .c n) .c n ∧ tget 0 n.got 1 ≠ 0 ∧ recP n.lay.get ≤ n.cursor) ∧
    (let st : Stream := ⟨4, 0, 0, 0, tRec 0 64 16 256, 0, 0, .s, true, [], [], 0, none, false⟩
     let x := { tRoom with iq := [(7, { stream := some st })] }
     (tget {} ((tWith x).room 0).iq 7).stream = some st ∧ ((tWith x).room 0).streamReady 7 5000 = true) := by
  refine ⟨⟨⟨rfl, rfl⟩, ?_⟩, ⟨⟨⟨rfl, rfl⟩, ?_⟩, ?_⟩, ⟨⟨rfl, rfl⟩, ?_⟩, ⟨⟨rfl, rfl⟩, ?_⟩, ?_⟩ <;> decide +kernel

/-! ## Witnesses: the control core -/

theorem witness_ScalarIntegerLanesAndDivision :
    (intResultOf tState.me (.alu .mulhsu 31 8 0)).isSome = true ∧ tState.Free [8, 0] [31] ∧
    (intResultOf tState.me (.lui 0 0xFFFFF)).isSome = true ∧ tState.Free [] [0] := ⟨rfl, ⟨rfl, rfl⟩, rfl, ⟨rfl, rfl⟩⟩

/-- A branch that goes on, a jump to the last lane of a line, and one to an address that is no multiple of 4. -/
theorem witness_ScalarJumps :
    jumpOf tState.me (.branch .bne 0 0 4) = some ([0, 0], [], 0, none) ∧
    jumpOf tState.me (.jalr 1 8 0x7FC) = some ([8], [1], 1, some 0x83C) ∧ (0x83C#64).toNat % 4 = 0 ∧
    jumpOf tState.me (.jalr 0 8 1) = some ([8], [0], 0, some 0x40) ∧
    jumpOf tState.me (.jalr 0 8 2) = some ([8], [0], 0, some 0x42) ∧ (0x42#64).toNat % 4 ≠ 0 ∧ tState.Free [8] [1] ∧ tState.Free [8] [0] ∧
    tState.Free [0, 0] [] := ⟨rfl, rfl, rfl, rfl, rfl, by decide, ⟨rfl, rfl⟩, ⟨rfl, rfl⟩, ⟨rfl, rfl⟩⟩

theorem witness_ScalarFloatLanes :
    (let s := tWith { tRoom with csr := { mstatus := 0x6000 } }
     (fpResultOf s.me (.fop .fdiv true 7 1 2 3)).isSome = true ∧ s.me.fpOn = true ∧ s.me.pendingAny [34, 35, 33] = false ∧ s.me.lateAny s.tick [34, 35] = false) ∧
    ((fpResultOf tState.me (.fq .mvxf false 0 2 0)).isSome = true ∧ tState.me.fpOn = false) := ⟨⟨by decide, rfl, rfl, rfl⟩, by decide, rfl⟩

/-- The context of the control core of room 0. -/
def tCtx : Ctx := coreCtx 0 tState.me false
/-- The last doubleword of the port range and a byte of it, and an address that is nowhere. -/
theorem witness_ScalarLoadsAndStores_places :
    (okAnd (place (tState.needTier tCtx 0x42) tCtx .load 0x42) fun l => decide (l.place ≠ .port)) = true ∧
    (okAnd (place (tState.needTier tCtx 0xFFFF000000002) tCtx .load 0xFFFF000000002) fun l => decide (l.place = .port)) = true ∧
    (okAnd (place (tState.needTier tCtx 0xFFFF000000002) tCtx .store 0xFFFF000000002) fun l => decide (l.place = .port)) = true ∧
    (0xFFFF000000002#64).toNat % 4 ≠ 0 ∧
    (okAnd (coreLoc (tState.needTier tCtx 0x1000000000000000) .load 0x1000000000000000 8) fun _ => true) = false ∧
    (okAnd (coreLoc (tState.needTier tCtx 0x1000000000000000) .store 0x1000000000000000 8) fun _ => true) = false := by decide +kernel
/-- A load that a copy serves and one that no copy serves, a store beside no key, one behind a lost link, at the first byte. -/
theorem witness_ScalarLoadsAndStores :
    (loadOf tState.me (.load .lw 1 8 2)).isSome = true ∧ tState.me.pendingAny [8, 1] = false ∧ tState.me.lateAny tState.tick [8] = false ∧ (0x42#64).toNat % 4 ≠ 0 ∧
    (tCopy.me.loadPending = false ∧ (okAnd (coreLoc (tCopy.needTier tCtx 64) .load 64 8) fun l => !tCopy.me.atomOn (lineOf l.key) &&
      !((tCopy.needTier tCtx 64).fillTlb l).atomOnWay 0 (lineOf l.key) &&
      (coreHit ((tCopy.needTier tCtx 64).fillTlb l) 0 (partOf ⟨0, 64, 8⟩ l 0)).isSome) = true) ∧
    ((okAnd (coreLoc (tState.needTier tCtx 64) .load 64 8) fun l => (coreHit ((tState.needTier tCtx 64).fillTlb l) 0 (partOf ⟨0, 64, 8⟩ l 0)).isNone &&
      !((tState.needTier tCtx 64).fillTlb l).cohFull 0) = true) ∧
    (storeOf tState.me (.store .sd 8 0 4)).isSome = true ∧ tState.me.pendingAny [8, 0] = false ∧ tState.me.lateAny tState.tick [8, 0] = false ∧ (0x44#64).toNat % 8 ≠ 0 ∧
    ((okAnd (coreLoc (tState.needTier tCtx 64) .store 64 8) fun l => !tState.me.atomOn (lineOf l.key) &&
      !(tState.needTier tCtx 64).lost l.place l.key && !(tState.needTier tCtx 64).cohFull 0 &&
      (keysWanted (tState.needTier tCtx 64) 0 [partOf ⟨0, 64, 8⟩ l 0]).isEmpty &&
      !(tState.needTier tCtx 64).storeWaits 0 .core [partOf ⟨0, 64, 8⟩ l 0] &&
      ((tState.needTier tCtx 64).bufferedTo 0 [partOf ⟨0, 64, 8⟩ l 0]).isEmpty) = true) ∧
    ((let s : State := { tState with hall := { linkLost := 15, tierHeld := [(0, some 1)] } }
      match coreLoc (s.needTier tCtx 0xC000000000000) .store 0xC000000000000 8 with | .error e => decide (e = 53) | .ok _ => false) = true) ∧
    (tWith { tRoom with mode := .m }).me.mode = .m := by
  refine ⟨rfl, rfl, rfl, ?_, ?_, ?_, rfl, rfl, rfl, ?_, ?_, ?_, rfl⟩ <;> decide +kernel

/-- The registers of a CSR lane are free; a legal and an illegal write, and a legal read. -/
theorem witness_CsrWrites :
    tState.Free [8] [1] ∧ tState.Free [] [1] ∧ csrLegal tState.me 0x180 true = true ∧ csrLegal tState.me 0x140 true = true ∧
    csrLegal tState.me 0x300 true = false ∧ csrLegal tState.me 0x810 false = true ∧ 0x140 ∉ [0x805, 0x809, 0x80A] ∧
    (CsrOp.mk 0x140 1 1 8).csr.toNat = 0x140 ∧ portReg (0xFFFF000000000 - portBase) ≠ .mbcmd ∧
    (tState.me.tenant = 0 ∧ tState.me.mode ≠ .u) ∧ portReg (0xFFFF000200028 - portBase) = .lcfg 0 ∧
    portReg (0xFFFF0002F0030 - portBase) = .tsatp 15 := by
  refine ⟨⟨rfl, rfl⟩, ⟨rfl, rfl⟩, ?_, ?_, ?_, ?_, ?_, ?_, ?_, ?_, ?_, ?_⟩ <;> decide +kernel

/-- A pending interrupt 16 that M mode takes in S mode, one that is delegated, and a room for `ecall`. -/
theorem witness_TrapsAreTaken :
    (let x := { tRoom with qwmark := 0x1010000000000#64, csr := { mie := 0x10000, mtvec := 0x100, stvec := 0x200 } }
     let s := tWith x
     (trapTaken s 0).isSome = true ∧ (s.room 0).hold = .none ∧ (s.room 0).csr.mtvec ≠ 0 ∧ (s.room 0).csr.stvec ≠ 0 ∧
       trapToS x { int := true, code := 16, tval := 0 } = false ∧
       trapToS { x with csr := { x.csr with mideleg := 0x10000 } } { int := true, code := 16, tval := 0 } = true ∧
       s.me.deferred = 0 ∧ s.me.csr.mtvec ≠ 0 ∧ s.me.csr.stvec ≠ 0) ∧
    (let s := tWith { tRoom with qwmark := 0x1010000000000#64, csr := { mie := 0x10000 } }
     (trapTaken s 0).isSome = true ∧ (s.room 0).csr.mtvec = 0 ∧ (s.room 0).csr.stvec = 0) := by decide +kernel

theorem witness_ReturnsAndWfi :
    (tWith { tRoom with mode := .m }).me.mode = .m ∧ tState.me.mode = .s ∧ tState.me.csr.mstatus.getLsbD 22 = false ∧
    tState.me.mode ≠ .m ∧ (tWith { tRoom with mode := .u }).me.mode = .u ∧
    (mipOf (tWith { tRoom with csr := { mip := 2, mie := 2 } }) 0 &&& (tWith { tRoom with csr := { mip := 2, mie := 2 } }).me.csr.mie ≠ 0) ∧
    (mipOf tState 0 &&& tState.me.csr.mie = 0 ∧ tState.me.csr.mstatus.getLsbD 21 = false) ∧
    getField tState.me.csr.mstatus 11 2 ≠ 2 := by decide +kernel

/-- Counters at 30, 31, 0 and 1, and the holds that end. -/
theorem witness_TokensAndTheControlQueue :
    (tWith { tRoom with tok := [(15, 30)] }).me.tokenCount tokXC < 31 ∧ 31 ≤ (tWith { tRoom with tok := [(15, 31)] }).me.tokenCount tokXC ∧
    1 ≤ (tWith { tRoom with tok := [(14, 1)] }).me.tokens tokCX ∧ tState.me.tokens tokCX = 0 ∧
    (let s := tWith { tRoom with hold := .tsig, tok := [(15, 30)] }
     (s.room 0).hold = .tsig ∧ (s.room 0).tokenCount tokXC < 31) ∧
    (let s := tWith { tRoom with hold := .twait, tok := [(14, 1)] }
     (s.room 0).hold = .twait ∧ 1 ≤ (s.room 0).tokens tokCX) ∧
    (∀ e ∈ allEng, (tState.me.queue e).q = []) ∧
    (let s := tWith { tQueued .v (tEntry (.vNop 0)) with hold := .efence none (some 0) none none none }
     s.me.qv.q.getLast?.map (·.qpos) = some 0 ∧ (s.room 0).hold = .efence none (some 0) none none none ∧
       (∃ n ∈ ((s.room 0).queue .v).q, some 0 = some n.qpos)) ∧
    ((tWith { tRoom with hold := .efence none none none none none }).room 0).hold = .efence none none none none none ∧
    (let s := tWith { tRoom with cq := [(7, 4999)] }
     s.Free [] [31] ∧ s.me.cq = (7, 4999) :: [] ∧ 4999 < s.tick) ∧
    (tState.Free [] [31] ∧ tState.me.cq = []) ∧
    (let s := tWith { tRoom with hold := .cqPop 31, cq := [(7, 4999)] }
     (s.room 0).hold = .cqPop 31 ∧ (s.room 0).cq = (7, 4999) :: []) := by
  refine ⟨?_, ?_, ?_, ?_, ?_, ?_, ?_, ?_, ?_, ⟨⟨rfl, rfl⟩, ?_⟩, ⟨⟨rfl, rfl⟩, ?_⟩, ?_⟩ <;> decide +kernel

/-- The next tick, a later one and the slot form, and the holds that end. -/
theorem witness_TimeFencesAndJobs :
    tState.Free [8] [] ∧ calTarget (tState.me.getX 8) tState.tick = tState.tick + 1 ∧
    calTarget ((tWith { tRoom with x := [(8, 5002)] }).me.getX 8) 5000 ≠ 5001 ∧
    (0x8000000000000000#64).getLsbD 63 = true ∧ (0x7FFFFFFFFFFFFFFF#64).getLsbD 63 = false ∧
    ((tWith { tRoom with hold := .calWait 5000 }).room 0).hold = .calWait 5000 ∧
    tState.Free [8, 0] [1] ∧ tState.Free [8, 0] [] ∧ tState.Free [] [1] ∧ tState.me.deferred < 8 ∧ tState.me.run = some fetchRun ∧
    (okAnd (coreLoc (tCopy.needTier tCtx (tCopy.me.getX 8)) .load (tCopy.me.getX 8) 64) fun l => decide (l.place ≠ .port) && !tCopy.me.loadPending && !tCopy.me.atomOn (lineOf l.key) &&
      !((tCopy.needTier tCtx (tCopy.me.getX 8)).fillTlb l).atomOnWay 0 (lineOf l.key) &&
      (coreHit ((tCopy.needTier tCtx (tCopy.me.getX 8)).fillTlb l) 0 (partOf ⟨0, tCopy.me.getX 8, 64⟩ l 0)).isSome) = true ∧
    tState.ownJob tState.me.tenant 64 = false ∧
    ({ tState with hall := { jobs := [{ handle := 64, record := 0 }] } } : State).ownJob 0 64 = true ∧
    ((tWith { tRoom with hold := .jobWait 64 }).room 0).hold = .jobWait 64 ∧ (tWith { tRoom with hold := .jobWait 64 }).job? 64 = none ∧
    coreStoresUnderWay tState tState.turn = false ∧
    ((passWanted tState tState.turn).drainRoom tState.turn).me.visible ((passWanted tState tState.turn).drainRoom tState.turn).tick = true ∧
    ((tWith { tRoom with hold := .fenceV }).room 0).hold = .fenceV ∧ ((tWith { tRoom with hold := .fenceV }).room 0).visible 5000 = true ∧
    tState.me.vhzPend = false ∧ (tWith { tRoom with stores := [⟨1, none⟩] }).me.vhzPend = true := by
  refine ⟨⟨rfl, rfl⟩, ?_, ?_, ?_, ?_, ?_, ⟨rfl, rfl⟩, ⟨rfl, rfl⟩, ⟨rfl, rfl⟩, ?_, ?_, ?_, ?_, ?_, ?_, ?_, ?_, ?_, ?_, ?_, ?_, ?_⟩ <;> decide +kernel

/-! ## Witnesses: slot pools -/

/-- A pool of 3 slots and 1 reader: slot 0 complete and held, slot 1 being written by room 0. -/
def tPool : Pool :=
  { dpa := 64, idx := 0, tenant := 0, nslot := 3, nread := 1, base := 4096, stride := 128, size := 128,
    slots := [(0, ⟨2, 1, 4000⟩), (1, ⟨1, 0, 0⟩)], held := [(0, some 0)], holder := [(0, some 5)], wslot := some 1, writer := some 0,
    ncommit := 1 }
/-- A request of room 0. -/
def tReq (op : PoolOp) (xs2 : W64) : PoolReq :=
  { room := 0, tenant := 0, wing := 0, op := op, dpa := 64, xs2 := xs2, hz := 0, rd := 1, id := 3, lane := 4, word := 0, sent := 4999 }
/-- The state with the pool registered in wing 0. -/
def tPooled : State := { tState with wings := [(0, { pools := [tPool] })] }

theorem tPool_ok : tPool.Ok where
  room := by decide
  writing := by
    intro i
    match i with
    | 0 => decide
    | 1 => decide
    | n + 2 => simp [tPool, Pool.slot, tget]
  inside := by intro i h; simp [tPool] at h; subst h; decide
  held := by
    intro r i h
    match r with
    | 0 => simp [tPool, Pool.held?, tget] at h; subst h; decide
    | n + 1 => simp [tPool, Pool.held?, tget] at h

theorem witness_PoolRequestsAreSent :
    poolOf (.pwCommit 11 8 31) = some (.commit, 11, 8, 31) ∧ tState.Free [8, 31] [11] ∧ poolWaits .commit tState.me = false ∧
    tState.me.deferred < 8 ∧ (tState.me.getX 8).toNat % 64 = 0 ∧ inWindows (tState.me.getX 8) = false ∧
    (okAnd (place (tState.needTier tState.devCtx (tState.me.getX 8)) tState.devCtx .load (tState.me.getX 8)) fun _ => true) = true ∧
    inWindows ((tWith { tRoom with x := [(8, 0xFFC0000000000000)] }).me.getX 8) = true ∧
    (okAnd (place (tState.needTier tState.devCtx 0x1000000000000000) tState.devCtx .load 0x1000000000000000) fun _ => true) = false ∧ inWindows 0x1000000000000000 = false ∧
    ((tWith { tRoom with x := [(8, 65)] }).me.getX 8).toNat % 64 ≠ 0 ∧
    (let s := tWith { tRoom with lastDue := [(poolKey, 5003)] }
     tget 0 tState.me.lastDue poolKey ≤ 5000 + 1 ∧ s.tick + 1 < tget 0 s.me.lastDue poolKey ∧ tget 0 s.me.lastDue poolKey ≤ s.tick + 4) := by
  refine ⟨rfl, ⟨rfl, rfl⟩, ?_⟩; decide +kernel

theorem witness_PoolDecisionsAreAnswered :
    tPooled.pool? 0 64 = some tPool ∧ (tPool.decide 5000 (tReq .open 0)).isSome = true ∧ PoolOpHasX PoolOp.open = true ∧
    (tPool.decide 5000 (tReq .drop 0)).isSome = true ∧ PoolOpHasX PoolOp.drop = false ∧
    (tPool.decide 5000 (tReq .acq 1)).isNone = true ∧ tState.pool? 0 64 = none ∧
    ((tWith { tRoom with outs := [⟨3, [5], true, false, false, none⟩] }).room 0).outs.find? (fun o => o.id = 3) =
      some ⟨3, [5], true, false, false, none⟩ ∧ (valueAnswer 3 7 4 0).ask = none ∧ (valueAnswer 3 7 4 0).write = true ∧
    (tState.room 0).hold = .none ∧ (tState.room 0).outs.find? (fun o => o.id = 3) = none ∧
    ((tWith { tRoom with hold := .answer 3 }).room 0).hold = .answer (valueAnswer 3 7 4 0).id ∧ (valueAnswer 3 7 4 0).misuse = none ∧
    ((tWith { tRoom with hold := .cbPull 3 false }).room 0).hold = .cbPull (valueAnswer 3 7 4 0).id false := by decide +kernel

theorem witness_PoolsStayWellFormed : tPool.Ok ∧ (tPool.decide 5000 (tReq .commit 1)).isSome = true := ⟨tPool_ok, by decide +kernel⟩

theorem witness_OpenAlwaysFindsASlot : tPool.Ok ∧ (tReq .open 0).tenant = tPool.tenant ∧ (tReq .open 0).op = .open := ⟨tPool_ok, rfl, rfl⟩

/-- The slot is visible at its commit tick and not before. -/
theorem witness_AcquireAndCommit :
    tPool.Ok ∧ (tReq .acq 0).tenant = tPool.tenant ∧ (tReq .acq 0).op = .acq ∧ (tReq .acq 0).xs2.toNat < tPool.nread ∧
    tPool.visible 3999 = none ∧ tPool.visible 4000 = some 0 ∧ (tReq .commit 0).op = .commit ∧ tPool.wslot = some 1 ∧
    tPool.writer = some (tReq .commit 0).room ∧ (tReq .commit 0).xs2 = 0 := ⟨tPool_ok, rfl, rfl, by decide, by decide, by decide, rfl, rfl, rfl, rfl⟩

/-- A descriptor at address 64 of 3 slots and 1 reader in wing 0; a word with a reserved bit. -/
theorem witness_PoolRegistration :
    (getField (({ tState with wings := [(0, { pres := 1 })] } : State).wing 0).pres 0 2 = 1) ∧
    pcmdBy { tState with wings := [(0, { pres := 1 })] } 0 64 = none ∧
    (pcmdBy tState 0 64 = some 5064 ∧ tState.mayServe (calUnit 4 0) 0 5000 = true) ∧
    (let s : State := { tState with hall := { cal := [(calUnit 4 0, BitVec.ofNat 512 (2 ^ 512 / 255))] } }
     pcmdBy s 0 64 = some 5064 ∧ s.mayServe (calUnit 4 0) 0 5000 = false ∧ 5000 < 5064) ∧
    (let s : State := { tState with mem := [(64, 3), (65, 1), (73, 16), (80, 128), (88, 128)] }
     getField (s.wing 0).pres 0 2 ≠ 1 ∧ regReason ((s.modWing 0 fun x => { x with pcmd := 64 }).holdTier (pcmdDpa 64)) 0 64 = 0 ∧
       regReason ((s.modWing 0 fun x => { x with pcmd := 128 }).holdTier (pcmdDpa 128)) 0 128 ≠ 0 ∧ pcmdReserved 64 = false ∧
       pcmdReserved 65 = true) ∧
    ([0].all (tState.enginesEnded false) = true ∧ [0].any tState.buffers = false) ∧
    ([0].all ((tWith (tQueued .l (tEntry (.lNop 0)))).enginesEnded false) = false) ∧
    ([0].any ({ tState with wings := [(0, { keys := [{ slot := 2, base := 0, lsz := 12, keyq := 500, holder := some 0, since := 4000, buffered := [tMsg] }] })] } : State).buffers = true) ∧
    (tPool.wslot = some 1 ∧ tPool.writer = some 0 ∧ 0 < tPool.nread ∧ tPool.holder? 0 = some 5) ∧
    ([0].contains 0 = true ∧ [3].contains 0 = false ∧ [(0, 0)].contains tPool.wIter = true ∧ [(3, 0)].contains tPool.wIter = false) ∧
    (let k : KillReq := { rooms := [0] }
     killLate k 5000 = false ∧ killLate { k with till := some 5000 } 5000 = true ∧ storesApplied tState k.rooms = true ∧
       [0].all ((tWith (tQueued .l (tEntry (.lNop 0)))).enginesEnded true) = true) ∧
    storesUnderWay (tWith { tRoom with stores := [⟨1, none⟩] }) [0] = [] ∧ storesHeld tState [0] = false ∧
    storesUnderWay { tState with agenda := [(5001, .storeAtHome tMsg)] } [0] ≠ [] := by decide +kernel

/-! ## Witnesses: memory -/

/-- The load of four bytes by the control core. -/
def tLoad : MemMsg :=
  { tMsg with store := false, dest := .x 5 .lw, parts := [{ tPart with w := 4 }] }
/-- Room 0 waits for the answer of message 3. -/
def tAsks : State := tWith { tRoom with outs := [⟨3, [5], false, true, false, none⟩], stores := [⟨3, none⟩] }
/-- A table every slot of which belongs to tenant 5. -/
def tTaken : BitVec 512 := BitVec.ofNat 512 ((List.replicate 64 5).foldl (fun n b => 256 * n + b) 0)

/-- A second incarnation of the agent; a request that is performed; one to a granule of the tier that the bridge does not hold, and
one behind an earlier one of its room to the line; one whose re-walk of a sealed page fails. -/
theorem witness_RequestsReachTheirHomes :
    (let s : State := { tState with hall := { inc := [(0, 1)] } }
     s.stale tMsg.room tMsg.inc = true) ∧
    (tState.staleMsg tMsg = false ∧ okAnd (moved tState { tMsg with store := true }) (fun m => missing tState m = []) = true) ∧
    (let m := { tMsg with parts := [{ tPart with place := .tier, key := 0xC000000000040 }] }
     let s : State := { tState with hall := { tierHeld := [(0, some 1)] } }
     let g : State := { s with grans := [(granuleOf 0xC000000000040, { st := 1 })], waiting := [{ m with id := 2 }] }
     s.staleMsg m = false ∧ okAnd (moved s { m with store := true }) (fun m => !bridgeReady s m) = true ∧
     okAnd (moved g { m with store := true }) (fun m => !bridgeReady g m && missing g m = []) = true) ∧
    (let s : State := { tState with hall := { migStat := 1, migPages := (0, 65536) } }
     okAnd (moved s { tMsg with satp := 0xF000000000000000, store := true }) (fun _ => true) = false ∧ s.staleMsg tMsg = false) := by
  decide +kernel

/-- The unit of an MSAU is not the scheduling processor. -/
theorem msau_ne (u : Nat) : calUnit 5 u ≠ schedulerUnit := by
    have hc : coreUnit 5 < 15 := Nat.mod_lt _ (by decide)
    simp only [calUnit, schedulerUnit, ne_eq]; omega
/-- At reset every MSAU serves tenant 0 at tick 5,000. -/
theorem tState_serves (u : Nat) : tState.mayServe (calUnit 5 u) 0 tState.tick = true := by
  simp only [State.mayServe, State.calEntry, if_neg (msau_ne u), show tget calOpen tState.hall.cal (calUnit 5 u) = calOpen from rfl]
  decide +kernel
/-- The store to address 64 in a page marked MS. -/
def tMsStore : MemMsg := { tMsg with parts := [{ tPart with ms := true }] }

/-- A request that the MSAU performs at once, and one at an MSAU all of whose slots belong to another tenant. -/
theorem witness_RequestsReachTheirHomes_slots :
    (tState.msauAhead tMsStore = none ∧ tMsStore.parts.any (·.ms) = true ∧ tState.msauCan (msauOf tMsStore) (.msauRequest tMsStore) = true) ∧
    (let s : State := { tState with hall := { cal := [(calUnit 5 (msauOf tMsStore), tTaken)] } }
     s.msauCan (msauOf tMsStore) (.msauRequest tMsStore) = false) := by
  refine ⟨⟨by decide +kernel, rfl, ?_⟩, ?_⟩
  · simp only [State.msauCan, State.msauFree]
    rw [show msauTenant tState (.msauRequest tMsStore) = 0 from by decide +kernel]
    simp only [tState_serves]
    decide
  · simp only [State.msauCan]
    rw [show msauTenant { tState with hall := { cal := [(calUnit 5 (msauOf tMsStore), tTaken)] } } (.msauRequest tMsStore) = 0 from by
      decide +kernel]
    simp only [State.mayServe, State.calEntry, if_neg (msau_ne _), tget]
    rw [show msauPasses (.msauRequest tMsStore) = false from rfl]
    simp
    intro
    decide +kernel
/-- A store to watched lines without MS takes no turn of its MSAU; a barrier's request, a credit and an atomic take one. -/
theorem witness_RequestsReachTheirHomes_passes :
    msauPasses (.msauRequest tMsg) = true ∧ msauPasses (.msauRequest tMsStore) = false ∧ msauPasses (.cpfCredit ⟨0, 0, 64, 0, 0⟩) = false := by decide

/-- A store of the sender to the same line that waits at an MSAU, and a request not of a line marked MS. -/
theorem witness_RequestsReachTheirHomes_waits :
    (∃ u, ({ tState with msauQ := [(channel 64, [.msauRequest { tMsg with id := 2 }])] } : State).msauAhead tMsg = some u) ∧
    (tMsg.parts.any (·.ms) = false ∧ tState.msauAhead tMsg = none ∧ tMsg.store = true) ∧ (∀ w, tMsg.dest ≠ .cbu w) := by
  refine ⟨⟨channel 64, ?_⟩, by decide +kernel, fun w => by simp [tMsg]⟩
  simp [State.msauAhead, tMsg, tPart, tget, reqId, msauRoom, List.eraseDups_cons]

/-- A load behind an atomic of its room to its line, and a store there; a put into a window that is open, and into one that has closed. -/
theorem witness_RequestsReachTheirHomes_order :
    (let a : AtomMsg := ⟨0, 0, 0, 0, 2, .cas128, tPart, 5, 0, 10, 0, 4, 0⟩
     let s : State := { tState with agenda := [(5001, .msauAtomic a)] }
     s.behindAtom { tLoad with store := false } = true ∧ s.behindAtom { tMsg with store := true } = false ∧ s.staleMsg tLoad = false) ∧
    (let s : State := { tState with hall := { windows := [(0, { open_ := true, size := 128, gen := 1 })] } }
     let m := { tMsg with who := .put, satp := 0x100000000 }
     (s.window? m.tenant m.satp).isSome = true ∧ (tState.window? m.tenant m.satp).isSome = false ∧ m.parts = tPart :: [] ∧
       missing s m = [] ∧ s.waiting = [] ∧ s.staleMsg m = false ∧ okAnd (moved s { m with store := true }) (fun _ => true) = true) := by
  decide +kernel

theorem witness_LoadsDeliverAndStoresBecomeVisible :
    (tLoad.dest = .x 5 .lw ∧ tLoad.parts = [{ tPart with w := 4 }] ∧ partFault tAsks { tPart with w := 4 } = none ∧
      ((tAsks.room 0).outs.any fun o => o.id = tLoad.id) = true) ∧
    ((applyStore tState tMsg).fault = none ∧ cacheable tPart = true ∧ (tMsg.parts.all fun q => !watchedPart tState q) = true) ∧
    ((tAsks.wing (wingOf 0)).keys = [] ∧ (tAsks.room 0).hold = .none ∧ ((tAsks.room 0).stores.any fun o => o.id = 3) = true) := by
  decide +kernel

/-- No granule is held; a barrier at key 64 with an arrival missing. -/
theorem witness_BridgeAndReplicaSteps :
    (tState.waiting = [] ∧ tState.waitAtom = [] ∧ (tget {} tState.grans 5).st = 0 ∧ tget [] tState.birsp 5 = [] ∧
      tState.stale (tState.portAgent 5) 0 = false ∧ tState.stale (tState.portAgent 5) 1 = true ∧
      tState.stale (tState.holderAgent 5) 0 = false ∧ tState.stale (tState.holderAgent 5) 1 = true ∧
      tState.hall.linkLost.getLsbD (tState.portAgent 5 - 256) = false ∧
      ({ tState with hall := { linkLost := 15 } } : State).hall.linkLost.getLsbD (tState.portAgent 5 - 256) = true) ∧
    (let s : State := { tState with mem := [(64, 2)] }
     barArrived (s.barObj (s.movedPa 64)) ≠ barNpart (s.barObj (s.movedPa 64)) ∧ s.stale 0 0 = false ∧ s.stale 0 1 = true) := by decide +kernel

/-- The MSAU of a credit performs it, or has performed a request of this tick. -/
theorem witness_BridgeAndReplicaSteps_credits :
    tState.msauCan (channel 64) (.cpfCredit ⟨0, 0, 64, 0, 0⟩) = true ∧
    ({ tState with msauAt := [(channel 64, 5001)] } : State).msauCan (channel 64) (.cpfCredit ⟨0, 0, 64, 0, 0⟩) = false := by
  constructor
  · simp only [State.msauCan, State.msauFree]
    rw [show msauTenant tState (.cpfCredit ⟨0, 0, 64, 0, 0⟩) = 0 from rfl]
    simp only [tState_serves]
    decide
  · simp [State.msauCan, State.msauFree, tget, tState, msauPasses]

/-- A service core that may serve the tenant, and one all of whose slots belong to another; the access that waits for the granule. -/
theorem witness_BridgeAndReplicaSteps_sharing :
    (tState.stale (coreAgent 5) 0 = false ∧ tState.stale (coreAgent 5) 1 = true ∧ tState.waitAtom = [] ∧
      (({ tState with waiting := [tLoad] } : State).waiting.filter fun w => w.id = tLoad.id) = [tLoad] ∧ tMsg.store = true ∧
      tLoad.store = false ∧ missing tState { tMsg with parts := [{ tPart with place := .tier, key := 0xC000000000040 }] } ≠ [] ∧
      (({ tState with waitAtom := [⟨0, 0, 0, 0, 3, .cas128, tPart, 5, 0, 10, 0, 4, 0⟩] } : State).waitAtom.any fun a => granuleOf a.part.key = 1) = true) ∧
    ({ tState with hall := { cal := [(calUnit 3 (coreUnit 5), tTaken)] } } : State).mayServe (calUnit 3 (coreUnit 5)) 0 5000 = false ∧
    tState.mayServe (calUnit 3 (coreUnit 5)) 0 5000 = true := by
  have h : calUnit 3 (coreUnit 5) ≠ schedulerUnit := by
    have hc : coreUnit 5 < 15 := Nat.mod_lt _ (by decide)
    simp only [calUnit, schedulerUnit, ne_eq]; omega
  refine ⟨⟨rfl, ?_, rfl, ?_, rfl, rfl, ?_, ?_⟩, ?_, ?_⟩
  · simp [State.stale, tState, tget]
  · decide +kernel
  · decide +kernel
  · decide +kernel
  · simp only [State.mayServe, State.calEntry, if_neg h, tget]; simp; decide +kernel
  · simp only [State.mayServe, State.calEntry, if_neg h, show tget calOpen tState.hall.cal (calUnit 3 (coreUnit 5)) = calOpen from rfl]
    decide +kernel

/-- A load of a replicated address. -/
def tRepl : MemMsg := { tLoad with parts := [{ tPart with place := .repl, key := 2 ^ 50, w := 4 }] }
/-- A replica entry of one location in both tables. -/
def tRepls : State :=
  let r : Replica := ⟨2 ^ 50, 65536, 0, [(0, 64)]⟩
  { tState with hall := { replSwitch := [(0, some r)], replHall := [(0, some r)] } }

theorem witness_BridgeAndReplicaSteps_replicas :
    (tRepls.stale tRepl.room tRepl.inc = false ∧ okAnd (replicaValue tRepls { tPart with place := .repl, key := 2 ^ 50, w := 4 })
      (fun _ => true) = true) ∧
    okAnd (replicaValue tState { tPart with place := .repl, key := 2 ^ 50, w := 4 }) (fun _ => true) = false := by
  simp only [replicaValue, State.replica?, State.replicas]
  cases Config.nuldoSwitch <;> decide +kernel

/-! ## Witnesses: atomics -/

/-- An atomic of room 0 on its way to address 64. -/
def tAtom (fn : AtomFn) : AtomMsg :=
  { room := 0, tenant := 0, depth := 0, inc := 0, id := 3, fn := fn, part := tPart, operand := 5, expect := 0, rd := 10, satp := 0, lane := 4, word := 0 }

theorem witness_AtomicLanesSendTheirRequests :
    msOf (.amoAddMs 10 8 6) = some (.add, 10, 8, 6) ∧ tState.Free ([8, 6] ++ if MsOp.add = .cas then [10] else []) [10] ∧ tState.me.deferred < 8 ∧
    okAnd (atomLoc (tState.needTier tState.devCtx 64) (atomWidth (.ms .add)) false (tState.me.getX 8))
      (fun l => (keysWanted (tState.needTier tState.devCtx 64) 0 [partOf ⟨0, 64, 8⟩ l 0]).isEmpty) = true ∧
    ((tWith { tRoom with x := [(8, 65)] }).me.getX 8).toNat % (if MsOp.add = .fadd then 4 else 8) ≠ 0 ∧
    tState.Free [8, 14, 14 + 1, 12, 12 + 1] [] ∧
    okAnd (atomLoc (tState.needTier tState.devCtx 64) 16 true (tState.me.getX 8))
      (fun l => (keysWanted (tState.needTier tState.devCtx 64) 0 [partOf ⟨0, 64, 16⟩ l 0]).isEmpty) = true ∧
    (tState.needTier tState.devCtx 64).settled = true ∧ ((tWith { tRoom with stores := [⟨1, none⟩] }).needTier tState.devCtx 64).settled = false := by
  refine ⟨rfl, ⟨rfl, rfl⟩, ?_, ?_, ?_, ⟨rfl, rfl⟩, ?_, ?_, ?_⟩ <;> decide +kernel

/-- An AMO at x8 = 64, a misaligned one, one in the port range and one in the replicated range. -/
theorem witness_AtomicLanesSendTheirRequests_rv :
    aExtOf (.aExtensionAmo .add true false false 10 8 6) = some (.atomic, .amo .add true, false, false, 10, 8, 6, true) ∧
    tState.Free [8, 6] [10] ∧
    okAnd (coreLoc (tState.needTier tCtx 64) .atomic (tState.me.getX 8) 8) (fun l => (aPlaceFault .atomic (.amo .add true) l).isNone &&
      !tState.me.atomOn (lineOf l.key) && (keysWanted (tState.needTier tCtx 64) 0 [partOf ⟨0, 64, 8⟩ l 0]).isEmpty &&
      !(tState.needTier tCtx 64).cohFull 0) = true ∧
    okAnd (place (tState.needTier tCtx 64) { tCtx with repl := true } .load 64) (fun l => decide (l.place ≠ .repl)) = true ∧
    (65#64).toNat % atomWidth (.amo .add true) ≠ 0 ∧ (0xFFFF000000002#64).toNat % atomWidth (.lr true) ≠ 0 ∧
    okAnd (place (tState.needTier tCtx 0xFFFF000000002) tCtx .load 0xFFFF000000002) (fun l => decide (l.place = .port)) = true ∧
    okAnd (place (tState.needTier tCtx 0xE000000000000) { tCtx with repl := true } .load 0xE000000000000) (fun l => decide (l.place = .repl)) = true := by
  refine ⟨rfl, ⟨rfl, rfl⟩, ?_⟩; decide +kernel

/-- `amo.cas128` in the replicated range and on a misaligned address; the places of a memory-side form: HBM4E, the port range, a device
window. -/
theorem witness_AtomicLanesSendTheirRequests_faults :
    (let s := tWith { tRoom with x := [(8, 0xE000000000000)] }
     let u := s.needTier s.devCtx (s.me.getX 8)
     s.Free [8, 6, 6 + 1, 10, 10 + 1] [] ∧ (match atomLoc u 16 true (s.me.getX 8) with | .error c => decide (c = 49) | .ok _ => false) = true) ∧
    ((65#64).toNat % 16 ≠ 0 ∧ (64#64).toNat % 8 = 0 ∧ inWindows 64 = false ∧ inWindows 0xFFC0000000000000 = true) ∧
    okAnd (place tState tState.devCtx .atomic 64) (fun l => decide (l.place = .hbm) && !l.cmp) = true ∧
    okAnd (place tState tState.devCtx .atomic 0xFFFF000000000) (fun l => decide (l.place = .port)) = true ∧
    (msOf (.amoAddMs 10 8 6) = some (.add, 10, 8, 6) ∧
      (match atomLoc (tState.needTier tState.devCtx 0xFFFF000000000) (atomWidth (.ms .add)) false 0xFFFF000000000 with
        | .error c => decide (c = 49) | .ok _ => false) = true) := by
  refine ⟨⟨⟨rfl, rfl⟩, ?_⟩, ?_⟩ <;> decide +kernel

theorem witness_AtomicsReachTheirAgents :
    (let s : State := { tState with hall := { inc := [(0, 1)] } }
     s.stale 0 0 = true) ∧ tState.stale 0 0 = false ∧
    (let a := { tAtom .cas128 with part := { tPart with place := .tier, key := 0xC000000000040, w := 16 } }
     let s : State := { tState with hall := { tierHeld := [(0, some 1)] } }
     let g : State := { s with grans := [(granuleOf a.part.key, { st := 1 })] }
     let w : MemMsg := { tMsg with id := 2, parts := [{ tPart with place := .tier, key := 0xC000000000000 }] }
     a.part.place ≠ .hbm ∧ s.lost a.part.place a.part.key = false ∧ a.part.place ≠ .hostN ∧
       (tget {} s.grans (granuleOf a.part.key)).st = 0 ∧ (tget {} g.grans (granuleOf a.part.key)).st ≠ 0 ∧
       w ∈ ({ g with waiting := [w] } : State).waiting ∧ w.id < a.id ∧ w.room = a.room ∧ w.who = .core ∧
       (needed w).any (fun h => h / 2 = granuleOf a.part.key / 2) = true ∧
       ({ s with hall := { tierHeld := [(0, some 1)], linkLost := 15 } } : State).lost a.part.place a.part.key = true) ∧
    tAsks.awaits (tAtom .cas128) = true ∧ tState.awaits (tAtom .cas128) = false := by decide +kernel

/-- An atomic behind a store of its room to the line that is on its way; the LR of a fourth attempt; a link lost before a completion. -/
theorem witness_AtomicsReachTheirAgents_behind :
    ({ tState with agenda := [(5001, .storeAtHome { tMsg with id := 2 })] } : State).atomBehind (tAtom .cas128) = true ∧
    tState.atomBehind (tAtom .cas128) = false ∧ 3 ≤ ((tWith { tRoom with scFails := 3 }).room 0).scFails ∧
    (let a := { tAtom .cas128 with part := { tPart with place := .tier, key := 0xC000000000040, w := 16 } }
     let s : State := { tState with hall := { tierHeld := [(0, some 1)], linkLost := 15 } }
     s.lost a.part.place a.part.key = true ∧ tState.lost a.part.place a.part.key = false ∧
       atomNew a (homeValue s a.part) false = some 5 ∧ atomNew { a with expect := 1 } (homeValue s a.part) false = none) := by
  decide +kernel

/-- The unit of an atomic's channel serves every tenant at reset, but not while a host holds the granule. -/
theorem witness_AtomicsReachTheirAgents_slots :
    tState.msauCan (channel 64) (.msauAtomic (tAtom (.ms .add))) = true ∧
    ({ tState with hostHeld := [(1, true)] } : State).msauCan (channel 64) (.msauAtomic (tAtom (.ms .add))) = false := by
  constructor
  · simp only [State.msauCan, State.msauFree]
    rw [show msauTenant tState (.msauAtomic (tAtom (.ms .add))) = 0 from by decide +kernel]
    simp only [tState_serves]
    decide +kernel
  · simp only [State.msauCan]
    rw [show tget false ({ tState with hostHeld := [(1, true)] } : State).hostHeld (granuleOf (tAtom (.ms .add)).part.key) = true from by
      decide +kernel]
    simp

/-- A part whose page stays, and one of a sealed page: a page table of no entries refuses it, no table forwards it. -/
theorem witness_AtomicsReachTheirAgents_moves :
    okAnd (movedPart tState 0 0 true tPart) (fun p => decide (p.place = .hbm) && !p.cmp) = true ∧
    okAnd (movedPart { tState with hall := { migStat := 1, migPages := (0, 65536) } } 0 0xF000000000000000 true tPart) (fun _ => true) = false ∧
    (tState.room 0).scFails < 3 := by decide +kernel

theorem witness_AtomicsReadComputeAndWrite :
    (let a := tAtom (.ms .add)
     tState.lost a.part.place a.part.key = false ∧ tState.poisoned a.part.key a.part.w = false ∧
       a.part.cmp = false ∧ a.part.place ≠ .port ∧ beyondPortion tState a.part = false ∧
       a.part.key % 32 + a.part.w ≤ 32 ∧ tget false tState.barObjs (a.part.key / 32 * 32) = false ∧
       atomNew a (homeValue tState a.part) (tState.reserved a.room (lineOf a.part.key)) = some 5) ∧
    atomNew (tAtom (.sc true)) 0 false = none ∧ atomNew (tAtom (.ms .cas)) 0 false = some 5 ∧
    (let s : State := { tState with hall := { tierHeld := [(0, some 1)], linkLost := 1 } }
     s.lost .tier 0xC000000000040 = true) ∧
    (let s : State := { tState with poison := [(0, true)] }
     s.lost .hbm 64 = false ∧ s.poisoned 64 8 = true) ∧ (∀ d, (tAtom (.ms .add)).fn ≠ .sc d ∧ (tAtom (.ms .add)).fn ≠ .lr d) ∧
    ((tWith { tRoom with hold := .answer 3 }).room 0).hold = .answer (tAtom .cas128).id ∧
    (let s := tWith { tRoom with resv := some ⟨64, 4999⟩ }
     (s.room 0).resv = some ⟨64, 4999⟩ ∧ (4999 < s.tick)) := by
  refine ⟨?_, ?_, ?_, ?_, ?_, fun d => ⟨nofun, nofun⟩, ?_, ?_⟩ <;> decide +kernel

/-! ## Witnesses: barriers, keys, monitors, windows -/

/-- x8 = 64 lies in a page marked MS, which a TLB holds. -/
def tMs : State :=
  { tWith { tRoom with csr := { satp := 0xF000000000000000 } } with tlb := [⟨0, 0, 0, 0, 0x8F⟩] }
/-- A request of room 0 to the barrier object at 64. -/
def tBar (op : BarOp) : BarReq := { room := 0, op := op, key := 64, inc := 0, id := 3, lane := 4, word := 0 }
/-- The object at 64 with n parties, of which a have arrived. -/
def tParties (n a : Byte) : State := { tState with mem := if a = 0 then [(64, n)] else [(64, n), (66, a)] }

theorem witness_BarriersCountAndRelease :
    barOf tMs.me (.barArrive 10 8) = some (BarOp.arrive, 8, [8], [10]) ∧ tMs.Free [8] [10] ∧ tMs.me.deferred < 8 ∧
    (tMs.me.outs.any (·.arrive)) = false ∧
    okAnd (barrierKey (tMs.needTier tMs.devCtx 64) (tMs.needTier tMs.devCtx 64).devCtx (tMs.me.getX 8)) (fun _ => true) = true ∧
    okAnd (barrierKey (tState.needTier tState.devCtx 64) (tState.needTier tState.devCtx 64).devCtx (tState.me.getX 8)) (fun _ => true) = false ∧
    inWindows (tMs.me.getX 8) = false ∧ inWindows 0xFFC0000000000000 = true ∧ (0xFFC0000000000000#64).toNat % 32 = 0 := by
  refine ⟨rfl, ⟨rfl, rfl⟩, ?_, ?_, ?_, ?_, ?_, ?_, ?_⟩ <;> decide +kernel

/-- An MSAU that performs a barrier's request, and one that has performed a request in this tick. -/
theorem witness_BarriersCountAndRelease_slots :
    tState.msauCan (channel (tBar .arrive).key) (.barrierRequest (tBar .arrive)) = true ∧
    ({ tState with msauAt := [(channel 64, 5001)] } : State).msauCan (channel 64) (.barrierRequest (tBar .arrive)) = false := by
  constructor
  · simp only [State.msauCan, State.msauFree]
    rw [show msauTenant tState (.barrierRequest (tBar .arrive)) = 0 from by decide +kernel]
    simp only [tState_serves]
    decide
  · simp [State.msauCan, State.msauFree, tget, tState, msauPasses]

/-- The last arrival of two, the first, and one too many; a wait that has not passed. -/
theorem witness_BarriersCountAndRelease_requests :
    tState.stale (tBar .arrive).room (tBar .arrive).inc = false ∧
    (let o := (tParties 2 1).barObj ((tParties 2 1).movedPa 64)
     barArrived o ≠ barNpart o ∧ barArrived o + 1 = barNpart o ∧ barExpb o ≤ barPend o) ∧
    (let o := (tParties 3 1).barObj ((tParties 3 1).movedPa 64)
     barArrived o ≠ barNpart o ∧ barArrived o + 1 ≠ barNpart o) ∧
    (let o := (tParties 2 2).barObj ((tParties 2 2).movedPa 64)
     barArrived o = barNpart o) ∧
    (let o : BitVec 256 := BitVec.ofNat 256 (2 + 2 ^ 17 + 2 ^ 71)
     barArrived o = barNpart o ∧ min (2 ^ 40 - 1) (barExpb o + (128#40).toNat) ≤ barPend o ∧
       barPend o < min (2 ^ 40 - 1) (barExpb o + (129#40).toNat)) ∧
    (tState.movedPa (tBar .arrive).key = (tBar .arrive).key ∧ getField (tBar .arrive).satp 60 4 ≠ 15) ∧
    (let s := tWith { tRoom with hold := .barWait 3 }
     (s.room 0).hold = .barWait (tBar .wait).id ∧ barPassed (s.room 0) 64 (s.barObj 64) = false) := by decide +kernel

/-- The key of region 0 … 4,095 in slot 2. -/
def tKey (holder : Option Nat) (queue : List Nat) : Key :=
  { slot := 2, base := 0, lsz := 12, keyq := 500, holder := holder, since := 4000, queue := queue }
/-- The wing of room 0 with a key. -/
def tKeyed (k : Key) : State := { tState with wings := [(0, { keys := [k] })] }

theorem witness_KeysPassInOrder :
    tState.Free [8] [] ∧ inWindows (tState.me.getX 8) = false ∧ inWindows 0xFFC0000000000000 = true ∧
    okAnd (place (tState.needTier tState.devCtx 64) tState.devCtx .load (tState.me.getX 8)) (fun l => ((tState.needTier tState.devCtx 64).fillTlb l).keyOf l = none) = true ∧
    okAnd (place ((tKeyed (tKey (some 0) [])).needTier tState.devCtx 64) tState.devCtx .load 64)
      (fun l => (((tKeyed (tKey (some 0) [])).needTier tState.devCtx 64).fillTlb l).keyOf l = some (tKey (some 0) [])) = true ∧
    okAnd (place ((tKeyed (tKey none [])).needTier tState.devCtx 64) tState.devCtx .load 64)
      (fun l => (((tKeyed (tKey none [])).needTier tState.devCtx 64).fillTlb l).keyOf l = some (tKey none [])) = true ∧
    okAnd (place ((tKeyed (tKey (some 7) [])).needTier tState.devCtx 64) tState.devCtx .load 64)
      (fun l => (((tKeyed (tKey (some 7) [])).needTier tState.devCtx 64).fillTlb l).keyOf l = some (tKey (some 7) [])) = true ∧
    (let s := { tWith { tRoom with hold := .keyGet 0 2 } with wings := [(0, { keys := [tKey (some 0) []] })] }
     (s.room 0).hold = .keyGet 0 2 ∧ tKey (some 0) [] ∈ (s.wing 0).keys) ∧
    ((tKeyed (tKey (some 7) [0])).key? 0 2 = some (tKey (some 7) [0]) ∧ (tKey (some 7) [0]).expired tState.tick = true) ∧
    (({ tKey (some 7) [0] with passing := some 4990 } : Key).handsOver tState.tick = true) ∧
    (
     keyReason ((tKeyed (tKey none [])).wing (wingOf 0)).keys 0x1000 (BitVec.ofNat 64 (3 + 64 * 12)) true = 0 ∧
     keyReason ((tKeyed (tKey none [])).wing (wingOf 0)).keys 0x1000 (BitVec.ofNat 64 (2 + 64 * 12)) true ≠ 0 ∧
     keyReason ((tKeyed (tKey none [])).wing (wingOf 0)).keys 0 (BitVec.ofNat 64 (2 + 64 * 12)) false = 0) := by
  refine ⟨⟨rfl, rfl⟩, ?_⟩; decide +kernel

/-- The monitor of room 0 on line 0. -/
def tMon : Mon := { line := 0, va := some 64, home := false, leased := false }
/-- Room 0 with a monitor and a hold. -/
def tMons (m : Mon) (woke : Bool) : State := tWith { tRoom with mon := some m, monWoke := woke, hold := .monWait 10 0 }

theorem witness_MonitoredWaits :
    tState.Free [8] [] ∧ tState.Free [8] [10] ∧ inWindows (tState.me.getX 8) = false ∧
    okAnd (place (tState.needTier tState.devCtx 64) tState.devCtx .load (tState.me.getX 8)) (fun _ => true) = true ∧
    tState.me.mon = none ∧ (tMons tMon true).me.mon = some tMon ∧
    monOn (tMons tMon true) tMon ((tMons tMon true).me.getX 8) = true ∧ (tMons tMon true).me.monWoke = true ∧
    monOn (tMons { tMon with va := some 128 } true) { tMon with va := some 128 } ((tMons tMon true).me.getX 8) = false ∧
    (tMons { tMon with leased := true } false).holdsCopy 0 0 = false ∧
    ((tMons tMon false).room 0).hold = .monWait 10 0 ∧ 0 + 4096 ≤ tState.tick ∧ (tState.room 0).hold = .none ∧
    ((tMons { tMon with ended := true } false).room 0).mon = some { tMon with ended := true } ∧
    0 ∈ (tMons tMon false).rooms.map (·.1) ∧
    (let s : State := { tCopy with tick := 6000 }
     s.copyOver (coreHolder 0) 0 = true) := by
  refine ⟨⟨rfl, rfl⟩, ⟨rfl, rfl⟩, ?_⟩; decide +kernel

/-- Two lines from 0 on, and an operand with a size that is no multiple of a line. -/
theorem witness_WindowsOpenCountAndClose :
    (let s := tWith { tRoom with x := [(6, 256)] }
     s.Free [8, 6] [10] ∧ s.me.deferred < 8 ∧ winOperands (s.me.getX 8) (s.me.getX 6) = true ∧
       (winPages (s.needAll s.devCtx (pageVas 64 256)) (s.needAll s.devCtx (pageVas 64 256)).devCtx 64 256).isSome = true) ∧
    (let s := tWith { tRoom with x := [(6, 256), (8, 0x1000000000000000)] }
     winOperands (s.me.getX 8) (s.me.getX 6) = true ∧ (winPages (s.needAll s.devCtx (pageVas (s.me.getX 8).toNat 256))
       (s.needAll s.devCtx (pageVas (s.me.getX 8).toNat 256)).devCtx (s.me.getX 8).toNat 256).isNone = true) ∧
    winOperands (tState.me.getX 8) (tState.me.getX 6) = false ∧ tState.freeWindow = some 0 ∧
    getField (tState.me.getX 6) 0 2 ≠ 2 ∧
    (let w : Window := { open_ := true, size := 128, gen := 1 }
     let s : State := { tState with hall := { windows := [(0, w)] } }
     s.window? 0 0x100000000 = some w ∧ s.farHandle 0x100000000 = false) ∧ tState.window? 0 0 = none := by
  refine ⟨⟨⟨rfl, rfl⟩, ?_⟩, ?_⟩ <;> decide +kernel

/-- Puts of this package and of another, into a window of SYS 1 and of SYS 0; a stale one; a request of a target counter. -/
theorem witness_WindowsOpenCountAndClose_puts :
    (let s (sys : Bool) : State := { tState with hall := { windows := [(0, { open_ := true, size := 128, gen := 1, sys := sys })] } }
     ((s false).window? tMsg.tenant 0x100000000).isSome = true ∧ tMsg.store = true ∧ (s false).stale tMsg.room tMsg.inc = false ∧
       tMsg.room < 256 ∧ 256 ≤ ({ tMsg with room := 256 } : MemMsg).room ∧ (s false).stale 256 0 = false ∧
       (((s false).window? 0 0x100000000).map (·.sys)) = some false ∧ (((s true).window? 0 0x100000000).map (·.sys)) = some true) ∧
    ({ tState with hall := { inc := [(0, 1)] } } : State).stale tMsg.room tMsg.inc = true ∧ tLoad.store = false ∧
    ({ valueAnswer 3 0 4 0 with ask := some (.target 0x100000000) } : Answer).ask = some (.target 0x100000000) := by decide +kernel

/-- The pool controller of wing 0, which serves every tenant at reset, and whose slots belong to another; a request of a target counter. -/
theorem witness_WindowsOpenCountAndClose_asks :
    ({ valueAnswer 3 0 4 0 with ask := some (.pool 0 0 0) } : Answer).ask = some (.pool 0 0 0) ∧
    askWaits tState (.pool 0 0 0) = none ∧
    (askWaits { tState with hall := { cal := [(calUnit 4 0, tTaken)] } } (.pool 0 0 0)).isSome = true ∧
    askWaits tState (.target 0) = none := by decide +kernel

/-! ## Witnesses: jobs -/

/-- A launch record of tenant 0 with one iteration: ENTRY 0x1000, ROOMS room 0, no loop levels. -/
def tLaunch : LaunchRec := BitVec.ofNat 1024 (0x1000 + 2 ^ 128)
/-- A push of that record to queue 0. -/
def tPush (src : Nat) : PushReq := { src := src, room := none, part := tPart, image := some tLaunch, queue := 0, id := 0 }
/-- An admitted job of one iteration, with handle 9. -/
def tJob : Job := { handle := 9, record := tLaunch, order := 4000 }
/-- The hall holds the job; room 0 is another room. -/
def tHall (x : Room) (j : Job) : State := { tWith x with hall := { jobs := [j] } }
/-- A cross-tenant filter entry: source 1, destination 0, any queue, every class, 3 pushes a period. -/
def tFilter : BitVec 128 := BitVec.ofNat 128 (1 + 2 ^ 14 + 2 ^ 15 + 7 * 2 ^ 16 + 3 * 2 ^ 32)

theorem witness_PushesAndAdmission :
    tState.Free [8, 6] [10] ∧ tState.me.deferred < 8 ∧
    (let s := tWith { tRoom with x := [(8, 128)] }
     s.Free [8, 6] [10] ∧ (s.me.getX 8).toNat % 128 = 0 ∧ inWindows (s.me.getX 8) = false ∧
      okAnd (place (s.needTier s.devCtx (s.me.getX 8)) s.devCtx .load (s.me.getX 8))
      (fun l => decide (l.place ≠ .port) && ((s.needTier s.devCtx (s.me.getX 8)).fillTlb l).settled) = true) ∧
    (tPush 0).image = some tLaunch ∧ (tPush 0).queue.toNat / 64 = 0 ∧ pushReason tState tLaunch 0 = 0 ∧
    tState.hall.jobs.length + 2 ≤ 2 ^ 32 ∧ pushReason tState (tLaunch ||| 1#1024) 0 ≠ 0 := by
  refine ⟨⟨rfl, rfl⟩, ?_, ⟨⟨rfl, rfl⟩, ?_⟩, ?_, ?_, ?_, ?_, ?_⟩ <;> decide +kernel

/-- A record that lies in HBM4E, and one that lies in the replicated range; the filter; a head that no event holds. -/
theorem witness_PushesAndAdmission_hall :
    (readRecord tState { tPush 0 with part := { tPart with place := .repl } }).2 = none ∧ (readRecord tState (tPush 0)).2.isSome = true ∧
    (((readRecord tState (tPush 0)).2.getD 0).tenant = 0) ∧ (tPush 0).part.place = .hbm ∧ partFault tState tPart = none ∧
    tState.movedPa tPart.key = tPart.key ∧ rangeOf (getField 0 7 45 * 128) ≠ .tier ∧ (tPush 1).src ≠ 0 ∧ tState.filter? 1 0 0 = none ∧
    (let s : State := { tState with hall := { filt := [(0, tFilter)] } }
     s.filter? 1 0 0 = some (0, tFilter) ∧ tFilter.getLsbD (16 + 0) = true ∧ tget 0 s.hall.filtCnt 0 < (tFilter.extractLsb' 32 16).toNat) ∧
    getField (tget 0 tState.hall.lres 0) 0 2 ≠ 1 ∧ ({ tState with tick := 6400 } : State).tick % 64 = 0 ∧
    chooseQueue { tState with hall := { queues := [(0, [⟨9, tLaunch, 4000, none⟩])] } } 0 5000 = some (0, 0, ⟨9, tLaunch, 4000, none⟩) := by
  decide +kernel

/-- A free room with a job that may claim it, and the same room claimed. -/
theorem witness_JobsRunAndEnd :
    (tHall {} tJob).nextClaim = some (0, tJob) ∧
    ((tHall { claim := some 9 } tJob).gangPlace 9 = some (tJob, [(0, 0)]) ∧
      ((tHall { claim := some 9 } tJob).room 0).tag = none ∧ (([(0, 0)] : List (Nat × Nat)).map (·.2)).Nodup ∧
      tJob.record.levels = []) ∧
    (let p : Parked := { gang := 0, members := [(0, 0x2000, 0x3000)] }
     let j := { tJob with parked := [p], next := 1 }
     (tHall { claim := some 9 } j).resumePlace 9 = some (j, p, [(0, 0)]) ∧
       p.members.find? (fun m => m.1 = 0) = some (0, 0x2000, 0x3000)) := by decide +kernel

/-- A room that holds dispatch for its end; a job all of whose iterations have ended; a kill. -/
theorem witness_JobsRunAndEnd_ends :
    (let s := tWith { tRoom with hold := .iterEnd }
     (s.room 0).run = some fetchRun ∧ s.reports 0 = true ∧ (s.room 0).vhzPend = false) ∧
    ((tHall {} { tJob with next := 1, ended := 1 }).job? 9 = some { tJob with next := 1, ended := 1 } ∧
      (tHall {} { tJob with next := 1, ended := 1 }).completes { tJob with next := 1, ended := 1 } = true) ∧
    (let j := { tJob with recs := [[0], [0]] }
     (tHall {} j).job? 9 = some j ∧ (tHall {} j).journalLen j.record.tenant + ([0] : List (BitVec 256)).length ≤ 1024) ∧
    (({ tRoom with stores := [⟨3, none⟩] } : Room).stores.any fun o => o.bound.isNone && decide (o.id = 3)) = true ∧
    tState.me.mode ≠ .u ∧ tState.job? (getField (tState.me.getX 8) 0 32) = none ∧
    (tHall { tRoom with x := [(8, 9)] } tJob).job? (getField ((tHall { tRoom with x := [(8, 9)] } tJob).me.getX 8) 0 32) = some tJob ∧
    tState.me.tenant = 0 := by decide +kernel

/-! ## Witnesses: conflict batching -/

/-- A request of room 0 to the unit of wing 0. -/
def tCbReq (op : CbuOp) (xs1 xs2 : W64) : CbuReq :=
  { room := 0, tenant := 0, op := op, xs1 := xs1, xs2 := xs2, hz := 0, satp := 0, mode := .s, rd := 10, id := 3, lane := 4, word := 0 }
/-- A stream of 2 records at 4,096 bound to the unit. -/
def tCbu : Cbu :=
  { room := 0, tenant := 0, base := 4096, satp := 0, mode := .s, count := 2, ordered := false, hz := 0, endSeen := 0 }
/-- Wing 0 with a stream. -/
def tBound (c : Cbu) : State := { tState with wings := [(0, { cbu := some c })] }
/-- A member that nobody holds, and one held by room 1 of the wing. -/
def tMem (pos : Nat) (holder : Option Nat) : CMem := { pos := pos, payload := 7, holder := holder, done := false, counted := false }

theorem witness_ConflictBatching :
    tState.Free [8, 6] [10] ∧ tState.me.vhzPend = false ∧ tState.me.deferred < 8 ∧
    (tCbReq .open 4096 2).op = .open ∧ openMisuse (tCbReq .open 4096 2).xs1 (tCbReq .open 4096 2).xs2 = false ∧
    (tState.wing (wingOf 0)).cbu = none ∧ ((tBound tCbu).wing (wingOf 0)).cbu ≠ none ∧
    (let c := { tCbu with members := [tMem 0 (some 1)] ++ tMem 1 none :: [] }
     ((tBound c).wing (wingOf 0)).cbu = some c ∧ c.tenant = 0 ∧ (tMem 1 none).holder = none ∧
       (∀ n ∈ [tMem 0 (some 1)], n.holder ≠ none ∧ n.pos ≠ (tMem 1 none).pos)) := by
  refine ⟨⟨rfl, rfl⟩, ?_⟩; decide +kernel

/-- Pulls that find no free member: no stream of the tenant, an ended one, a first one, one of a room that holds a member, one that is
held; the close of a stream with a held pull, and of another tenant; the words of `cb.stat`. -/
theorem witness_ConflictBatching_pulls :
    (({ tCbu with tenant := 3 } : Cbu).tenant ≠ (tCbReq .pull 0 0).tenant ∧ tCbu.tenant = (tCbReq .pull 0 0).tenant) ∧
    (let c := { tCbu with members := [tMem 0 (some 1)] }
     ((tBound c).wing (wingOf 0)).cbu = some c ∧ (∀ m ∈ c.members, m.holder ≠ none) ∧ c.ended = false ∧
       ({ c with ended := true } : Cbu).ended = true ∧ c.endSeen.getLsbD (0 % 64) = false ∧
       ({ c with endSeen := 1 } : Cbu).endSeen.getLsbD (0 % 64) = true ∧ (∀ m ∈ c.members, m.holder = some 0 → m.done = true) ∧
       (∃ m ∈ [tMem 0 (some 0)], m.holder = some 0 ∧ m.done = false)) ∧
    ((tCbReq .close 0 0).op = .close ∧ (tCbReq .stat 0 0).op = .stat ∧
      (({ tBound tCbu with wings := [(0, { cbu := some tCbu, cbuHeld := [tCbReq .pull 0 0] })] } : State).wing (wingOf 0)).cbuHeld =
        [tCbReq .pull 0 0]) ∧
    (tCbu.cursor < 2 ^ 32 ∧ tCbu.window.length ≤ 256 ∧ tCbu.members.length ≤ 64 ∧ tCbu.forming.length ≤ 64) := by
  decide +kernel

/-- A retired batch before a closed one; an exhausted stream; a pass that is due; records to read; a withdrawn pull. -/
theorem witness_ConflictBatching_steps :
    (let c := { tCbu with closed := [[⟨0, [1, 2, 3, 4], 7⟩]] }
     ((tBound c).wing 0).cbu = some c ∧ c.retired = true ∧ c.closed ≠ [] ∧ ((tBound c).wing 0).cbuHeld = []) ∧
    ({ tCbu with cursor := 2 }.ends = true ∧ { tCbu with cursor := 2 }.closed = []) ∧
    ({ tCbu with cursor := 2, window := [⟨0, [1, 2, 3, 4], 7⟩] } : Cbu).passDue 5000 = true ∧ tCbu.reads 5000 = true ∧
    okAnd (cbFetch ((tBound tCbu).needTier { engCtx 0 0 .s with ten := some 0 } 4096) tCbu) (fun _ => true) = true ∧
    (let m := { tMem 1 (some 0) with done := true, at_ := 4000 }
     m.pos = 1 ∧ m.done = true ∧ m.at_ ≤ tState.tick) ∧
    (let s : State := { tWith { tRoom with hold := .cbPull 3 true } with wings := [(0, { cbu := some tCbu, cbuHeld := [tCbReq .pull 0 0] })] }
     (s.wing (wingOf 0)).cbuHeld = [tCbReq .pull 0 0] ∧ (tCbReq .pull 0 0).op = .pull ∧
       (s.room 0).hold = .cbPull 3 true) ∧ (({ rooms := [] } : KillReq).rooms = [] ∧ ({ rooms := [] } : KillReq).iters = [] ∧ ({ rooms := [] } : KillReq).parked = []) ∧
    (let m := { tMem 0 (some 0) with iter := (9, 0) }
     ((tBound { tCbu with members := [m] }).wing 0).cbuHeld = [] ∧ m.done = false ∧ m.holder.isSome = true ∧
       m.iter ∈ ({ rooms := [0], iters := [(9, 0)] } : KillReq).iters ∧ m.iter ∉ ({ rooms := [0] } : KillReq).iters) := by decide +kernel

/-- A retirement of the member that room 0 holds, and one of a payload that no member has; a record that has come; a kill whose
room holds a member. -/
theorem witness_ConflictBatching_members :
    (let c := { tCbu with members := [tMem 0 (some 0)] }
     doneMember c (tCbReq .done 7 0) = some (tMem 0 (some 0)) ∧ doneMember c (tCbReq .done 8 0) = none ∧
       ((tBound { tCbu with got := some 7 }).wing 0).cbu = some { tCbu with got := some 7 } ∧
       (tMem 0 (some 0)).done = false ∧ 0 ∈ ([0] ++ [] : List Nat) ∧ wingOf 0 = 0) ∧
    (okAnd (cbFetch (tBound { tCbu with base := 0x1000000000000000 }) { tCbu with base := 0x1000000000000000 }) (fun _ => true) = false ∧
      ({ tCbu with base := 0x1000000000000000 } : Cbu).reads 5000 = true) ∧
    (tCbReq .close 0 0).op = .close := by decide +kernel

/-- One order of a kill. -/
theorem witness_JobsRunAndEnd_kills : ({ tState with ending := [⟨[0], [], 0⟩] } : State).ending = [⟨[0], [], 0⟩] := rfl

/-! ## Witnesses: the watch table -/

/-- An arming of line 0 by room 0. -/
def tArm (ok : Bool) : ArmReq := { room := 0, tenant := 0, image := 0, lines := [0], ok := ok, record := tLaunch, id := 3 }
/-- An armed entry with a pending trigger, and the job of that entry. -/
def tWatched (e : WEntry) (x : Room) : State := { tWith x with hall := { watch := [(5, some e)], jobs := [{ tJob with watch := some 5 }] } }
def tWEntry : WEntry :=
  { state := 1, tenant := 0, wing := 0, room := 0, image := BitVec.ofNat 1024 (2 ^ 520 * 65535), lines := [0], job := 9,
    pend := some ⟨1, 0, 0, 4000, []⟩ }

theorem witness_WatchTableActs :
    tState.Free [8] [10] ∧ tState.Free [8] [] ∧ tState.me.deferred < 8 ∧ (tState.me.getX 8).toNat % 64 = 0 ∧
    (let n := tState.needTier tState.devCtx (tState.me.getX 8)
     okAnd (imageParts n n.devCtx .load 64 (tState.me.getX 8) 128) (fun l =>
      !coreStoresUnderWay (fillAll n l) (fillAll n l).turn &&
      okAnd (imageValue (((fillAll n l).ownParts (l.map (·.1))).readMisses 0 (l.map (·.1))) 0 (l.map (·.1))) (fun _ => true)) = true) ∧
    tState.freeEntry = some 0 ∧
    tget none (tWatched tWEntry {}).hall.watch 5 = some tWEntry ∧
    (let s := tWatched tWEntry { claim := some 9 }
     s.claimed tWEntry.job = some 0 ∧ s.job? tWEntry.job = some { tJob with watch := some 5 } ∧ s.triggered 5 = true ∧
       (s.room 0).tag = none) ∧
    (let s := tWith { tRoom with hold := .thread 4000 [] }
     (s.room 0).hold = .thread 4000 [] ∧ 4000 ≤ s.tick ∧ (s.room 0).nextDispatch ≤ s.tick) := by
  refine ⟨⟨rfl, rfl⟩, ⟨rfl, rfl⟩, ?_⟩; decide +kernel

/-! ## Witnesses: privileged lanes and the stairs -/

/-- x8 = 4,096, where a save area of job 0 with format 1 stands, whose scratchpad is tagged. -/
def tArea : State :=
  { tWith { tRoom with x := [(8, 4096)], tag := some ⟨4096, 0, 0, [], 0⟩ } with mem := [(4096, 1)] }
/-- x8 = 64 lies in a page marked CMP, which a TLB holds. -/
def tCmp : State :=
  { tWith { tRoom with csr := { satp := 0xF000000000000000 } } with tlb := [⟨0, 0, 0, 0, 0x10F⟩] }

theorem witness_PrivilegedLanes :
    (tWith { tRoom with mode := .u }).me.mode = .u ∧ tState.me.mode ≠ .u ∧
    (tWith { tRoom with run := some { fetchRun with tenant := 3 } }).me.tenant ≠ 0 ∧ tState.Free [8] [] ∧ tState.Free [8, 6] [] ∧ tState.Free [8] [10] ∧
    (tState.me.getX 8).toNat % 4096 ≠ 0 ∧ (tArea.me.getX 8).toNat % 4096 = 0 ∧ tArea.me.mode ≠ .u ∧ tArea.Free [8] [] := by
  refine ⟨by decide, by decide, by decide, ⟨rfl, rfl⟩, ⟨rfl, rfl⟩, ⟨rfl, rfl⟩, by decide, by decide, by decide, rfl, rfl⟩

/-- The area can be stored to and loaded, and its header passes. -/
theorem witness_PrivilegedLanes_contexts :
    (let n := tArea.needAll tArea.devCtx (pageVas 4096 areaSize)
     okAnd (rangePages n n.devCtx .store (tArea.me.getX 8) areaSize) (fun l =>
      let f := (fillAll n l).readImage 0 (l.map (·.1)) (tArea.me.getX 8) 128
      let base := imageWord f f.turn (l.map (·.1)) (tArea.me.getX 8) 8
      let m := f.needAll f.devCtx (pageVas base.toNat tArea.me.scratch)
      !coreStoresUnderWay (fillAll n l) 0 && (imageFault f (l.map (·.1)) (tArea.me.getX 8) 128).isNone && !inWindows base &&
      okAnd (rangePages m m.devCtx .store base tArea.me.scratch) (fun _ => true)) = true) ∧
    (∀ e ∈ allEng, (tArea.me.queue e).q = []) ∧ inWindows (tArea.me.getX 8) = false ∧
    inWindows ((tWith { tRoom with x := [(8, 0xFFC0000000000000)] }).me.getX 8) = true := by
  refine ⟨?_, ?_, ?_, ?_⟩ <;> decide +kernel

/-- The area can be loaded by the room that still holds it, and by a room without a tag, its scratchpad with it. -/
theorem witness_PrivilegedLanes_loads :
    (let s := tArea
     let n := s.needAll s.devCtx (pageVas 4096 areaSize)
     okAnd (rangePages n n.devCtx .load (s.me.getX 8) areaSize) (fun l =>
      let u := (fillAll n l).readImage 0 (l.map (·.1)) (s.me.getX 8) areaSize
      let w := fun off => imageWord u u.turn (l.map (·.1)) (s.me.getX 8) off
      !coreStoresUnderWay (fillAll n l) 0 && (imageFault u (l.map (·.1)) (s.me.getX 8) areaSize).isNone &&
      (headerFault w s.me.vregs (s.me.getX 8)).isNone && decide (getField (w 24) 0 32 = 0)) = true) ∧
    (let s : State := { tArea with rooms := tset {} tArea.rooms 0 { tArea.me with tag := none } }
     s.me.tag = none ∧
     (let n := s.needAll s.devCtx (pageVas 4096 areaSize)
      okAnd (rangePages n n.devCtx .load (s.me.getX 8) areaSize) (fun l =>
       let u := (fillAll n l).readImage 0 (l.map (·.1)) (s.me.getX 8) areaSize
       let w := fun off => imageWord u u.turn (l.map (·.1)) (s.me.getX 8) off
       let size := min 0x400000 (getField (w 0) 32 32)
       let v := u.needAll u.devCtx (pageVas (w 8).toNat size)
       (headerFault w s.me.vregs (s.me.getX 8)).isNone && !inWindows (w 8) &&
       okAnd (rangePages v v.devCtx .load (w 8) size) (fun sp =>
         (imageFault ((fillAll v sp).readImage 0 (sp.map (·.1)) (w 8) size) (sp.map (·.1)) (w 8) size).isNone)) = true)) := by
  refine ⟨?_, ?_, ?_⟩ <;> decide +kernel

/-- A room with an entry of L, a token and a value of its control queue, and the image of it. -/
def tSaved : Room :=
  { tRoom with ql := { q := [{ tEntry (.lNop 0) with word := (encode (.lNop 0)).getD 0, issued := none, popped := false }], ret := 7 },
               tok := [(3, 5)], cq := [(9, 4000)], v := [(2, [(1023, 7)])] }
theorem tSaved_savable : Savable tSaved :=
  ⟨⟨fetchRun, rfl, by decide⟩, by decide +kernel, by decide +kernel,
    fun _ _ => ⟨show (0 : Nat) < 4 by decide, fun _ _ h => nomatch (show (none : Option (Nat × Nat)) = some _ from h)⟩,
    by decide, by decide +kernel, by decide, by decide, by decide, by decide, by decide,
    fun e => by cases e <;> decide +kernel, by decide +kernel, by decide +kernel, by decide⟩
theorem witness_PrivilegedLanes_areas :
    Savable tSaved ∧ (∀ off, off % 8 = 0 → off < areaSize → ¬ (off = 8 ∨ off = 16 ∨ (0x800 ≤ off ∧ off < 0x1000)) →
      (fun o => saveWord tSaved 0 o) off = saveWord tSaved 0 off) ∧
    (saveWord tSaved 0 (8 * 18) = 1 ∧ saveWord tSaved 0 (8 * 32) = 9 ∧ saveWord tSaved 0 (8 * 16) = 5 <<< 15) ∧
    ((0, 8) ∈ savedRanges tRoom.vregs ∧ (imagePart [{ tPart with va := 4096, key := 4096 }] 4096 0 8 5).isSome = true) :=
  ⟨tSaved_savable, fun _ _ _ _ => rfl, by decide +kernel, List.mem_append_left _ (List.mem_append_left _ (List.mem_append_left _ (by decide))),
    by decide +kernel⟩

theorem witness_PrivilegedLanes_holds :
    (let s := tWith { tRoom with hold := .qSave 4096 [] [] 0 false }
     (s.room 0).hold = .qSave 4096 [] [] 0 false ∧ s.holdsKey 0 = false ∧ (s.room 0).saveReady s.tick = true) ∧
    (let s := tWith { tRoom with hold := .qSave 4096 [] [] 0 true }
     (s.room 0).hold = .qSave 4096 [] [] 0 true ∧ (s.room 0).stores = [] ∧ (s.room 0).parks = false) ∧
    ((tWith { tRoom with hold := .qLoad }).room 0).hold = .qLoad ∧
    (let f : FRec := ⟨3, 0, 0, 0, .entry 0 .l, none⟩
     let s : State := { tState with wings := [(0, { faults := [f] })] }
     replayRecord s ⟨0, 0, 3⟩ = none ∧
     (replayRecord { tState with wings := [(0, { faults := [{ f with bits := BitVec.ofNat 256 (2 ^ 256 - 1) }] })] } ⟨0, 0, 3⟩).isSome = true) ∧
    tlbReserved (tState.me.getX 6) = false ∧
    (let s := tWith { tRoom with hold := .tlbInv 5 0 }
     (s.room 0).hold = .tlbInv 5 0 ∧ accessBefore s 0 5 = false ∧
       accessBefore { s with agenda := [(5001, .storeAtHome tMsg)] } 0 5 = true) ∧
    tState.me.tenant = 0 ∧ (tState.me.getX 8).toNat % 64 = 0 ∧
    (let n := tState.needTier tState.devCtx (tState.me.getX 8)
     okAnd (imageParts n n.devCtx .load 16 (tState.me.getX 8) 16) (fun l => !coreStoresUnderWay (fillAll n l) 0 &&
      okAnd (imageValue (((fillAll n l).ownParts (l.map (·.1))).readMisses 0 (l.map (·.1))) 0 (l.map (·.1))) fun v =>
        decide ((BitVec.ofNat 128 v).extractLsb' 19 13 = 0) && decide ((BitVec.ofNat 128 v).extractLsb' 48 80 = 0)) = true) ∧
    (unitOf (tState.me.getX 6)).isSome = true ∧
    (let n := tState.needTier tState.devCtx (tState.me.getX 8)
     okAnd (imageParts n n.devCtx .load 64 (tState.me.getX 8) 64) (fun l => !coreStoresUnderWay (fillAll n l) 0 &&
      okAnd (imageValue (((fillAll n l).ownParts (l.map (·.1))).readMisses 0 (l.map (·.1))) 0 (l.map (·.1))) fun v => !tableReserved (BitVec.ofNat 512 v)) = true) ∧
    ((tWith { tRoom with hold := .filtSet }).room 0).hold = .filtSet ∧ ((tWith { tRoom with hold := .calSet }).room 0).hold = .calSet := by
  decide +kernel

theorem witness_PrivilegedLanes_readouts :
    tState.me.deferred < 8 ∧ inWindows (tState.me.getX 8) = false ∧
    okAnd (place (tState.needTier { tState.devCtx with repl := true } (tState.me.getX 8)) { tState.devCtx with repl := true } .load
      (tState.me.getX 8)) (fun _ => true) = true ∧
    okAnd (place (tState.needTier tState.devCtx (tState.me.getX 8)) tState.devCtx .load (tState.me.getX 8)) (fun l => !l.cmp) = true ∧
    inWindows (tCmp.me.getX 8) = false ∧
    okAnd (place (tCmp.needTier tCmp.devCtx (tCmp.me.getX 8)) tCmp.devCtx .load (tCmp.me.getX 8)) (fun l => l.cmp) = true ∧
    inWindows ((tWith { tRoom with x := [(8, 0xFFC0000000000000)] }).me.getX 8) = true := by
  decide +kernel

theorem witness_StairsAndConfiguration :
    tState.Free [8] [] ∧ getField (tState.wing (wingOf tState.turn)).stairown (4 * (tState.turn % 16)) 4 = tState.me.tenant ∧
    tState.me.posts.length < 4 ∧ (100#64).toNat < tState.tick - 1 + 64 ∧ tState.tick - 1 + 64 ≤ (9000#64).toNat ∧
    (tState.stair (stairOf 0)).swap = none ∧ (tState.stair (stairOf 0)).swapAt ≠ some tState.tick ∧
    (({ tState with stairs := [(0, { swapAt := some 5000 })] } : State).stair (stairOf 0)).swapAt = some 5000 ∧
    getField (tState.wing 0).stairown 0 4 ≠ (tWith { tRoom with run := some { fetchRun with tenant := 3 } }).me.tenant ∧
    (let s : State := { tState with stairs := [(0, { swap := some (4999, 0) })] }
     (s.stair (stairOf 0)).swap = some (4999, 0) ∧ 4999 ≤ s.tick ∧ s.shadowBusy 0 = false) ∧
    (let m := { tMsg with parts := [{ tPart with place := .shadow 0 }] }
     ({ tState with stairs := [(0, { swap := some (4999, 0) })], agenda := [(5001, .storeAtHome m)] } : State).shadowBusy 0 = true) ∧
    (let s := tWith { tRoom with posts := [(7, 4999)] }
     (s.room 0).posts = (7, 4999) :: [] ∧ 0 < (s.room 0).cqFree) ∧
    tState.Free [8, 6] [] ∧ getField (tState.me.getX 6) 0 5 % 4 = 0 ∧ getField (tState.me.getX 6) 0 5 ≤ 16 ∧
    getField ((tWith { tRoom with x := [(6, 3)] }).me.getX 6) 0 5 % 4 ≠ 0 ∧
    (let s : State := { tState with stairs := [(0, { changes := [(8, 4999, 0)] })] }
     (s.stair 0).changes = (8, 4999, 0) :: [] ∧ 4999 ≤ s.tick ∧ (s.wing 0).cfgBusy = false ∧ (s.stair 0).waypart ≤ 16) ∧
    (let s := tWith { tRoom with hold := .attic 0 }
     let u : State := { s with stairs := [(0, { changes := [(4, 4999, 0)], waypart := 8 })] }
     (u.stair 0).changes = (4, 4999, 0) :: [] ∧ u.atticDue 0 = true ∧ 4 < (u.stair 0).waypart ∧ u.sliceDirty 0 = false ∧
     (u.room 0).hold = .attic 0 ∧
     (let k : Key := { slot := 2, base := 0, lsz := 12, keyq := 500, holder := some 0, since := 4000, buffered := [tMsg] }
      ({ u with wings := [(0, { keys := [k] })] } : State).sliceDirty 0 = true ∧ u.sliceDrains 0 = false) ∧
     (let v : State := { s with stairs := [(0, { changes := [(8, 4999, 0)], waypart := 4 })] }
      v.atticDue 0 = true ∧ (v.stair 0).waypart ≤ 8 ∧ (v.room 0).hold = .attic 0)) ∧
    (({ tState with wings := [(0, { cfgBusy := true })] } : State).wing 0).cfgBusy = true ∧ (tState.wing 0).cfgBusy = false ∧
    ({ tState with rooms := [] } : State).wingRuns 0 (fun _ => true) = false ∧ tState.wingRuns 0 (fun _ => true) = true := by
  refine ⟨⟨rfl, rfl⟩, ?_, ?_, ?_, ?_, ?_, ?_, ?_, ?_, ?_, ?_, ?_, ⟨rfl, rfl⟩, ?_⟩ <;> decide +kernel

/-! ## Witnesses: the bridge, services, reliability -/

theorem witness_BridgeAndMemoryServices :
    ((tget {} tState.grans 5).st = 0 ∧ tState.stale (tState.portAgent 5) 0 = false ∧ tState.stale (tState.portAgent 5) 1 = true) ∧
    (let s : State := { tState with grans := [(5, { st := 1 })] }
     s.stale (s.portAgent 5) 0 = false ∧ (tget {} s.grans 5).st ≠ 0 ∧ 5 ∉ s.snoops) ∧
    (let s : State := { tState with grans := [(5, { st := 1 })], snoops := [5] }
     (tget {} s.grans 5).st ≠ 0 ∧ 5 ∈ s.snoops ∧ s.leasesOver 5 = true ∧ 5 ∉ tState.snoops) ∧
    ({ tState with lend := [(2, 6000)] } : State).leasesOver 5 = false ∧ rangeOf 64 = .hbm ∧
    (0 = tget 0 tState.hall.inc (256 + 1) ∧ 7 ≠ tget 0 tState.hall.inc (256 + 1)) ∧
    tState.waiting = [] ∧ tState.waitAtom = [] ∧ (tState.grans.all fun e => e.2.st ≠ 2) = true ∧
    (let s : State := { tState with hall := { migdst := 65536 } }
     s.hall.migsrc.toNat = 0 ∧ s.hall.migdst.toNat = 65536 ∧ s.hall.migStat = 0 ∧ rangeOf 0 = .hbm ∧ rangeOf 65536 = .hbm) ∧
    (let s : State := { tState with hall := { zfbase := 65536, zfsize := 1 } }
     s.hall.zfbase.toNat = 65536 ∧ s.hall.zfsize.toNat * 65536 = 65536 ∧ s.hall.zfOn = false ∧ rangeOf (65536 + 65536 - 1) = .hbm) ∧
    ({ tState with hall := { migStat := 1 } } : State).hall.migStat = 1 ∧ ({ tState with hall := { zfOn := true } } : State).hall.zfVt ≤ tState.tick := by
  decide +kernel

/-- A host store of two granules to a page that is marked MS, and to one that is not; the line of the tier, in M, of a link that goes
down; a room's request that a scrub discards. -/
theorem witness_BridgeAndMemoryServices_moves :
    ((hostPieces 60 (List.replicate 8 1)).length = 2 ∧ msPage tMs 64 = true ∧ msPage tState 64 = false ∧ tState.movedPa 64 = 64 ∧
      tState.barObjs = [] ∧ ([1, 2] : List Byte) ≠ []) ∧
    (let s : State := { tState with hall := { tierHeld := [(0, some 1)] }, grans := [(granuleOf 0xC000000000040, { st := 2 })] }
     s.waiting = [] ∧ s.waitAtom = [] ∧ (((s.grans.filter fun g => lineOfPort s 0 (g.1 / 2)).filter fun g => g.2.st = 2).map
       fun g => g.1 / 2).eraseDups = [0xC000000000000 / 128] ∧ 0xC000000000000 / 128 < 2 ^ 46) ∧
    (msauRoom (.msauRequest tMsg) = some 0 ∧ tMsg.who ≠ .put) := by decide +kernel

/-- The arguments of `mbWriteReplica` in package 0: index 0, one location, type 0. -/
def tMbArgs : State :=
  { tState with hall := { mbop := 4, mbarg := [(0, 1024), (1, BitVec.ofNat 64 0xE000000000000), (2, 0x200000)] } }

theorem witness_ReliabilityBootAndMailbox :
    partOfKey (2 ^ 54) = none ∧ (partOfKey (2 ^ 53)).isSome = true ∧ tState.detect = none ∧
    (let s : State := { tState with detect := some 4000 }
     s.detect = some 4000 ∧ 4000 < s.tick) ∧
    ((({ tState with rooms := [] } : State).room 0).run = none ∧ (tState.room 0).run = some fetchRun ∧ (tState.room 0).dying = none) ∧
    (State.reset.outOfService = false ∧ State.reset.bootItem = none ∧ State.reset.bootStop = false ∧
      ({ State.reset with boot := 2 } : State).boot = 2 ∧ ({ State.reset with boot := 3, warm := true } : State).warm = true ∧
      State.reset.warm = false ∧ ({ State.reset with boot := 4 } : State).boot = 4) ∧ 1000 ≤ (0xFFFFFFFF#32).toNat ∧
    (let s : State := { tState with tick := 8192, hall := { calNew := [(5, some calOpen)] } }
     s.tick % 4096 = 0 ∧ s.hall.calNew = [(5, some calOpen)]) ∧
    tState.bootStop = false ∧ State.reset.boot = 1 ∧ ({ tState with boot := 5 } : State).boot = 5 ∧ 6 ≤ tState.boot ∧ State.reset.boot < 6 ∧
    (tState.mbArg 0).toNat < 16384 ∧
    (6 ≤ tMbArgs.boot ∧ getField (tMbArgs.mbArg 0) 10 54 = 1 ∧ getField (tMbArgs.mbArg 0) 0 10 < 64 ∧ (mbReplica tMbArgs).isSome = true) ∧
    mbStep tMbArgs.hall.mbop ≠ none ∧ mbStep tState.hall.mbop = none := by
  decide +kernel

/-! ## Witnesses: the machine as a whole -/

/-- A lane of room 0 with an engine code and a word. -/
def tLane (code : Nat) (w : W32) : State :=
  tWith { tRoom with line := some (0, 0#192 ++ w ++ BitVec.ofNat 32 (0xA + 16 * code)) }

theorem tLane_next : LaneComesNext (tLane 1 0x00500093) 0 where
  up := rfl
  booted := rfl
  phase := rfl
  quiet := by rfl
  first := ⟨[], [], rfl, by simp⟩
  noTrap := by decide +kernel
  due := by decide +kernel
  inLine := by decide +kernel

/-- An assigned lane, an empty one, one of an engine and one of the control core that are not assigned, a reserved code. -/
theorem witness_StepRunsTheDecodedLane :
    (LaneComesNext (tLane 1 0x00500093) 0 ∧ ((tLane 1 0x00500093).room 0).curCode = 1 ∧
      decodeLane ((tLane 1 0x00500093).room 0).curCode ((tLane 1 0x00500093).room 0).curWord =
        some (.rvScalarInstruction (.alui .addi 1 0 5))) ∧
    ((tLane 0 0).room 0).curCode = 0 ∧
    (let x := (tLane 1 0xFFFFFFFF).room 0
     x.curCode = 1 ∧ decodeLane x.curCode x.curWord = none) ∧
    (let x := (tLane 2 0xFFFFFFFF).room 0
     x.curCode = 2 ∧ decodeLane x.curCode x.curWord = none) ∧ 7 ≤ ((tLane 9 0).room 0).curCode :=
  ⟨⟨tLane_next, by decide +kernel, by decide +kernel⟩, by decide +kernel, by decide +kernel, by decide +kernel, by decide +kernel⟩

/-- Room 0 enters line 32, in HBM4E, and line 2^48, which does not exist. -/
theorem witness_LinesAreFetched :
    (let s := tWith { tRoom with pc := 36 }
     s.turn = 0 ∧ (s.room 0).inLine = false ∧ 
     (let n := s.needTier (coreCtx 0 (s.room 0) true) (lineAddr (s.room 0).pc)
      okAnd (locate n (coreCtx 0 (s.room 0) true) .fetch (lineAddr (s.room 0).pc))
       (fun l => decide (l.place ≠ .port) && (partFault (n.fillTlb l) (partOf ⟨0, lineAddr (s.room 0).pc, 32⟩ l 0)).isNone) = true)) ∧
    (let s := tWith { tRoom with pc := 0x1000000000000 }
     okAnd (locate (s.needTier (coreCtx 0 (s.room 0) true) (lineAddr (s.room 0).pc)) (coreCtx 0 (s.room 0) true) .fetch (lineAddr (s.room 0).pc))
       (fun _ => true) = false) ∧
    (let s := tWith { tRoom with pc := 36 }
     (window s (coreCtx 0 (s.room 0) true) .fetch (lineAddr (s.room 0).pc)).isNone = true ∧
       partFault { s with poison := [(0, true)] } (partOf ⟨0, 32, 32⟩ ⟨.hbm, 32, false, false, false, false, 0, none⟩ 0) = some 4) ∧
    (let s := tWith { tRoom with pc := 0xFFFF000000004 }
     (window s (coreCtx 0 (s.room 0) true) .fetch (lineAddr (s.room 0).pc)).isNone = true ∧
     okAnd (locate (s.needTier (coreCtx 0 (s.room 0) true) (lineAddr (s.room 0).pc)) (coreCtx 0 (s.room 0) true) .fetch (lineAddr (s.room 0).pc))
       (fun l => decide (l.place = .port)) = true) ∧
    (let s := tWith { tRoom with pc := 0xFFC0000000000004 }
     (window s (coreCtx 0 (s.room 0) true) .fetch (lineAddr (s.room 0).pc)).isSome = true) := by decide +kernel

theorem witness_DecodingUndoesEncoding : (Instr.amoAddMs 10 8 6).WellFormed = true ∧ encode (.amoAddMs 10 8 6) = some 0x0464052B := by
  decide

theorem witness_StepKeepsMemoryCanonical : State.reset.Inv ∧ ∃ t, step State.reset = .next t := ⟨rfl, _, rfl⟩

/-! ## Single steps, with the results of the spec's worked examples and tables -/

/-- A condition on the state after an instruction. -/
def after (i : Instr) (s : State) (p : State → Bool) : Bool := match exec i s with | .next t => p t | _ => false
/-- A condition on the effects of an entry of V after its step. -/
def effs (i : Instr) (x : Room) (p : List Eff → Bool) : Bool :=
  after i { tWith (x.modQueue .v fun q => { q with q := [tEntry i] }) with act := .entry .v } fun t =>
    match (t.me.queue .v).q with | n :: _ => p n.effs | [] => false
/-- Element p of the first vector effect. -/
def elem (l : List Eff) (p : Nat) : Option W32 := l.findSome? fun f => match f with | .v _ _ t => some (tget 0 t p) | _ => none
/-- The values that an entry pushes into the control queue. -/
def pushed (l : List Eff) : List W64 := l.flatMap fun f => match f with | .cq v => v | _ => []
/-- Row i of mask r. -/
def maskOut (l : List Eff) (r i : Nat) : Option W64 :=
  l.findSome? fun f => match f with | .k q m => if q = r then some (maskRow m i) else none | _ => none

/-! The vector engine. -/

/-- v1 holds the bits of −1 in element 0. -/
def tV1 : Room := { tRoom with v := [(1, [(0, 0xFFFFFFFF#32)])] }
theorem test_v_mulh_i : effs (.vMulhI 0 4 1 1 0) tV1 (fun l => elem l 0 = some 0) = true := by decide +kernel
theorem test_v_mulh_c : effs (.vMulhC 0 4 1 1 0) tV1 (fun l => elem l 0 = some 0xFFFFFFFE) = true := by decide +kernel
theorem test_v_sra_takes_five_bits : effs (.vSra 0 4 1 1 0) tV1 (fun l => elem l 0 = some 0xFFFFFFFF) = true := by decide +kernel
theorem test_v_clz_of_zero : effs (.vClz 0 4 1 0) tV1 (fun l => elem l 0 = some 0 && elem l 1 = some 32) = true := by decide +kernel
theorem test_v_movi_sign_extends : effs (.vMovi 0 2 0x1FFF) tRoom (fun l => elem l 1023 = some 0xFFFFFFFF) = true := by decide +kernel
theorem test_v_unpk : effs (.vUnpk 0 5 8 2) { tRoom with v := [(8, [(3, 0x11223344#32)])] } (fun l => elem l 3 = some 0x22) = true := by
  decide +kernel
theorem test_v_rotr_moves_up : effs (.vRotr 0 5 8 3) { tRoom with v := [(8, [(63, 7#32)])] } (fun l => elem l 2 = some 7) = true := by
  decide +kernel

/-- v3 and the result of the row of `v.cvt v4, v3, f32, e4m3, rnes`. -/
theorem test_v_cvt_e4m3_overflow : Fp.convert .f32 .e4m3 1 0x43F00000 = (0x7E, Fp.OF + Fp.NX) := by decide
theorem test_v_cvt_t8 : Fp.convert .t8 .f32 0 0x179 = (0x42C00000, 0) ∧ Fp.convert .f32 .t6 2 0x3F000000 = (0xC, 0) := by decide
theorem test_v_cvt_int8 : Fp.convert .i8 .i32 0 0xFD = (0xFFFFFFFD, 0) ∧ Fp.convert .f32 .i8 2 0xC06CCCCD = (0xFD, Fp.NX) ∧
    Fp.convert .i32 .i8 0 300 = (44, 0) ∧ Fp.convert .i32 .i8 1 300 = (127, Fp.NV) := by decide
theorem test_v_cvt_ties : Fp.convert .f32 .bf16 0 0x3F808000 = (0x3F80, Fp.NX) ∧ Fp.convert .f32 .bf16 0 0x3F818000 = (0x3F82, Fp.NX) := by
  decide
theorem test_v_cvt_f16_overflow : Fp.convert .f32 .f16 0 0x4788B800 = (0x7C00, Fp.OF + Fp.NX) ∧
    Fp.convert .f32 .f16 1 0x4788B800 = (0x7BFF, Fp.OF + Fp.NX) := by decide
theorem test_v_cvt_t8_edges : Fp.convert .f32 .t8 0 0x42C80000 = (0x79, Fp.NX) ∧
    Fp.convert .f32 .t8 0 0x38800000 = (1, Fp.UF + Fp.NX) ∧ Fp.convert .f32 .t8 0 0x80000000 = (0, 0) := by decide

/-- Row 0 of va and vb in the example of `v.isect`, and padding elsewhere. -/
def tRows (l : List W32) : Tile := tileOf (l ++ List.replicate (1024 - l.length) padIdx)
theorem test_v_isect :
    effs (.vIsect 0 1 2 3) { tRoom with v := [(2, tRows [2, 5, 7, 11]), (3, tRows [3, 5, 11, 20])] } (fun l =>
      maskOut l 2 0 = some 10 && maskOut l 3 0 = some 6 && pushed l = [4, 0, 3, 0]) = true := by decide +kernel
/-- Groups 0 to 2 of the example of `v.c24`; the nibble of group 1 at bits [7:4], as the formula of R167 places it (log entry 27). -/
theorem test_v_c24 :
    effs (.vC24 0 8 1 9 0) { tRoom with v := [(1, tileOf [0x40000000, 0xC0000000, 0x3F800000, 0x40000000, 0, 0x80000000, 0x7FA00001,
        0xFFC00000, 0, 0x80000000, 0, 0x80000000])] } (fun l => elem (l.drop 1) 0 = some 0x444444E4 && elem (l.drop 1) 1 = some 0x44444444 &&
      elem l 0 = some 0x40000000 && elem l 1 = some 0xC0000000 && elem l 2 = some 0x7FA00001 && elem l 5 = some 0x80000000) = true := by
  decide +kernel
/-- The row of the example of `v.redr.f`. -/
theorem test_v_redr_sum : tree Fp.add32 6 ([0x41000000, 0xC1000000, 0x3F000000] ++ List.replicate 61 0x80000000) = (0x3F000000, 0) := by
  decide +kernel
/-- The search from element 8 on passes over element 7. -/
theorem test_v_fnd : after (.vFnd 0 5 10 11 5) (let n := { tEntry (.vFnd 0 5 10 11 5) with xa := 9, xb := 8 }
    { tActs .v n with rooms := [(0, { tQueued .v n with v := [(5, [(7, 9#32), (900, 9#32)])] })] })
    (fun t => match (t.me.queue .v).q with | n :: _ => pushed n.effs = [900 + 65536] | [] => false) = true := by decide +kernel
/-- A window of two rows into which the third is pushed drops the first. -/
theorem test_w_push_evicts :
    let w : Win := { op := 1, len := 2 }
    (((w.push (List.replicate 64 1)).1.push (List.replicate 64 2)).1.push (List.replicate 64 4)).1.read = (List.replicate 64 6, 0) := by
  decide +kernel

/-! The control core. -/

/-- The Morton interleave of 5 and 3 (R88). -/
theorem test_bnet_morton : bnetBits (fun j => if j % 2 = 0 then j / 2 else 64 + j / 2) (3#64 ++ 5#64) = 0x1B := by decide +kernel
theorem test_cal_wait_forms : calTarget 100 5000 = 5001 ∧ calTarget 9000 5000 = 9000 ∧ calTarget 0x8000000000000002 5000 = 8320 ∧
    calTarget 0x8000000000000000 4095 = 4096 := by decide
theorem test_cal_now : after (.calNow 10) tState (fun t => t.me.getX 10 = 5000) = true := by decide +kernel
theorem test_x0_discards : after (.calNow 0) tState (fun t => t.me.getX 0 = 0) = true := by decide +kernel
theorem test_rv_addi_wraps : after (.rvScalarInstruction (.alui .addi 5 8 0x800)) tState
    (fun t => t.me.getX 5 = 64 - 2048 && t.me.pc = 8) = true := by decide +kernel
theorem test_rv_div_by_zero : after (.rvScalarInstruction (.alu .div 5 8 0)) tState (fun t => t.me.getX 5 = -1) = true := by decide +kernel
theorem test_rv_branch_counts_lanes : after (.rvScalarInstruction (.branch .beq 0 0 8)) tState (fun t => t.me.pc = 20) = true := by
  decide +kernel
theorem test_ecall_from_s : after (.rvScalarInstruction .ecall) (tWith { tRoom with csr := { mtvec := 0x204 } })
    (fun t => t.me.csr.mcause = 9 && t.me.csr.mepc = 4 && t.me.mode = .m && t.me.pc = 0x204) = true := by decide +kernel
theorem test_mret : after (.xret true) (tWith { tRoom with mode := .m, csr := { mepc := 0x104, mstatus := 0x80 } })
    (fun t => t.me.pc = 0x104 && t.me.mode = .u && t.me.csr.mstatus.getLsbD 3) = true := by decide +kernel
theorem test_job_self : after (.jobSelf 10) tState (fun t => t.me.outs.length = 1 && t.agenda.length = 1) = true := by decide +kernel

/-! Pools, barriers, atomics. -/

/-- The freshest slot is 0, whose tile has sequence number 1 and was committed at 4,000 (R13). -/
theorem test_pr_acq : after (.poolDecision (tReq .acq 0)) tPooled (fun t =>
    match t.agenda with | (5001, .deferredAnswer 0 a) :: _ => a.value = BitVec.ofNat 64 (0 + 256 * 1000 + 2 ^ 40) | _ => false) = true := by
  decide +kernel
/-- A third arrival of two in phase 7. -/
theorem test_bar_arrive_over : ((applyBarrier (tBar .arrive) { tState with mem := [(64, 2), (66, 2), (68, 7)] }).agenda.any fun e =>
    match e.2 with | .deferredAnswer 0 a => a.value = 0x8000000000000007 | _ => false) = true := by decide +kernel
/-- The second arrival of two, with 256 bytes expected and credited, completes phase 7. -/
theorem test_bar_arrive_completes : (applyBarrier (tBar .arrive) { tState with mem := [(64, 2), (66, 1), (68, 7), (73, 1), (81, 1)] }).mem =
    [(64, 2), (68, 8)] := by decide +kernel
theorem test_amo_min_is_signed : msNew .min 5 (2 ^ 64 - 1) 0 = some (2 ^ 64 - 1) ∧ msNew .max 5 (2 ^ 64 - 1) 0 = some 5 := by decide
theorem test_amo_fadd_nan : msNew .fadd 0x7F800000 0xFF800000 0 = some 0x7FC00000 := by decide

/-! Engine loads and stores. -/

/-- `s.row` writes its bytes at their address in the scratchpad and nowhere else. -/
theorem test_store_writes_little_endian : (tState.mem.write 64 4 0x11223344) = [(64, 0x44), (65, 0x33), (66, 0x22), (67, 0x11)] := by decide
theorem test_zero_bytes_are_not_listed : (Memory.write [(64, 1)] 64 2 0) = [] := by decide
theorem test_layout_address : recAddr (tRec 1 64 16 256) 65 0 = 258 := by decide +kernel

end Sys2Proof.Tests
end

section
/-! PROOFS. Mask register k0 (R38), and what an entry that finishes leaves of its room (R16, R33, R109, R288). -/

namespace Sys2Proof.Machine

/-! ## Mask registers -/

/-- Every one of the 1,024 bits of k0 is set. -/
theorem maskBits_fullMask : maskBits fullMask = List.replicate 1024 true := by
  have rows : tdense 0 16 0 fullMask = List.replicate 16 0xFFFFFFFFFFFFFFFF#64 := by decide
  have bits : (List.range 64).map (0xFFFFFFFFFFFFFFFF#64 : W64).getLsbD = List.replicate 64 true := by decide
  rw [maskBits, rows, List.flatMap_replicate, bits, List.flatten_replicate_replicate]

@[simp] theorem getK_zero (x : Room) : x.getK 0 = fullMask := if_pos rfl

theorem maskAt_fullMask {p : Nat} (h : p < 1024) : maskAt fullMask p = true := by
  rw [maskAt, maskBits_fullMask, List.getD_eq_getElem?_getD, List.getElem?_replicate_of_lt h, Option.getD_some]

/-- A write whose destination is k0 leaves the whole room as it was. -/
@[simp] theorem applyEff_k_zero (now : Nat) (x : Room) (m : Mask) : applyEff now x (.k 0 m) = x := rfl

theorem applyEff_k_of_ne_zero (now : Nat) (x : Room) {r : Nat} (m : Mask) (h : r ≠ 0) :
    applyEff now x (.k r m) = { x with k := tset [] x.k r m } := if_neg h

theorem getK_applyEff_same (now : Nat) (x : Room) {r : Nat} (m : Mask) (h : r ≠ 0) :
    (applyEff now x (.k r m)).getK r = m := by
  rw [applyEff_k_of_ne_zero now x m h, Room.getK, if_neg h, tget_tset, if_pos rfl]

theorem getK_applyEff_ne (now : Nat) (x : Room) {r q : Nat} (m : Mask) (h : q ≠ r) :
    (applyEff now x (.k r m)).getK q = x.getK q := by
  by_cases hr : r = 0
  · rw [hr, applyEff_k_zero]
  · rw [applyEff_k_of_ne_zero now x m hr, Room.getK, Room.getK, tget_tset, if_neg h]

/-! ## Pushes and retirements -/

/-- Pushes count up their counters among the pushes of the tick, and change nothing else. -/
theorem Room.pushTokens_eq (x : Room) (l : List Nat) :
    x.pushTokens l = { x with tokS := l.foldl (fun t c => tmod 0 t c (· + 1)) x.tokS } := by
  induction l generalizing x with
  | nil => rfl
  | cons c l ih => exact ih (x.pushToken c)

/-- The pushes of the tick depend on those made before alone. -/
theorem Room.pushTokens_tokS_congr {x y : Room} (h : x.tokS = y.tokS) (l : List Nat) :
    (x.pushTokens l).tokS = (y.pushTokens l).tokS := by
  rw [x.pushTokens_eq, y.pushTokens_eq, h]

/-- Whether an entry can push depends on the counters alone. -/
theorem Room.canPush_congr {x y : Room} (ht : x.tok = y.tok) (hS : x.tokS = y.tokS) (n : Entry) : x.canPush n = y.canPush n := by
  have hcount (c : Nat) : x.tokenCount c = y.tokenCount c := by rw [Room.tokenCount, Room.tokenCount, ht, hS]
  rw [Room.canPush, Room.canPush, funext hcount]

@[simp] theorem Room.modQueue_tok (x : Room) (e : Eng) (f : Queue → Queue) : (x.modQueue e f).tok = x.tok := x.setQueue_tok e _
@[simp] theorem Room.modQueue_tokS (x : Room) (e : Eng) (f : Queue → Queue) : (x.modQueue e f).tokS = x.tokS := x.setQueue_tokS e _
@[simp] theorem Room.queue_modQueue (x : Room) (e : Eng) (f : Queue → Queue) : (x.modQueue e f).queue e = f (x.queue e) :=
  x.queue_setQueue e _

/-- A queue after the retirement of its entry at the position of `n`. -/
def Queue.without (q : Queue) (n : Entry) : Queue :=
  { q with q := q.q.filter fun m => m.qpos ≠ n.qpos, ret := (q.ret + 1) % 2 ^ 32 }

/-- A retirement makes the entry's pushes, takes it out of its queue, and touches no other field but QWMARK (R29, R33). -/
theorem Room.retireEntry_eq (x : Room) (e : Eng) (n : Entry) :
    ∃ w, x.retireEntry e n = { (x.pushTokens n.pushes).modQueue e (·.without n) with qwmark := w } := by
  unfold Room.retireEntry
  dsimp only
  split
  · exact ⟨_, rfl⟩
  · exact ⟨_, rfl⟩

theorem Room.queue_pushTokens (x : Room) (l : List Nat) (e : Eng) : (x.pushTokens l).queue e = x.queue e := by
  rw [Room.pushTokens_eq]; cases e <;> rfl

theorem Room.queue_qwmark (x : Room) (w : W64) (e : Eng) : ({ x with qwmark := w } : Room).queue e = x.queue e := by
  cases e <;> rfl

theorem Room.tokS_retireEntry (x : Room) (e : Eng) (n : Entry) : (x.retireEntry e n).tokS = (x.pushTokens n.pushes).tokS := by
  obtain ⟨w, hw⟩ := x.retireEntry_eq e n
  rw [hw]; exact Room.modQueue_tokS _ e _

theorem Room.queue_retireEntry (x : Room) (e : Eng) (n : Entry) : (x.retireEntry e n).queue e = (x.queue e).without n := by
  obtain ⟨w, hw⟩ := x.retireEntry_eq e n
  rw [hw, Room.queue_qwmark, Room.queue_modQueue, Room.queue_pushTokens]

/-! ## Leaving the queue -/

/-- Two rooms hold the same v and mask registers, new flags, stores under way and horizon. -/
structure Room.SameResults (x y : Room) : Prop where
  v      : x.v = y.v
  k      : x.k = y.k
  vflNew : x.vflNew = y.vflNew
  stores : x.stores = y.stores
  hz     : x.hz = y.hz

theorem Room.SameResults.trans {x y z : Room} (h : x.SameResults y) (g : y.SameResults z) : x.SameResults z :=
  ⟨h.v.trans g.v, h.k.trans g.k, h.vflNew.trans g.vflNew, h.stores.trans g.stores, h.hz.trans g.hz⟩

theorem Room.sameResults_modQueue (x : Room) (e : Eng) (f : Queue → Queue) : (x.modQueue e f).SameResults x := by
  constructor <;> simp [Room.modQueue]

theorem Room.sameResults_retireEntry (x : Room) (e : Eng) (n : Entry) : (x.retireEntry e n).SameResults x := by
  obtain ⟨w, hw⟩ := x.retireEntry_eq e n
  have hq : ((x.pushTokens n.pushes).modQueue e (·.without n)).SameResults (x.pushTokens n.pushes) :=
    Room.sameResults_modQueue _ e _
  rw [x.pushTokens_eq] at hq hw
  rw [hw]
  exact ⟨hq.v, hq.k, hq.vflNew, hq.stores, hq.hz⟩

/-- The last part of a finish at tick `now`: an entry at the head whose counters have room retires, any other stays with its
pushes (R16, R33). -/
def Room.leave (x : Room) (e : Eng) (now : Nat) (n : Entry) : Room :=
  let y := x.modQueue e fun q => { q with lastFin := now }
  if (y.queue e).q.head?.map (·.qpos) = some n.qpos ∧ y.canPush n then y.retireEntry e n else y.setEntry e n

theorem Room.sameResults_leave (x : Room) (e : Eng) (now : Nat) (n : Entry) : (x.leave e now n).SameResults x := by
  refine Room.SameResults.trans ?_ (x.sameResults_modQueue e fun q => { q with lastFin := now })
  unfold Room.leave
  dsimp only
  split
  · exact Room.sameResults_retireEntry _ e n
  · exact Room.sameResults_modQueue _ e _

/-- An entry at the head whose counters have room leaves its queue with its pushes. -/
theorem Room.leave_of_head (x : Room) (e : Eng) (now : Nat) (n : Entry)
    (hhead : (x.queue e).q.head?.map (·.qpos) = some n.qpos) (hpush : x.canPush n = true) :
    (x.leave e now n).tokS = (x.pushTokens n.pushes).tokS ∧
      ((x.leave e now n).queue e).q = (x.queue e).q.filter fun m => m.qpos ≠ n.qpos := by
  have hq : ((x.modQueue e fun q => { q with lastFin := now }).queue e).q = (x.queue e).q := by
    rw [Room.queue_modQueue]
  have hcan : (x.modQueue e fun q => { q with lastFin := now }).canPush n = true := by
    rwa [Room.canPush_congr (x.modQueue_tok e _) (x.modQueue_tokS e _)]
  rw [Room.leave, if_pos ⟨by rwa [hq], hcan⟩]
  refine ⟨?_, ?_⟩
  · rw [Room.tokS_retireEntry, Room.pushTokens_tokS_congr (x.modQueue_tokS e _)]
  · rw [Room.queue_retireEntry, Queue.without, hq]

/-! ## The entry that writes k0 -/

/-- An entry that finishes has its effects, one of L those of what it has loaded. -/
theorem exec_entryFinish {s : State} {r : Nat} {e : Eng} {n : Entry} (h : finishing s r e = some n) :
    exec (.entryFinish r e) s = .next (finishEntry s r e { n with effs := if e = .l then lEffs n else n.effs }) := by
  change execEntryFinish r e s = _
  rw [execEntryFinish, h]
  cases e <;> rfl

/-- The room of an entry that finishes and writes nothing: its stores, its flags, its place in the queue. `finishEntry_k_zero`
ties it to the model. -/
def Room.finishPlain (x : Room) (e : Eng) (now : Nat) (n : Entry) : Room :=
  ((x.coverStores n).orVflags e n.flags).leave e now { n with pushWait := true, effs := [], sent := [] }

/-- An entry whose one effect is a write of k0 finishes as one that writes nothing. -/
theorem finishEntry_k_zero (s : State) (r : Nat) (e : Eng) (n : Entry) (m : Mask) :
    finishEntry s r e { n with effs := [.k 0 m] } = s.modRoom r fun x => x.finishPlain e s.tick n := rfl

/-- Such an entry leaves every v and mask register; its flags join the tick's, its stores the room's horizon. -/
theorem Room.finishPlain_results (x : Room) (e : Eng) (now : Nat) (n : Entry) :
    (x.finishPlain e now n).SameResults { x with
      vflNew := x.vflNew ||| (BitVec.ofNat 64 (n.flags % 32) <<< vflShift e), stores := x.stores ++ n.sent, hz := max x.hz n.vt } :=
  Room.sameResults_leave _ e now _

/-- At the head, with its counters below 31, it makes its pushes and leaves its queue. -/
theorem Room.finishPlain_of_head (x : Room) (e : Eng) (now : Nat) (n : Entry)
    (hhead : (x.queue e).q.head?.map (·.qpos) = some n.qpos) (hpush : x.canPush n = true) :
    (x.finishPlain e now n).tokS = (x.pushTokens n.pushes).tokS ∧
      ((x.finishPlain e now n).queue e).q = (x.queue e).q.filter fun m => m.qpos ≠ n.qpos := by
  have hq : ((x.coverStores n).orVflags e n.flags).queue e = x.queue e := by cases e <;> rfl
  obtain ⟨htok, hleft⟩ := Room.leave_of_head ((x.coverStores n).orVflags e n.flags) e now
    { n with pushWait := true, effs := [], sent := [] } (by rwa [hq]) hpush
  have hpushes : (((x.coverStores n).orVflags e n.flags).pushTokens n.pushes).tokS = (x.pushTokens n.pushes).tokS :=
    Room.pushTokens_tokS_congr (show ((x.coverStores n).orVflags e n.flags).tokS = x.tokS from rfl) _
  rw [hq] at hleft
  exact ⟨htok.trans hpushes, hleft⟩

/-- Settles O10: k0 is not stored, so it reads as all ones and a write of it is the identity on the room; an entry with that one
effect then finishes as one that writes nothing. -/
theorem maskRegisterZeroStaysAllOnes : Obligations.MaskRegisterZeroStaysAllOnes := by
  refine ⟨fun x p hp => ?_, fun now x m => ⟨applyEff_k_zero now x m, fun r hr => ?_⟩, fun s r e n m hfin heffs => ?_⟩
  · rw [getK_zero]; exact maskAt_fullMask hp
  · exact ⟨getK_applyEff_same now x m hr, fun q hq => getK_applyEff_ne now x m hq⟩
  · have hroom : ((s.modRoom r fun x => x.finishPlain e s.tick n).room r) = (s.room r).finishPlain e s.tick n :=
      room_modRoom s r _
    have hsame := (s.room r).finishPlain_results e s.tick n
    refine ⟨s.modRoom r fun x => x.finishPlain e s.tick n, ?_, ?_⟩
    · rw [exec_entryFinish hfin, heffs, finishEntry_k_zero]
    · rw [hroom]
      refine ⟨hsame.k, hsame.v, State.modRoom_mem s r _, hsame.vflNew, hsame.stores, hsame.hz, fun ⟨hhead, hpush⟩ => ?_⟩
      obtain ⟨htok, hleft⟩ := (s.room r).finishPlain_of_head e s.tick n hhead hpush
      exact ⟨htok, congrArg (List.map (·.qpos)) hleft⟩

end Sys2Proof.Machine
end

section
/-! PROOFS. Rotates and the 16 × 16 transposition of the vector engine (R159, R163). -/

namespace Sys2Proof.Machine

/-! ## A V lane whose entry takes its step -/

/-- A V lane computes its effect from the room as its entry finds it. -/
theorem vLane_of_acts {s : State} {n : Entry} (h : Acts s .v n) {i : Instr} {lane : Lane} (hlane : laneOf i = some lane)
    (heng : lane.eng = .v) (f : Room → Entry → VOut) :
    vLane i f s = .next (vAct lane (f s.me n) n { s with act := .lane }) := by
  obtain ⟨hact, hacting⟩ := h
  have hturn : actsFor lane.eng s = true := by rw [heng, actsFor, hact]; rfl
  rw [vLane, engLane, hlane]
  dsimp only
  rw [if_pos hturn, heng, hacting]
  rfl

/-! ## The elements of a tile -/

theorem length_tdense {α : Type} (d : α) (n i : Nat) (t : Tbl α) : (tdense d n i t).length = n := by
  induction n generalizing i t with
  | zero => rfl
  | succ n ih =>
    cases t with
    | nil => rw [tdense, List.length_cons, ih]
    | cons e t =>
      rw [tdense]
      split <;> rw [List.length_cons, ih]

@[simp] theorem length_elems (t : Tile) : (elems t).length = 1024 := length_tdense 0 1024 0 t

/-! ## Grids: lists of rows of one length -/

/-- A list of `h` rows of `w` elements each. -/
def IsGrid {α : Type} (h w : Nat) (rows : List (List α)) : Prop := rows.length = h ∧ ∀ r ∈ rows, r.length = w

theorem IsGrid.length_flatten {α : Type} {h w : Nat} {rows : List (List α)} (hg : IsGrid h w rows) :
    rows.flatten.length = h * w := by
  obtain ⟨hlen, hrow⟩ := hg
  rw [List.length_flatten, List.map_congr_left hrow, List.map_const', List.sum_replicate_nat, hlen]

/-- Row-major order: element (i, j) stands at place w i + j. -/
theorem IsGrid.getD_flatten {α : Type} {h w : Nat} {rows : List (List α)} (hg : IsGrid h w rows) (i : Nat) {j : Nat} (hj : j < w)
    (d : α) : rows.flatten.getD (w * i + j) d = (rows.getD i []).getD j d := by
  obtain ⟨-, hrow⟩ := hg
  induction rows generalizing i with
  | nil => rfl
  | cons r rows ih =>
    have hr : r.length = w := hrow r List.mem_cons_self
    rw [List.flatten_cons]
    cases i with
    | zero =>
      rw [Nat.mul_zero, Nat.zero_add, List.getD_eq_getElem?_getD, List.getElem?_append_left (by omega), List.getD_cons_zero,
        List.getD_eq_getElem?_getD]
    | succ i =>
      have hplace : w * (i + 1) + j - r.length = w * i + j := by rw [hr, Nat.mul_succ]; omega
      rw [List.getD_eq_getElem?_getD, List.getElem?_append_right (by rw [hr, Nat.mul_succ]; omega), hplace,
        ← List.getD_eq_getElem?_getD, List.getD_cons_succ]
      exact ih i fun q hq => hrow q (List.mem_cons_of_mem r hq)

/-- Rows that a function makes of numbers. -/
theorem isGrid_map_range {α : Type} {h w : Nat} {f : Nat → List α} (hf : ∀ i < h, (f i).length = w) :
    IsGrid h w ((List.range h).map f) := by
  refine ⟨by rw [List.length_map, List.length_range], fun r hr => ?_⟩
  obtain ⟨i, hi, rfl⟩ := List.mem_map.mp hr
  exact hf i (List.mem_range.mp hi)

theorem getD_map_range {α : Type} {n i : Nat} (f : Nat → α) (hi : i < n) (d : α) : ((List.range n).map f).getD i d = f i := by
  rw [List.getD_eq_getElem?_getD, List.getElem?_map, List.getElem?_range hi]; rfl

/-- An element of a mapped list, where the function takes one default to the other. -/
theorem getD_map_of_default {α β : Type} (f : α → β) {d : α} {e : β} (hf : f d = e) (l : List α) (i : Nat) :
    (l.map f).getD i e = f (l.getD i d) := by
  rw [List.getD_eq_getElem?_getD, List.getElem?_map, ← hf, Option.getD_map, List.getD_eq_getElem?_getD]

/-- A column of a grid: the elements of one index in each row. -/
theorem getD_columns {n j : Nat} (hj : j < n) (rows : List (List W32)) :
    (columns n rows).getD j [] = rows.map fun r => r.getD j 0 := getD_map_range _ hj []

/-! ## The 16 rows of 64 -/

theorem isGrid_rows64 {l : List W32} (hl : l.length = 1024) : IsGrid 16 64 (rows64 l) :=
  isGrid_map_range fun i hi => by rw [List.length_take, List.length_drop]; omega

theorem getD_rows64 (l : List W32) {i j : Nat} (hi : i < 16) (hj : j < 64) :
    ((rows64 l).getD i []).getD j 0 = l.getD (64 * i + j) 0 := by
  rw [rows64, getD_map_range _ hi]
  simp [List.getD_eq_getElem?_getD, List.getElem?_take_of_lt hj]

/-- Two lists of 1,024 elements are equal when they agree at every row and column. -/
theorem ext_rows64 {l m : List W32} (hl : l.length = 1024) (hm : m.length = 1024)
    (h : ∀ i j, i < 16 → j < 64 → l.getD (64 * i + j) 0 = m.getD (64 * i + j) 0) : l = m := by
  refine List.ext_getElem (hl.trans hm.symm) fun p hp hp' => ?_
  have hplace : 64 * (p / 64) + p % 64 = p := Nat.div_add_mod p 64
  have heq := h (p / 64) (p % 64) (by omega) (Nat.mod_lt p (by decide))
  rwa [hplace, ← List.getElem_eq_getD (h := hp), ← List.getElem_eq_getD (h := hp')] at heq

theorem flatten_rows64 {l : List W32} (hl : l.length = 1024) : (rows64 l).flatten = l :=
  ext_rows64 (isGrid_rows64 hl).length_flatten hl fun i _ hi hj => by
    rw [(isGrid_rows64 hl).getD_flatten i hj, getD_rows64 l hi hj]

/-! ## Rotates (R159) -/

@[simp] theorem rotUp_zero {α : Type} (l : List α) : rotUp l 0 = l := by
  rw [rotUp, Nat.sub_zero, List.drop_length, List.nil_append, List.take_length]

@[simp] theorem length_rotUp {α : Type} (l : List α) (k : Nat) : (rotUp l k).length = l.length := by
  rw [rotUp, List.length_append, List.length_drop, List.length_take]; omega

theorem mem_of_mem_rotUp {α : Type} {l : List α} {k : Nat} {a : α} (h : a ∈ rotUp l k) : a ∈ l :=
  (List.mem_append.mp h).elim List.mem_of_mem_drop List.mem_of_mem_take

/-- The element at place j comes to place j + k, cyclically: the last k come first, the others k places up. -/
theorem getD_rotUp {α : Type} {l : List α} {j k : Nat} (hj : j < l.length) (hk : k ≤ l.length) (d : α) :
    (rotUp l k).getD ((j + k) % l.length) d = l.getD j d := by
  have hdrop : (l.drop (l.length - k)).length = k := by rw [List.length_drop]; omega
  rw [rotUp, List.getD_eq_getElem?_getD, List.getD_eq_getElem?_getD]
  by_cases hwrap : l.length ≤ j + k
  · have hplace : (j + k) % l.length = j + k - l.length := by rw [Nat.mod_eq_sub_mod hwrap, Nat.mod_eq_of_lt (by omega)]
    rw [hplace, List.getElem?_append_left (by omega), List.getElem?_drop,
      show l.length - k + (j + k - l.length) = j by omega]
  · rw [Nat.mod_eq_of_lt (by omega), List.getElem?_append_right (by omega), hdrop, Nat.add_sub_cancel,
      List.getElem?_take_of_lt (by omega)]

theorem IsGrid.map_rotUp {α : Type} {h w : Nat} {rows : List (List α)} (hg : IsGrid h w rows) (k : Nat) :
    IsGrid h w (rows.map fun r => rotUp r k) := by
  obtain ⟨hlen, hrow⟩ := hg
  refine ⟨by rw [List.length_map, hlen], fun r hr => ?_⟩
  obtain ⟨q, hq, rfl⟩ := List.mem_map.mp hr
  rw [length_rotUp, hrow q hq]

theorem IsGrid.rotUp {α : Type} {h w : Nat} {rows : List (List α)} (hg : IsGrid h w rows) (k : Nat) :
    IsGrid h w (rotUp rows k) := by
  obtain ⟨hlen, hrow⟩ := hg
  refine ⟨by rw [length_rotUp, hlen], fun r hr => hrow r (mem_of_mem_rotUp hr)⟩

/-- What `v.rotr` by k makes of the elements of its source; `exec_vRotr` ties it to the model. -/
def rotColumns (k : Nat) (l : List W32) : List W32 := ((rows64 l).map fun r => rotUp r k).flatten
/-- What `v.rotc` by k makes of them; `exec_vRotc` ties it to the model. -/
def rotRows (k : Nat) (l : List W32) : List W32 := (rotUp (rows64 l) k).flatten

theorem exec_vRotr {s : State} {n : Entry} (h : Acts s .v n) (sy : BitVec 6) (vd va : Reg) (c : BitVec 6) :
    exec (.vRotr sy vd va c) s = .next (vAct (va1 sy vd va 1 2)
      { effs := [destEff vd fullMask (rotColumns c.toNat (elems (srcTile s.me n va)))] } n { s with act := .lane }) := by
  change execVRotr sy vd va c s = _
  rw [execVRotr, vLane_of_acts h rfl rfl]
  rfl

theorem exec_vRotc {s : State} {n : Entry} (h : Acts s .v n) (sy : BitVec 6) (vd va : Reg) (c : BitVec 6) :
    exec (.vRotc sy vd va c) s = .next (vAct (va1 sy vd va 1 5)
      { effs := [destEff vd fullMask (rotRows c.toNat (elems (srcTile s.me n va)))] } n { s with act := .lane }) := by
  change execVRotc sy vd va c s = _
  rw [execVRotc, vLane_of_acts h rfl rfl]
  rfl

section
variable {l : List W32} (hl : l.length = 1024)
include hl

theorem length_rotColumns (k : Nat) : (rotColumns k l).length = 1024 := ((isGrid_rows64 hl).map_rotUp k).length_flatten

theorem length_rotRows (k : Nat) : (rotRows k l).length = 1024 := ((isGrid_rows64 hl).rotUp k).length_flatten

theorem rotColumns_zero : rotColumns 0 l = l := by
  rw [rotColumns, List.map_congr_left fun r _ => rotUp_zero r, List.map_id', flatten_rows64 hl]

theorem rotRows_zero : rotRows 0 l = l := by rw [rotRows, rotUp_zero, flatten_rows64 hl]

theorem getD_rotColumns {i j k : Nat} (hi : i < 16) (hj : j < 64) (hk : k ≤ 64) :
    (rotColumns k l).getD (64 * i + (j + k) % 64) 0 = l.getD (64 * i + j) 0 := by
  obtain ⟨hlen, hrow⟩ := isGrid_rows64 hl
  have hr : ((rows64 l).getD i []).length = 64 := by
    rw [← List.getElem_eq_getD (h := by omega)]; exact hrow _ (List.getElem_mem _)
  have hmap : ((rows64 l).map fun r => rotUp r k).getD i [] = rotUp ((rows64 l).getD i []) k :=
    getD_map_of_default (fun r => rotUp r k) (List.eq_nil_of_length_eq_zero (length_rotUp [] k)) _ i
  have hmove := getD_rotUp (l := (rows64 l).getD i []) (j := j) (k := k) (by rwa [hr]) (by rwa [hr]) 0
  rw [hr] at hmove
  rw [rotColumns, ((isGrid_rows64 hl).map_rotUp k).getD_flatten i (Nat.mod_lt _ (by decide)), hmap, hmove, getD_rows64 l hi hj]

theorem getD_rotRows {i j k : Nat} (hi : i < 16) (hj : j < 64) (hk : k ≤ 16) :
    (rotRows k l).getD (64 * ((i + k) % 16) + j) 0 = l.getD (64 * i + j) 0 := by
  have hlen : (rows64 l).length = 16 := (isGrid_rows64 hl).1
  have hmove := getD_rotUp (l := rows64 l) (j := i) (k := k) (by rwa [hlen]) (by rwa [hlen]) []
  rw [hlen] at hmove
  rw [rotRows, ((isGrid_rows64 hl).rotUp k).getD_flatten _ hj, hmove, getD_rows64 l hi hj]

end

/-! ## The transposition of the 16 × 16 blocks (R163) -/

/-- Row i of the four transposed blocks of a list of rows, side by side. -/
def tr16Row (rows : List (List W32)) (i : Nat) : List W32 :=
  ((List.range 4).map fun b => (columns 16 (rows.map fun r => (r.drop (16 * b)).take 16)).getD i []).flatten
/-- What `v.tr16` makes of the elements of its source; `exec_vTr16` ties it to the model. -/
def tr16 (l : List W32) : List W32 := ((List.range 16).map (tr16Row (rows64 l))).flatten

theorem exec_vTr16 {s : State} {n : Entry} (h : Acts s .v n) (sy : BitVec 6) (vd va : Reg) :
    exec (.vTr16 sy vd va) s = .next (vAct (va1 sy vd va 2 6)
      { effs := [destEff vd fullMask (tr16 (elems (srcTile s.me n va)))] } n { s with act := .lane }) := by
  change execVTr16 sy vd va s = _
  rw [execVTr16, vLane_of_acts h rfl rfl]
  rfl

/-- Row i of block b transposed is column 16 b + i. -/
theorem getD_columns_block {i : Nat} (hi : i < 16) (b : Nat) (rows : List (List W32)) :
    (columns 16 (rows.map fun r => (r.drop (16 * b)).take 16)).getD i [] = rows.map fun r => r.getD (16 * b + i) 0 := by
  rw [getD_columns hi, List.map_map]
  refine List.map_congr_left fun r _ => ?_
  simp [List.getD_eq_getElem?_getD, List.getElem?_take_of_lt hi]

theorem tr16Row_eq {i : Nat} (hi : i < 16) (rows : List (List W32)) :
    tr16Row rows i = ((List.range 4).map fun b => rows.map fun r => r.getD (16 * b + i) 0).flatten := by
  rw [tr16Row, List.map_congr_left fun b _ => getD_columns_block hi b rows]

section
variable {l : List W32} (hl : l.length = 1024)
include hl

/-- The four columns that make row i of the result have 16 elements each. -/
theorem isGrid_tr16Row (i : Nat) :
    IsGrid 4 16 ((List.range 4).map fun b => (rows64 l).map fun r => r.getD (16 * b + i) 0) :=
  isGrid_map_range fun _ _ => by rw [List.length_map]; exact (isGrid_rows64 hl).1

theorem isGrid_tr16 : IsGrid 16 64 ((List.range 16).map (tr16Row (rows64 l))) :=
  isGrid_map_range fun i hi => by rw [tr16Row_eq hi]; exact (isGrid_tr16Row hl i).length_flatten

theorem length_tr16 : (tr16 l).length = 1024 := (isGrid_tr16 hl).length_flatten

theorem getD_tr16 {b i c : Nat} (hb : b < 4) (hi : i < 16) (hc : c < 16) :
    (tr16 l).getD (64 * i + (16 * b + c)) 0 = l.getD (64 * c + (16 * b + i)) 0 := by
  have hcol : ((rows64 l).map fun r => r.getD (16 * b + i) 0).getD c 0 = ((rows64 l).getD c []).getD (16 * b + i) 0 :=
    getD_map_of_default (fun r : List W32 => r.getD (16 * b + i) 0) List.getD_nil _ c
  rw [tr16, (isGrid_tr16 hl).getD_flatten i (by omega), getD_map_range _ hi, tr16Row_eq hi,
    (isGrid_tr16Row hl i).getD_flatten b hc, getD_map_range _ hb, hcol, getD_rows64 l hc (by omega)]

/-- Applied twice it restores the source: element (i, 16 b + c) comes back from (c, 16 b + i). -/
theorem tr16_tr16 : tr16 (tr16 l) = l := by
  refine ext_rows64 (length_tr16 (length_tr16 hl)) hl fun i j hi hj => ?_
  have hb : j / 16 < 4 := by omega
  have hc : j % 16 < 16 := Nat.mod_lt j (by decide)
  rw [← Nat.div_add_mod j 16, getD_tr16 (length_tr16 hl) hb hi hc, getD_tr16 hl hb hc hi]

end

/-- Settles O5: the model's row-major lists are 16 rows of 64, in which a rotate is a cyclic move of each row or of the rows, and
`v.tr16` an exchange of row and column within each block. -/
theorem rotatesAndTranspositionMoveElements : Obligations.RotatesAndTranspositionMoveElements := by
  intro s n sy vd va hacts
  have hl : (elems (srcTile s.me n va)).length = 1024 := length_elems _
  refine ⟨fun c => ⟨_, _, rfl, length_rotColumns hl c.toNat, ?_, ?_, exec_vRotr hacts sy vd va c⟩,
    fun c hwf => ⟨_, _, rfl, length_rotRows hl c.toNat, ?_, ?_, exec_vRotc hacts sy vd va c⟩,
    ⟨_, _, rfl, length_tr16 hl, ?_, exec_vTr16 hacts sy vd va, ?_⟩⟩
  · exact fun i j hi hj => getD_rotColumns hl hi hj (Nat.le_of_lt c.isLt)
  · rintro rfl
    exact rotColumns_zero hl
  · obtain ⟨-, hc⟩ := Bool.and_eq_true_iff.mp (show (clsVd vd && decide (c.toNat < 16)) = true from hwf)
    exact fun i j hi hj => getD_rotRows hl hi hj (Nat.le_of_lt (of_decide_eq_true hc))
  · rintro rfl
    exact rotRows_zero hl
  · exact fun b i c hb hi hc => getD_tr16 hl hb hi hc
  · intro u m vb hu hsrc
    refine ⟨_, rfl, ?_⟩
    rw [exec_vTr16 hu, hsrc, tr16_tr16 hl]

end Sys2Proof.Machine
end
